-- ==== Sys2Proof/Word.lean ====
section
/-! DEFINITION. The word types of the Hormir: bytes, 16-, 32- and 64-bit patterns, the 32 lanes of a wave and lane masks
(02 R30, 04 R81, R86). -/

namespace Sys2Proof

abbrev Byte := BitVec 8
abbrev Half := BitVec 16
abbrev Word := BitVec 32
abbrev DWord := BitVec 64

/-- A lane of a wave, 0 to 31 (R30). -/
abbrev Lane := Fin 32

/-- One value for each lane of a wave. -/
abbrev Lanes (α : Type) := Vector α 32

/-- A set of lanes of a wave, bit L for lane L (`em`, the exited set, a split's membership). -/
abbrev Mask := BitVec 32

/-- A 57-bit virtual address of `.gm`, or a PC (R68, R202), kept as a natural number. -/
abbrev VAddr := Nat

end Sys2Proof
end

