-- ==== Sys2Proof/Syntax.lean ====
section
/-! DEFINITION. The steps of the Hormir as syntax: the front instructions (03 R73), the stack-core instructions (03 R77) and
the moves of the device, its controllers and its host (spec/opcode_table.json rows READ_MOVE to PORT_BRING_UP). One
constructor of `Instr` for each row of the opcode table. -/

namespace Sys2Proof

/-- The number of a register field: a `g`, `s`, `q` or `t` number as the 8-bit field holds it (R55, R57). -/
abbrev Reg := BitVec 8
/-- A predicate number 0 to 7 (R57). -/
abbrev PReg := BitVec 3

/-- The guard fields PG and PN (R55, R61). -/
structure Guard where
  pg : PReg
  pn : Bool
  deriving DecidableEq, Repr, Inhabited

/-- No guard: PG = 7, PN = 0 (R11). -/
def Guard.always : Guard := ⟨7, false⟩

inductive IntTy | s32 | z32 | s64 | z64
  deriving DecidableEq, Repr, Inhabited
inductive FltTy | f16 | bf16 | f32 | f64
  deriving DecidableEq, Repr, Inhabited
/-- The types 0 to 8 of R56, which `cvt` names (R135). -/
inductive Ty | s32 | z32 | s64 | z64 | f16 | bf16 | f32 | f64 | f8e4
  deriving DecidableEq, Repr, Inhabited
/-- Integer or floating, for the types of `lred`, `lscan` and `atom` (R142, R238). -/
inductive NumTy | i (t : IntTy) | f (t : FltTy)
  deriving DecidableEq, Repr, Inhabited
/-- Rounding codes RM 0 to 3 (R56, R102). -/
inductive Rm | rne | rz | rp | rm
  deriving DecidableEq, Repr, Inhabited
/-- Scope codes 0 to 5 (R56). -/
inductive Scope | wave | block | cluster | die | device | system
  deriving DecidableEq, Repr, Inhabited
/-- The five address spaces (R191, R230). -/
inductive Space | gm | lp | sp | cl | ds
  deriving DecidableEq, Repr, Inhabited

/-- A B operand (R11, R57 to R60): general, uniform, immediate, or a word of a constant window. -/
inductive SrcB
  | g (r : Reg) | s (r : Reg) | imm (v : Word) | cw (win : BitVec 3) (off : BitVec 17)
  deriving DecidableEq, Repr, Inhabited
/-- A C operand, or a B operand that is general or uniform only. -/
inductive SrcC | g (r : Reg) | s (r : Reg)
  deriving DecidableEq, Repr, Inhabited
/-- A B operand that is uniform or immediate only. -/
inductive SrcU | s (r : Reg) | imm (v : Word)
  deriving DecidableEq, Repr, Inhabited
/-- A vertex operand (R254, R256): general pair, uniform pair, or immediate. -/
inductive SrcV | g (r : Reg) | s (r : Reg) | imm (v : Word)
  deriving DecidableEq, Repr, Inhabited

/-- A branch immediate (R72): slot in IMM[2:0], signed displacement in lines in IMM[31:3]. -/
structure BrImm where
  slot : BitVec 3
  lines : BitVec 29
  deriving DecidableEq, Repr, Inhabited

/-- The else entry of a three-operand `bdiv` (R128): lines forward in B, slot in C[2:0]. -/
structure ElseRef where
  lines : BitVec 8
  slot : BitVec 3
  deriving DecidableEq, Repr, Inhabited

/-! Operand groups of classes 1 to 4. `u` is the U bit of R124. -/

structure IntBin where
  ty : IntTy
  u : Bool
  d : Reg
  a : Reg
  b : SrcB
  deriving DecidableEq, Repr, Inhabited
structure IntUn where
  ty : IntTy
  u : Bool
  d : Reg
  a : Reg
  deriving DecidableEq, Repr, Inhabited
structure FltBin where
  ty : FltTy
  u : Bool
  d : Reg
  a : Reg
  b : SrcB
  deriving DecidableEq, Repr, Inhabited
structure FltUn where
  ty : FltTy
  u : Bool
  d : Reg
  a : Reg
  deriving DecidableEq, Repr, Inhabited
/-- `lea` (R132): the index is sign-extended with `sx`. -/
structure LeaOp where
  sx : Bool
  sh : BitVec 3
  u : Bool
  d : Reg
  a : Reg
  b : SrcB
  deriving DecidableEq, Repr, Inhabited
structure CvtOp where
  td : Ty
  ts : Ty
  rm : Rm
  u : Bool
  d : Reg
  a : Reg
  deriving DecidableEq, Repr, Inhabited
/-- `pk4x upk4x pk6 upk6` (R136). -/
structure PackOp where
  rm : Rm
  d : Reg
  a : Reg
  b : SrcB
  deriving DecidableEq, Repr, Inhabited
/-- The float types of `fclass` and `fcmp` (R137, R138). -/
inductive FTy5 | f16 | bf16 | f32 | f64 | f8e4
  deriving DecidableEq, Repr, Inhabited
/-- Comparison codes 0 to 7 (R138). -/
inductive Cc | eq | ne | lt | le | gt | ge | ord | uno
  deriving DecidableEq, Repr, Inhabited
structure IcmpOp where
  cc : Cc
  ty : IntTy
  d : PReg
  a : Reg
  b : SrcB
  deriving DecidableEq, Repr, Inhabited
structure FcmpOp where
  cc : Cc
  ty : FTy5
  d : PReg
  a : Reg
  b : SrcB
  deriving DecidableEq, Repr, Inhabited
inductive PmovOp | toP (d : PReg) (a : Reg) | toG (d : Reg) (a : PReg)
  deriving DecidableEq, Repr, Inhabited
inductive VoteKind | all | any | uni
  deriving DecidableEq, Repr, Inhabited
inductive ShflMode | idx | up | down | xor
  deriving DecidableEq, Repr, Inhabited
inductive RedKind | add | min | max | and | or | xor
  deriving DecidableEq, Repr, Inhabited
structure ShflOp where
  mode : ShflMode
  wide : Bool
  d : Reg
  a : Reg
  b : SrcB
  deriving DecidableEq, Repr, Inhabited
structure RedOp where
  op : RedKind
  ty : NumTy
  rm : Rm
  d : Reg
  a : Reg
  deriving DecidableEq, Repr, Inhabited

/-! Operand groups of classes 5 and 6 (R230, R232 to R237). -/

/-- SZ of R230: the width of the type, `.b8` or `.b16`. -/
inductive Sz | full | b8 | b16
  deriving DecidableEq, Repr, Inhabited
/-- CNT of R230: 1, 2, 4 or 8 elements. -/
inductive Cnt | x1 | x2 | x4 | x8
  deriving DecidableEq, Repr, Inhabited
structure LdOp where
  sp : Space
  acq : Option Scope
  nl1 : Bool
  sz : Sz
  ty : IntTy
  d : Reg
  a : Reg
  off : Word
  deriving DecidableEq, Repr, Inhabited
structure StOp where
  sp : Space
  rel : Option Scope
  sz : Sz
  ty : IntTy
  a : Reg
  b : SrcC
  off : Word
  deriving DecidableEq, Repr, Inhabited
structure LdqOp where
  sp : Space
  nl1 : Bool
  d : Reg
  a : Reg
  off : Word
  deriving DecidableEq, Repr, Inhabited
structure StqOp where
  sp : Space
  a : Reg
  b : Reg
  off : Word
  deriving DecidableEq, Repr, Inhabited
structure LdfOp where
  cnt : Cnt
  nl1 : Bool
  d : Reg
  a : Reg
  c : SrcC
  off : Word
  deriving DecidableEq, Repr, Inhabited
structure StfOp where
  cnt : Cnt
  rm : Rm
  a : Reg
  b : Reg
  c : SrcC
  off : Word
  deriving DecidableEq, Repr, Inhabited
/-- ORD of class 6 (R237). -/
inductive Ord6 | none | acq | rel | ar
  deriving DecidableEq, Repr, Inhabited
/-- AOP 0 to 7 (R238). -/
inductive Aop | add | min | max | and | or | xor | exch | inc
  deriving DecidableEq, Repr, Inhabited
structure AtomOp where
  aop : Aop
  ord : Ord6
  sp : Space
  ty : NumTy
  sc : Scope
  d : Reg
  a : Reg
  b : SrcC
  off : Word
  deriving DecidableEq, Repr, Inhabited
structure CasOp where
  ord : Ord6
  sp : Space
  ty : IntTy
  sc : Scope
  d : Reg
  a : Reg
  b : SrcC
  off : Word
  deriving DecidableEq, Repr, Inhabited
inductive FenceKind | acq | rel | ar
  deriving DecidableEq, Repr, Inhabited
/-- `cwb`, `cflush` (R242): base pair, length, offset. -/
structure CacheOp where
  a : Reg
  b : SrcC
  off : Word
  deriving DecidableEq, Repr, Inhabited

/-! Operand groups of classes 7 and 8 (R245, R294, R148). -/

inductive Conv | raw | dec | enc
  deriving DecidableEq, Repr, Inhabited
/-- A space a streamer copy may name: codes 0, 2, 3, 4 of R230 (R245). -/
structure CpyOp where
  conv : Conv
  dsp : Space
  ssp : Space
  d : Reg
  a : Reg
  len : SrcU
  c : Reg
  deriving DecidableEq, Repr, Inhabited
structure CpywOp where
  ssp : Space
  d : Reg
  a : Reg
  b : Reg
  c : Reg
  deriving DecidableEq, Repr, Inhabited
structure GathOp where
  dsp : Space
  ssp : Space
  d : Reg
  a : Reg
  b : Reg
  c : Reg
  n : BitVec 16
  es : BitVec 3
  deriving DecidableEq, Repr, Inhabited
/-- SF of R148: the format of scratchpad operands. -/
inductive Sf | bf16 | f16 | f8e4
  deriving DecidableEq, Repr, Inhabited
/-- AF of R146. -/
inductive Af | f32 | s32 | f16
  deriving DecidableEq, Repr, Inhabited
/-- `mma` and `mlut`: `spc` holds the scratchpad format with `.sp`. -/
structure MmaOp where
  t : Reg
  a : Reg
  b : Reg
  offA : Half
  offB : Half
  spc : Option Sf
  deriving DecidableEq, Repr, Inhabited
structure MldOp where
  t : Reg
  a : Reg
  off : Word
  spc : Bool
  af : Af
  deriving DecidableEq, Repr, Inhabited
structure MstOp where
  t : Reg
  a : Reg
  off : Word
  spc : Bool
  deriving DecidableEq, Repr, Inhabited

/-! Operand groups of class 9 (R256). `inl` is DIR, the in-list. -/

structure GmutOp where
  d : Reg
  h : Reg
  u : SrcC
  v : SrcC
  w : Reg
  pr : PReg
  deriving DecidableEq, Repr, Inhabited
structure GdelOp where
  d : Reg
  h : Reg
  u : SrcC
  v : SrcC
  pr : PReg
  deriving DecidableEq, Repr, Inhabited
structure GdegOp where
  inl : Bool
  d : Reg
  h : Reg
  u : SrcV
  pr : PReg
  deriving DecidableEq, Repr, Inhabited
structure GldOp where
  inl : Bool
  d : Reg
  h : Reg
  u : SrcV
  rank : SrcC
  pr : PReg
  deriving DecidableEq, Repr, Inhabited
structure GfindOp where
  inl : Bool
  d : Reg
  h : Reg
  u : SrcC
  v : SrcC
  pr : PReg
  deriving DecidableEq, Repr, Inhabited
structure GopenOp where
  inl : Bool
  q : BitVec 4
  h : Reg
  u : SrcV
  pr : PReg
  deriving DecidableEq, Repr, Inhabited
/-- `gnext` and `gcst`. -/
structure GcurOp where
  d : Reg
  q : BitVec 4
  pr : PReg
  deriving DecidableEq, Repr, Inhabited
structure GverOp where
  d : Reg
  h : Reg
  pr : PReg
  deriving DecidableEq, Repr, Inhabited

/-! Operand groups of classes 10 to 13 (R287, R302, R377, R172, R336). -/

structure TspawnOp where
  d : Reg
  stage : BitVec 3
  a : Reg
  b : SrcC
  pr : PReg
  deriving DecidableEq, Repr, Inhabited
structure QpopOp where
  d : Reg
  stage : BitVec 3
  pr : PReg
  deriving DecidableEq, Repr, Inhabited
structure IncminOp where
  d : Reg
  a : Reg
  b : SrcC
  pr : PReg
  deriving DecidableEq, Repr, Inhabited
/-- The register `wsreg` writes (R174). -/
inductive WSel | thb | pdrain | pflush
  deriving DecidableEq, Repr, Inhabited
/-- A register `sreg` reads, by the selectors of R87. -/
inductive SSel
  | laneid | waveid | blockid | lvl (k : BitVec 3) | core | cluster | die | wcyc | dcyc | wtdl
  | tcause | tfpc | tem | taddr | thb | pdrain | pflush
  deriving DecidableEq, Repr, Inhabited
structure MigOp where
  d : Reg
  a : Reg
  k : BitVec 5
  b : SrcC
  c : Reg
  disp : Word
  deriving DecidableEq, Repr, Inhabited
structure CmsgOp where
  d : Reg
  b : SrcC
  stack : BitVec 4
  skc : BitVec 4
  h : BitVec 4
  deriving DecidableEq, Repr, Inhabited

/-! Operands of the stack-core instructions (R76, R319, R322, R327, R328). -/

abbrev XReg := BitVec 5
abbrev VReg := BitVec 4
abbrev MReg := BitVec 3
inductive XSrc | x (r : XReg) | imm (v : Word)
  deriving DecidableEq, Repr, Inhabited
/-- A `jmp` or `jal` target: displacement in words, or a register. -/
inductive XTgt | disp (v : Word) | reg (r : XReg)
  deriving DecidableEq, Repr, Inhabited
/-- SZ of R319. -/
inductive XSz | b8 | b16 | b32 | b64
  deriving DecidableEq, Repr, Inhabited
/-- TY of R322. -/
inductive VTy | f32 | f16 | bf16 | i32
  deriving DecidableEq, Repr, Inhabited
inductive VRedKind | add | max | min
  deriving DecidableEq, Repr, Inhabited
structure XLdOp where
  lm : Bool
  sz : XSz
  s : Bool
  d : XReg
  a : XReg
  off : Word
  deriving DecidableEq, Repr, Inhabited
structure XStOp where
  lm : Bool
  sz : XSz
  a : XReg
  b : XReg
  off : Word
  deriving DecidableEq, Repr, Inhabited
structure VMemOp where
  m : MReg
  bank : Bool
  lm : Bool
  h : Bool
  v : VReg
  a : XReg
  off : Word
  deriving DecidableEq, Repr, Inhabited
structure VBinOp where
  m : MReg
  ty : VTy
  d : VReg
  a : VReg
  b : VReg
  deriving DecidableEq, Repr, Inhabited
structure VRedOp where
  m : MReg
  bank : Bool
  op : VRedKind
  ty : VTy
  d : VReg
  a : VReg
  deriving DecidableEq, Repr, Inhabited
structure VCvtOp where
  m : MReg
  td : VTy
  ts : VTy
  hi : Bool
  d : VReg
  a : VReg
  deriving DecidableEq, Repr, Inhabited
structure VCmpOp where
  m : MReg
  cc : Cc
  ty : VTy
  d : MReg
  a : VReg
  b : VReg
  deriving DecidableEq, Repr, Inhabited
structure VSelOp where
  m : MReg
  h : Bool
  d : VReg
  a : VReg
  b : VReg
  deriving DecidableEq, Repr, Inhabited
structure VBrdOp where
  m : MReg
  h : Bool
  d : VReg
  src : XSrc
  deriving DecidableEq, Repr, Inhabited
/-- The six forms of `vmov` (R327). -/
inductive VMovOp
  | vv (m : MReg) (h : Bool) (d a : VReg)
  | mm (d a : MReg)
  | xv (h : Bool) (d : XReg) (a : VReg) (lane : BitVec 6)
  | vx (m : MReg) (h : Bool) (d : VReg) (a : XReg) (lane : BitVec 6)
  | mx (d : MReg) (a : XReg)
  | xm (d : XReg) (a : MReg)
  deriving DecidableEq, Repr, Inhabited
structure SendOp where
  d : XReg
  a : XReg
  stack : BitVec 4
  skc : BitVec 4
  h : BitVec 4
  deriving DecidableEq, Repr, Inhabited

/-! Data that the moves of the outside world carry. -/

/-- A 256-byte link flit (R396): 240 payload bytes, the control word, the CRC as received. -/
structure Flit where
  payload : List Byte
  ctl : DWord
  crc : DWord
  deriving DecidableEq, Repr, Inhabited

/-- Where a configuration write goes (R386, R391, R95): a byte offset of the physical function's window, or a register of a
virtual function's window. -/
inductive CfgAddr | pf (off : Nat) | vf (fn off : Nat)
  deriving DecidableEq, Repr, Inhabited

/-- What the loader needs to create one graph of an image (R22, R274, R409). -/
structure GraphImg where
  tenant : Nat
  handleVa : VAddr
  cap : Nat
  pay : Nat
  base : VAddr
  edges : List (Nat × Nat × Nat)
  /-- the image's code: virtual address and length -/
  code : VAddr × Nat
  deriving DecidableEq, Repr, Inhabited

/-- The steps of the machine. -/
inductive Instr
  -- class 0, control (R126)
  | nop
  | bra (g : Guard) (t : BrImm)
  | bdiv (g : Guard) (k : PReg) (els : Option ElseRef) (j : BrImm)
  | rjoin (g : Guard)
  | call (g : Guard) (t : BrImm)
  | ret (g : Guard)
  | jmpi (g : Guard) (a : Reg)
  | exit (g : Guard)
  | yield (g : Guard)
  -- class 1, integer (R130 to R132)
  | iadd (g : Guard) (sat : Bool) (o : IntBin)
  | isub (g : Guard) (sat : Bool) (o : IntBin)
  | imul (g : Guard) (sat : Bool) (o : IntBin)
  | imulh (g : Guard) (o : IntBin)
  | imad (g : Guard) (sat : Bool) (o : IntBin) (c : SrcC)
  | idiv (g : Guard) (la : BitVec 4) (o : IntBin)
  | irem (g : Guard) (la : BitVec 4) (o : IntBin)
  | imin (g : Guard) (o : IntBin)
  | imax (g : Guard) (o : IntBin)
  | iabs (g : Guard) (sat : Bool) (o : IntUn)
  | ineg (g : Guard) (sat : Bool) (o : IntUn)
  | and (g : Guard) (o : IntBin)
  | or (g : Guard) (o : IntBin)
  | xor (g : Guard) (o : IntBin)
  | not (g : Guard) (o : IntUn)
  | shl (g : Guard) (o : IntBin)
  | shr (g : Guard) (o : IntBin)
  | sra (g : Guard) (o : IntBin)
  | rot (g : Guard) (o : IntBin)
  | bfe (g : Guard) (o : IntBin)
  | bfi (g : Guard) (o : IntBin) (c : SrcC)
  | popc (g : Guard) (o : IntUn)
  | clz (g : Guard) (o : IntUn)
  | ctz (g : Guard) (o : IntUn)
  | brev (g : Guard) (o : IntUn)
  | lea (g : Guard) (o : LeaOp)
  | iaddc (g : Guard) (d a : Reg) (b : SrcB) (c : PReg)
  | sel (g : Guard) (o : IntBin) (c : PReg)
  | mov (g : Guard) (ty : IntTy) (u : Bool) (d : Reg) (b : SrcB)
  | movi (g : Guard) (ty : IntTy) (u : Bool) (d : Reg) (v : Word)
  -- class 2, float (R133, R134)
  | fadd (g : Guard) (rm : Rm) (o : FltBin)
  | fsub (g : Guard) (rm : Rm) (o : FltBin)
  | fmul (g : Guard) (rm : Rm) (o : FltBin)
  | ffma (g : Guard) (rm : Rm) (o : FltBin) (c : SrcC)
  | fdiv (g : Guard) (la : BitVec 4) (rm : Rm) (o : FltBin)
  | fmin (g : Guard) (o : FltBin)
  | fmax (g : Guard) (o : FltBin)
  | fabs (g : Guard) (o : FltUn)
  | fneg (g : Guard) (o : FltUn)
  | frcp (g : Guard) (la : BitVec 4) (rm : Rm) (o : FltUn)
  | frsq (g : Guard) (la : BitVec 4) (rm : Rm) (o : FltUn)
  | fsqrt (g : Guard) (la : BitVec 4) (rm : Rm) (o : FltUn)
  | fex2 (g : Guard) (la : BitVec 4) (rm : Rm) (o : FltUn)
  | flg2 (g : Guard) (la : BitVec 4) (rm : Rm) (o : FltUn)
  | fsin (g : Guard) (la : BitVec 4) (rm : Rm) (o : FltUn)
  | fcos (g : Guard) (la : BitVec 4) (rm : Rm) (o : FltUn)
  -- class 3, conversion and narrow (R135 to R137)
  | cvt (g : Guard) (o : CvtOp)
  | pk4x (g : Guard) (o : PackOp)
  | upk4x (g : Guard) (o : PackOp)
  | pk6 (g : Guard) (o : PackOp)
  | upk6 (g : Guard) (o : PackOp)
  | fclass (g : Guard) (ty : FTy5) (u : Bool) (d a : Reg)
  -- class 4, compare and lane (R138 to R144)
  | icmp (g : Guard) (o : IcmpOp)
  | fcmp (g : Guard) (o : FcmpOp)
  | plog (g : Guard) (d a b c : PReg) (lut : Byte)
  | pmov (g : Guard) (o : PmovOp)
  | ballot (g : Guard) (part u : Bool) (d : Reg) (a : PReg)
  | vote (g : Guard) (part : Bool) (k : VoteKind) (d a : PReg)
  | shfl (g : Guard) (part : Bool) (o : ShflOp)
  | lred (g : Guard) (part u : Bool) (o : RedOp)
  | lscan (g : Guard) (part excl : Bool) (o : RedOp)
  | emrd (g : Guard) (u : Bool) (d : Reg)
  | emwr (b : SrcU)
  -- class 5, memory (R230 to R236)
  | ld (g : Guard) (la : BitVec 4) (o : LdOp)
  | st (g : Guard) (o : StOp)
  | ldq (g : Guard) (la : BitVec 4) (o : LdqOp)
  | stq (g : Guard) (o : StqOp)
  | ldf (g : Guard) (la : BitVec 4) (o : LdfOp)
  | stf (g : Guard) (o : StfOp)
  -- class 6, atomics, fences, cache (R237 to R244)
  | atom (g : Guard) (la : BitVec 4) (o : AtomOp)
  | cas (g : Guard) (la : BitVec 4) (o : CasOp)
  | fence (g : Guard) (k : FenceKind) (sc : Scope)
  | cwb (g : Guard) (o : CacheOp)
  | cinv (g : Guard) (d : Reg) (o : CacheOp)
  | cflush (g : Guard) (o : CacheOp)
  | pref (g : Guard) (l1 : Bool) (a : Reg) (off : Word)
  -- class 7, streamer (R245 to R251, R294)
  | cpy (g : Guard) (o : CpyOp)
  | cpyw (g : Guard) (o : CpywOp)
  | gath (g : Guard) (o : GathOp)
  | scat (g : Guard) (o : GathOp)
  | chini (g : Guard) (a : Reg) (b : SrcU) (c : Reg)
  | chwait (g : Guard) (d a : Reg) (b : SrcU)
  | chrel (g : Guard) (a : Reg) (b : SrcU)
  -- class 8, matrix (R148)
  | mma (g : Guard) (la : BitVec 4) (o : MmaOp)
  | mlut (g : Guard) (la : BitVec 4) (o : MmaOp)
  | mzero (g : Guard) (la : BitVec 4) (t : Reg) (af : Af)
  | mld (g : Guard) (la : BitVec 4) (o : MldOp)
  | mst (g : Guard) (la : BitVec 4) (o : MstOp)
  | mfence (g : Guard) (la : BitVec 4) (d : Reg)
  | mwait (g : Guard) (st : Option Reg) (a : Reg)
  | mrep (g : Guard) (drop : Bool) (a : Reg)
  | mflg (g : Guard) (d : Reg)
  -- class 9, graph (R256)
  | gnew (g : Guard) (la : BitVec 4) (d a : Reg)
  | gfree (g : Guard) (la : BitVec 4) (a : Reg)
  | gadd (g : Guard) (la : BitVec 4) (o : GmutOp)
  | gdel (g : Guard) (la : BitVec 4) (o : GdelOp)
  | gdeg (g : Guard) (la : BitVec 4) (o : GdegOp)
  | gld (g : Guard) (la : BitVec 4) (o : GldOp)
  | gwt (g : Guard) (la : BitVec 4) (o : GmutOp)
  | gfind (g : Guard) (la : BitVec 4) (o : GfindOp)
  | gopen (g : Guard) (la : BitVec 4) (o : GopenOp)
  | gnext (g : Guard) (la : BitVec 4) (o : GcurOp)
  | gclose (g : Guard) (q : BitVec 4)
  | gcst (g : Guard) (la : BitVec 4) (o : GcurOp)
  | gver (g : Guard) (la : BitVec 4) (o : GverOp)
  -- class 10, tasks and search (R287, R302)
  | tspawn (g : Guard) (o : TspawnOp)
  | tdone (g : Guard)
  | qpush (g : Guard) (stage : BitVec 3) (a : Reg)
  | qpop (g : Guard) (la : BitVec 4) (o : QpopOp)
  | qstat (g : Guard) (la : BitVec 4) (d : Reg) (stage : BitVec 3)
  | tbound (g : Guard) (b : SrcC)
  | fchk (g : Guard)
  | incld (g : Guard) (la : BitVec 4) (acq : Bool) (d : Reg)
  | incmin (g : Guard) (la : BitVec 4) (o : IncminOp)
  -- class 11, sync (R377)
  | bar (g : Guard) (lvl : BitVec 3)
  | bini (g : Guard) (a : Reg) (b : SrcU)
  | binv (g : Guard) (a : Reg)
  | barar (g : Guard) (d a : Reg) (pr : PReg)
  | barw (g : Guard) (a : Reg) (b : SrcU) (pr : PReg)
  | sinc (g : Guard) (n : Byte) (b : SrcU)
  | swait (g : Guard) (dec : Bool) (n : Byte) (b : SrcU)
  | sset (g : Guard) (n : Byte) (b : SrcU)
  | tmset (g : Guard) (rel : Bool) (b : SrcU)
  -- class 12, system (R172)
  | sreg (g : Guard) (u : Bool) (d : Reg) (sel : SSel)
  | wsreg (g : Guard) (sel : WSel) (b : SrcU)
  | trap (g : Guard) (code : Word)
  | tretRetry (g : Guard)
  | tretSkip (g : Guard)
  | tretEnd (g : Guard)
  | brk (g : Guard) (code : Word)
  | perfrd (g : Guard) (d : Reg) (n : Byte)
  | icinv (g : Guard)
  -- class 13, cave (R336)
  | cdisp (g : Guard) (la : BitVec 4) (d : Reg) (b : SrcC) (disp : Word)
  | cwait (g : Guard) (st : Option Reg) (a : Reg)
  | mig (g : Guard) (la : BitVec 4) (o : MigOp)
  | cmsg (g : Guard) (la : BitVec 4) (o : CmsgOp)
  -- stack-core scalar instructions (R319 to R321)
  | caveAdd (d a : XReg) (b : XSrc)
  | caveSub (d a : XReg) (b : XSrc)
  | caveMul (d a : XReg) (b : XSrc)
  | caveAnd (d a : XReg) (b : XSrc)
  | caveOr (d a : XReg) (b : XSrc)
  | caveXor (d a : XReg) (b : XSrc)
  | caveShl (d a : XReg) (b : XSrc)
  | caveShr (d a : XReg) (b : XSrc)
  | caveSra (d a : XReg) (b : XSrc)
  | caveLi (hi : Bool) (d : XReg) (v : Word)
  | caveSlt (u : Bool) (d a : XReg) (b : XSrc)
  | caveLd (o : XLdOp)
  | caveSt (o : XStOp)
  | caveBeq (a b : XReg) (disp : Word)
  | caveBne (a b : XReg) (disp : Word)
  | caveBlt (u : Bool) (a b : XReg) (disp : Word)
  | caveBge (u : Bool) (a b : XReg) (disp : Word)
  | caveJmp (t : XTgt)
  | caveJal (d : XReg) (t : XTgt)
  -- stack-core vector instructions (R322 to R327)
  | caveVld (o : VMemOp)
  | caveVst (o : VMemOp)
  | caveVadd (o : VBinOp)
  | caveVsub (o : VBinOp)
  | caveVmul (o : VBinOp)
  | caveVfma (bank : Bool) (o : VBinOp)
  | caveVmax (o : VBinOp)
  | caveVmin (o : VBinOp)
  | caveVred (o : VRedOp)
  | caveVcvt (o : VCvtOp)
  | caveVcmp (o : VCmpOp)
  | caveVsel (o : VSelOp)
  | caveVbrd (o : VBrdOp)
  | caveVmov (o : VMovOp)
  -- stack-core control (R328)
  | caveSend (o : SendOp)
  | caveHret
  | caveMret
  | caveYld
  | caveFence
  -- moves of the memory machine and the engines
  | readMove (acc unit : Nat)
  | drain (w : Nat)
  | stamp (d h : Nat)
  | apply (e s : Nat)
  | completeMove (p : Nat)
  | evict (sector : Nat)
  | matrixOpExecute (wave op : Nat)
  | copyStart (blk : Nat)
  | copyComplete (blk copy : Nat)
  | qpushEnqueue (wave split lane : Nat)
  | graphReserve (op : Nat)
  | inListCommit (op : Nat)
  | outListCommit (op : Nat)
  | graphReadMove (op : Nat)
  | gfreeTakeEffect (op : Nat)
  | incminCommit (op : Nat)
  | incldRead (op : Nat)
  | broadcastArrival (b : Nat)
  -- moves of the hoop units, vats and the dispatcher
  | hoopFormation (die launch stage core : Nat)
  | vatReload (die : Nat)
  | quotaBoundary (die : Nat)
  | launchAdmission
  | blockStart (launch core : Nat)
  | blockSteal (launch core : Nat)
  | blockEnd (blk : Nat)
  | launchCompletion (launch : Nat)
  | preemptionDecision (blk : Nat)
  | drainTimeout (blk : Nat)
  | blockSave (blk : Nat)
  | flushAndRestart (blk : Nat)
  | blockRestore (blk core : Nat)
  | vacateRequest (first count : Nat)
  | timerExpiry (wave : Nat)
  -- moves of the cave level
  | caveDispatchMove (work : Nat)
  | caveInstanceStart (stack skc : Nat)
  | cavePreempt (stack skc : Nat)
  | caveCompletionMove (work : Nat)
  | caveHandlerDispatch (stack skc : Nat)
  | microInstructionExecute (stack skc : Nat)
  -- moves of the memory controller
  | scrubRow (stack row errs : Nat)
  | hotScrub (stack row errs : Nat)
  | regionClear (region : Nat)
  -- host, management, firmware
  | qtail (fn : Nat) (v : Word)
  | qerrClear (fn : Nat) (mask : Word)
  | invreq (fn : Nat) (n : Word)
  | invalidationComplete (fn : Nat)
  | updctl (ctl : Nat) (v : Word)
  | counterClear (off : Nat)
  | berrClear (stack bank : Nat)
  | htcommit (stack skc : Nat)
  | tokloWrite (tenant : Nat) (v : DWord)
  | configWrite (a : CfgAddr) (bytes : List Byte)
  | configApply (unit : Nat)
  | configForcedBoundary (unit : Nat)
  | deviceReset
  | unitReady (bit : Nat)
  | functionLevelReset (fn : Nat)
  | dataFlit (port : Nat) (f : Flit)
  | nakFlit (port : Nat) (f : Flit)
  | idleFlit (port : Nat) (f : Flit)
  | retrainRequest (port : Nat) (f : Flit)
  | fabricPacket (src dst num : Nat) (bytes : List Byte)
  | launchPacket (tok : DWord) (bytes : List Byte)
  | handoverStop (ctl : Nat)
  | wdogWrite (ctl : Nat)
  | watchdogExpiry (ctl : Nat)
  | attestationRequest (nonce : List Byte)
  | pathMonitorRead (die : Nat) (low : Bool)
  | hostStore (pa : Nat) (bytes : List Byte)
  | loaderGraphCreation (img : GraphImg)
  | vacatedCoresRelease (first count : Nat)
  | portBringUp (port : Nat)
  deriving DecidableEq, Repr, Inhabited

end Sys2Proof
end

