-- ==== Sys2Proof/WellFormed.lean ====
section
/-! DEFINITION. Which instruction terms an encoding can stand for (03 R57 to R60, R63, R74, R78 and the limits of each
entry), and the registers each instruction names (R57), with what the allocation of a wave must hold for them. -/

namespace Sys2Proof

/-- The register files a field may name (R57). -/
inductive RFile | g | s | p | q | t
  deriving DecidableEq, Repr, Inhabited

/-- One operand of an instruction: `count` registers of `file` from `first`, which is a multiple of `al` (R57). -/
structure Use where
  file : RFile
  first : Nat
  count : Nat
  al : Nat
  rd : Bool
  wr : Bool
  deriving DecidableEq, Repr, Inhabited

/-- Why a term has no legal encoding (R74, R78). -/
inductive Illegal
  /-- a pair, quad or group whose first register breaks its alignment (R57) -/
  | misaligned
  /-- a register number past the end of its file (R57) -/
  | outOfFile
  /-- an immediate the type does not allow (R59) -/
  | immediate
  /-- a 64-bit constant-window operand at an odd offset (R60) -/
  | oddWindow
  /-- a type or operation code the entry does not list (R56) -/
  | type
  /-- a slot value above 4 in a branch immediate (R72, R128) -/
  | slot
  /-- a combination of modifiers the entry forbids -/
  | modifier
  /-- a number outside the limits of its entry -/
  | limit
  deriving DecidableEq, Repr, Inhabited

namespace Use
def rd1 (f : RFile) (n : Reg) : Use := ⟨f, n.toNat, 1, 1, true, false⟩
def rdN (f : RFile) (n : Reg) (k : Nat) : Use := ⟨f, n.toNat, k, k, true, false⟩
def wr1 (f : RFile) (n : Reg) : Use := ⟨f, n.toNat, 1, 1, false, true⟩
def wrN (f : RFile) (n : Reg) (k : Nat) : Use := ⟨f, n.toNat, k, k, false, true⟩
def rwN (f : RFile) (n : Reg) (k : Nat) : Use := ⟨f, n.toNat, k, k, true, true⟩
def rdP (n : PReg) : Use := ⟨.p, n.toNat, 1, 1, true, false⟩
def wrP (n : PReg) : Use := ⟨.p, n.toNat, 1, 1, false, true⟩

/-- The size of a register file (R57). -/
def fileSize : RFile → Nat
  | .g => 256 | .s => 64 | .p => 8 | .q => 16 | .t => 8

/-- The static limits of R57. -/
def check (u : Use) : Option Illegal :=
  if u.first % u.al != 0 then some .misaligned
  else if u.first + u.count > fileSize u.file then some .outOfFile
  else none
end Use

/-- Is the type 64 bits wide (R123)? -/
def IntTy.wide : IntTy → Bool | .s64 | .z64 => true | _ => false
def IntTy.signed : IntTy → Bool | .s32 | .s64 => true | _ => false
def FltTy.wide : FltTy → Bool | .f64 => true | _ => false
def FTy5.wide : FTy5 → Bool | .f64 => true | _ => false
def NumTy.wide : NumTy → Bool | .i t => t.wide | .f t => t.wide
def Ty.wide : Ty → Bool | .s64 | .z64 | .f64 => true | _ => false
/-- Registers a value of a type takes: a pair for a 64-bit type (R123). -/
def wid (w : Bool) : Nat := if w then 2 else 1

/-- The destination file of a form with a U bit (R124). -/
def uFile (u : Bool) : RFile := if u then .s else .g

def SrcB.uses (b : SrcB) (k : Nat) : List Use :=
  match b with
  | .g r => [.rdN .g r k] | .s r => [.rdN .s r k] | .imm _ => [] | .cw _ _ => []
def SrcC.uses (b : SrcC) (k : Nat) : List Use :=
  match b with
  | .g r => [.rdN .g r k] | .s r => [.rdN .s r k]
def SrcU.uses (b : SrcU) (k : Nat) : List Use :=
  match b with
  | .s r => [.rdN .s r k] | .imm _ => []
def SrcV.uses (b : SrcV) : List Use :=
  match b with
  | .g r => [.rdN .g r 2] | .s r => [.rdN .s r 2] | .imm _ => []

/-- The registers a guard reads (R61). -/
def Guard.uses (g : Guard) : List Use := [.rdP g.pg]

/-- D, A and B of an integer form, with the widths of its operands (R123). -/
def IntBin.usesW (o : IntBin) (d a b : Nat) : List Use :=
  .wrN (uFile o.u) o.d d :: .rdN (uFile o.u) o.a a :: o.b.uses b
def IntBin.uses (o : IntBin) : List Use := o.usesW (wid o.ty.wide) (wid o.ty.wide) (wid o.ty.wide)
/-- As `uses`, with a B of one 32-bit register (R130). -/
def IntBin.usesN (o : IntBin) : List Use := o.usesW (wid o.ty.wide) (wid o.ty.wide) 1
def IntUn.usesW (o : IntUn) (d a : Nat) : List Use := [.wrN (uFile o.u) o.d d, .rdN (uFile o.u) o.a a]
def FltBin.uses (o : FltBin) : List Use :=
  .wrN (uFile o.u) o.d (wid o.ty.wide) :: .rdN (uFile o.u) o.a (wid o.ty.wide) :: o.b.uses (wid o.ty.wide)
def FltUn.uses (o : FltUn) : List Use :=
  [.wrN (uFile o.u) o.d (wid o.ty.wide), .rdN (uFile o.u) o.a (wid o.ty.wide)]
/-- The base of a memory operand: a pair for `.gm` (R12). -/
def baseUse (w : Space) (a : Reg) : Use := .rdN .g a (wid (w == .gm))
/-- CNT of R230 as a number. -/
def Cnt.n : Cnt → Nat | .x1 => 1 | .x2 => 2 | .x4 => 4 | .x8 => 8
def optD (d : Option Reg) (k : Nat) : List Use := match d with | some r => [.wrN .s r k] | none => []
/-- 64-bit selectors of R87. -/
def SSel.wide : SSel → Bool
  | .wcyc | .dcyc | .wtdl | .tfpc | .taddr | .thb => true
  | _ => false
/-- Lane-vector and mask operands of a stack core name whole registers and have no allocation. -/
def CacheOp.uses (o : CacheOp) : List Use := .rdN .g o.a 2 :: o.b.uses 1

/-- Every register operand of a front instruction (R57), the guard's apart. -/
def Instr.operands : Instr → List Use
  | .nop | .bra _ _ | .rjoin _ | .exit _ | .yield _ => []
  | .bdiv _ k _ _ => [.rdP k]
  | .call _ _ => [⟨.s, 62, 2, 2, false, true⟩]
  | .ret _ => [⟨.s, 62, 2, 2, true, false⟩]
  | .jmpi _ a => [.rdN .s a 2]
  | .iadd _ _ o | .isub _ _ o | .imul _ _ o | .imulh _ o | .idiv _ _ o | .irem _ _ o | .imin _ o | .imax _ o
  | .and _ o | .or _ o | .xor _ o => o.uses
  | .imad _ _ o c | .bfi _ o c => o.uses ++ c.uses (wid o.ty.wide)
  | .iabs _ _ o | .ineg _ _ o | .not _ o | .brev _ o => o.usesW (wid o.ty.wide) (wid o.ty.wide)
  | .shl _ o | .shr _ o | .sra _ o | .rot _ o | .bfe _ o => o.usesN
  | .popc _ o | .clz _ o | .ctz _ o => o.usesW 1 (wid o.ty.wide)
  | .lea _ o => .wrN (uFile o.u) o.d 2 :: .rdN (uFile o.u) o.a 2 :: o.b.uses 1
  | .iaddc _ d a b c => .wr1 .g d :: .rd1 .g a :: ⟨.p, c.toNat, 1, 1, true, true⟩ :: b.uses 1
  | .sel _ o c => .rdP c :: o.uses
  | .mov _ ty u d b => .wrN (uFile u) d (wid ty.wide) :: b.uses (wid ty.wide)
  | .movi _ ty u d _ => [.wrN (uFile u) d (wid ty.wide)]
  | .fadd _ _ o | .fsub _ _ o | .fmul _ _ o | .fdiv _ _ _ o | .fmin _ o | .fmax _ o => o.uses
  | .ffma _ _ o c => o.uses ++ c.uses (wid o.ty.wide)
  | .fabs _ o | .fneg _ o | .frcp _ _ _ o | .frsq _ _ _ o | .fsqrt _ _ _ o | .fex2 _ _ _ o | .flg2 _ _ _ o
  | .fsin _ _ _ o | .fcos _ _ _ o => o.uses
  | .cvt _ o => [.wrN (uFile o.u) o.d (wid o.td.wide), .rdN (uFile o.u) o.a (wid o.ts.wide)]
  | .pk4x _ o => .wr1 .g o.d :: .rdN .g o.a 8 :: o.b.uses 1
  | .upk4x _ o => .wrN .g o.d 8 :: .rd1 .g o.a :: o.b.uses 1
  | .pk6 _ o => .wr1 .g o.d :: .rdN .g o.a 4 :: o.b.uses 1
  | .upk6 _ o => .wrN .g o.d 4 :: .rd1 .g o.a :: o.b.uses 1
  | .fclass _ ty u d a => [.wr1 (uFile u) d, .rdN (uFile u) a (wid ty.wide)]
  | .icmp _ o => .wrP o.d :: .rdN .g o.a (wid o.ty.wide) :: o.b.uses (wid o.ty.wide)
  | .fcmp _ o => .wrP o.d :: .rdN .g o.a (wid o.ty.wide) :: o.b.uses (wid o.ty.wide)
  | .plog _ d a b c _ => [.wrP d, .rdP a, .rdP b, .rdP c]
  | .pmov _ (.toP d a) => [.wrP d, .rd1 .g a]
  | .pmov _ (.toG d a) => [.wr1 .g d, .rdP a]
  | .ballot _ _ u d a => [.wr1 (uFile u) d, .rdP a]
  | .vote _ _ _ d a => [.wrP d, .rdP a]
  | .shfl _ _ o => .wrN .g o.d (wid o.wide) :: .rdN .g o.a (wid o.wide) :: o.b.uses 1
  | .lred _ _ u o => [.wrN (uFile u) o.d (wid o.ty.wide), .rdN (uFile u) o.a (wid o.ty.wide)]
  | .lscan _ _ _ o => [.wrN .g o.d (wid o.ty.wide), .rdN .g o.a (wid o.ty.wide)]
  | .emrd _ u d => [.wr1 (uFile u) d]
  | .emwr b => b.uses 1
  | .ld _ _ o => [.wrN .g o.d (wid o.ty.wide), baseUse o.sp o.a]
  | .st _ o => baseUse o.sp o.a :: o.b.uses (wid o.ty.wide)
  | .ldq _ _ o => [.wrN .g o.d 4, baseUse o.sp o.a]
  | .stq _ o => [baseUse o.sp o.a, .rdN .g o.b 4]
  | .ldf _ _ o => .wrN .g o.d o.cnt.n :: .rdN .g o.a 2 :: o.c.uses 1
  | .stf _ o => .rdN .g o.a 2 :: .rdN .g o.b o.cnt.n :: o.c.uses 1
  | .atom _ _ o => .wrN .g o.d (wid o.ty.wide) :: baseUse o.sp o.a :: o.b.uses (wid o.ty.wide)
  | .cas _ _ o => .rwN .g o.d (wid o.ty.wide) :: baseUse o.sp o.a :: o.b.uses (wid o.ty.wide)
  | .fence _ _ _ => []
  | .cwb _ o | .cflush _ o => o.uses
  | .cinv _ d o => .wr1 .g d :: o.uses
  | .pref _ _ a _ => [.rdN .g a 2]
  | .cpy _ o => .rdN .s o.d 2 :: .rdN .s o.a 2 :: .rd1 .s o.c :: o.len.uses 1
  | .cpyw _ o => [.rdN .s o.d 2, .rdN .s o.a 2, .rd1 .s o.b, .rd1 .s o.c]
  | .gath _ o | .scat _ o => [.rdN .s o.d 2, .rdN .s o.a 2, .rd1 .s o.b, .rd1 .s o.c]
  | .chini _ a b c => .rd1 .s a :: .rd1 .s c :: b.uses 1
  | .chwait _ d a b => .wr1 .s d :: .rd1 .s a :: b.uses 1
  | .chrel _ a b => .rd1 .s a :: b.uses 1
  | .mma _ _ o | .mlut _ _ o =>
    [⟨.t, o.t.toNat, 1, 1, true, true⟩, .rdN .g o.a (wid o.spc.isNone), .rdN .g o.b (wid o.spc.isNone)]
  | .mzero _ _ t _ => [.wr1 .t t]
  | .mld _ _ o => [.wr1 .t o.t, .rdN .g o.a (wid !o.spc)]
  | .mst _ _ o => [.rd1 .t o.t, .rdN .g o.a (wid !o.spc)]
  | .mfence _ _ d => [.wr1 .s d]
  | .mwait _ dst a => .rd1 .s a :: optD dst 2
  | .mrep _ _ a => [.rd1 .s a]
  | .mflg _ d => [.wr1 .s d]
  | .gnew _ _ d a => [.wrN .s d 2, .rdN .s a 2]
  | .gfree _ _ a => [.rd1 .s a]
  | .gadd _ _ o | .gwt _ _ o =>
    .wr1 .g o.d :: .rd1 .s o.h :: .rdN .g o.w 2 :: .wrP o.pr :: (o.u.uses 2 ++ o.v.uses 2)
  | .gdel _ _ o => .wr1 .g o.d :: .rd1 .s o.h :: .wrP o.pr :: (o.u.uses 2 ++ o.v.uses 2)
  | .gdeg _ _ o => .wrN .g o.d 2 :: .rd1 .s o.h :: .wrP o.pr :: o.u.uses
  | .gld _ _ o => .wrN .g o.d 4 :: .rd1 .s o.h :: .wrP o.pr :: (o.u.uses ++ o.rank.uses 1)
  | .gfind _ _ o => .wrN .g o.d 4 :: .rd1 .s o.h :: .wrP o.pr :: (o.u.uses 2 ++ o.v.uses 2)
  | .gopen _ _ o => ⟨.q, o.q.toNat, 1, 1, true, true⟩ :: .rd1 .s o.h :: .wrP o.pr :: o.u.uses
  | .gnext _ _ o => [.wrN .g o.d 4, ⟨.q, o.q.toNat, 1, 1, true, true⟩, .wrP o.pr]
  | .gclose _ q => [⟨.q, q.toNat, 1, 1, true, true⟩]
  | .gcst _ _ o => [.wrN .g o.d 4, ⟨.q, o.q.toNat, 1, 1, true, false⟩, .wrP o.pr]
  | .gver _ _ o => [.wrN .g o.d 4, .rd1 .s o.h, .wrP o.pr]
  | .tspawn _ o => .wr1 .g o.d :: .rdN .g o.a 16 :: .wrP o.pr :: o.b.uses 2
  | .tdone _ | .fchk _ => []
  | .qpush _ _ a => [.rdN .g a 16]
  | .qpop _ _ o => [.wrN .g o.d 16, .wrP o.pr]
  | .qstat _ _ d _ => [.wrN .s d 2]
  | .tbound _ b => b.uses 2
  | .incld _ _ _ d => [.wrN .g d 4]
  | .incmin _ _ o => .wrN .g o.d 2 :: .rdN .g o.a 2 :: .wrP o.pr :: o.b.uses 2
  | .bar _ _ => []
  | .bini _ a b => .rd1 .s a :: b.uses 1
  | .binv _ a => [.rd1 .s a]
  | .barar _ d a pr => [.wr1 .s d, .rd1 .s a, .wrP pr]
  | .barw _ a b pr => .rd1 .s a :: .wrP pr :: b.uses 1
  | .sinc _ _ b | .swait _ _ _ b | .sset _ _ b => b.uses 1
  | .tmset _ _ b => b.uses 2
  | .sreg _ u d x => [.wrN (uFile u) d (wid x.wide)]
  | .wsreg _ .thb (.s r) => [⟨.s, r.toNat, 2, 1, true, false⟩]
  | .wsreg _ _ b => b.uses 1
  | .trap _ _ | .tretRetry _ | .tretSkip _ | .tretEnd _ | .brk _ _ | .icinv _ => []
  | .perfrd _ d _ => [.wrN .s d 2]
  | .cdisp _ _ d b _ => .wr1 .s d :: b.uses 2
  | .cwait _ dst a => .rd1 .s a :: optD dst 4
  | .mig _ _ o => .wr1 .s o.d :: .rd1 .s o.c ::
      (⟨.g, o.a.toNat, o.k.toNat, 1, true, true⟩ :: o.b.uses 2)
  | .cmsg _ _ o => .wr1 .s o.d :: o.b.uses 2
  | _ => []

/-- The guard of a front instruction (R55); none for `nop` and `emwr`, which have none (R126, R140). -/
def Instr.guard? : Instr → Option Guard
  | .bra g _ | .bdiv g _ _ _ | .rjoin g | .call g _ | .ret g | .jmpi g _ | .exit g | .yield g
  | .iadd g _ _ | .isub g _ _ | .imul g _ _ | .imulh g _ | .imad g _ _ _ | .idiv g _ _ | .irem g _ _ | .imin g _
  | .imax g _ | .iabs g _ _ | .ineg g _ _ | .and g _ | .or g _ | .xor g _ | .not g _ | .shl g _ | .shr g _
  | .sra g _ | .rot g _ | .bfe g _ | .bfi g _ _ | .popc g _ | .clz g _ | .ctz g _ | .brev g _ | .lea g _
  | .iaddc g _ _ _ _ | .sel g _ _ | .mov g _ _ _ _ | .movi g _ _ _ _
  | .fadd g _ _ | .fsub g _ _ | .fmul g _ _ | .ffma g _ _ _ | .fdiv g _ _ _ | .fmin g _ | .fmax g _ | .fabs g _
  | .fneg g _ | .frcp g _ _ _ | .frsq g _ _ _ | .fsqrt g _ _ _ | .fex2 g _ _ _ | .flg2 g _ _ _ | .fsin g _ _ _
  | .fcos g _ _ _ | .cvt g _ | .pk4x g _ | .upk4x g _ | .pk6 g _ | .upk6 g _ | .fclass g _ _ _ _
  | .icmp g _ | .fcmp g _ | .plog g _ _ _ _ _ | .pmov g _ | .ballot g _ _ _ _ | .vote g _ _ _ _ | .shfl g _ _
  | .lred g _ _ _ | .lscan g _ _ _ | .emrd g _ _ | .ld g _ _ | .st g _ | .ldq g _ _ | .stq g _ | .ldf g _ _
  | .stf g _ | .atom g _ _ | .cas g _ _ | .fence g _ _ | .cwb g _ | .cinv g _ _ | .cflush g _ | .pref g _ _ _
  | .cpy g _ | .cpyw g _ | .gath g _ | .scat g _ | .chini g _ _ _ | .chwait g _ _ _ | .chrel g _ _
  | .mma g _ _ | .mlut g _ _ | .mzero g _ _ _ | .mld g _ _ | .mst g _ _ | .mfence g _ _ | .mwait g _ _
  | .mrep g _ _ | .mflg g _ | .gnew g _ _ _ | .gfree g _ _ | .gadd g _ _ | .gdel g _ _ | .gdeg g _ _ | .gld g _ _
  | .gwt g _ _ | .gfind g _ _ | .gopen g _ _ | .gnext g _ _ | .gclose g _ | .gcst g _ _ | .gver g _ _
  | .tspawn g _ | .tdone g | .qpush g _ _ | .qpop g _ _ | .qstat g _ _ _ | .tbound g _ | .fchk g | .incld g _ _ _
  | .incmin g _ _ | .bar g _ | .bini g _ _ | .binv g _ | .barar g _ _ _ | .barw g _ _ _ | .sinc g _ _
  | .swait g _ _ _ | .sset g _ _ | .tmset g _ _ | .sreg g _ _ _ | .wsreg g _ _ | .trap g _ | .tretRetry g
  | .tretSkip g | .tretEnd g | .brk g _ | .perfrd g _ _ | .icinv g | .cdisp g _ _ _ _ | .cwait g _ _ | .mig g _ _
  | .cmsg g _ _ => some g
  | _ => none

/-- Every register a front instruction reads or writes. -/
def Instr.uses (i : Instr) : List Use :=
  (match i.guard? with | some g => g.uses | none => []) ++ i.operands

/-- R59: an immediate of a 16-bit float type has zero upper bits. -/
def immHalfOk (ty : FltTy) (b : SrcB) : Bool :=
  match ty, b with
  | .f16, .imm v | .bf16, .imm v => v.extractLsb' 16 16 == 0
  | _, _ => true
/-- R60: a 64-bit constant-window operand has an even offset. -/
def cwEven (wide : Bool) (b : SrcB) : Bool :=
  match b with
  | .cw _ off => !(wide && off.getLsbD 0)
  | _ => true
def slotOk (v : BitVec 3) : Bool := v.toNat ≤ 4

def need (b : Bool) (e : Illegal) (r : Option Illegal) : Option Illegal := if b then r else some e

/-- The limits of an entry other than those of R57. -/
def Instr.limits : Instr → Option Illegal
  | .bra _ t | .call _ t => need (slotOk t.slot) .slot none
  | .bdiv _ _ e t => need (slotOk t.slot && (match e with | some x => slotOk x.slot | none => true)) .slot none
  | .iadd _ _ o | .isub _ _ o | .imul _ _ o | .imulh _ o | .imad _ _ o _ | .bfi _ o _ | .idiv _ _ o | .irem _ _ o | .imin _ o
  | .imax _ o | .and _ o | .or _ o | .xor _ o | .sel _ o _ => need (cwEven o.ty.wide o.b) .oddWindow none
  | .iabs _ _ o => need o.ty.signed .type none
  | .mov _ ty _ _ b => need (cwEven ty.wide b) .oddWindow
      (need (match b with | .imm _ => false | _ => true) .immediate none)
  | .fadd _ _ o | .fsub _ _ o | .fmul _ _ o | .ffma _ _ o _ | .fdiv _ _ _ o | .fmin _ o | .fmax _ o =>
    need (immHalfOk o.ty o.b) .immediate (need (cwEven o.ty.wide o.b) .oddWindow none)
  | .fex2 _ _ _ o | .flg2 _ _ _ o | .fsin _ _ _ o | .fcos _ _ _ o => need (o.ty != .f64) .type none
  | .icmp _ o => need (cwEven o.ty.wide o.b) .oddWindow (need (o.cc != .ord && o.cc != .uno) .type none)
  | .fcmp _ o => match o.ty, o.b with
    | .f8e4, .imm _ => some .immediate
    | .f16, .imm v | .bf16, .imm v => need (v.extractLsb' 16 16 == 0) .immediate none
    | .f64, .cw _ off => need (!off.getLsbD 0) .oddWindow none
    | _, _ => none
  | .lred _ _ _ o | .lscan _ _ _ o =>
    need (match o.ty, o.op with
      | .f _, .and | .f _, .or | .f _, .xor => false
      | _, _ => true) .type
    (need (match o.ty, o.op with
      | .f _, .add => true
      | _, _ => o.rm == .rne) .modifier none)
  | .ld _ _ o => need (!o.nl1 || o.sp == .gm) .modifier (need (o.acq.isNone || o.sp != .lp) .modifier none)
  | .st _ o => need (o.rel.isNone || o.sp != .lp) .modifier none
  | .ldq _ _ o => need (!o.nl1 || o.sp == .gm) .modifier none
  | .atom _ _ o => need (o.sp != .lp) .modifier
    (need (match o.aop, o.ty with
      | .inc, .i t => !t.signed
      | _, .i _ => true
      | .add, .f t | .min, .f t | .max, .f t | .exch, .f t => t == .f32 || t == .f64
      | _, .f _ => false) .type none)
  | .cas _ _ o => need (o.sp != .lp) .modifier none
  | .cpy _ o => need (o.dsp != .lp && o.ssp != .lp) .modifier
    (need (match o.conv with | .raw => true | .dec => o.ssp == .gm | .enc => o.dsp == .gm) .modifier
    (need (match o.len with | .imm v => v.toNat ≤ 2 ^ 24 | .s _ => true) .limit none))
  | .cpyw _ o => need (o.ssp == .gm || o.ssp == .ds) .modifier none
  | .gath _ o | .scat _ o => need (o.dsp != .lp && o.ssp != .lp) .modifier none
  | .mlut _ _ o => need (match o.spc with | none | some .bf16 => true | _ => false) .modifier none
  | .tspawn _ o => need (o.stage != 0) .limit none
  | .qpush _ n _ => need (n != 0) .limit none
  | .qpop _ _ o => need (o.stage != 0) .limit none
  | .qstat _ _ _ n => need (n != 0) .limit none
  | .bar _ k => need (2 ≤ k.toNat) .limit none
  | .sreg _ u _ x => need (!(u && (x == .laneid || x == .taddr))) .modifier
    (need (match x with | .lvl k => 2 ≤ k.toNat | _ => true) .limit none)
  | .wsreg _ .thb (.imm v) => need (slotOk (v.extractLsb' 0 3)) .slot none
  | .mig _ _ o => need (o.k.toNat ≤ 16) .limit
    (need (o.k != 0 || o.a == 0) .limit none)
  | .caveLd o => need (!(o.s && o.sz == .b64)) .modifier none
  | .caveVld o | .caveVst o => need (!(o.bank && o.lm)) .modifier none
  | .caveVcmp o => need (match o.cc, o.ty with | .ord, .i32 | .uno, .i32 => false | _, _ => true) .type none
  | .caveVmov (.xv h _ _ lane) | .caveVmov (.vx _ h _ _ lane) => need (h || lane.toNat < 32) .limit none
  | _ => none

/-- The first limit that a term breaks; `none` for a term that an encoding stands for. -/
def Instr.check (i : Instr) : Option Illegal :=
  match i.operands.findSome? Use.check with
  | some e => some e
  | none => i.limits

/-- A term that some instruction word stands for (R74, R78). -/
def Instr.WellFormed (i : Instr) : Prop := i.check = none

/-- The further limits of R57 against the allocation of the wave that runs the instruction: general registers below
`nregs`, tiles below `ntiles`. -/
def Instr.fitsRegs (i : Instr) (nregs ntiles : Nat) : Bool :=
  i.uses.all fun u =>
    match u.file with
    | .g => u.first + u.count ≤ nregs
    | .t => u.first + u.count ≤ ntiles
    | _ => true

end Sys2Proof
end

