-- ==== Sys2Proof/Decode.lean ====
section
/-! DEFINITION. The front instruction word, the fetch line and the cave word (03): fields, decoder and encoder. Decoding
builds the term that the class and the opcode name from the fields, and accepts it only where every field holds exactly what
the encoding of that term holds and every limit of the entry is met: so a reserved code, a non-zero unused field or a broken
limit never decodes as another instruction (R74, R78). -/

namespace Sys2Proof

/-- Why a word is illegal (R74, R78). -/
inductive DecErr
  /-- CLS 14 or 15 (R55) -/
  | reservedClass
  /-- an OP that its class, or the cave level, does not define (R73, R77) -/
  | undefinedOp
  /-- a field holds a code its entry does not list, or an unused field is not zero -/
  | fields
  /-- a limit of the entry is broken -/
  | limit (e : Illegal)
  deriving DecidableEq, Repr, Inhabited

/-! ### Fields of the front word (R55) -/

structure FrontFields where
  imm : Word
  md : BitVec 8
  pn : Bool
  pg : BitVec 3
  la : BitVec 4
  ck : BitVec 2
  bk : BitVec 2
  c : BitVec 8
  b : BitVec 8
  a : BitVec 8
  d : BitVec 8
  cls : BitVec 4
  op : BitVec 8
  deriving DecidableEq, Repr, Inhabited

/-- The 96 bits of a front word, IMM in the most significant ones. -/
def packFront (f : FrontFields) : BitVec 96 :=
  f.imm ++ f.md ++ BitVec.ofBool f.pn ++ f.pg ++ f.la ++ f.ck ++ f.bk ++ f.c ++ f.b ++ f.a ++ f.d ++ f.cls ++ f.op

def unpackFront (w : BitVec 96) : FrontFields where
  imm := w.extractLsb' 64 32
  md := w.extractLsb' 56 8
  pn := w.getLsbD 55
  pg := w.extractLsb' 52 3
  la := w.extractLsb' 48 4
  ck := w.extractLsb' 46 2
  bk := w.extractLsb' 44 2
  c := w.extractLsb' 36 8
  b := w.extractLsb' 28 8
  a := w.extractLsb' 20 8
  d := w.extractLsb' 12 8
  cls := w.extractLsb' 8 4
  op := w.extractLsb' 0 8

/-! ### Codes (R56 and the entries) -/

def intTyCode : IntTy → BitVec 4 | .s32 => 0 | .z32 => 1 | .s64 => 2 | .z64 => 3
def fltTyCode : FltTy → BitVec 4 | .f16 => 4 | .bf16 => 5 | .f32 => 6 | .f64 => 7
def tyCode : Ty → BitVec 4
  | .s32 => 0 | .z32 => 1 | .s64 => 2 | .z64 => 3 | .f16 => 4 | .bf16 => 5 | .f32 => 6 | .f64 => 7 | .f8e4 => 8
def fty5Code : FTy5 → BitVec 4 | .f16 => 4 | .bf16 => 5 | .f32 => 6 | .f64 => 7 | .f8e4 => 8
def numTyCode : NumTy → BitVec 4 | .i t => intTyCode t | .f t => fltTyCode t
def rmCode : Rm → BitVec 2 | .rne => 0 | .rz => 1 | .rp => 2 | .rm => 3
def scopeCode : Scope → BitVec 3 | .wave => 0 | .block => 1 | .cluster => 2 | .die => 3 | .device => 4 | .system => 5
def spaceCode : Space → BitVec 3 | .gm => 0 | .lp => 1 | .sp => 2 | .cl => 3 | .ds => 4
def ccCode : Cc → BitVec 4 | .eq => 0 | .ne => 1 | .lt => 2 | .le => 3 | .gt => 4 | .ge => 5 | .ord => 6 | .uno => 7
def voteCode : VoteKind → BitVec 4 | .all => 0 | .any => 1 | .uni => 2
def shflCode : ShflMode → BitVec 4 | .idx => 0 | .up => 1 | .down => 2 | .xor => 3
def redCode : RedKind → BitVec 4 | .add => 0 | .min => 1 | .max => 2 | .and => 3 | .or => 4 | .xor => 5
def szCode : Sz → BitVec 2 | .full => 0 | .b8 => 1 | .b16 => 2
def cntCode : Cnt → BitVec 2 | .x1 => 0 | .x2 => 1 | .x4 => 2 | .x8 => 3
def ord6Code : Ord6 → BitVec 2 | .none => 0 | .acq => 1 | .rel => 2 | .ar => 3
def aopCode : Aop → BitVec 3
  | .add => 0 | .min => 1 | .max => 2 | .and => 3 | .or => 4 | .xor => 5 | .exch => 6 | .inc => 7
def fenceCode : FenceKind → BitVec 2 | .acq => 1 | .rel => 2 | .ar => 3
def convCode : Conv → BitVec 2 | .raw => 0 | .dec => 1 | .enc => 2
def sfCode : Sf → BitVec 3 | .bf16 => 0 | .f16 => 1 | .f8e4 => 2
def afCode : Af → BitVec 2 | .f32 => 0 | .s32 => 1 | .f16 => 2
def ssCode : SSel → BitVec 8
  | .laneid => 0x00 | .waveid => 0x01 | .blockid => 0x02 | .lvl k => 1 + k.setWidth 8 | .core => 0x09 | .cluster => 0x0A
  | .die => 0x0B | .wcyc => 0x10 | .dcyc => 0x11 | .wtdl => 0x12 | .tcause => 0x18 | .tfpc => 0x19 | .tem => 0x1A
  | .taddr => 0x1B | .thb => 0x20 | .pdrain => 0x21 | .pflush => 0x22
def wsCode : WSel → BitVec 8 | .thb => 0x20 | .pdrain => 0x21 | .pflush => 0x22

/-! A code that names nothing is read as some listed one; the comparison with the encoding then refuses the word. -/

def intTyOf (c : BitVec 4) : IntTy := match c.toNat with | 1 => .z32 | 2 => .s64 | 3 => .z64 | _ => .s32
def fltTyOf (c : BitVec 4) : FltTy := match c.toNat with | 4 => .f16 | 5 => .bf16 | 6 => .f32 | _ => .f64
def tyOf (c : BitVec 4) : Ty :=
  match c.toNat with
  | 0 => .s32 | 1 => .z32 | 2 => .s64 | 3 => .z64 | 4 => .f16 | 5 => .bf16 | 6 => .f32 | 7 => .f64 | _ => .f8e4
def fty5Of (c : BitVec 4) : FTy5 := match c.toNat with | 4 => .f16 | 5 => .bf16 | 6 => .f32 | 7 => .f64 | _ => .f8e4
def numTyOf (c : BitVec 4) : NumTy := if c.toNat < 4 then .i (intTyOf c) else .f (fltTyOf c)
def rmOf (c : BitVec 2) : Rm := match c.toNat with | 0 => .rne | 1 => .rz | 2 => .rp | _ => .rm
def scopeOf (c : BitVec 3) : Scope :=
  match c.toNat with | 0 => .wave | 1 => .block | 2 => .cluster | 3 => .die | 4 => .device | _ => .system
def spaceOf (c : BitVec 3) : Space := match c.toNat with | 0 => .gm | 1 => .lp | 2 => .sp | 3 => .cl | _ => .ds
def ccOf (c : BitVec 4) : Cc :=
  match c.toNat with | 0 => .eq | 1 => .ne | 2 => .lt | 3 => .le | 4 => .gt | 5 => .ge | 6 => .ord | _ => .uno
def voteOf (c : BitVec 4) : VoteKind := match c.toNat with | 0 => .all | 1 => .any | _ => .uni
def shflOf (c : BitVec 4) : ShflMode := match c.toNat with | 0 => .idx | 1 => .up | 2 => .down | _ => .xor
def redOf (c : BitVec 4) : RedKind :=
  match c.toNat with | 0 => .add | 1 => .min | 2 => .max | 3 => .and | 4 => .or | _ => .xor
def szOf (c : BitVec 2) : Sz := match c.toNat with | 0 => .full | 1 => .b8 | _ => .b16
def cntOf (c : BitVec 2) : Cnt := match c.toNat with | 0 => .x1 | 1 => .x2 | 2 => .x4 | _ => .x8
def ord6Of (c : BitVec 2) : Ord6 := match c.toNat with | 0 => .none | 1 => .acq | 2 => .rel | _ => .ar
def aopOf (c : BitVec 3) : Aop :=
  match c.toNat with
  | 0 => .add | 1 => .min | 2 => .max | 3 => .and | 4 => .or | 5 => .xor | 6 => .exch | _ => .inc
def fenceOf (c : BitVec 2) : FenceKind := match c.toNat with | 1 => .acq | 2 => .rel | _ => .ar
def convOf (c : BitVec 2) : Conv := match c.toNat with | 0 => .raw | 1 => .dec | _ => .enc
def sfOf (c : BitVec 3) : Sf := match c.toNat with | 0 => .bf16 | 1 => .f16 | _ => .f8e4
def afOf (c : BitVec 2) : Af := match c.toNat with | 0 => .f32 | 1 => .s32 | _ => .f16
def ssOf (c : BitVec 8) : SSel :=
  match c.toNat with
  | 0x00 => .laneid | 0x01 => .waveid | 0x02 => .blockid | 0x09 => .core | 0x0A => .cluster | 0x0B => .die
  | 0x10 => .wcyc | 0x11 => .dcyc | 0x12 => .wtdl | 0x18 => .tcause | 0x19 => .tfpc | 0x1A => .tem | 0x1B => .taddr
  | 0x20 => .thb | 0x21 => .pdrain | 0x22 => .pflush | _ => .lvl ((c - 1).setWidth 3)
def wsOf (c : BitVec 8) : WSel := match c.toNat with | 0x20 => .thb | 0x21 => .pdrain | _ => .pflush

/-! ### Reading fields -/

namespace FrontFields
def guard (f : FrontFields) : Guard := ⟨f.pg, f.pn⟩
def mbit (f : FrontFields) (n : Nat) : Bool := f.md.getLsbD n
/-- MOD[3:0] (R56). -/
def ty (f : FrontFields) : BitVec 4 := f.md.extractLsb' 0 4
/-- MOD[5:4] (R56). -/
def rm (f : FrontFields) : Rm := rmOf (f.md.extractLsb' 4 2)
def u (f : FrontFields) : Bool := f.mbit 7
def srcB (f : FrontFields) : SrcB :=
  match f.bk.toNat with
  | 0 => .g f.b | 1 => .s f.b | 2 => .imm f.imm | _ => .cw (f.imm.extractLsb' 0 3) (f.imm.extractLsb' 3 17)
def srcBC (f : FrontFields) : SrcC := if f.bk == 0 then .g f.b else .s f.b
def srcC (f : FrontFields) : SrcC := if f.ck == 0 then .g f.c else .s f.c
def srcU (f : FrontFields) : SrcU := if f.bk == 1 then .s f.b else .imm f.imm
def srcV (f : FrontFields) : SrcV := match f.bk.toNat with | 0 => .g f.b | 1 => .s f.b | _ => .imm f.imm
def br (f : FrontFields) : BrImm := ⟨f.imm.extractLsb' 0 3, f.imm.extractLsb' 3 29⟩
def pd (f : FrontFields) : PReg := f.d.setWidth 3
def pa (f : FrontFields) : PReg := f.a.setWidth 3
def pb (f : FrontFields) : PReg := f.b.setWidth 3
def pc (f : FrontFields) : PReg := f.c.setWidth 3
def pr (f : FrontFields) : PReg := f.md.extractLsb' 0 3
def c4 (f : FrontFields) : BitVec 4 := f.c.extractLsb' 0 4
def sc (f : FrontFields) : Scope := scopeOf (f.c.extractLsb' 4 3)
def sp (f : FrontFields) : Space := spaceOf (f.md.extractLsb' 0 3)
def md2 (f : FrontFields) : BitVec 2 := f.md.extractLsb' 6 2
def intBin (f : FrontFields) : IntBin := ⟨intTyOf f.ty, f.u, f.d, f.a, f.srcB⟩
def intUn (f : FrontFields) : IntUn := ⟨intTyOf f.ty, f.u, f.d, f.a⟩
def fltBin (f : FrontFields) : FltBin := ⟨fltTyOf f.ty, f.u, f.d, f.a, f.srcB⟩
def fltUn (f : FrontFields) : FltUn := ⟨fltTyOf f.ty, f.u, f.d, f.a⟩
def pack (f : FrontFields) : PackOp := ⟨f.rm, f.d, f.a, f.srcB⟩
def red (f : FrontFields) : RedOp := ⟨redOf f.c4, numTyOf f.ty, f.rm, f.d, f.a⟩
def cacheOp (f : FrontFields) : CacheOp := ⟨f.a, f.srcBC, f.imm⟩
def gath (f : FrontFields) : GathOp :=
  ⟨spaceOf (f.md.extractLsb' 3 3), f.sp, f.d, f.a, f.b, f.c, f.imm.extractLsb' 0 16, f.imm.extractLsb' 16 3⟩
def spc (f : FrontFields) : Option Sf := if f.mbit 6 then some (sfOf (f.md.extractLsb' 0 3)) else none
def mma (f : FrontFields) : MmaOp := ⟨f.d, f.a, f.b, f.imm.extractLsb' 0 16, f.imm.extractLsb' 16 16, f.spc⟩
def gmut (f : FrontFields) : GmutOp := ⟨f.d, f.a, f.srcBC, f.srcC, f.imm.extractLsb' 0 8, f.pr⟩
end FrontFields

/-! ### The term that CLS and OP name (R73) -/

def buildCls0 (f : FrontFields) : Option Instr :=
  match f.op.toNat with
  | 0x00 => some .nop
  | 0x01 => some (.bra f.guard f.br)
  | 0x02 => some (.bdiv f.guard f.pa (if f.mbit 6 then none else some ⟨f.b, f.pc⟩) f.br)
  | 0x03 => some (.rjoin f.guard)
  | 0x04 => some (.call f.guard f.br)
  | 0x05 => some (.ret f.guard)
  | 0x06 => some (.jmpi f.guard f.a)
  | 0x07 => some (.exit f.guard)
  | 0x08 => some (.yield f.guard)
  | _ => none

def buildCls1 (f : FrontFields) : Option Instr :=
  match f.op.toNat with
  | 0x00 => some (.iadd f.guard (f.mbit 6) f.intBin)
  | 0x01 => some (.isub f.guard (f.mbit 6) f.intBin)
  | 0x02 => some (.imul f.guard (f.mbit 6) f.intBin)
  | 0x03 => some (.imulh f.guard f.intBin)
  | 0x04 => some (.imad f.guard (f.mbit 6) f.intBin f.srcC)
  | 0x05 => some (.idiv f.guard f.la f.intBin)
  | 0x06 => some (.irem f.guard f.la f.intBin)
  | 0x07 => some (.imin f.guard f.intBin)
  | 0x08 => some (.imax f.guard f.intBin)
  | 0x09 => some (.iabs f.guard (f.mbit 6) f.intUn)
  | 0x0A => some (.ineg f.guard (f.mbit 6) f.intUn)
  | 0x0B => some (.and f.guard f.intBin)
  | 0x0C => some (.or f.guard f.intBin)
  | 0x0D => some (.xor f.guard f.intBin)
  | 0x0E => some (.not f.guard f.intUn)
  | 0x0F => some (.shl f.guard f.intBin)
  | 0x10 => some (.shr f.guard f.intBin)
  | 0x11 => some (.sra f.guard f.intBin)
  | 0x12 => some (.rot f.guard f.intBin)
  | 0x13 => some (.bfe f.guard f.intBin)
  | 0x14 => some (.bfi f.guard f.intBin f.srcC)
  | 0x15 => some (.popc f.guard f.intUn)
  | 0x16 => some (.clz f.guard f.intUn)
  | 0x17 => some (.ctz f.guard f.intUn)
  | 0x18 => some (.brev f.guard f.intUn)
  | 0x19 => some (.lea f.guard ⟨!f.md.getLsbD 0, f.md.extractLsb' 4 3, f.u, f.d, f.a, f.srcB⟩)
  | 0x1A => some (.iaddc f.guard f.d f.a f.srcB f.pc)
  | 0x1B => some (.sel f.guard f.intBin f.pc)
  | 0x1C => some (.mov f.guard (intTyOf f.ty) f.u f.d f.srcB)
  | 0x1D => some (.movi f.guard (intTyOf f.ty) f.u f.d f.imm)
  | _ => none

def buildCls2 (f : FrontFields) : Option Instr :=
  match f.op.toNat with
  | 0x00 => some (.fadd f.guard f.rm f.fltBin)
  | 0x01 => some (.fsub f.guard f.rm f.fltBin)
  | 0x02 => some (.fmul f.guard f.rm f.fltBin)
  | 0x03 => some (.ffma f.guard f.rm f.fltBin f.srcC)
  | 0x04 => some (.fdiv f.guard f.la f.rm f.fltBin)
  | 0x05 => some (.fmin f.guard f.fltBin)
  | 0x06 => some (.fmax f.guard f.fltBin)
  | 0x07 => some (.fabs f.guard f.fltUn)
  | 0x08 => some (.fneg f.guard f.fltUn)
  | 0x09 => some (.frcp f.guard f.la f.rm f.fltUn)
  | 0x0A => some (.frsq f.guard f.la f.rm f.fltUn)
  | 0x0B => some (.fsqrt f.guard f.la f.rm f.fltUn)
  | 0x0C => some (.fex2 f.guard f.la f.rm f.fltUn)
  | 0x0D => some (.flg2 f.guard f.la f.rm f.fltUn)
  | 0x0E => some (.fsin f.guard f.la f.rm f.fltUn)
  | 0x0F => some (.fcos f.guard f.la f.rm f.fltUn)
  | _ => none

def buildCls3 (f : FrontFields) : Option Instr :=
  match f.op.toNat with
  | 0x00 => some (.cvt f.guard ⟨tyOf f.ty, tyOf f.c4, f.rm, f.u, f.d, f.a⟩)
  | 0x01 => some (.pk4x f.guard f.pack)
  | 0x02 => some (.upk4x f.guard f.pack)
  | 0x03 => some (.pk6 f.guard f.pack)
  | 0x04 => some (.upk6 f.guard f.pack)
  | 0x05 => some (.fclass f.guard (fty5Of f.ty) f.u f.d f.a)
  | _ => none

def buildCls4 (f : FrontFields) : Option Instr :=
  match f.op.toNat with
  | 0x00 => some (.icmp f.guard ⟨ccOf f.c4, intTyOf f.ty, f.pd, f.a, f.srcB⟩)
  | 0x01 => some (.fcmp f.guard ⟨ccOf f.c4, fty5Of f.ty, f.pd, f.a, f.srcB⟩)
  | 0x02 => some (.plog f.guard f.pd f.pa f.pb f.pc (f.imm.setWidth 8))
  | 0x03 => some (.pmov f.guard (if f.mbit 6 then .toG f.d f.pa else .toP f.pd f.a))
  | 0x04 => some (.ballot f.guard (f.mbit 6) f.u f.d f.pa)
  | 0x05 => some (.vote f.guard (f.mbit 6) (voteOf f.c4) f.pd f.pa)
  | 0x06 => some (.shfl f.guard (f.mbit 6) ⟨shflOf f.c4, f.md.getLsbD 1, f.d, f.a, f.srcB⟩)
  | 0x07 => some (.lred f.guard (f.mbit 6) f.u f.red)
  | 0x08 => some (.lscan f.guard (f.mbit 6) f.u f.red)
  | 0x09 => some (.emrd f.guard f.u f.d)
  | 0x0A => some (.emwr f.srcU)
  | _ => none

def buildCls5 (f : FrontFields) : Option Instr :=
  let o := f.md.extractLsb' 4 2
  let ty := intTyOf f.c4
  match f.op.toNat with
  | 0x00 => some (.ld f.guard f.la
      ⟨f.sp, if o == 1 then some f.sc else none, f.mbit 3, szOf f.md2, ty, f.d, f.a, f.imm⟩)
  | 0x01 => some (.st f.guard ⟨f.sp, if o == 2 then some f.sc else none, szOf f.md2, ty, f.a, f.srcBC, f.imm⟩)
  | 0x02 => some (.ldq f.guard f.la ⟨f.sp, f.mbit 3, f.d, f.a, f.imm⟩)
  | 0x03 => some (.stq f.guard ⟨f.sp, f.a, f.b, f.imm⟩)
  | 0x04 => some (.ldf f.guard f.la ⟨cntOf f.md2, f.mbit 3, f.d, f.a, f.srcC, f.imm⟩)
  | 0x05 => some (.stf f.guard ⟨cntOf f.md2, f.rm, f.a, f.b, f.srcC, f.imm⟩)
  | _ => none

def buildCls6 (f : FrontFields) : Option Instr :=
  match f.op.toNat with
  | 0x00 => some (.atom f.guard f.la
      ⟨aopOf (f.md.extractLsb' 3 3), ord6Of f.md2, f.sp, numTyOf f.c4, f.sc, f.d, f.a, f.srcBC, f.imm⟩)
  | 0x01 => some (.cas f.guard f.la ⟨ord6Of f.md2, f.sp, intTyOf f.c4, f.sc, f.d, f.a, f.srcBC, f.imm⟩)
  | 0x02 => some (.fence f.guard (fenceOf f.md2) f.sc)
  | 0x03 => some (.cwb f.guard f.cacheOp)
  | 0x04 => some (.cinv f.guard f.d f.cacheOp)
  | 0x05 => some (.cflush f.guard f.cacheOp)
  | 0x06 => some (.pref f.guard (f.mbit 0) f.a f.imm)
  | _ => none

def buildCls7 (f : FrontFields) : Option Instr :=
  match f.op.toNat with
  | 0x00 => some (.cpy f.guard ⟨convOf f.md2, spaceOf (f.md.extractLsb' 3 3), f.sp, f.d, f.a, f.srcU, f.c⟩)
  | 0x01 => some (.cpyw f.guard ⟨f.sp, f.d, f.a, f.b, f.c⟩)
  | 0x02 => some (.gath f.guard f.gath)
  | 0x03 => some (.scat f.guard f.gath)
  | 0x04 => some (.chini f.guard f.a f.srcU f.c)
  | 0x05 => some (.chwait f.guard f.d f.a f.srcU)
  | 0x06 => some (.chrel f.guard f.a f.srcU)
  | _ => none

def buildCls8 (f : FrontFields) : Option Instr :=
  match f.op.toNat with
  | 0x00 => some (.mma f.guard f.la f.mma)
  | 0x01 => some (.mlut f.guard f.la f.mma)
  | 0x02 => some (.mzero f.guard f.la f.d (afOf (f.md.extractLsb' 0 2)))
  | 0x03 => some (.mld f.guard f.la ⟨f.d, f.a, f.imm, f.mbit 6, afOf (f.md.extractLsb' 0 2)⟩)
  | 0x04 => some (.mst f.guard f.la ⟨f.d, f.a, f.imm, f.mbit 6⟩)
  | 0x05 => some (.mfence f.guard f.la f.d)
  | 0x06 => some (.mwait f.guard (if f.mbit 6 then some f.d else none) f.a)
  | 0x07 => some (.mrep f.guard (f.mbit 6) f.a)
  | 0x08 => some (.mflg f.guard f.d)
  | _ => none

def buildCls9 (f : FrontFields) : Option Instr :=
  let inl := f.mbit 3
  match f.op.toNat with
  | 0x00 => some (.gnew f.guard f.la f.d f.a)
  | 0x01 => some (.gfree f.guard f.la f.a)
  | 0x02 => some (.gadd f.guard f.la f.gmut)
  | 0x03 => some (.gdel f.guard f.la ⟨f.d, f.a, f.srcBC, f.srcC, f.pr⟩)
  | 0x04 => some (.gdeg f.guard f.la ⟨inl, f.d, f.a, f.srcV, f.pr⟩)
  | 0x05 => some (.gld f.guard f.la ⟨inl, f.d, f.a, f.srcV, f.srcC, f.pr⟩)
  | 0x06 => some (.gwt f.guard f.la f.gmut)
  | 0x07 => some (.gfind f.guard f.la ⟨inl, f.d, f.a, f.srcBC, f.srcC, f.pr⟩)
  | 0x08 => some (.gopen f.guard f.la ⟨inl, f.d.setWidth 4, f.a, f.srcV, f.pr⟩)
  | 0x09 => some (.gnext f.guard f.la ⟨f.d, f.a.setWidth 4, f.pr⟩)
  | 0x0A => some (.gclose f.guard (f.d.setWidth 4))
  | 0x0B => some (.gcst f.guard f.la ⟨f.d, f.a.setWidth 4, f.pr⟩)
  | 0x0C => some (.gver f.guard f.la ⟨f.d, f.a, f.pr⟩)
  | _ => none

def buildCls10 (f : FrontFields) : Option Instr :=
  let stage : BitVec 3 := f.imm.extractLsb' 0 3
  match f.op.toNat with
  | 0x00 => some (.tspawn f.guard ⟨f.d, stage, f.a, f.srcBC, f.pr⟩)
  | 0x01 => some (.tdone f.guard)
  | 0x02 => some (.qpush f.guard stage f.a)
  | 0x03 => some (.qpop f.guard f.la ⟨f.d, stage, f.pr⟩)
  | 0x04 => some (.qstat f.guard f.la f.d stage)
  | 0x05 => some (.tbound f.guard f.srcBC)
  | 0x06 => some (.fchk f.guard)
  | 0x07 => some (.incld f.guard f.la (f.mbit 3) f.d)
  | 0x08 => some (.incmin f.guard f.la ⟨f.d, f.a, f.srcBC, f.pr⟩)
  | _ => none

def buildCls11 (f : FrontFields) : Option Instr :=
  match f.op.toNat with
  | 0x00 => some (.bar f.guard (f.imm.extractLsb' 0 3))
  | 0x01 => some (.bini f.guard f.a f.srcU)
  | 0x02 => some (.binv f.guard f.a)
  | 0x03 => some (.barar f.guard f.d f.a f.pr)
  | 0x04 => some (.barw f.guard f.a f.srcU f.pr)
  | 0x05 => some (.sinc f.guard f.a f.srcU)
  | 0x06 => some (.swait f.guard (f.mbit 6) f.a f.srcU)
  | 0x07 => some (.sset f.guard f.a f.srcU)
  | 0x08 => some (.tmset f.guard (f.mbit 6) f.srcU)
  | _ => none

def buildCls12 (f : FrontFields) : Option Instr :=
  match f.op.toNat with
  | 0x00 => some (.sreg f.guard f.u f.d (ssOf f.a))
  | 0x01 => some (.wsreg f.guard (wsOf f.d) f.srcU)
  | 0x02 => some (.trap f.guard f.imm)
  | 0x03 => match f.md2.toNat with
    | 0 => some (.tretRetry f.guard)
    | 1 => some (.tretSkip f.guard)
    | _ => some (.tretEnd f.guard)
  | 0x04 => some (.brk f.guard f.imm)
  | 0x05 => some (.perfrd f.guard f.d (f.imm.setWidth 8))
  | 0x06 => some (.icinv f.guard)
  | _ => none

def buildCls13 (f : FrontFields) : Option Instr :=
  match f.op.toNat with
  | 0x00 => some (.cdisp f.guard f.la f.d f.srcBC f.imm)
  | 0x01 => some (.cwait f.guard (if f.mbit 6 then some f.d else none) f.a)
  | 0x02 => some (.mig f.guard f.la ⟨f.d, f.a, f.md.extractLsb' 0 5, f.srcBC, f.c, f.imm⟩)
  | 0x03 => some (.cmsg f.guard f.la
      ⟨f.d, f.srcBC, f.imm.extractLsb' 8 4, f.imm.extractLsb' 4 4, f.imm.extractLsb' 0 4⟩)
  | _ => none

def buildFront (f : FrontFields) : Option Instr :=
  match f.cls.toNat with
  | 0 => buildCls0 f | 1 => buildCls1 f | 2 => buildCls2 f | 3 => buildCls3 f | 4 => buildCls4 f | 5 => buildCls5 f
  | 6 => buildCls6 f | 7 => buildCls7 f | 8 => buildCls8 f | 9 => buildCls9 f | 10 => buildCls10 f
  | 11 => buildCls11 f | 12 => buildCls12 f | 13 => buildCls13 f | _ => none

/-! ### The encoding of a front instruction (R11, R55 to R60 and the entries) -/

/-- A word of class `cls` and opcode `op` whose other fields are 0, under the guard `g`. -/
def encBase (cls : BitVec 4) (op : BitVec 8) (g : Guard) : FrontFields :=
  ⟨0, 0, g.pn, g.pg, 0, 0, 0, 0, 0, 0, 0, cls, op⟩

/-- MOD as R56 and R125 lay it out. -/
def encMod (ty : BitVec 4) (rm : BitVec 2) (b6 b7 : Bool) : BitVec 8 := BitVec.ofBool b7 ++ BitVec.ofBool b6 ++ rm ++ ty
def p8 (p : PReg) : BitVec 8 := p.setWidth 8
def encCw (win : BitVec 3) (off : BitVec 17) : Word := (0 : BitVec 12) ++ off ++ win
def encBr (t : BrImm) : Word := t.lines ++ t.slot

namespace FrontFields
def putB (f : FrontFields) (b : SrcB) : FrontFields :=
  match b with
  | .g r => { f with b := r }
  | .s r => { f with b := r, bk := 1 }
  | .imm v => { f with imm := v, bk := 2 }
  | .cw w off => { f with imm := encCw w off, bk := 3 }
def putBC (f : FrontFields) (b : SrcC) : FrontFields :=
  match b with
  | .g r => { f with b := r }
  | .s r => { f with b := r, bk := 1 }
def putU (f : FrontFields) (b : SrcU) : FrontFields :=
  match b with
  | .s r => { f with b := r, bk := 1 }
  | .imm v => { f with imm := v, bk := 2 }
def putV (f : FrontFields) (b : SrcV) : FrontFields :=
  match b with
  | .g r => { f with b := r }
  | .s r => { f with b := r, bk := 1 }
  | .imm v => { f with imm := v, bk := 2 }
def putC (f : FrontFields) (c : SrcC) : FrontFields :=
  match c with
  | .g r => { f with c := r }
  | .s r => { f with c := r, ck := 1 }
/-- A uniform C, whose CK is 01 (R245, R294, R336). -/
def putCs (f : FrontFields) (c : Reg) : FrontFields := { f with c := c, ck := 1 }
/-- A uniform B, whose BK is 01. -/
def putBs (f : FrontFields) (b : Reg) : FrontFields := { f with b := b, bk := 1 }
def putDA (f : FrontFields) (d a : BitVec 8) : FrontFields := { f with d := d, a := a }
def putMd (f : FrontFields) (m : BitVec 8) : FrontFields := { f with md := m }
def putLa (f : FrontFields) (n : BitVec 4) : FrontFields := { f with la := n }
def putImm (f : FrontFields) (v : Word) : FrontFields := { f with imm := v }
def putCc (f : FrontFields) (c : BitVec 8) : FrontFields := { f with c := c }
end FrontFields

def encIntBin (op : BitVec 8) (g : Guard) (sat : Bool) (o : IntBin) : FrontFields :=
  (((encBase 1 op g).putDA o.d o.a).putMd (encMod (intTyCode o.ty) 0 sat o.u)).putB o.b
def encIntUn (op : BitVec 8) (g : Guard) (sat : Bool) (o : IntUn) : FrontFields :=
  ((encBase 1 op g).putDA o.d o.a).putMd (encMod (intTyCode o.ty) 0 sat o.u)
def encFltBin (op : BitVec 8) (g : Guard) (rm : Rm) (o : FltBin) : FrontFields :=
  (((encBase 2 op g).putDA o.d o.a).putMd (encMod (fltTyCode o.ty) (rmCode rm) false o.u)).putB o.b
def encFltUn (op : BitVec 8) (g : Guard) (la : BitVec 4) (rm : Rm) (o : FltUn) : FrontFields :=
  (((encBase 2 op g).putDA o.d o.a).putMd (encMod (fltTyCode o.ty) (rmCode rm) false o.u)).putLa la
def encPack (op : BitVec 8) (g : Guard) (o : PackOp) : FrontFields :=
  (((encBase 3 op g).putDA o.d o.a).putMd (encMod 0 (rmCode o.rm) false false)).putB o.b
def encRed (op : BitVec 8) (g : Guard) (part b7 : Bool) (o : RedOp) : FrontFields :=
  (((encBase 4 op g).putDA o.d o.a).putMd (encMod (numTyCode o.ty) (rmCode o.rm) part b7)).putCc
    ((redCode o.op).setWidth 8)
/-- TY and SC in the C field (R230, R237). -/
def encTySc (ty : BitVec 4) (sc : BitVec 3) : BitVec 8 := (0 : BitVec 1) ++ sc ++ ty
def encMod232 (hi : BitVec 2) (mid : BitVec 3) (lo : BitVec 3) : BitVec 8 := hi ++ mid ++ lo
def encSco : Option Scope → BitVec 3 | some s => scopeCode s | none => 0
def encCache (op : BitVec 8) (g : Guard) (d : Reg) (o : CacheOp) : FrontFields :=
  (((encBase 6 op g).putDA d o.a).putImm o.off).putBC o.b
def encGath (op : BitVec 8) (g : Guard) (o : GathOp) : FrontFields :=
  (((((encBase 7 op g).putDA o.d o.a).putMd (encMod232 0 (spaceCode o.dsp) (spaceCode o.ssp))).putBs o.b).putCs
    o.c).putImm ((0 : BitVec 13) ++ o.es ++ o.n)
def encSpc : Option Sf → BitVec 8
  | some x => (0 : BitVec 1) ++ (1 : BitVec 1) ++ (0 : BitVec 3) ++ sfCode x
  | none => 0
def encMma (op : BitVec 8) (g : Guard) (la : BitVec 4) (o : MmaOp) : FrontFields :=
  (({ (encBase 8 op g).putDA o.t o.a with b := o.b }.putMd (encSpc o.spc)).putImm (o.offB ++ o.offA)).putLa la
def encGr (inl : Bool) (pr : PReg) : BitVec 8 := (0 : BitVec 4) ++ BitVec.ofBool inl ++ pr
def encPr (pr : PReg) : BitVec 8 := pr.setWidth 8
def encGmut (op : BitVec 8) (g : Guard) (la : BitVec 4) (o : GmutOp) : FrontFields :=
  ((((((encBase 9 op g).putDA o.d o.h).putMd (encGr false o.pr)).putBC o.u).putC o.v).putImm (o.w.setWidth 32)).putLa la
def encStage (n : BitVec 3) : Word := n.setWidth 32

/-- The fields of a front instruction; none for the others. -/
def encodeFront : Instr → Option FrontFields
  | .nop => some (encBase 0 0x00 ⟨0, false⟩)
  | .bra g t => some ((encBase 0 0x01 g).putImm (encBr t))
  | .bdiv g k e t => some <| match e with
    | none => (((encBase 0 0x02 g).putDA 0 (p8 k)).putMd (encMod 0 0 true false)).putImm (encBr t)
    | some x => { ((encBase 0 0x02 g).putDA 0 (p8 k)).putImm (encBr t) with b := x.lines, c := p8 x.slot }
  | .rjoin g => some (encBase 0 0x03 g)
  | .call g t => some ((encBase 0 0x04 g).putImm (encBr t))
  | .ret g => some (encBase 0 0x05 g)
  | .jmpi g a => some (((encBase 0 0x06 g).putDA 0 a).putMd (encMod 0 0 false true))
  | .exit g => some (encBase 0 0x07 g)
  | .yield g => some (encBase 0 0x08 g)
  | .iadd g sat o => some (encIntBin 0x00 g sat o)
  | .isub g sat o => some (encIntBin 0x01 g sat o)
  | .imul g sat o => some (encIntBin 0x02 g sat o)
  | .imulh g o => some (encIntBin 0x03 g false o)
  | .imad g sat o c => some ((encIntBin 0x04 g sat o).putC c)
  | .idiv g la o => some ((encIntBin 0x05 g false o).putLa la)
  | .irem g la o => some ((encIntBin 0x06 g false o).putLa la)
  | .imin g o => some (encIntBin 0x07 g false o)
  | .imax g o => some (encIntBin 0x08 g false o)
  | .iabs g sat o => some (encIntUn 0x09 g sat o)
  | .ineg g sat o => some (encIntUn 0x0A g sat o)
  | .and g o => some (encIntBin 0x0B g false o)
  | .or g o => some (encIntBin 0x0C g false o)
  | .xor g o => some (encIntBin 0x0D g false o)
  | .not g o => some (encIntUn 0x0E g false o)
  | .shl g o => some (encIntBin 0x0F g false o)
  | .shr g o => some (encIntBin 0x10 g false o)
  | .sra g o => some (encIntBin 0x11 g false o)
  | .rot g o => some (encIntBin 0x12 g false o)
  | .bfe g o => some (encIntBin 0x13 g false o)
  | .bfi g o c => some ((encIntBin 0x14 g false o).putC c)
  | .popc g o => some (encIntUn 0x15 g false o)
  | .clz g o => some (encIntUn 0x16 g false o)
  | .ctz g o => some (encIntUn 0x17 g false o)
  | .brev g o => some (encIntUn 0x18 g false o)
  | .lea g o => some ((((encBase 1 0x19 g).putDA o.d o.a).putMd
      (BitVec.ofBool o.u ++ o.sh ++ (0 : BitVec 3) ++ BitVec.ofBool !o.sx)).putB o.b)
  | .iaddc g d a b c => some { (((encBase 1 0x1A g).putDA d a).putMd (encMod (intTyCode .z32) 0 false false)).putB b
      with c := p8 c }
  | .sel g o c => some { encIntBin 0x1B g false o with c := p8 c }
  | .mov g ty u d b => some (encIntBin 0x1C g false ⟨ty, u, d, 0, b⟩)
  | .movi g ty u d v => some (encIntBin 0x1D g false ⟨ty, u, d, 0, .imm v⟩)
  | .fadd g rm o => some (encFltBin 0x00 g rm o)
  | .fsub g rm o => some (encFltBin 0x01 g rm o)
  | .fmul g rm o => some (encFltBin 0x02 g rm o)
  | .ffma g rm o c => some ((encFltBin 0x03 g rm o).putC c)
  | .fdiv g la rm o => some ((encFltBin 0x04 g rm o).putLa la)
  | .fmin g o => some (encFltBin 0x05 g .rne o)
  | .fmax g o => some (encFltBin 0x06 g .rne o)
  | .fabs g o => some (encFltUn 0x07 g 0 .rne o)
  | .fneg g o => some (encFltUn 0x08 g 0 .rne o)
  | .frcp g la rm o => some (encFltUn 0x09 g la rm o)
  | .frsq g la rm o => some (encFltUn 0x0A g la rm o)
  | .fsqrt g la rm o => some (encFltUn 0x0B g la rm o)
  | .fex2 g la rm o => some (encFltUn 0x0C g la rm o)
  | .flg2 g la rm o => some (encFltUn 0x0D g la rm o)
  | .fsin g la rm o => some (encFltUn 0x0E g la rm o)
  | .fcos g la rm o => some (encFltUn 0x0F g la rm o)
  | .cvt g o => some ((((encBase 3 0x00 g).putDA o.d o.a).putMd (encMod (tyCode o.td) (rmCode o.rm) false o.u)).putCc
      ((tyCode o.ts).setWidth 8))
  | .pk4x g o => some (encPack 0x01 g o)
  | .upk4x g o => some (encPack 0x02 g o)
  | .pk6 g o => some (encPack 0x03 g o)
  | .upk6 g o => some (encPack 0x04 g o)
  | .fclass g ty u d a => some (((encBase 3 0x05 g).putDA d a).putMd (encMod (fty5Code ty) 0 false u))
  | .icmp g o => some (((((encBase 4 0x00 g).putDA (p8 o.d) o.a).putMd (encMod (intTyCode o.ty) 0 false false)).putB
      o.b).putCc ((ccCode o.cc).setWidth 8))
  | .fcmp g o => some (((((encBase 4 0x01 g).putDA (p8 o.d) o.a).putMd (encMod (fty5Code o.ty) 0 false false)).putB
      o.b).putCc ((ccCode o.cc).setWidth 8))
  | .plog g d a b c lut => some ({ (encBase 4 0x02 g).putDA (p8 d) (p8 a) with b := p8 b, c := p8 c }.putImm
      (lut.setWidth 32))
  | .pmov g (.toP d a) => some ((encBase 4 0x03 g).putDA (p8 d) a)
  | .pmov g (.toG d a) => some (((encBase 4 0x03 g).putDA d (p8 a)).putMd (encMod 0 0 true false))
  | .ballot g part u d a => some (((encBase 4 0x04 g).putDA d (p8 a)).putMd (encMod 0 0 part u))
  | .vote g part k d a => some ((((encBase 4 0x05 g).putDA (p8 d) (p8 a)).putMd (encMod 0 0 part false)).putCc
      ((voteCode k).setWidth 8))
  | .shfl g part o => some (((((encBase 4 0x06 g).putDA o.d o.a).putMd
      (encMod (if o.wide then 3 else 1) 0 part false)).putB o.b).putCc ((shflCode o.mode).setWidth 8))
  | .lred g part u o => some (encRed 0x07 g part u o)
  | .lscan g part excl o => some (encRed 0x08 g part excl o)
  | .emrd g u d => some (((encBase 4 0x09 g).putDA d 0).putMd (encMod 0 0 false u))
  | .emwr b => some ((encBase 4 0x0A .always).putU b)
  | .ld g la o => some ((((((encBase 5 0x00 g).putDA o.d o.a).putImm o.off).putLa la).putMd
      (szCode o.sz ++ (if o.acq.isSome then 1 else 0 : BitVec 2) ++ BitVec.ofBool o.nl1 ++ spaceCode o.sp)).putCc
      (encTySc (intTyCode o.ty) (encSco o.acq)))
  | .st g o => some ((((((encBase 5 0x01 g).putDA 0 o.a).putImm o.off).putMd
      (szCode o.sz ++ (if o.rel.isSome then 2 else 0 : BitVec 2) ++ (0 : BitVec 1) ++ spaceCode o.sp)).putCc
      (encTySc (intTyCode o.ty) (encSco o.rel))).putBC o.b)
  | .ldq g la o => some (((((encBase 5 0x02 g).putDA o.d o.a).putImm o.off).putLa la).putMd
      ((0 : BitVec 4) ++ BitVec.ofBool o.nl1 ++ spaceCode o.sp))
  | .stq g o => some ({ (encBase 5 0x03 g).putDA 0 o.a with b := o.b, imm := o.off }.putMd
      ((0 : BitVec 5) ++ spaceCode o.sp))
  | .ldf g la o => some ((((((encBase 5 0x04 g).putDA o.d o.a).putImm o.off).putLa la).putMd
      (cntCode o.cnt ++ (0 : BitVec 2) ++ BitVec.ofBool o.nl1 ++ (0 : BitVec 3))).putC o.c)
  | .stf g o => some (({ (encBase 5 0x05 g).putDA 0 o.a with b := o.b, imm := o.off }.putMd
      (cntCode o.cnt ++ rmCode o.rm ++ (0 : BitVec 4))).putC o.c)
  | .atom g la o => some (((((((encBase 6 0x00 g).putDA o.d o.a).putImm o.off).putLa la).putMd
      (encMod232 (ord6Code o.ord) (aopCode o.aop) (spaceCode o.sp))).putCc
      (encTySc (numTyCode o.ty) (scopeCode o.sc))).putBC o.b)
  | .cas g la o => some (((((((encBase 6 0x01 g).putDA o.d o.a).putImm o.off).putLa la).putMd
      (encMod232 (ord6Code o.ord) 0 (spaceCode o.sp))).putCc (encTySc (intTyCode o.ty) (scopeCode o.sc))).putBC o.b)
  | .fence g k sc => some (((encBase 6 0x02 g).putMd (encMod232 (fenceCode k) 0 0)).putCc (encTySc 0 (scopeCode sc)))
  | .cwb g o => some (encCache 0x03 g 0 o)
  | .cinv g d o => some (encCache 0x04 g d o)
  | .cflush g o => some (encCache 0x05 g 0 o)
  | .pref g l1 a off => some ((((encBase 6 0x06 g).putDA 0 a).putImm off).putMd (if l1 then 1 else 0))
  | .cpy g o => some (((((encBase 7 0x00 g).putDA o.d o.a).putMd
      (encMod232 (convCode o.conv) (spaceCode o.dsp) (spaceCode o.ssp))).putU o.len).putCs o.c)
  | .cpyw g o => some (((((encBase 7 0x01 g).putDA o.d o.a).putMd
      (encMod232 0 (spaceCode .sp) (spaceCode o.ssp))).putBs o.b).putCs o.c)
  | .gath g o => some (encGath 0x02 g o)
  | .scat g o => some (encGath 0x03 g o)
  | .chini g a b c => some ((((encBase 7 0x04 g).putDA 0 a).putU b).putCs c)
  | .chwait g d a b => some (((encBase 7 0x05 g).putDA d a).putU b)
  | .chrel g a b => some (((encBase 7 0x06 g).putDA 0 a).putU b)
  | .mma g la o => some (encMma 0x00 g la o)
  | .mlut g la o => some (encMma 0x01 g la o)
  | .mzero g la t af => some ((((encBase 8 0x02 g).putDA t 0).putMd ((0 : BitVec 6) ++ afCode af)).putLa la)
  | .mld g la o => some (((((encBase 8 0x03 g).putDA o.t o.a).putImm o.off).putMd
      ((0 : BitVec 1) ++ BitVec.ofBool o.spc ++ (0 : BitVec 4) ++ afCode o.af)).putLa la)
  | .mst g la o => some (((((encBase 8 0x04 g).putDA o.t o.a).putImm o.off).putMd (encMod 0 0 o.spc false)).putLa la)
  | .mfence g la d => some (((encBase 8 0x05 g).putDA d 0).putLa la)
  | .mwait g dst a => some <| match dst with
    | some d => ((encBase 8 0x06 g).putDA d a).putMd (encMod 0 0 true false)
    | none => (encBase 8 0x06 g).putDA 0 a
  | .mrep g drop a => some (((encBase 8 0x07 g).putDA 0 a).putMd (encMod 0 0 drop false))
  | .mflg g d => some ((encBase 8 0x08 g).putDA d 0)
  | .gnew g la d a => some (((encBase 9 0x00 g).putDA d a).putLa la)
  | .gfree g la a => some (((encBase 9 0x01 g).putDA 0 a).putLa la)
  | .gadd g la o => some (encGmut 0x02 g la o)
  | .gdel g la o => some ((((((encBase 9 0x03 g).putDA o.d o.h).putMd (encGr false o.pr)).putBC o.u).putC o.v).putLa la)
  | .gdeg g la o => some (((((encBase 9 0x04 g).putDA o.d o.h).putMd (encGr o.inl o.pr)).putV o.u).putLa la)
  | .gld g la o => some ((((((encBase 9 0x05 g).putDA o.d o.h).putMd (encGr o.inl o.pr)).putV o.u).putC o.rank).putLa
      la)
  | .gwt g la o => some (encGmut 0x06 g la o)
  | .gfind g la o => some ((((((encBase 9 0x07 g).putDA o.d o.h).putMd (encGr o.inl o.pr)).putBC o.u).putC o.v).putLa
      la)
  | .gopen g la o => some (((((encBase 9 0x08 g).putDA (o.q.setWidth 8) o.h).putMd (encGr o.inl o.pr)).putV o.u).putLa
      la)
  | .gnext g la o => some ((((encBase 9 0x09 g).putDA o.d (o.q.setWidth 8)).putMd (encGr false o.pr)).putLa la)
  | .gclose g q => some ((encBase 9 0x0A g).putDA (q.setWidth 8) 0)
  | .gcst g la o => some ((((encBase 9 0x0B g).putDA o.d (o.q.setWidth 8)).putMd (encGr false o.pr)).putLa la)
  | .gver g la o => some ((((encBase 9 0x0C g).putDA o.d o.h).putMd (encGr false o.pr)).putLa la)
  | .tspawn g o => some (((((encBase 10 0x00 g).putDA o.d o.a).putMd (encPr o.pr)).putBC o.b).putImm (encStage o.stage))
  | .tdone g => some (encBase 10 0x01 g)
  | .qpush g n a => some (((encBase 10 0x02 g).putDA 0 a).putImm (encStage n))
  | .qpop g la o => some (((((encBase 10 0x03 g).putDA o.d 0).putMd (encPr o.pr)).putImm (encStage o.stage)).putLa la)
  | .qstat g la d n => some ((((encBase 10 0x04 g).putDA d 0).putImm (encStage n)).putLa la)
  | .tbound g b => some ((encBase 10 0x05 g).putBC b)
  | .fchk g => some (encBase 10 0x06 g)
  | .incld g la acq d => some ((((encBase 10 0x07 g).putDA d 0).putMd (encGr acq 0)).putLa la)
  | .incmin g la o => some (((((encBase 10 0x08 g).putDA o.d o.a).putMd (encPr o.pr)).putBC o.b).putLa la)
  | .bar g k => some ((encBase 11 0x00 g).putImm (encStage k))
  | .bini g a b => some (((encBase 11 0x01 g).putDA 0 a).putU b)
  | .binv g a => some ((encBase 11 0x02 g).putDA 0 a)
  | .barar g d a pr => some (((encBase 11 0x03 g).putDA d a).putMd (encPr pr))
  | .barw g a b pr => some ((((encBase 11 0x04 g).putDA 0 a).putMd (encPr pr)).putU b)
  | .sinc g n b => some (((encBase 11 0x05 g).putDA 0 n).putU b)
  | .swait g dec n b => some ((((encBase 11 0x06 g).putDA 0 n).putMd (encMod 0 0 dec false)).putU b)
  | .sset g n b => some (((encBase 11 0x07 g).putDA 0 n).putU b)
  | .tmset g rel b => some (((encBase 11 0x08 g).putMd (encMod 0 0 rel false)).putU b)
  | .sreg g u d x => some (((encBase 12 0x00 g).putDA d (ssCode x)).putMd (encMod 0 0 false u))
  | .wsreg g x b => some (((encBase 12 0x01 g).putDA (wsCode x) 0).putU b)
  | .trap g code => some ((encBase 12 0x02 g).putImm code)
  | .tretRetry g => some (encBase 12 0x03 g)
  | .tretSkip g => some ((encBase 12 0x03 g).putMd (encMod232 1 0 0))
  | .tretEnd g => some ((encBase 12 0x03 g).putMd (encMod232 2 0 0))
  | .brk g code => some ((encBase 12 0x04 g).putImm code)
  | .perfrd g d n => some { ((encBase 12 0x05 g).putDA d 0).putImm (n.setWidth 32) with bk := 2 }
  | .icinv g => some (encBase 12 0x06 g)
  | .cdisp g la d b disp => some (((((encBase 13 0x00 g).putDA d 0).putBC b).putImm disp).putLa la)
  | .cwait g dst a => some <| match dst with
    | some d => ((encBase 13 0x01 g).putDA d a).putMd (encMod 0 0 true false)
    | none => (encBase 13 0x01 g).putDA 0 a
  | .mig g la o => some (((((((encBase 13 0x02 g).putDA o.d o.a).putMd (o.k.setWidth 8)).putBC o.b).putCs o.c).putImm
      o.disp).putLa la)
  | .cmsg g la o => some (((((encBase 13 0x03 g).putDA o.d 0).putBC o.b).putImm
      ((0 : BitVec 20) ++ o.stack ++ o.skc ++ o.h)).putLa la)
  | _ => none

/-- R74: the instruction of a front word, or the name of what is illegal about it. The limits that depend on a wave's
allocation and on the PC of a `bdiv` are checked where the instruction issues. -/
def decodeFront (w : BitVec 96) : Except DecErr Instr :=
  let f := unpackFront w
  if f.cls.toNat ≥ 14 then .error .reservedClass
  else match buildFront f with
    | none => .error .undefinedOp
    | some i =>
      if encodeFront i = some f then
        match i.check with
        | some e => .error (.limit e)
        | none => .ok i
      else .error .fields

/-! ### The cave word (R76 to R78) -/

structure CaveFields where
  imm : Word
  md : BitVec 6
  bank : Bool
  m : BitVec 3
  b : BitVec 5
  a : BitVec 5
  d : BitVec 5
  op : BitVec 7
  deriving DecidableEq, Repr, Inhabited

def packCave (f : CaveFields) : DWord :=
  f.imm ++ f.md ++ BitVec.ofBool f.bank ++ f.m ++ f.b ++ f.a ++ f.d ++ f.op

def unpackCave (w : DWord) : CaveFields where
  imm := w.extractLsb' 32 32
  md := w.extractLsb' 26 6
  bank := w.getLsbD 25
  m := w.extractLsb' 22 3
  b := w.extractLsb' 17 5
  a := w.extractLsb' 12 5
  d := w.extractLsb' 7 5
  op := w.extractLsb' 0 7

def xszCode : XSz → BitVec 2 | .b8 => 0 | .b16 => 1 | .b32 => 2 | .b64 => 3
def xszOf (c : BitVec 2) : XSz := match c.toNat with | 0 => .b8 | 1 => .b16 | 2 => .b32 | _ => .b64
def vtyCode : VTy → BitVec 2 | .f32 => 0 | .f16 => 1 | .bf16 => 2 | .i32 => 3
def vtyOf (c : BitVec 2) : VTy := match c.toNat with | 0 => .f32 | 1 => .f16 | 2 => .bf16 | _ => .i32
def vredCode : VRedKind → BitVec 2 | .add => 0 | .max => 1 | .min => 2
def vredOf (c : BitVec 2) : VRedKind := match c.toNat with | 0 => .add | 1 => .max | _ => .min

namespace CaveFields
def mbit (f : CaveFields) (n : Nat) : Bool := f.md.getLsbD n
def xsrc (f : CaveFields) (i : Bool) : XSrc := if i then .imm f.imm else .x f.b
def tgt (f : CaveFields) : XTgt := if f.mbit 0 then .reg f.a else .disp f.imm
def vd (f : CaveFields) : VReg := f.d.setWidth 4
def va (f : CaveFields) : VReg := f.a.setWidth 4
def vb (f : CaveFields) : VReg := f.b.setWidth 4
def md0 (f : CaveFields) : MReg := f.d.setWidth 3
def ma (f : CaveFields) : MReg := f.a.setWidth 3
def ty (f : CaveFields) : VTy := vtyOf (f.md.extractLsb' 0 2)
def vbin (f : CaveFields) : VBinOp := ⟨f.m, f.ty, f.vd, f.va, f.vb⟩
def lane (f : CaveFields) : BitVec 6 := f.imm.extractLsb' 0 6
end CaveFields

def buildMov (f : CaveFields) : Option Instr :=
  let h := f.mbit 3
  match (f.md.extractLsb' 0 3).toNat with
  | 0 => some (.caveVmov (.vv f.m h f.vd f.va))
  | 1 => some (.caveVmov (.mm f.md0 f.ma))
  | 2 => some (.caveVmov (.xv h f.d f.va f.lane))
  | 3 => some (.caveVmov (.vx f.m h f.vd f.a f.lane))
  | 4 => some (.caveVmov (.mx f.md0 f.a))
  | 5 => some (.caveVmov (.xm f.d f.ma))
  | _ => none

def buildScalar (f : CaveFields) : Option Instr :=
  let b := f.xsrc (f.mbit 0)
  match f.op.toNat with
  | 0x00 => some (.caveAdd f.d f.a b)
  | 0x01 => some (.caveSub f.d f.a b)
  | 0x02 => some (.caveMul f.d f.a b)
  | 0x03 => some (.caveAnd f.d f.a b)
  | 0x04 => some (.caveOr f.d f.a b)
  | 0x05 => some (.caveXor f.d f.a b)
  | 0x06 => some (.caveShl f.d f.a b)
  | 0x07 => some (.caveShr f.d f.a b)
  | 0x08 => some (.caveSra f.d f.a b)
  | 0x09 => some (.caveLi (f.mbit 0) f.d f.imm)
  | 0x0A => some (.caveSlt (f.mbit 1) f.d f.a b)
  | 0x0B => some (.caveLd ⟨f.mbit 3, xszOf (f.md.extractLsb' 0 2), f.mbit 2, f.d, f.a, f.imm⟩)
  | 0x0C => some (.caveSt ⟨f.mbit 3, xszOf (f.md.extractLsb' 0 2), f.a, f.b, f.imm⟩)
  | 0x0D => some (.caveBeq f.a f.b f.imm)
  | 0x0E => some (.caveBne f.a f.b f.imm)
  | 0x0F => some (.caveBlt (f.mbit 1) f.a f.b f.imm)
  | 0x10 => some (.caveBge (f.mbit 1) f.a f.b f.imm)
  | 0x11 => some (.caveJmp f.tgt)
  | 0x12 => some (.caveJal f.d f.tgt)
  | _ => none

def buildVector (f : CaveFields) : Option Instr :=
  match f.op.toNat with
  | 0x20 => some (.caveVld ⟨f.m, f.bank, f.mbit 2, f.mbit 0, f.vd, f.a, f.imm⟩)
  | 0x21 => some (.caveVst ⟨f.m, f.bank, f.mbit 2, f.mbit 0, f.vb, f.a, f.imm⟩)
  | 0x22 => some (.caveVadd f.vbin)
  | 0x23 => some (.caveVsub f.vbin)
  | 0x24 => some (.caveVmul f.vbin)
  | 0x25 => some (.caveVfma f.bank f.vbin)
  | 0x26 => some (.caveVmax f.vbin)
  | 0x27 => some (.caveVmin f.vbin)
  | 0x28 => some (.caveVred ⟨f.m, f.bank, vredOf (f.md.extractLsb' 2 2), f.ty, f.vd, f.va⟩)
  | 0x29 => some (.caveVcvt ⟨f.m, f.ty, vtyOf (f.md.extractLsb' 2 2), f.mbit 4, f.vd, f.va⟩)
  | 0x2A => some (.caveVcmp ⟨f.m, ccOf ((f.md.extractLsb' 2 3).setWidth 4), f.ty, f.md0, f.va, f.vb⟩)
  | 0x2B => some (.caveVsel ⟨f.m, f.mbit 0, f.vd, f.va, f.vb⟩)
  | 0x2C => some (.caveVbrd ⟨f.m, f.mbit 0, f.vd, if f.mbit 1 then .imm f.imm else .x f.a⟩)
  | 0x2D => buildMov f
  | _ => none

def buildCave (f : CaveFields) : Option Instr :=
  match f.op.toNat with
  | 0x40 => some (.caveSend ⟨f.d, f.a, f.imm.extractLsb' 8 4, f.imm.extractLsb' 4 4, f.imm.extractLsb' 0 4⟩)
  | 0x41 => some .caveHret
  | 0x42 => some .caveMret
  | 0x43 => some .caveYld
  | 0x44 => some .caveFence
  | n => if n < 0x20 then buildScalar f else buildVector f

/-- A cave word of opcode `op` with mask `m` whose other fields are 0. -/
def encCave (op : BitVec 7) (m : MReg) (d a b : BitVec 5) (md : BitVec 6) (imm : Word) : CaveFields :=
  ⟨imm, md, false, m, b, a, d, op⟩
def encXBin (op : BitVec 7) (u : Bool) (d a : XReg) (b : XSrc) : CaveFields :=
  match b with
  | .x r => encCave op 7 d a r (if u then 2 else 0) 0
  | .imm v => encCave op 7 d a 0 (if u then 3 else 1) v
def encXBr (op : BitVec 7) (u : Bool) (a b : XReg) (disp : Word) : CaveFields :=
  encCave op 7 0 a b (if u then 2 else 0) disp
def encXTgt (op : BitVec 7) (d : XReg) (t : XTgt) : CaveFields :=
  match t with
  | .disp v => encCave op 7 d 0 0 0 v
  | .reg r => encCave op 7 d r 0 1 0
def v5 (v : VReg) : BitVec 5 := v.setWidth 5
def m5 (m : MReg) : BitVec 5 := m.setWidth 5
def encVBin (op : BitVec 7) (o : VBinOp) : CaveFields :=
  encCave op o.m (v5 o.d) (v5 o.a) (v5 o.b) ((vtyCode o.ty).setWidth 6) 0
/-- MOD of `ld` and `st` (R319). -/
def encXMem (lm s : Bool) (sz : XSz) : BitVec 6 := (0 : BitVec 2) ++ BitVec.ofBool lm ++ BitVec.ofBool s ++ xszCode sz
def encVMem (o : VMemOp) : BitVec 6 := (0 : BitVec 3) ++ BitVec.ofBool o.lm ++ (0 : BitVec 1) ++ BitVec.ofBool o.h
def encMov (form : BitVec 3) (h : Bool) : BitVec 6 := (0 : BitVec 2) ++ BitVec.ofBool h ++ form

/-- The fields of a stack-core instruction; none for the others. -/
def encodeCave : Instr → Option CaveFields
  | .caveAdd d a b => some (encXBin 0x00 false d a b)
  | .caveSub d a b => some (encXBin 0x01 false d a b)
  | .caveMul d a b => some (encXBin 0x02 false d a b)
  | .caveAnd d a b => some (encXBin 0x03 false d a b)
  | .caveOr d a b => some (encXBin 0x04 false d a b)
  | .caveXor d a b => some (encXBin 0x05 false d a b)
  | .caveShl d a b => some (encXBin 0x06 false d a b)
  | .caveShr d a b => some (encXBin 0x07 false d a b)
  | .caveSra d a b => some (encXBin 0x08 false d a b)
  | .caveLi hi d v => some (encCave 0x09 7 d 0 0 (if hi then 1 else 0) v)
  | .caveSlt u d a b => some (encXBin 0x0A u d a b)
  | .caveLd o => some (encCave 0x0B 7 o.d o.a 0 (encXMem o.lm o.s o.sz) o.off)
  | .caveSt o => some (encCave 0x0C 7 0 o.a o.b (encXMem o.lm false o.sz) o.off)
  | .caveBeq a b disp => some (encXBr 0x0D false a b disp)
  | .caveBne a b disp => some (encXBr 0x0E false a b disp)
  | .caveBlt u a b disp => some (encXBr 0x0F u a b disp)
  | .caveBge u a b disp => some (encXBr 0x10 u a b disp)
  | .caveJmp t => some (encXTgt 0x11 0 t)
  | .caveJal d t => some (encXTgt 0x12 d t)
  | .caveVld o => some { encCave 0x20 o.m (v5 o.v) o.a 0 (encVMem o) o.off with bank := o.bank }
  | .caveVst o => some { encCave 0x21 o.m 0 o.a (v5 o.v) (encVMem o) o.off with bank := o.bank }
  | .caveVadd o => some (encVBin 0x22 o)
  | .caveVsub o => some (encVBin 0x23 o)
  | .caveVmul o => some (encVBin 0x24 o)
  | .caveVfma bank o => some { encVBin 0x25 o with bank := bank }
  | .caveVmax o => some (encVBin 0x26 o)
  | .caveVmin o => some (encVBin 0x27 o)
  | .caveVred o => some { encCave 0x28 o.m (v5 o.d) (v5 o.a) 0 ((0 : BitVec 2) ++ vredCode o.op ++ vtyCode o.ty) 0 with
      bank := o.bank }
  | .caveVcvt o => some (encCave 0x29 o.m (v5 o.d) (v5 o.a) 0
      ((0 : BitVec 1) ++ BitVec.ofBool o.hi ++ vtyCode o.ts ++ vtyCode o.td) 0)
  | .caveVcmp o => some (encCave 0x2A o.m (m5 o.d) (v5 o.a) (v5 o.b)
      ((0 : BitVec 1) ++ (ccCode o.cc).setWidth 3 ++ vtyCode o.ty) 0)
  | .caveVsel o => some (encCave 0x2B o.m (v5 o.d) (v5 o.a) (v5 o.b) (if o.h then 1 else 0) 0)
  | .caveVbrd o => some <| match o.src with
    | .x r => encCave 0x2C o.m (v5 o.d) r 0 (if o.h then 1 else 0) 0
    | .imm v => encCave 0x2C o.m (v5 o.d) 0 0 (if o.h then 3 else 2) v
  | .caveVmov (.vv m h d a) => some (encCave 0x2D m (v5 d) (v5 a) 0 (encMov 0 h) 0)
  | .caveVmov (.mm d a) => some (encCave 0x2D 7 (m5 d) (m5 a) 0 (encMov 1 false) 0)
  | .caveVmov (.xv h d a lane) => some (encCave 0x2D 7 d (v5 a) 0 (encMov 2 h) (lane.setWidth 32))
  | .caveVmov (.vx m h d a lane) => some (encCave 0x2D m (v5 d) a 0 (encMov 3 h) (lane.setWidth 32))
  | .caveVmov (.mx d a) => some (encCave 0x2D 7 (m5 d) a 0 (encMov 4 false) 0)
  | .caveVmov (.xm d a) => some (encCave 0x2D 7 d (m5 a) 0 (encMov 5 false) 0)
  | .caveSend o => some (encCave 0x40 7 o.d o.a 0 0 ((0 : BitVec 20) ++ o.stack ++ o.skc ++ o.h))
  | .caveHret => some (encCave 0x41 7 0 0 0 0 0)
  | .caveMret => some (encCave 0x42 7 0 0 0 0 0)
  | .caveYld => some (encCave 0x43 7 0 0 0 0 0)
  | .caveFence => some (encCave 0x44 7 0 0 0 0 0)
  | _ => none

/-- R78: the instruction of a cave word, or the name of what is illegal about it. -/
def decodeCave (w : DWord) : Except DecErr Instr :=
  let f := unpackCave w
  match buildCave f with
  | none => .error .undefinedOp
  | some i =>
    if encodeCave i = some f then
      match i.check with
      | some e => .error (.limit e)
      | none => .ok i
    else .error .fields

/-! ### Encoding, bytes and fetch lines -/

/-- The word of an instruction, as its level stores it. -/
inductive Code | front (w : BitVec 96) | cave (w : DWord)
  deriving DecidableEq, Repr

/-- The word of a well-formed instruction; none for the moves of the device and its host, which are no instructions. -/
def encode (i : Instr) : Option Code :=
  match encodeFront i, encodeCave i with
  | some f, _ => some (.front (packFront f))
  | none, some f => some (.cave (packCave f))
  | none, none => none

/-- The instruction of a word of either level. -/
def decode : Code → Except DecErr Instr
  | .front w => decodeFront w
  | .cave w => decodeCave w

/-- The little-endian value of a list of bytes (R26, R98). -/
def leNat : List Byte → Nat
  | [] => 0
  | b :: bs => b.toNat + 256 * leNat bs

/-- The `n` little-endian bytes of a value (R26). -/
def leBytes (v : Nat) : Nat → List Byte
  | 0 => []
  | n + 1 => BitVec.ofNat 8 v :: leBytes (v / 256) n

/-- The instruction that 12 bytes of a slot hold (R55, R67). -/
def decodeSlot (bs : List Byte) : Except DecErr Instr := decodeFront (BitVec.ofNat 96 (leNat bs))

/-- The byte offset of a slot of a fetch line (R67, R68). -/
def slotOff (k : Nat) : Nat := 12 * k

/-- The slot that a line offset names, if it names one (R68). -/
def slotOf (off : Nat) : Option Nat := if off % 12 == 0 && off ≤ 48 then some (off / 12) else none

/-- next(PC) of R68. DESIGN CHOICE (log 90): after slot 4 of the last line of the 57-bit space it is 2^57, which no fetch reaches. -/
def nextPc (pc : VAddr) : VAddr := if pc % 64 == 48 then pc + 16 else pc + 12

def lineOf (pc : VAddr) : VAddr := pc - pc % 64

def parity (w : Nat) (n : Nat) : Bool :=
  (List.range n).foldl (fun acc i => xor acc (w.testBit i)) false

/-- The line word of a 64-byte line (R67). -/
def lineWord (line : List Byte) : Word := BitVec.ofNat 32 (leNat (line.drop 60))

/-- R70: are the line's parity bits right? -/
def lineParityOk (line : List Byte) : Bool :=
  let lw := (lineWord line).toNat
  (parity lw 16 == lw.testBit 31) &&
    (List.range 15).all fun i => parity (leNat ((line.drop (4 * i)).take 4)) 32 == lw.testBit (16 + i)

/-- R70: bits [15:9] of the line word are zero. -/
def lineWordOk (line : List Byte) : Bool := (lineWord line).extractLsb' 9 7 == 0

/-- TMASK of a line (R67, R71). -/
def lineTarget (line : List Byte) (k : Nat) : Bool := (lineWord line).getLsbD k

/-- PAIR of a line (R67, R69). -/
def linePair (line : List Byte) (k : Nat) : Bool := k < 4 && (lineWord line).getLsbD (5 + k)

/-- A line word with TMASK and PAIR as given and its parity bits over the 60 bytes before it (R67). -/
def makeLineWord (body : List Byte) (tmask : BitVec 5) (pairs : BitVec 4) : Word :=
  let lo := (0 : BitVec 7) ++ pairs ++ tmask
  let wp := (List.range 15).foldl (fun acc i =>
    if parity (leNat ((body.drop (4 * i)).take 4)) 32 then acc + 2 ^ i else acc) 0
  BitVec.ofBool (parity lo.toNat 16) ++ BitVec.ofNat 15 wp ++ lo

/-- A fetch line that holds the five words given, padded with `nop` (R16, R67). -/
def makeLine (ws : List (BitVec 96)) (tmask : BitVec 5) (pairs : BitVec 4) : List Byte :=
  let body := ((ws ++ [0, 0, 0, 0, 0]).take 5).flatMap fun (w : BitVec 96) => leBytes w.toNat 12
  body ++ leBytes (makeLineWord body tmask pairs).toNat 4

/-- The branch target of R72: the line of `pc`, displaced by lines, at a slot. DESIGN CHOICE (log 90): one outside the 57-bit space wraps. -/
def branchTarget (pc : VAddr) (t : BrImm) : VAddr :=
  (((lineOf pc : Int) + 64 * t.lines.toInt + 12 * t.slot.toNat) % (2 ^ 57 : Int)).toNat

/-- The else entry and the join of a `bdiv` at `pc` (R128). -/
def bdivTargets (pc : VAddr) (e : Option ElseRef) (j : BrImm) : VAddr × VAddr :=
  let jp := branchTarget pc j
  (match e with
    | none => jp
    | some x => lineOf pc + 64 * x.lines.toNat + 12 * x.slot.toNat, jp)

/-- The limits of a legal word that depend on where it issues: the allocation of R57 and PC < E ≤ J of R128. -/
def fitsAt (i : Instr) (nregs ntiles : Nat) (pc : VAddr) : Bool :=
  i.fitsRegs nregs ntiles &&
    match i with
    | .bdiv _ _ e j => let t := bdivTargets pc e j; pc < t.1 && t.1 ≤ t.2
    | _ => true

/-- The instruction that the bits of an opcode-table row decode to: a row of 64 bits is a cave word, any other a front word
(R55, R76). -/
def decodeTableWord (nbits w : Nat) : Option Instr :=
  let code : Code := if nbits == 64 then .cave (BitVec.ofNat 64 w) else .front (BitVec.ofNat 96 w)
  match decode code with
  | .ok i => some i
  | .error _ => none

end Sys2Proof
end

