-- ==== Sys2Proof/Config.lean ====
section
/-! DEFINITION. What is fixed for a machine, the moves that a schedule chooses among, and the free values: constants with no
body, of which nothing can be proved but what holds whatever they are. -/

namespace Sys2Proof

/-- A memory error that a code meets, and what the storage does then (09 R207). -/
inductive Ecc
  /-- a SECDED correction on a die: a D sector, a scratchpad or a lane-private slice -/
  | sram (die : Nat)
  /-- a correction in a row of a stack, outside a scrub: at a fill, or at a near-bank read (16 R329) -/
  | hbm (stack row : Nat)
  /-- a correction in a tier channel -/
  | tier (chan : Nat)
  /-- a parity refetch of a clean L2 sector of a die, by its 64-byte number, or of an X sector -/
  | parity (die sector : Nat)
  | parityX (die dev sector : Nat)
  /-- a parity refetch of a word of a core's constant cache -/
  | parityCc (core word : Nat)
  /-- a parity refetch of an L1 sector, by its 32-byte number -/
  | parityL1 (core sector : Nat)
  /-- a worse error, by 8-byte word: in what a die's L2 holds of memory, in HBM or the tier, or in an on-chip memory -/
  | badView (die word : Nat)
  | badHome (word row : Nat)
  | badSpad (blk word : Nat)
  | badLpriv (blk word : Nat)
  | badDspad (launch die word : Nat)
  deriving DecidableEq, Repr, Inhabited

/-- One step of the package: which agent acts next (10 R213, 02 R48). -/
inductive Move
  /-- scheduler `sched` of core `core` issues one instruction from the split R48 names -/
  | front (core sched : Nat)
  /-- stack core `skc` of stack `stack` executes one cave instruction -/
  | cave (stack skc : Nat)
  /-- one cycle of the front clock of a die (R5) -/
  | tick (die : Nat)
  /-- one cycle of a stack's stack cores (R3) -/
  | tickStack (stack : Nat)
  /-- one cycle of an embedded controller's clock, numbered as R391 numbers controller blocks -/
  | tickCtl (ctl : Nat)
  /-- a move of the device, its controllers or its host -/
  | ev (i : Instr)
  /-- an engine operation of a wave, or a running copy of a block, reads one unit, by its place (07 R153, 11 R248) -/
  | mxRead (wave op unit : Nat)
  | copyRead (blk copy unit : Nat)
  /-- a die evicts an X sector, or a clean one of this device's memory, by its 64-byte number (09 R197) -/
  | evictX (die dev sector : Nat)
  | evictClean (die sector : Nat)
  /-- a core's TLB misses (21 R374) -/
  | tlbMiss (core : Nat)
  | ecc (e : Ecc)
  /-- the device hands a link port a payload of 15 packet units, and the port sends its next flit (23 R396) -/
  | offer (port : Nat) (payload : List Byte)
  | linkSend (port : Nat)
  /-- the fabric controller adds a route (23 R403, R405) -/
  | route (entry : List Byte)
  /-- a controller's new image starts (23 R401) -/
  | imageStart (ctl : Nat)
  deriving DecidableEq, Repr, Inhabited

namespace Config

/-- DESIGN CHOICE (log 1). The schedule of agents when none is given: the spec orders agents only by its own rules. -/
opaque freeMove : Nat → Move

/-- DESIGN CHOICE (log 2). The values the spec leaves open, one for each use of the counter. -/
opaque freeNat : Nat → Nat

/-- DESIGN CHOICE (log 109). The line that a full cache gives up for one that fills (09 R196, R199), one value for each use of the counter. -/
opaque freeLine : Nat → Nat

/-- DESIGN CHOICE (log 12). Whether the two signatures of an image verify (23 R400): the algorithms are named by the spec and
the keys are fused. -/
opaque signaturesVerify : List Byte → Bool

/-- DESIGN CHOICE (log 12). The two signatures of an attestation report (23 R400). -/
opaque reportSignatures : List Byte → List Byte

/-- DESIGN CHOICE (log 13). The fused minimum SVN of a controller (23 R399). -/
opaque fusedSvn : Nat → Nat

/-- DESIGN CHOICE (log 14). The pseudo-channel and bank, as one number below 2,048, that hold a physical address of a stack
(16 R332: the stack's own mapping, the same for every address of a 256-byte line). -/
opaque bankOfLine : Nat → Nat → Nat

/-- DESIGN CHOICE (log 22). The bytes of the engine record of a wave context, and of a block record beyond the contents it
carries, by the declared tiles (08 R185, R186): the spec calls the one opaque and does not lay the other out. -/
opaque engineBytes : Nat → Nat
opaque blockBytes : Nat

/-- DESIGN CHOICE (log 20). The spare rows fitted in a stack (21 R376). -/
opaque sparesFitted : Nat → Nat

end Config

/-! The figures of R1, R2, R3 and R190. -/

def nDies : Nat := 4
def nStacks : Nat := 16
def nCores : Nat := 768
def coresPerDie : Nat := 192
def coresPerCluster : Nat := 32
def dieOfCore (c : Nat) : Nat := c / coresPerDie
def clusterOfCore (c : Nat) : Nat := c / coresPerCluster
def dieOfStack (n : Nat) : Nat := n / 4
/-- Lines of 256 bytes that the 192 L2 slices of 768 KiB of a die hold (R1, R190). -/
def l2Cap : Nat := 192 * 768 * 1024 / 256
/-- HBM bytes (R360). -/
def hbmSize : Nat := 80 * 2 ^ 34
/-- The first physical address of the capacity tier (R360). -/
def tierBase : Nat := 0x0010000000000000
/-- The tier's 256 granules of 16 GiB (R360, R391). R1 has up to 4 TiB; DESIGN CHOICE (log 87): all of it is fitted. -/
def tierSize : Nat := 256 * 2 ^ 34
def vatSlots : Nat := 196608

end Sys2Proof
end

