-- ==== Sys2Proof/Machine/State.lean ====
section
/-! DEFINITION. The state of the package as plain data: everything the spec lists as state of the machine, one structure for
each part of it, and the machine right after reset. Collections are lists in one form: a `Kv` is sorted by key and lists no
entry equal to the default. -/

namespace Sys2Proof.Machine

open Host (Cell)

/-- A sparse table: keys rising, no entry equal to the table's default. -/
abbrev Kv (α : Type) := List (Nat × α)

/-- A byte memory: cells in canonical form, and the poisoned 8-byte words by word number (09 R208), rising. -/
structure Memory where
  cells : List Cell
  psn : List Nat
  deriving DecidableEq, Repr, Inhabited

def Memory.empty : Memory := ⟨[], []⟩

/-! ### Locations and accesses (10 R214) -/

/-- Where a byte lives: device memory by physical address, the storage of another device, a block's scratchpad, a wave's
lane-private slices, or a launch's die scratchpad on a die. -/
inductive Loc
  | gm (pa : Nat)
  | remote (dev pa : Nat)
  | spad (blk off : Nat)
  | lpriv (blk off : Nat)
  | dspad (launch die off : Nat)
  deriving DecidableEq, Repr, Inhabited

/-- A lane for the ordering rules: the wave's number and the lane; 64 + i for the matrix engine's row of lane `i` (R153), 33 for
the wave's streamer copies, each told apart by its write's `src` (R224), 34 for what an `mwait` has counted for every lane of the wave
(R153); wave 0 and 32 for a unit of the device, and a launch's number and 35 for the bits of its completion bitmap (19 R364). -/
structure LaneKey where
  wave : Nat
  lane : Nat
  deriving DecidableEq, Repr, Inhabited

/-- A read that returned a write from the write buffer (R219): its lane, its place in the issue order, and, for a read of the
matrix engine, whether it counts as issued by the wave yet (R153). -/
structure RdBy where
  lane : LaneKey
  isq : Nat
  counted : Bool
  deriving DecidableEq, Repr, Inhabited

/-- A vector of four 32-bit counters, one for each die (R214). -/
abbrev Vec := Vector Word 4

/-- The operation of an atomic or `cas` (R238, R239). -/
inductive AtomFn
  | op (o : Aop) (ty : NumTy) (v : DWord)
  | cas (old new : DWord) (wide : Bool)
  | setBit (mask : Byte)
  deriving DecidableEq, Repr, Inhabited

/-- Where a write of a write buffer stands: not drained, or drained into F(d,h) and held for forwarding (R215). -/
inductive WbState | pending | sent
  deriving DecidableEq, Repr, Inhabited

/-- A write of a lane, from issue until it is stored and, for another die's line, applied on its own die (R214, R215). -/
structure Wb where
  id : Nat
  lane : LaneKey
  core : Nat
  /-- order of issue in the package -/
  isq : Nat
  loc : Loc
  bytes : List Byte
  /-- the bits that change, for an element that does not fill its bytes (05 R119) -/
  mask : Option (List Byte)
  rel : Option Scope
  /-- an atomic of scope `.cluster` or wider on `.gm`, performed at the home die (R222) -/
  fn : Option AtomFn
  /-- the access that waits for the atomic's result -/
  act : Option Nat
  /-- a write of an engine counts for releases only once its completion was observed (R218) -/
  counted : Bool
  /-- the copy, or operation, that made it -/
  src : Option Nat
  /-- the reads that returned this write from the write buffer (R219) -/
  readers : List RdBy
  state : WbState
  /-- its place in its bytes' coherence order, once stored in M(h) (R216) -/
  seq : Option Nat
  /-- written by an atomic performed on the core (R222) -/
  atm : Bool
  /-- a copy of bytes of a poisoned word: the words it touches become poisoned (09 R208) -/
  psn : Bool
  deriving DecidableEq, Repr, Inhabited

/-- A write on its way between dies (R214): from F(d,h) or from a Q(e). -/
structure Msg where
  id : Nat
  lane : LaneKey
  core : Nat
  isq : Nat
  pa : Nat
  bytes : List Byte
  mask : Option (List Byte)
  fn : Option AtomFn
  act : Option Nat
  counted : Bool
  /-- the copy, or operation, that made it -/
  cp : Option Nat
  src : Nat
  dst : Nat
  vec : Vec
  seq : Nat
  psn : Bool
  deriving DecidableEq, Repr, Inhabited

/-- One unit of an access (R214) and, once performed, its bytes and whether they are poisoned. -/
structure UnitR where
  loc : Loc
  n : Nat
  got : Option (List Byte × Bool)
  deriving DecidableEq, Repr, Inhabited

/-- What an access does with the bytes it reads (R232, R233, R235). -/
inductive Post
  | ld (ty : IntTy) (sz : Sz)
  | ldq
  /-- first element number, count, format, geometry, scale, first byte read, of one page -/
  | ldf (k n : Nat) (fmt geom : Nat) (scale : Half) (blk : Nat)
  /-- the old value of an atomic -/
  | atom (wide : Bool)
  /-- nothing is written: a prefetch -/
  | none
  deriving DecidableEq, Repr, Inhabited

inductive CacheKind | wb | inv | flush
  deriving DecidableEq, Repr, Inhabited

inductive ActKind
  | read (acq : Option Scope) (nl1 : Bool)
  /-- an atomic performed on the core (`.wave`, `.block`) or at an on-chip memory (R222) -/
  | atomLocal (fn : AtomFn) (acq rel : Option Scope) (sc : Scope)
  /-- an atomic performed at the home die, in the write buffer meanwhile -/
  | atomHome (acq : Option Scope)
  | fence (k : FenceKind) (sc : Scope) (waitVec : Option Vec)
  /-- the acquire of a lane that took a task record (14 R290), until its die has applied what the record's enqueue released -/
  | take (vec : Vec)
  /-- a cache operation on the sectors of physical ranges, and the home dies whose moves are still to be taken -/
  | cache (k : CacheKind) (ranges : List (Nat × Nat)) (dies : List Nat) (count : Nat)
  deriving DecidableEq, Repr, Inhabited

/-- An access of a lane that is pending (R214): in the lane's issue stream until it is performed. -/
structure Act where
  id : Nat
  lane : LaneKey
  core : Nat
  isq : Nat
  kind : ActKind
  units : List UnitR
  post : Post
  /-- the window that takes the result (R64) -/
  win : Nat
  deriving DecidableEq, Repr, Inhabited

/-- A byte copy with the place of its write in the byte's coherence order (R216). -/
structure CopyB where
  val : Byte
  seq : Nat
  psn : Bool
  deriving DecidableEq, Repr, Inhabited

/-- An earlier value of a byte of a die's view, or, from 4 up, of the memory of device `die - 4`: the value it held until the store
numbered `t`, and whether it lay in a poisoned word (R180, R201, R205, R208). -/
structure WLog where
  die : Nat
  pa : Nat
  old : Byte
  psn : Bool
  t : Nat
  deriving DecidableEq, Repr, Inhabited

/-- A completed invalidation of page entries (R205, R389). -/
structure InvRec where
  tenant : Nat
  base : Nat
  len : Nat
  t : Nat
  deriving DecidableEq, Repr, Inhabited

/-- A write to another device, on its way (R229), with the lanes whose reads returned it before it drained (R216). -/
structure RemoteW where
  id : Nat
  lane : LaneKey
  core : Nat
  isq : Nat
  dev : Nat
  pa : Nat
  bytes : List Byte
  mask : Option (List Byte)
  fn : Option AtomFn
  act : Option Nat
  counted : Bool
  cp : Option Nat
  readers : List RdBy
  psn : Bool
  deriving DecidableEq, Repr, Inhabited

/-- R216, 07 R153: the place in coherence order of a write that an engine operation of a wave has read or made, of a byte of this device
or of another; it binds the wave's lanes once an `mwait` has counted the operation. -/
structure EngSeen where
  wave : Nat
  /-- the operation's place in the issue order -/
  op : Nat
  dev : Option Nat
  pa : Nat
  seq : Nat
  deriving DecidableEq, Repr, Inhabited

/-- A cave range under work (R226): since which store, the bytes that front writes stored to it meanwhile, each as
address × 256 + byte, and the byte of the last cave write, plus 1, by address. -/
structure RangeFly where
  work : Nat
  ranges : List (Nat × Nat)
  since : Nat
  front : List Nat
  cave : Kv Nat
  deriving DecidableEq, Repr, Inhabited

/-- A row of a stack's scrub hot list (09 R209, 23 R391). -/
structure HotRow where
  row : Nat
  score : Nat
  clean : Nat
  errors : Nat
  deriving DecidableEq, Repr, Inhabited

structure MemSys where
  /-- H: the contents of HBM and the tier (11 R241) -/
  home : Memory
  /-- M(d): what each die sees (R214) -/
  view : Vector Memory 4
  /-- the place in its byte's coherence order of the write each view holds (R216) -/
  vseq : Vector (Kv Nat) 4
  vec : Vector Vec 4
  wb : List Wb
  /-- F(d,h), oldest first -/
  chan : List Msg
  /-- Q(e), oldest first for each origin -/
  apply : List Msg
  acts : List Act
  /-- L1 copies, by core × 2^57 + address (R214) -/
  l1 : Kv CopyB
  /-- X copies, by (die × 2^22 + device) × 2^57 + address -/
  xc : Kv CopyB
  /-- G: what another device's home view is taken to hold, by device × 2^57 + address -/
  remote : Kv Byte
  /-- poisoned words there, by device × 2^57 + address, divided by 8 (09 R208) -/
  remotePsn : List Nat
  /-- the place in its coherence order of the write each of those bytes holds, by the same key as `remote` (R216) -/
  rseq : Kv Nat
  /-- R216 for those bytes: the latest that a lane has read or drained, by (lane number × 2^22 + device) × 2^57 + address -/
  rfloor : Kv Nat
  eng : List EngSeen
  remoteW : List RemoteW
  /-- dirty sectors, by sector number (R241): each stands in state D on its home die -/
  dirty : List Nat
  /-- R197: the 32-byte halves that a die's L2 holds of this device's memory, by (die × 2^57 + address) / 32 -/
  l2 : List Nat
  /-- the 8-byte words that a die's L2 was filled with as poison, by (die × 2^57 + address) / 8: each counts while its half is held
  (09 R207, R208) -/
  fillPsn : List Nat
  /-- MODEL: lines that full caches have given up so far -/
  evs : Nat
  /-- the window words that a core's constant cache holds, by core (09 R190, R201): their addresses, or for another device's 2^57 ×
  (device + 1) more -/
  cc : Kv (List Nat)
  /-- R216: the latest write of a byte that a lane has read or drained, by lane number × 2^57 + address -/
  floor : Kv Nat
  /-- the stores to each view so far, with the values they replaced -/
  wlog : List WLog
  /-- the number of stores so far -/
  clk : Nat
  invs : List InvRec
  /-- the latest stamped writes of the host, by origin (23 R389) -/
  hostVec : Vec
  /-- R211: 2 MiB regions of HBM and the tier whose cleared bit is 0 -/
  uncleared : List Nat
  fly : List RangeFly
  /-- hot list of each stack -/
  hot : Kv (List HotRow)
  /-- retired rows by stack × 2^32 + row -/
  retired : List Nat
  /-- MODEL: the units that the accesses of the present move may have reached, by their FREADY bits (16 R331, 23 R394) -/
  touch : List Nat
  deriving DecidableEq, Repr, Inhabited

/-! ### Waves -/

/-- A cursor register (04 R91). -/
structure Cursor where
  ring : Word
  rank : Word
  pin : Word
  home : BitVec 4
  inl : Bool
  st : BitVec 2
  deriving DecidableEq, Repr, Inhabited

def Cursor.closed : Cursor := ⟨0, 0, 0, 0, false, 0⟩

/-- A tile: its format and its cells, cell (i, j) at 32 i + j, unlisted cells 0 (04 R92, 07 R146). -/
structure Tile where
  af : Af
  cells : Kv Word
  deriving DecidableEq, Repr, Inhabited

inductive MxKind | mma | mlut | mzero | mld | mst
  deriving DecidableEq, Repr, Inhabited

/-- Where an engine operation stands (07 R159, R160). -/
inductive MxState | queued | aborted | held | done
  deriving DecidableEq, Repr, Inhabited

/-- A row that has passed its checks: its byte runs, and how its elements are read (07 R150, R151). -/
structure MxRow where
  lane : Nat
  runs : List (Loc × Nat)
  fmt : Nat
  geom : Nat
  scale : Nat
  e0 : Nat
  blk : Nat
  deriving DecidableEq, Repr, Inhabited

structure MxOp where
  id : Nat
  kind : MxKind
  t : Nat
  af : Af
  spc : Option Sf
  rows : Mask
  a : Lanes DWord
  b : Lanes DWord
  isq : Nat
  /-- the serial number of its batch, once closed -/
  batch : Option Nat
  st : MxState
  /-- of an aborted operation: reason of its lowest failing lane, failing lanes, and each lane's failing address -/
  reason : Nat
  bad : Mask
  addr : Lanes DWord
  /-- its A and B rows, once they have been checked -/
  chk : Option (List MxRow × List MxRow)
  /-- what it has read of them so far, by the unit's place: each byte with whether it lies in a poisoned word -/
  got : Kv (List (Byte × Bool))
  /-- its place in the order of the replay that runs it again (07 R162) -/
  rep : Option Nat
  deriving DecidableEq, Repr, Inhabited

structure MxBatch where
  serial : Nat
  num : Byte
  size : Nat
  /-- the numbers of its operations, in order -/
  ops : List Nat
  /-- every operation up to its close has a lower number -/
  upto : Nat
  /-- `mrep.drop` has discarded its aborted operations, and none has been aborted since (07 R158) -/
  dropped : Bool
  deriving DecidableEq, Repr, Inhabited

/-- A trap of a handler split (04 R89). -/
structure TrapRegs where
  cause : Word
  fpc : DWord
  em : Mask
  addr : Lanes DWord
  deriving DecidableEq, Repr, Inhabited

/-- An entry of a reconvergence stack (06 R128). -/
structure StkEntry where
  j : VAddr
  e : VAddr
  t : Mask
  f : Mask
  els : Bool
  outer : Bool
  deriving DecidableEq, Repr, Inhabited

inductive SplitKind | arm | handler | resumed
  deriving DecidableEq, Repr, Inhabited

/-- What a split waits at (02 R49). `go` holds what a barrier gave the split that it releases. -/
inductive Wait
  | none
  | bar (lvl : Nat)
  | barGo
  | barw (addr : Nat) (tok : Word)
  | barwGo (p : Bool)
  /-- a restored split that issues its `barw` again, with its token (21 R381) -/
  | barwAgain (addr : Nat) (tok : Word)
  | sem (n since : Nat) (thr : Word)
  | join
  | xlane
  | xlaneGo
  /-- the stage, the record group, and the active lanes of a `qpush` (14 R289) -/
  | qpush (stage a : Nat) (act : Mask)
  | mig (ticket : Nat)
  | batch
  /-- an `mfence` that finds 16 closed batches (07 R158) -/
  | batchRoom
  | ticket
  | chute
  /-- a full queue of the cave level: a stack's dispatch queue, or the message queue of a stack core (14 R298) -/
  | queue (stack : Nat) (skc : Option Nat)
  | order
  deriving DecidableEq, Repr, Inhabited

/-- The results of one lane for an open window (03 R64). -/
structure LaneRes where
  lane : Nat
  ws : List Word
  p : Option Bool
  q : Option Cursor
  deriving DecidableEq, Repr, Inhabited

/-- An open lookahead window (03 R64 to R66). -/
structure Win where
  id : Nat
  rem : Nat
  closed : Bool
  /-- lanes whose results are still to arrive -/
  need : Mask
  /-- a uniform result is still to arrive -/
  sneed : Bool
  gd : Option (Nat × Nat)
  sd : Option (Nat × Nat)
  qd : Option Nat
  pd : Option Nat
  got : List LaneRes
  sgot : List Word
  /-- of a closed window with a uniform result: its place in the order in which such windows of the wave closed (04 R84) -/
  ord : Nat
  deriving DecidableEq, Repr, Inhabited

structure Split where
  sid : Nat
  kind : SplitKind
  arm : Nat
  pc : VAddr
  members : Mask
  stack : List StkEntry
  /-- rank by age, lower older (02 R48) -/
  age : Nat
  wins : List Win
  wait : Wait
  trap : Option TrapRegs
  /-- the arm split's stack as it stood at the trap (08 R166) -/
  recStack : List StkEntry
  parked : Mask
  /-- lanes that take no part in the next instruction (08 R176), or that a `qpush` has enqueued (14 R289) -/
  skip : Mask
  qdone : Mask
  /-- an arm split that holds a trap until its companion slot empties (08 R170) -/
  held : Bool
  /-- an arm split whose resumed companion has not let it issue again (08 R176, R177) -/
  stopped : Bool
  /-- CAVEERR pending after a `mig`, with its ADDR (16 R341) -/
  caveErr : Option DWord
  /-- of a handler split: the CAVEERR that was pending where its lanes came from (16 R341) -/
  recErr : Option DWord
  /-- `icinv`: from which store later fetches read (08 R180) -/
  icFrom : Option Nat
  /-- the instruction at PC was counted as the second of a pair (03 R69) -/
  second : Bool
  /-- the instruction it waits at, and whether that heads a pair: it has been fetched (02 R49, 14 R289) -/
  under : Option (Instr × Bool)
  /-- of a handler split: its lanes, and the parked ones, that the `qpush` it trapped at has enqueued (14 R289) -/
  recQ : Mask
  deriving DecidableEq, Repr, Inhabited

/-- The status of a cave program (16 R333, R335). -/
structure CaveStatus where
  code : Nat
  bankErr : Bool
  w : Nat
  skc : Nat
  stack : Nat
  f : Word
  addr : DWord
  deriving DecidableEq, Repr, Inhabited

/-- A ticket record (16 R334). -/
structure Ticket where
  num : BitVec 16
  work : Nat
  done : Option CaveStatus
  /-- is it a `mig`'s, and has the wave waited on it (R348)? -/
  mig : Bool
  seen : Bool
  deriving DecidableEq, Repr, Inhabited

structure Wave where
  uid : Nat
  launch : Nat
  blk : Nat
  core : Nat
  slot : Nat
  hoop : Bool
  stage : Nat
  waveid : Word
  blockid : Word
  /-- `lvl2` to `lvl7` -/
  lvls : Vector Word 6
  nregs : Nat
  ntiles : Nat
  g : List (Lanes Word)
  s : Vector Word 64
  p : Vector Mask 8
  em : Mask
  exited : Mask
  q : Vector (Lanes Cursor) 16
  tiles : List Tile
  accInf : Bool
  accSat : Bool
  fmtErr : Bool
  mxOps : List MxOp
  mxBatches : List MxBatch
  mxCtr : Byte
  mxSerial : Nat
  wcyc : DWord
  wtdl : DWord
  timer : Bool
  /-- the deadline was set in the present cycle (21 R383) -/
  wnew : Bool
  thb : DWord
  tbnd : Lanes DWord
  task : Mask
  ticketCtr : BitVec 16
  tickets : List Ticket
  splits : List Split
  /-- windows of splits that ended before every result of theirs arrived (R64, R127) -/
  orph : List Win
  deriving DecidableEq, Repr, Inhabited

/-! ### Blocks and launches -/

structure Chute where
  addr : Nat
  cl : Word
  filled : List Word
  deriving DecidableEq, Repr, Inhabited

/-- An entry of a block's barrier table (21 R380). WAIT is the number of splits that wait at it. -/
structure BarEnt where
  addr : Nat
  pend : Nat
  deriving DecidableEq, Repr, Inhabited

inductive CopyKind
  | cpy (conv : Conv)
  | cpyw (hdr : List Byte)
  | gath (n es : Nat)
  /-- the index list, where it was read at issue -/
  | scat (n es : Nat) (ix : Option (List Byte))
  deriving DecidableEq, Repr, Inhabited

/-- Elements of a converted range on one page: page start, entry, first element and count. -/
structure ElSeg where
  page : Loc
  pte : Nat
  e0 : Nat
  n : Nat
  deriving DecidableEq, Repr, Inhabited

/-- A streamer copy (11 R246, R248). -/
structure Copy where
  id : Nat
  wave : Nat
  /-- the lanes of the split that issued it -/
  lanes : Mask
  kind : CopyKind
  dsp : Space
  ssp : Space
  dst : DWord
  src : DWord
  len : Nat
  idx : Nat
  word : Word
  isq : Nat
  running : Bool
  /-- it has read its source, and its writes stand in the write buffer -/
  wrote : Bool
  /-- the chute slot it claimed -/
  slot : Option Word
  /-- what it has read of its source so far, by the unit's place -/
  got : Kv (List (Byte × Bool))
  /-- of a `.dec` copy: its element runs as translated before its first read, so that each uses one entry (09 R205) -/
  segs : Option (List ElSeg)
  deriving DecidableEq, Repr, Inhabited

/-- How a block stands with the dispatcher (08 R182 to R188). -/
inductive BlkMode
  | run
  | drain (since : Nat)
  /-- drained with no limit, no save having found room (19 R362) -/
  | drainFree
  /-- issues nothing: a save is under way -/
  | saving
  /-- issues nothing: a flush-and-restart is under way -/
  | flushing
  /-- its last wave has left its slot and its resources are free (20 R370); `rel` is what its end releases, once everything its
  waves issued is done (10 R225) -/
  | ended (rel : Option Vec)
  deriving DecidableEq, Repr, Inhabited

structure Block where
  uid : Nat
  launch : Nat
  core : Nat
  bid : Nat
  hoop : Bool
  stage : Nat
  /-- order of start among blocks -/
  started : Nat
  nwaves : Nat
  spad : Memory
  lp : Memory
  ret : Nat
  chutes : List Chute
  bars : List BarEnt
  copies : List Copy
  mode : BlkMode
  /-- room held in the tenant's context region for a save under way: address and length, the block record first (19 R362) -/
  ctx : List (Nat × Nat)
  deriving DecidableEq, Repr, Inhabited

/-- A saved block: its block record and waves as the save took them, and where their contexts lie (08 R185, R186). -/
structure Saved where
  blk : Block
  waves : List Wave
  /-- virtual address and length of each record written, the block record first -/
  recs : List (Nat × Nat)
  /-- the opaque bytes of those records, as written: address and byte -/
  opq : List (Nat × Byte)
  order : Nat
  /-- what its restore or restart acquires (10 R225) -/
  vec : Vec
  /-- to be restarted from its entry instead (08 R184) -/
  restart : Bool
  deriving DecidableEq, Repr, Inhabited

structure WinBind where
  len : Nat
  addr : Nat
  deriving DecidableEq, Repr, Inhabited

structure StageBind where
  depth : Nat
  entry : Nat
  out : Option Nat
  deriving DecidableEq, Repr, Inhabited

structure LevelBind where
  ext : Nat
  dom : Nat
  deriving DecidableEq, Repr, Inhabited

/-- A launch record as read at admission (19 R352), with what the tenant entry gave (R362). -/
structure LaunchRec where
  tenant : Nat
  prio : Nat
  idemp : Bool
  steal : Bool
  code : Nat
  grid : Nat
  block : Nat
  search : Option Nat
  levels : List LevelBind
  regs : Nat
  tiles : Nat
  producer : Nat
  spad : Nat
  lpriv : Nat
  dspad : Nat
  core0 : Nat
  ncores : Nat
  e : Nat
  bitmap : Nat
  depBitmap : Nat
  map : List Byte
  redBase : Nat
  redLen : Nat
  status : Nat
  wins : List WinBind
  stages : List StageBind
  root : Nat
  clo : Nat
  chi : Nat
  priv : Bool
  spillBase : Nat
  spillLen : Nat
  pinBase : Nat
  pinLen : Nat
  ctxBase : Nat
  ctxLen : Nat
  deriving DecidableEq, Repr, Inhabited

structure Launch where
  uid : Nat
  /-- admission number -/
  adm : Nat
  lr : LaunchRec
  recAddr : Nat
  /-- the virtual function, or 64 for the fabric queue -/
  from64 : Nat
  /-- the store count at admission (08 R180) -/
  admT : Nat
  /-- the host's writes that its admission covers (14 R279) -/
  vec : Vec
  /-- `DCYC` of each die at its admission: its blocks start from the cycle after (22 R384) -/
  admCyc : Vector DWord 4
  /-- where the bytes of each bound window lie, as translated at submission (09 R201) -/
  winAt : List (List (Loc × Nat))
  flags : Word
  tcode : Byte
  ccode : Byte
  sreason : Byte
  saddr : DWord
  ended : Nat
  /-- stage 0 blocks not started, as rising disjoint ranges of block numbers -/
  todo : List (Nat × Nat)
  /-- quotas by stage × 4 + die (14 R286) -/
  quota : Kv Nat
  /-- the die scratchpads (09 R195) -/
  ds : Vector Memory 4
  /-- what the ends of its blocks have released, once one has ended (10 R225) -/
  rel : Option Vec
  /-- its NEXTTAB and SAVELIST in the dispatcher's retained memory (23 R404) -/
  nextTab : DWord
  saveList : DWord
  deriving DecidableEq, Repr, Inhabited

/-! ### Tasks and search -/

/-- A task record (14 R282). -/
structure TaskRec where
  id : Nat
  die : Nat
  launch : Nat
  stage : Nat
  tenant : Nat
  words : Vector Word 16
  bound : Option DWord
  /-- its arrival position (R40) -/
  pos : Nat
  /-- the die cycle of its arrival (02 R42) -/
  cyc : Nat
  /-- V(d) of the enqueuing die: what the lane's release covers (10 R225) -/
  vec : Vec
  /-- the address of its spilled record (R284) -/
  spilled : Option Nat
  deriving DecidableEq, Repr, Inhabited

structure Tasks where
  recs : List TaskRec
  nextPos : Nat
  /-- last arrival cycle by (launch × 8 + stage) × 4 + die (02 R42) -/
  lastArr : Kv Nat
  /-- the last arrival in a cycle before that of `lastArr` -/
  prevArr : Kv Nat
  /-- one more than the last cycle in which a wave was formed for the group, by the same key -/
  formed : Kv Nat
  /-- records reloaded in each die's present cycle (14 R285) -/
  reloads : Vector Nat 4
  deriving DecidableEq, Repr, Inhabited

/-- An incumbent slot (04 R93, 15 R299). -/
structure Slot where
  key : DWord
  tag : DWord
  active : Bool
  vec : Vec
  spawned : Nat
  felled : Nat
  deriving DecidableEq, Repr, Inhabited

inductive Holder | core (c : Nat) | vat (d : Nat)
  deriving DecidableEq, Repr, Inhabited

/-- A broadcast on its way to one holder (15 R305), with the cycle of its holder's clock at the commit. -/
structure Bcast where
  id : Nat
  slot : Nat
  key : DWord
  holder : Holder
  cyc : Nat
  deriving DecidableEq, Repr, Inhabited

inductive SOpKind | incmin (k t : DWord) | incld (acq : Bool) (got : Option (DWord × DWord × Vec))
  deriving DecidableEq, Repr, Inhabited

/-- One lane's commit or read at the search unit (15 R303, R304). -/
structure SOp where
  id : Nat
  lane : LaneKey
  core : Nat
  isq : Nat
  slot : Nat
  win : Nat
  kind : SOpKind
  deriving DecidableEq, Repr, Inhabited

structure Search where
  slots : Vector Slot 16
  /-- core copies by core × 16 + slot, vat copies by die × 16 + slot: all ones unless listed -/
  coreCopy : Kv DWord
  vatCopy : Kv DWord
  bcasts : List Bcast
  ops : List SOp
  deriving DecidableEq, Repr, Inhabited

/-! ### Graphs (12) -/

structure GEnt where
  v : Nat
  w : DWord
  k : Nat
  deriving DecidableEq, Repr, Inhabited

structure GList where
  ents : List GEnt
  ring : Word
  /-- commits taken so far: STALE is exact even after the ring has wrapped (R269) -/
  commits : Nat
  deriving DecidableEq, Repr, Inhabited

structure Graph where
  idx : Nat
  gen : Nat
  tenant : Nat
  cap : Nat
  pay : Nat
  hpol : Nat
  harg : Nat
  base : Nat
  len : Nat
  /-- the region's pages as they were when the graph was made, in order: stack, physical address, length (13 R277) -/
  pages : List (Nat × Nat × Nat)
  /-- the live edge count, which wraps (R252) -/
  count : DWord
  live : Bool
  /-- lists by 2 × vertex + (1 for the in-list) -/
  lists : Kv GList
  /-- entries reserved for each list, by the list's key (R260) -/
  resv : Kv Nat
  /-- edges with an operation pending, source × 2^40 + target -/
  pending : List Nat
  deriving DecidableEq, Repr, Inhabited

/-- A held pin (R252, R268, R270): the version it keeps. -/
structure Pin where
  id : Nat
  graph : Nat
  gen : Nat
  inl : Bool
  v : Nat
  ring : Word
  commits : Nat
  ents : List GEnt
  stack : Nat
  tenant : Nat
  /-- the page tables of its launch (19 R362) -/
  root : Nat
  /-- its record in the tenant's pin spill region, and the bytes written there (R368) -/
  spill : Option (Nat × List Byte)
  /-- the lane that holds it (R268) -/
  owner : LaneKey
  deriving DecidableEq, Repr, Inhabited

inductive GKind
  /-- the descriptor's place, and the units of it read so far (R272) -/
  | gnew (desc : Loc) (got : Kv (List Byte × Bool))
  | gfree
  | gadd | gdel | gwt
  | gdeg | gld | gfind | gver
  | gopen
  | gnext (c : Cursor)
  | gcst (c : Cursor)
  | gclose (c : Cursor)
  deriving DecidableEq, Repr, Inhabited

inductive GPhase | start | inCommit | outCommit | finish
  deriving DecidableEq, Repr, Inhabited

/-- A graph operation of one lane that has not completed (R260, R264). -/
structure GOp where
  id : Nat
  lane : LaneKey
  core : Nat
  /-- the instruction's place in the package's issue order: lanes of one begin in lane order (R262) -/
  isq : Nat
  win : Nat
  tenant : Nat
  launch : Nat
  kind : GKind
  handle : Word
  inl : Bool
  /-- operands; `none` where a vertex operand names no vertex by its form (R254) -/
  u : Option Nat
  v : Option Nat
  w : DWord
  rank : Nat
  phase : GPhase
  stamp : Nat
  /-- the lane's cursors were closed after it issued: it opens none (R268) -/
  dead : Bool
  deriving DecidableEq, Repr, Inhabited

structure GraphSys where
  graphs : List Graph
  gens : Kv Nat
  /-- the free indices: those never used, from this one up, then the freed ones, oldest first (R253) -/
  fresh : Nat
  freed : List Nat
  pins : List Pin
  ops : List GOp
  nextStamp : Nat
  /-- stamps whose commits are not both done (R227) -/
  openStamps : List Nat
  /-- the latest stamp-bearing entries a lane has read, by lane number -/
  seen : Kv (List Nat)
  /-- the launches admitted so far: tenant, code address, and the store count at the admission (13 R274) -/
  ran : List (Nat × Nat × Nat)
  deriving DecidableEq, Repr, Inhabited

/-! ### The cave level (16) -/

structure BankErr where
  paddr : DWord
  f : Word
  skc : Nat
  w : Nat
  ovf : Bool
  valid : Bool
  /-- MODEL: the program that latched it, by its order of start, whose window may still widen (16 R331) -/
  prog : Nat
  deriving DecidableEq, Repr, Inhabited

/-- A vector operand of a micro-instruction: its value, or the index of the earlier micro-instruction that gives it (R316). -/
inductive MSrc | val (v : Vector Word 32) | of (idx : Word)
  deriving DecidableEq, Repr, Inhabited

/-- A micro-instruction in flight (R329): its index, what it does, its address, mask and operands. -/
structure Micro where
  idx : Word
  instr : Instr
  va : Nat
  pa : Nat
  mask : DWord
  a : MSrc
  b : MSrc
  d : MSrc
  /-- no later instruction has written its destination -/
  live : Bool
  /-- the 8-byte units of its access still to be performed, and what those read so far gave: nothing for a poisoned word (R316) -/
  left : List Nat
  got : List (Nat × Option (List Byte))
  deriving DecidableEq, Repr, Inhabited

/-- A near-bank report (R331): F, W, the stack core of the micro-instruction, and the virtual address of the word. -/
structure BankRep where
  f : Word
  w : Nat
  skc : Nat
  addr : DWord
  deriving DecidableEq, Repr, Inhabited

inductive CaveKind
  | inst (work idx : Nat)
  | region (work : Nat)
  | handler (work h : Nat)
  deriving DecidableEq, Repr, Inhabited

structure CaveCtx where
  kind : CaveKind
  launch : Nat
  tenant : Nat
  x : Vector DWord 32
  v : Vector (Vector Word 32) 16
  m : Vector DWord 8
  pc : Nat
  lm : Memory
  midx : Word
  micro : List Micro
  /-- groups of four micro-instructions under way, by the first index, and whether another access has reached the stack's banks
  since that one issued (R331) -/
  groups : List (Word × Bool)
  report : Option BankRep
  /-- instructions run, for a handler's limit (R342) -/
  count : Nat
  /-- the declared range: virtual base and length -/
  range : Nat × Nat
  /-- order of start (R345) -/
  started : Nat
  /-- a plain vector access to HBM whose units are not all performed (R316) -/
  part : Option Micro
  deriving DecidableEq, Repr, Inhabited

structure CaveMsg where
  id : Nat
  h : Nat
  word : DWord
  launch : Nat
  tenant : Nat
  /-- V(d) of the sender's die: what the message's release covers -/
  vec : Vec
  /-- the work of a `cmsg`; none for a `send` (R328) -/
  work : Option Nat
  deriving DecidableEq, Repr, Inhabited

structure SkCore where
  prog : Option CaveCtx
  hand : Option CaveCtx
  /-- the handler area of local memory -/
  hm : Memory
  /-- the active bank of the handler table, 512 bytes (R343) -/
  table : Memory
  /-- the bank that an armed swap makes active (R344) -/
  armed : Option Memory
  msgs : List CaveMsg
  /-- the work for whose instance the core's program was pre-empted (R345) -/
  resv : Option Nat
  deriving DecidableEq, Repr, Inhabited

inductive WorkKind | cdisp | mig | msg
  deriving DecidableEq, Repr, Inhabited

/-- A piece of cave work, from its issue until its ticket completes (R334, R337, R340, R342). -/
structure Work where
  id : Nat
  kind : WorkKind
  wave : Nat
  num : BitVec 16
  launch : Nat
  prio : Nat
  stack : Nat
  entry : Nat
  arg : DWord
  range : Nat × Nat
  /-- where the range lies -/
  phys : List (Nat × Nat)
  /-- V(d) of the issuing die: what the release covers -/
  vec : Vec
  nskc : Nat
  placed : Nat
  dispatched : Bool
  /-- the completion move of a region has been taken; it stays until its wave takes the registers -/
  fin : Bool
  /-- its wave has waited on its ticket (R348) -/
  seen : Bool
  /-- stack-core cycles it has waited (R345) -/
  waited : Nat
  /-- the status of each ended instance, by index -/
  ended : Kv CaveStatus
  /-- shipped registers of a region, `em`, and where they return -/
  ship : List (Lanes Word)
  em : Mask
  deriving DecidableEq, Repr, Inhabited

structure CaveSys where
  cores : Kv SkCore
  works : List Work
  /-- pre-empted instances, with their stack -/
  preempted : List (Nat × CaveCtx)
  /-- BERR by stack × 2,048 + bank -/
  berr : Kv BankErr
  deriving DecidableEq, Repr, Inhabited

/-! ### Configuration, controllers, host and fabric -/

/-- A virtual function's window (23 R386). -/
structure VfRegs where
  qbase : DWord
  qlen : Word
  qtail : Word
  qhead : Word
  qerr : Word
  invaddr : DWord
  invlen : DWord
  invdone : Word
  msien : Word
  /-- held writes of QBASE and QLEN (R387) -/
  heldBase : Option DWord
  heldLen : Option Word
  /-- invalidation requests not completed: number, address, length, and the store count at the request -/
  invq : List (Word × Nat × Nat × Nat)
  deriving DecidableEq, Repr, Inhabited

/-- A held configuration write (04 R95): unit, offset of the physical function's window, bytes. -/
structure HeldW where
  unit : Nat
  off : Nat
  bytes : List Byte
  deriving DecidableEq, Repr, Inhabited

/-- An image's header fields that the device keeps (23 R399). -/
structure Image where
  version : Word
  svn : Word
  holo : Nat
  hohi : Nat
  digest : List Byte
  /-- the image as staged, header and body -/
  bytes : List Byte
  deriving DecidableEq, Repr, Inhabited

inductive CtlPhase | armed | stopping | starting
  deriving DecidableEq, Repr, Inhabited

structure Ctl where
  bankA : Option Image
  bankB : Option Image
  active : Bool
  armed : Bool
  rolled : Bool
  restart : Bool
  refused : Bool
  busy : Bool
  updaddr : DWord
  updlen : DWord
  wdog : Nat
  /-- cycles of the deadline of R402 that have passed: since the image started or was restarted, or last wrote WDOG -/
  fed : Nat
  phase : CtlPhase
  /-- missed watchdogs in a row (R402) -/
  misses : Nat
  /-- the version of the hand-over record (R404) -/
  recVersion : Nat
  /-- the hand-over record in retained memory, as it stood when an image last stopped or armed -/
  record : List Byte
  /-- until the new image arms: the copy that takes its record writes, and its outputs to the units, oldest first (R401) -/
  copy : Option (List Byte)
  commit : List Instr
  deriving DecidableEq, Repr, Inhabited

inductive PortState | down | training | up
  deriving DecidableEq, Repr, Inhabited

/-- A link port (23 R396, R405). -/
structure Port where
  st : PortState
  txseq : Nat
  rxseq : Nat
  ackseq : Nat
  /-- unacknowledged data flits, oldest first -/
  replay : List Flit
  credits : Nat
  naks : Nat
  /-- the flit the last NAK named -/
  nakFor : Nat
  crcFails : Nat
  replays : Nat
  downs : Nat
  /-- flits sent, newest first -/
  sent : List Flit
  /-- payloads delivered, newest first -/
  got : List (List Byte)
  /-- payloads still to be sent, oldest first -/
  outq : List (List Byte)
  width : Nat
  /-- an Ethernet port's connections (R405) -/
  nconn : Nat
  connAddr : DWord
  deriving DecidableEq, Repr, Inhabited

inductive AckKind | acc | dup | stale
  deriving DecidableEq, Repr, Inhabited

/-- What leaves the device to its host and its partners. -/
inductive OutMsg
  | msi (fn : Nat)
  | ack (tok : DWord) (k : AckKind)
  | report (bytes : List Byte)
  | slowStep (die : Nat)
  | refusedCommit (stack skc : Nat)
  deriving DecidableEq, Repr, Inhabited

structure FabLaunch where
  tok : DWord
  bytes : List Byte
  deriving DecidableEq, Repr, Inhabited

structure Fabric where
  ports : Kv Port
  /-- packet numbers taken, by source, destination and number (R397) -/
  taken : List (Nat × Nat × Nat)
  /-- seen tokens by tenant (R363) -/
  seen : Kv (List Nat)
  queue : List FabLaunch
  /-- packets delivered, newest first -/
  delivered : List (List Byte)
  /-- the scale-up domain, the route table and its place in retained memory (R405) -/
  domain : Nat
  routes : List (List Byte)
  routeAddr : DWord
  deriving DecidableEq, Repr, Inhabited

structure Sem where
  val : Word
  tag : Option Nat
  deriving DecidableEq, Repr, Inhabited

/-- The split whose instruction is issuing: its wave's number and its own. -/
structure Cur where
  wave : Nat
  sid : Nat
  deriving DecidableEq, Repr, Inhabited

/-- The cave context whose instruction executes: stack, stack core, and whether it is the handler's. -/
structure CurCave where
  stack : Nat
  skc : Nat
  hand : Bool
  deriving DecidableEq, Repr, Inhabited

/-- The state of the package. -/
structure State where
  /-- MODEL: the moves still to be taken in the order given; when there is none, a free move (log 1) -/
  agenda : List Move
  /-- MODEL: free moves taken -/
  moveCtr : Nat
  /-- MODEL: free values drawn (log 2) -/
  rnd : Nat
  /-- MODEL: the next number for a wave, split, access, … -/
  nid : Nat
  /-- MODEL: whose front instruction executes -/
  cur : Option Cur
  /-- MODEL: whose cave instruction executes -/
  curCave : Option CurCave
  /-- MODEL: did the front instruction that executed last issue, rather than wait (02 R49)? -/
  issued : Bool
  waves : List Wave
  blocks : List Block
  saved : List Saved
  launches : List Launch
  /-- the split each scheduler issued from last, by core × 4 + scheduler (02 R48) -/
  last : Kv Nat
  mem : MemSys
  tasks : Tasks
  search : Search
  graph : GraphSys
  cave : CaveSys
  /-- `DCYC` of each die (21 R371) -/
  dcyc : Vector DWord 4
  /-- MODEL: has each die's present cycle passed its start, where blocks start and waves are formed (02 R42, 20 R370)? -/
  begun : Vector Bool 4
  /-- the cycle of each die's last quota boundary (14 R286) -/
  quotaAt : Vector DWord 4
  /-- cycles of each controller's clock that a unit's write has been held, by unit (04 R96) -/
  heldFor : Kv Nat
  /-- performance counters by core × 256 + number (21 R374) -/
  perf : Kv Nat
  /-- semaphores by cluster × 256 + number (21 R371) -/
  sems : Kv Sem
  pdrain : Word
  pflush : Word
  /-- read-write bytes of the physical function's window: tenant table, granule maps, handler shadow banks (23 R391) -/
  pf : Memory
  /-- the counters of 21 R376 by their offset in that window -/
  ctrs : Kv Nat
  /-- what of them was added in the present cycle of the unit whose block holds the counter, which a clear leaves (23 R407) -/
  ctrNow : Kv Nat
  held : List HeldW
  vf : Kv VfRegs
  fready : Word
  ffail : Word
  devno : Nat
  ctls : Vector Ctl 21
  /-- the dispatcher's admission number and round-robin position (14 R279, 23 R404) -/
  admSeq : Nat
  rrpos : Nat
  /-- cores vacated on request (23 R403) -/
  vacated : List Nat
  fabric : Fabric
  /-- 5 mV supply steps and the main clock in MHz, a die (23 R408) -/
  supply : Vector Nat 4
  clock : Vector Nat 4
  out : List OutMsg
  deriving DecidableEq, Repr, Inhabited

/-- Why the machine stops with a fault. -/
inductive Fault
  /-- Raised by `hostStore` (23 R389, 14 R278): the host stores to a physical address that no storage of R360 has. Safe: no
  state follows. -/
  | noStorage (pa : Nat)
  deriving DecidableEq, Repr, Inhabited

/-- Why the machine has no meaning for an instruction. -/
inductive Refusal
  /-- Raised by an arm of `exec` for an instruction that has no meaning yet. Safe. -/
  | notModelled (mnemonic : String)
  /-- Raised by the meaning of a front or cave instruction when no split or stack core is executing it: `step` always names
  one. Safe. -/
  | noIssuer
  deriving DecidableEq, Repr, Inhabited

/-! ### Reset -/

def Slot.reset : Slot := ⟨BitVec.allOnes 64, 0, false, .replicate 4 0, 0, 0⟩

def VfRegs.reset : VfRegs := ⟨0, 0, 0, 0, 0, 0, 0, 0, 0, none, none, []⟩

def Ctl.reset : Ctl := ⟨none, none, false, true, false, false, false, false, 0, 0, 0, 0, .armed, 0, 0, [], none, []⟩

def Port.reset : Port := ⟨.down, 0, 0, 0, [], 0, 0, 0, 0, 0, 0, [], [], [], 0, 0, 0⟩

def SkCore.reset : SkCore := ⟨none, none, .empty, .empty, none, [], none⟩

def MemSys.reset : MemSys where
  home := .empty
  view := .replicate 4 .empty
  vseq := .replicate 4 []
  vec := .replicate 4 (.replicate 4 0)
  wb := []
  chan := []
  apply := []
  acts := []
  l1 := []
  xc := []
  remote := []
  remotePsn := []
  rseq := []
  rfloor := []
  eng := []
  remoteW := []
  dirty := []
  l2 := []
  fillPsn := []
  evs := 0
  cc := []
  floor := []
  wlog := []
  clk := 0
  invs := []
  hostVec := .replicate 4 0
  uncleared := []
  fly := []
  hot := []
  retired := []
  touch := []

/-- The package right after device reset: no launch, no wave, no cave program; every register at the value the spec gives it
for reset, and where the spec gives none at the value that the assumption log names. -/
def State.reset : State where
  agenda := []
  moveCtr := 0
  rnd := 0
  nid := 1
  cur := none
  curCave := none
  issued := false
  waves := []
  blocks := []
  saved := []
  launches := []
  last := []
  mem := .reset
  tasks := ⟨[], 0, [], [], [], .replicate 4 0⟩
  search := ⟨.replicate 16 .reset, [], [], [], []⟩
  graph := ⟨[], [], 1, [], [], [], 1, [], [], []⟩
  cave := ⟨[], [], [], []⟩
  dcyc := .replicate 4 0
  begun := .replicate 4 true
  quotaAt := .replicate 4 0
  heldFor := []
  perf := []
  sems := []
  pdrain := 0x0000E000
  pflush := 0x00004000
  pf := .empty
  ctrs := []
  ctrNow := []
  held := []
  vf := []
  fready := 0
  ffail := 0
  devno := 0
  ctls := .replicate 21 .reset
  admSeq := 0
  rrpos := 0
  vacated := []
  fabric := ⟨[], [], [], [], [], 0, [], 0⟩
  supply := .replicate 4 0
  clock := .replicate 4 2400
  out := []

end Sys2Proof.Machine
end

