-- ==== Sys2Proof/Machine/Kv.lean ====
section
/-! DEFINITION. Operations on the sparse tables and byte memories of the state, each keeping their one form, and small
helpers over lists, lanes and masks. -/

namespace Sys2Proof.Machine

/-! ### Sparse tables -/

/-- The value at key `k`, or the default `d`. -/
def kvGet {α : Type} (d : α) (k : Nat) : Kv α → α
  | [] => d
  | (j, v) :: r => if j = k then v else if k < j then d else kvGet d k r

def kvDel {α : Type} (k : Nat) : Kv α → Kv α
  | [] => []
  | (j, v) :: r => if j = k then r else if k < j then (j, v) :: r else (j, v) :: kvDel k r

def kvIns {α : Type} (k : Nat) (w : α) : Kv α → Kv α
  | [] => [(k, w)]
  | (j, v) :: r => if j = k then (k, w) :: r else if k < j then (k, w) :: (j, v) :: r else (j, v) :: kvIns k w r

/-- Write `w` at `k`; writing the default removes the entry. -/
def kvPut {α : Type} [DecidableEq α] (d : α) (k : Nat) (w : α) (m : Kv α) : Kv α :=
  if w = d then kvDel k m else kvIns k w m

/-- The form of a table: keys rising, no default listed. -/
def kvWf {α : Type} [DecidableEq α] (d : α) : Kv α → Bool
  | [] => true
  | [(_, v)] => v != d
  | (j, v) :: (k, w) :: r => (v != d) && decide (j < k) && kvWf d ((k, w) :: r)

/-! ### Rising lists of numbers -/

def insNat (k : Nat) : List Nat → List Nat
  | [] => [k]
  | j :: r => if j = k then j :: r else if k < j then k :: j :: r else j :: insNat k r

def delNat (k : Nat) (l : List Nat) : List Nat := l.filter (· != k)

def natWf : List Nat → Bool
  | [] => true
  | [_] => true
  | j :: k :: r => decide (j < k) && natWf (k :: r)

/-! ### Byte memories -/

/-- The byte at an address: 0 where nothing is listed (log 3). -/
def memByte (m : Memory) (a : Nat) : Byte := kvGet 0 a m.cells

/-- Is the 8-byte word of an address poisoned (09 R208)? -/
def memPsn (m : Memory) (a : Nat) : Bool := m.psn.contains (a / 8)

def memBytes (m : Memory) (a : Nat) : Nat → List Byte
  | 0 => []
  | n + 1 => memByte m a :: memBytes m (a + 1) n

def memPutByte (m : Memory) (a : Nat) (b : Byte) : Memory := { m with cells := kvPut 0 a b m.cells }

def memPutBytes (m : Memory) (a : Nat) : List Byte → Memory
  | [] => m
  | b :: bs => memPutBytes (memPutByte m a b) (a + 1) bs

/-- The poisoned words that a plain write of `n` bytes at `a` leaves: those it does not cover whole (R208). -/
def psnAfter (psn : List Nat) (a n : Nat) : List Nat :=
  psn.filter fun w => !(a ≤ 8 * w && 8 * w + 8 ≤ a + n)

/-- Merge bits under a mask into a byte (05 R119). -/
def mergeByte (old new mask : Byte) : Byte := (old &&& ~~~mask) ||| (new &&& mask)

def mergeBytes : List Byte → List Byte → List Byte → List Byte
  | o :: os, n :: ns, k :: ks => mergeByte o n k :: mergeBytes os ns ks
  | _, _, _ => []

/-- Write bytes at an address; under a mask only the masked bits change, and no word is covered whole. -/
def memStore (m : Memory) (a : Nat) (bs : List Byte) (mask : Option (List Byte)) : Memory :=
  match mask with
  | none => { memPutBytes m a bs with psn := psnAfter m.psn a bs.length }
  | some k => memPutBytes m a (mergeBytes (memBytes m a bs.length) bs k)

def anyPsn (m : Memory) (a n : Nat) : Bool := (List.range n).any fun i => memPsn m (a + i)

/-- The canonical form of a byte memory. -/
def Memory.wf (m : Memory) : Bool := kvWf 0 m.cells && natWf m.psn

/-! ### Lanes and masks -/

def lanesOf (m : Mask) : List Nat := (List.range 32).filter fun i => m.getLsbD i

/-- The lanes at which `f` holds. -/
def maskOf (f : Nat → Bool) : Mask :=
  (List.range 32).foldl (fun acc i => if f i then acc ||| (1#32 <<< i) else acc) 0

def laneBit (i : Nat) : Mask := 1#32 <<< i

/-- The lanes below `n`. -/
def lowMask (n : Nat) : Mask := maskOf fun i => i < n

def setBit (m : Mask) (i : Nat) (b : Bool) : Mask := if b then m ||| laneBit i else m &&& ~~~(laneBit i)

/-- Lane `i` of a lane vector. -/
def laneGet {α : Type} (v : Lanes α) (d : α) (i : Nat) : α := v.getD i d

def laneSet {α : Type} (v : Lanes α) (i : Nat) (x : α) : Lanes α := v.setIfInBounds i x

def vecGet {α : Type} {n : Nat} (v : Vector α n) (d : α) (i : Nat) : α := v.getD i d

def vecSet {α : Type} {n : Nat} (v : Vector α n) (i : Nat) (x : α) : Vector α n := v.setIfInBounds i x

def vecUpd {α : Type} {n : Nat} (v : Vector α n) (d : α) (i : Nat) (f : α → α) : Vector α n :=
  v.setIfInBounds i (f (v.getD i d))

def word64 (lo hi : Word) : DWord := hi ++ lo
def lo32 (x : DWord) : Word := x.extractLsb' 0 32
def hi32 (x : DWord) : Word := x.extractLsb' 32 32

/-- The lowest set lane of a mask. -/
def lowLane (m : Mask) : Option Nat := (lanesOf m).head?

/-- Update the first element that satisfies `p`. -/
def updFirst {α : Type} (p : α → Bool) (f : α → α) : List α → List α
  | [] => []
  | x :: r => if p x then f x :: r else x :: updFirst p f r

/-- The elements that satisfy `p`, replaced by what `f` gives. -/
def updAll {α : Type} (p : α → Bool) (f : α → α) (l : List α) : List α := l.map fun x => if p x then f x else x

/-- Repeat a step at most `n` times, while it changes something. -/
def iter {α : Type} (f : α → Option α) : Nat → α → α
  | 0, x => x
  | n + 1, x =>
    match f x with
    | some y => iter f n y
    | none => x

end Sys2Proof.Machine
end

