-- ==== Sys2Proof/Machine/Num.lean ====
section
/-! DEFINITION. Number formats to the bit (05 R98 to R122): values of patterns, exact arithmetic on them, the one rounding,
conversions, and the functions of 06 R134 by intervals that are narrowed until both ends round alike. -/

namespace Sys2Proof.Machine

/-! ### Formats (R99, R101) -/

/-- Fraction bits. -/
def fFrac : FTy5 → Nat | .f64 => 52 | .f32 => 23 | .f16 => 10 | .bf16 => 7 | .f8e4 => 3
/-- Exponent bits. -/
def fExp : FTy5 → Nat | .f64 => 11 | .f32 => 8 | .f16 => 5 | .bf16 => 8 | .f8e4 => 4
def fBias : FTy5 → Int | .f64 => 1023 | .f32 => 127 | .f16 => 15 | .bf16 => 127 | .f8e4 => 7
def fBits (t : FTy5) : Nat := 1 + fExp t + fFrac t
def fSign (t : FTy5) : Nat := 2 ^ (fExp t + fFrac t)
def fCanon : FTy5 → Nat
  | .f64 => 0x7FF8000000000000 | .f32 => 0x7FC00000 | .f16 => 0x7E00 | .bf16 => 0x7FC0 | .f8e4 => 0x7F
def fPoison : FTy5 → Nat
  | .f64 => 0x7FF8000000005A5A | .f32 => 0x7FC05A5A | .f16 => 0x7E5A | .bf16 => 0x7FDA | .f8e4 => 0xFF
/-- The pattern of +∞; for `.f8e4`, which has none, the pattern after the largest finite (R100). -/
def fInf : FTy5 → Nat
  | .f64 => 0x7FF0000000000000 | .f32 => 0x7F800000 | .f16 => 0x7C00 | .bf16 => 0x7F80 | .f8e4 => 0x7F
def fMax (t : FTy5) : Nat := fInf t - 1
def f5 : FltTy → FTy5 | .f16 => .f16 | .bf16 => .bf16 | .f32 => .f32 | .f64 => .f64

/-- The value of a pattern: poison, another NaN, an infinity, or (−1)^s m 2^e. -/
inductive FV
  | psn
  | nan
  | inf (s : Bool)
  | num (s : Bool) (m : Nat) (e : Int)
  deriving DecidableEq, Repr, Inhabited

/-- R100. -/
def fval (t : FTy5) (w : Nat) : FV :=
  let w := w % 2 ^ fBits t
  let s := decide (fSign t ≤ w)
  let b := w % fSign t
  let ex := b / 2 ^ fFrac t
  let fr := b % 2 ^ fFrac t
  if w = fPoison t then .psn
  else if t = .f8e4 && b = 0x7F then .nan
  else if t != .f8e4 && ex = 2 ^ fExp t - 1 then (if fr = 0 then .inf s else .nan)
  else if ex = 0 then .num s fr (1 - fBias t - fFrac t)
  else .num s (2 ^ fFrac t + fr) (ex - fBias t - fFrac t)

/-- An exact result: n/d 2^e with n and d above 0, or a special one. -/
inductive XV
  | psn
  | nan
  | inf (s : Bool)
  | zero (s : Bool)
  | fin (s : Bool) (n d : Nat) (e : Int)
  deriving DecidableEq, Repr, Inhabited

def XV.ofFV : FV → XV
  | .psn => .psn
  | .nan => .nan
  | .inf s => .inf s
  | .num s m e => if m = 0 then .zero s else .fin s m 1 e

/-! ### The one rounding (R102 to R104) -/

/-- Does a magnitude between `q` and `q + 1` (in parts: remainder `r` over `d`, `r` not 0) go up? -/
def roundsUp (rm : Rm) (s : Bool) (q r d : Nat) : Bool :=
  match rm with
  | .rne => decide (d < 2 * r) || (decide (2 * r = d) && q % 2 = 1)
  | .rz => false
  | .rp => !s && decide (r ≠ 0)
  | .rm => s && decide (r ≠ 0)

/-- n/d 2^k as a quotient and remainder pair over a denominator. -/
def scaled (n d : Nat) (k : Int) : Nat × Nat :=
  match k with
  | .ofNat j => (n * 2 ^ j, d)
  | .negSucc j => (n, d * 2 ^ (j + 1))

/-- ⌊log₂ (n/d)⌋ for n, d above 0. -/
def ilog2 (n d : Nat) : Int :=
  let k : Int := (Nat.log2 n : Int) - (Nat.log2 d : Int)
  let (a, b) := scaled n d (-k)
  if b ≤ a then k else k - 1

/-- The largest magnitude that overflow gives in a mode (R102, R103). -/
def overflowed (t : FTy5) (rm : Rm) (s : Bool) : Nat :=
  if t = .f8e4 then fMax t
  else match rm, s with
    | .rne, _ => fInf t
    | .rz, _ => fMax t
    | .rp, false => fInf t
    | .rp, true => fMax t
    | .rm, false => fMax t
    | .rm, true => fInf t

def withSign (t : FTy5) (s : Bool) (b : Nat) : Nat := if s then fSign t + b else b

/-- Round an exact magnitude into a format (R102 to R104). -/
def roundMag (t : FTy5) (rm : Rm) (s : Bool) (n d : Nat) (e : Int) : Nat :=
  let k := ilog2 n d + e
  let q : Int := max (k - fFrac t) (1 - fBias t - fFrac t)
  let (a, b) := scaled n d (e - q)
  let m := a / b
  let m := if roundsUp rm s m (a % b) b then m + 1 else m
  let p := if m < 2 ^ fFrac t then m else ((q + fFrac t + fBias t).toNat * 2 ^ fFrac t) + (m - 2 ^ fFrac t)
  withSign t s (if fInf t ≤ p then overflowed t rm s else p)

/-- The pattern of an exact result (R102 to R105). -/
def roundX (t : FTy5) (rm : Rm) : XV → Nat
  | .psn => fPoison t
  | .nan => fCanon t
  | .inf s => withSign t s (if t = .f8e4 then fMax t else fInf t)
  | .zero s => withSign t s 0
  | .fin s n d e => roundMag t rm s n d e

/-! ### Exact arithmetic (R105, R106) -/

def negV : FV → FV
  | .num s m e => .num (!s) m e
  | .inf s => .inf (!s)
  | x => x

/-- A finite term as an integer at exponent `e0`, which is no greater than its own. -/
def termAt (e0 : Int) : FV → Int
  | .num s m e => let v : Int := m * 2 ^ (e - e0).toNat; if s then -v else v
  | _ => 0

def minExp (ts : List FV) : Int :=
  ts.foldl (fun a t => match t with | .num _ _ e => min a e | _ => a) 0

/-- An integer at an exponent as an exact result; a zero has the sign given. -/
def ofInt (i : Int) (e : Int) (zs : Bool) : XV :=
  if i = 0 then .zero zs else .fin (decide (i < 0)) i.natAbs 1 e

/-- The exact sum of any number of terms (R105, R106). -/
def sumX (rm : Rm) (ts : List FV) : XV :=
  if ts.any (· == .psn) then .psn
  else if ts.any (· == .nan) then .nan
  else if ts.any (· == .inf false) && ts.any (· == .inf true) then .nan
  else if ts.any (· == .inf false) then .inf false
  else if ts.any (· == .inf true) then .inf true
  else
    let e0 := minExp ts
    let allNegZero := ts != [] && ts.all fun t => match t with | .num true 0 _ => true | _ => false
    ofInt (ts.foldl (fun a t => a + termAt e0 t) 0) e0 (allNegZero || rm == .rm)

/-- The exact product, which is again a value (R105, R106). -/
def mulV (a b : FV) : FV :=
  match a, b with
  | .psn, _ | _, .psn => .psn
  | .nan, _ | _, .nan => .nan
  | .inf s, .inf r => .inf (xor s r)
  | .inf s, .num r m _ | .num r m _, .inf s => if m = 0 then .nan else .inf (xor s r)
  | .num s m e, .num r n f => .num (xor s r) (m * n) (e + f)

/-- The exact quotient (R105, R134). -/
def divX (a b : FV) : XV :=
  match a, b with
  | .psn, _ | _, .psn => .psn
  | .nan, _ | _, .nan => .nan
  | .inf _, .inf _ => .nan
  | .inf s, .num r _ _ => .inf (xor s r)
  | .num s _ _, .inf r => .zero (xor s r)
  | .num s m e, .num r n f =>
    if m = 0 && n = 0 then .nan
    else if n = 0 then .inf (xor s r)
    else if m = 0 then .zero (xor s r)
    else .fin (xor s r) m n (e - f)

/-- ⌊√n⌋, one bit of the root at a time. -/
def isqrtGo (n : Nat) : Nat → Nat → Nat
  | 0, r => r
  | k + 1, r => let c := r + 2 ^ k; if c * c ≤ n then isqrtGo n k c else isqrtGo n k r
def isqrt (n : Nat) : Nat := isqrtGo n (Nat.log2 n / 2 + 1) 0

/-- √(m 2^e) from its first bits and whether more follow: an inexact root is given with one further bit set, which lies
beyond every rounding boundary of R99's formats. -/
def sqrtFin (m : Nat) (e : Int) : XV :=
  let m := if e % 2 = 0 then m else 2 * m
  let e := if e % 2 = 0 then e else e - 1
  let n := m * 4 ^ 64
  let r := isqrt n
  if r * r = n then .fin false r 1 (e / 2 - 64) else .fin false (2 * r + 1) 1 (e / 2 - 65)

def sqrtX : FV → XV
  | .psn => .psn
  | .nan => .nan
  | .inf s => if s then .nan else .inf false
  | .num s m e => if m = 0 then .zero s else if s then .nan else sqrtFin m e

/-- 1/√(m 2^e). -/
def rsqFin (m : Nat) (e : Int) : XV :=
  let m := if e % 2 = 0 then m else 2 * m
  let e := if e % 2 = 0 then e else e - 1
  let k := Nat.log2 m + 66
  let r := isqrt (4 ^ k / m)
  if r * r * m = 4 ^ k then .fin false r 1 (-(e / 2) - k) else .fin false (2 * r + 1) 1 (-(e / 2) - k - 1)

def rsqX : FV → XV
  | .psn => .psn
  | .nan => .nan
  | .inf s => if s then .nan else .zero false
  | .num s m e => if m = 0 then .inf s else if s then .nan else rsqFin m e

/-! ### Order (R106, R138) -/

inductive Cmp | lt | eq | gt | un
  deriving DecidableEq, Repr, Inhabited

def cmpV (a b : FV) : Cmp :=
  match a, b with
  | .psn, _ | _, .psn | .nan, _ | _, .nan => .un
  | .inf s, .inf r => if s = r then .eq else if s then .lt else .gt
  | .inf s, .num _ _ _ => if s then .lt else .gt
  | .num _ _ _, .inf s => if s then .gt else .lt
  | .num s m e, .num r n f =>
    let e0 := min e f
    let x := termAt e0 (.num s m e)
    let y := termAt e0 (.num r n f)
    if x < y then .lt else if y < x then .gt else .eq

/-- The codes of R138 on an order. -/
def ccHolds (cc : Cc) (c : Cmp) : Bool :=
  match cc with
  | .eq => c == .eq
  | .ne => c != .eq
  | .lt => c == .lt
  | .le => c == .lt || c == .eq
  | .gt => c == .gt
  | .ge => c == .gt || c == .eq
  | .ord => c != .un
  | .uno => c == .un

/-- Is `a` the lesser for `fmin`, −0 lying below +0 (R133)? -/
def fLess (a b : FV) : Bool :=
  match cmpV a b with
  | .lt => true
  | .eq => match a, b with
    | .num true 0 _, .num false 0 _ => true
    | _, _ => false
  | _ => false

/-- `fmin` and `fmax` (R133, R134). -/
def fminmax (t : FTy5) (mx : Bool) (x y : Nat) : Nat :=
  let a := fval t x
  let b := fval t y
  if a == .psn || b == .psn then fPoison t
  else if a == .nan || b == .nan then fCanon t
  else (if fLess a b then (if mx then y else x) else (if fLess b a then (if mx then x else y) else x)) % 2 ^ fBits t

/-! ### Conversions (R109) -/

/-- An exact value rounded to an integer in a mode. -/
def roundInt (rm : Rm) (s : Bool) (n d : Nat) (e : Int) : Int :=
  let (a, b) := scaled n d e
  let m := a / b
  let m := if roundsUp rm s m (a % b) b then m + 1 else m
  if s then -(m : Int) else m

def clampI (lo hi x : Int) : Int := if x < lo then lo else if hi < x then hi else x

def intBits (t : IntTy) : Nat := if t.wide then 64 else 32
def intMin (t : IntTy) : Int := if t.signed then -(2 ^ (intBits t - 1)) else 0
def intMax (t : IntTy) : Int := if t.signed then 2 ^ (intBits t - 1) - 1 else 2 ^ intBits t - 1
/-- The pattern of an integer in `w` bits (R98). -/
def wrapI (w : Nat) (x : Int) : Nat := (x % (2 ^ w : Int)).toNat
/-- The value of a pattern read by a type (R98). -/
def intVal (t : IntTy) (x : Nat) : Int :=
  let x := x % 2 ^ intBits t
  if t.signed && decide (2 ^ (intBits t - 1) ≤ x) then (x : Int) - 2 ^ intBits t else x

/-- An exact value rounded and clamped to lo … hi; NaN gives 0. -/
def xToInt (rm : Rm) (lo hi : Int) : XV → Int
  | .psn | .nan | .zero _ => 0
  | .inf s => if s then lo else hi
  | .fin s n d e => clampI lo hi (roundInt rm s n d e)

/-- A code of R56 as a float format or an integer type. -/
def tyKind : Ty → IntTy ⊕ FTy5
  | .s32 => .inl .s32 | .z32 => .inl .z32 | .s64 => .inl .s64 | .z64 => .inl .z64
  | .f16 => .inr .f16 | .bf16 => .inr .bf16 | .f32 => .inr .f32 | .f64 => .inr .f64 | .f8e4 => .inr .f8e4

def intX (v : Int) : XV := ofInt v 0 false

/-- R109: the pattern that converting `x` from `ts` to `td` gives. -/
def convert (td ts : Ty) (rm : Rm) (x : Nat) : Nat :=
  match tyKind td, tyKind ts with
  | .inl d, .inl s => wrapI (intBits d) (clampI (intMin d) (intMax d) (intVal s x))
  | .inl d, .inr f => wrapI (intBits d) (xToInt rm (intMin d) (intMax d) (.ofFV (fval f x)))
  | .inr d, .inl s => roundX d rm (intX (intVal s x))
  | .inr d, .inr f => roundX d rm (.ofFV (fval f x))

/-- The class number of a pattern (R108). -/
def fclassBit (t : FTy5) (x : Nat) : Nat :=
  match fval t x with
  | .psn => 0
  | .nan => 1
  | .inf s => if s then 2 else 9
  | .num s m e =>
    let sub := decide (m < 2 ^ fFrac t) && decide (e = 1 - fBias t - fFrac t)
    if m = 0 then (if s then 5 else 6)
    else if sub then (if s then 4 else 7) else (if s then 3 else 8)

/-! ### 2^a, log₂ a, sin πa, cos πa (R134)

Fixed point with `pB` fraction bits. Each series is summed in truncating steps, fewer than 2^12 of them, each less than one
unit out, so the exact value lies within `slack` units of the sum (log 6). -/

def pB : Nat := 420
def oneF : Nat := 2 ^ pB
def slack : Nat := 2 ^ 20

/-- Σ over k of z^(2k+1)/(2k+1), for z in units of 2^-pB, until the terms vanish. -/
def atanhGo (z2 : Nat) : Nat → Nat → Nat → Nat → Nat
  | 0, _, _, acc => acc
  | f + 1, k, p, acc => if p = 0 then acc else atanhGo z2 f (k + 2) (p * z2 / oneF) (acc + p / k)
def atanhF (z : Nat) : Nat := atanhGo (z * z / oneF) 400 1 z 0

def ln2F : Nat := 2 * atanhF (oneF / 3)

/-- ln m for m in [1, 2), m = a/b. -/
def lnF (a b : Nat) : Nat := 2 * atanhF ((a - b) * oneF / (a + b))

/-- Σ x^k/k!. -/
def expGo (x : Nat) : Nat → Nat → Nat → Nat → Nat
  | 0, _, _, acc => acc
  | f + 1, k, p, acc => if p = 0 then acc else expGo x f (k + 1) (p * x / oneF / k) (acc + p)
def expF (x : Nat) : Nat := expGo x 400 1 oneF 0

def atanGo (n2 : Nat) : Nat → Nat → Nat → Int → Int
  | 0, _, _, acc => acc
  | f + 1, k, p, acc =>
    if p = 0 then acc
    else atanGo n2 f (k + 2) (p / n2) (if k % 4 = 1 then acc + (p / k : Nat) else acc - (p / k : Nat))
/-- arctan (1/n). -/
def atanInv (n : Nat) : Int := atanGo (n * n) 400 1 (oneF / n) 0
def piF : Nat := (16 * atanInv 5 - 4 * atanInv 239).toNat

/-- Alternating Σ of x^k/k! over k = k0, k0 + 2, …; `p` is the first term. -/
def trigGo (x2 : Nat) : Nat → Nat → Nat → Bool → Int → Int
  | 0, _, _, _, acc => acc
  | f + 1, k, p, pos, acc =>
    if p = 0 then acc
    else trigGo x2 f (k + 2) (p * x2 / oneF / ((k + 1) * (k + 2))) (!pos) (if pos then acc + (p : Nat) else acc - (p : Nat))
/-- sin x and cos x for x in [0, π/4], in units of 2^-pB. -/
def sinF (x : Nat) : Nat := (trigGo (x * x / oneF) 200 1 x true 0).toNat
def cosF (x : Nat) : Nat := (trigGo (x * x / oneF) 200 0 oneF true 0).toNat

/-- Round a value known to lie within `slack` units of `v` 2^e: where the two ends of the interval round alike, that is the
rounding of the exact value (R102). -/
def roundNear (t : FTy5) (rm : Rm) (s : Bool) (v : Nat) (e : Int) : Nat :=
  roundMag t rm s (v - slack) 1 e

/-- Do both ends round alike? -/
def nearSure (t : FTy5) (rm : Rm) (s : Bool) (v : Nat) (e : Int) : Bool :=
  decide (slack < v) && roundMag t rm s (v - slack) 1 e == roundMag t rm s (v + slack) 1 e

/-- 2^a for a = ±m 2^e, m not 0. -/
def ex2Fin (t : FTy5) (rm : Rm) (s : Bool) (m : Nat) (e : Int) : Nat :=
  let i : Int := m * 2 ^ e.toNat
  if 0 ≤ e then
    -- an integer exponent: exact
    if 5000 < i then roundMag t rm false 1 1 (if s then -5000 else 5000) else roundMag t rm false 1 1 (if s then -i else i)
  else
    let den : Nat := 2 ^ (-e).toNat
    let a : Int := if s then -(m : Int) else m
    let k := a.fdiv den
    let fr := (a - k * den).toNat
    if fr = 0 then roundMag t rm false 1 1 (clampI (-5000) 5000 k)
    else if 5000 < k then roundMag t rm false 3 2 5000
    else if k < -5000 then roundMag t rm false 3 2 (-5000)
    else roundNear t rm false (expF (fr * oneF / den * ln2F / oneF)) (k - pB)

/-- log₂ (m 2^e), m not 0. -/
def lg2Fin (t : FTy5) (rm : Rm) (m : Nat) (e : Int) : Nat :=
  let l := Nat.log2 m
  let k : Int := l + e
  if m = 2 ^ l then roundX t rm (intX k)
  else
    -- log₂ = k + ln(m / 2^l) / ln 2
    let f : Int := lnF m (2 ^ l) * oneF / ln2F
    let v : Int := k * oneF + f
    roundNear t rm (decide (v < 0)) v.natAbs (-pB)

/-- sin or cos of π a with a = p/q in quarter turns of π/2: `c` for cosine. -/
def trigFin (t : FTy5) (rm : Rm) (c : Bool) (s : Bool) (m : Nat) (e : Int) : Nat :=
  -- a mod 2, as num/den in [0, 2)
  let den := if 0 ≤ e then 1 else 2 ^ (-e).toNat
  let num := if 0 ≤ e then m * 2 ^ e.toNat else m
  let num := num % (2 * den)
  let num := if c then (2 * num + den) % (4 * den) else 2 * num
  let den := 2 * den
  -- now sin of π num/den, num/den in [0, 2); for sine the sign of a is applied at the end
  let half := decide (den ≤ num)
  let r := num % den
  let neg := xor half (s && !c)
  if r = 0 then withSign t (s && !c) 0
  else if 2 * r = den then roundMag t rm neg 1 1 0
  else
    -- sin (π r/den), r/den in (0, 1), symmetric about 1/2
    let r := if den < 2 * r then den - r else r
    let v := if 4 * r ≤ den then sinF (piF * r / den) else cosF (piF * (den - 2 * r) / (2 * den))
    roundNear t rm neg v (-pB)

def ex2 (t : FTy5) (rm : Rm) : FV → Nat
  | .psn => fPoison t
  | .nan => fCanon t
  | .inf s => if s then 0 else fInf t
  | .num s m e => if m = 0 then roundMag t rm false 1 1 0 else ex2Fin t rm s m e

def lg2 (t : FTy5) (rm : Rm) : FV → Nat
  | .psn => fPoison t
  | .nan => fCanon t
  | .inf s => if s then fCanon t else fInf t
  | .num s m e => if m = 0 then withSign t true (fInf t) else if s then fCanon t else lg2Fin t rm m e

def trig (t : FTy5) (rm : Rm) (c : Bool) : FV → Nat
  | .psn => fPoison t
  | .nan => fCanon t
  | .inf _ => fCanon t
  | .num s m e =>
    if m = 0 then (if c then roundMag t rm false 1 1 0 else withSign t s 0) else trigFin t rm c s m e

/-! ### Page-owned elements (R110 to R118) -/

/-- Bits of an element of a format code of R115. -/
def elBits : Nat → Nat | 1 => 16 | 2 => 16 | 3 => 8 | 4 => 4 | 5 => 6 | _ => 0
/-- Q4X block length (R115). -/
def geomLen (g : Nat) : Nat := 32 * 2 ^ g
/-- Elements of a page of `b` bytes (R114). -/
def pageElems (fmt b : Nat) : Nat :=
  match fmt with | 1 => b / 2 | 2 => b / 2 | 3 => b | 4 => 2 * b | 5 => 4 * (b / 3) | _ => 0

/-- A two's-complement pattern of `n` bits as an integer. -/
def sx (n x : Nat) : Int := if 2 ^ (n - 1) ≤ x % 2 ^ n then (x % 2 ^ n : Int) - 2 ^ n else (x % 2 ^ n : Nat)

/-- The value of an element before its scale (R112). -/
inductive EV
  | int (v : Int)
  | pat (t : FTy5) (w : Nat)
  | psn
  deriving DecidableEq, Repr, Inhabited

/-- The element values of one Q4X block from its patterns, none where the word is poisoned, and whether FMTERR is set
(R111, R112). -/
def q4xBlock : Nat → List (Option Nat) → List EV × Bool
  | 0, _ => ([], false)
  | _, [] => ([], false)
  | f + 1, none :: r => let x := q4xBlock f r; (.psn :: x.1, x.2)
  | f + 1, some p :: r =>
    if p ≠ 8 then let x := q4xBlock f r; (.int (sx 4 p) :: x.1, x.2)
    else match r with
      | a :: b :: r' =>
        let ev := match a, b with
          | some lo, some hi => .pat .f8e4 (16 * hi + lo)
          | _, _ => .psn
        let x := q4xBlock f r'
        (ev :: .int 0 :: .int 0 :: x.1, x.2)
      | _ => let x := q4xBlock f r; (.int 0 :: x.1, true)

def evVal : EV → FV
  | .int v => .num (decide (v < 0)) v.natAbs 0
  | .pat t w => fval t w
  | .psn => .psn

/-- R116: the decoded `.f32` pattern of an element. An integer 0 has the sign of the scale. -/
def decodeEl (scale : Nat) (e : EV) : Nat := roundX .f32 .rne (.ofFV (mulV (evVal e) (fval .bf16 scale)))

/-- R117: is a scale one that encodes every element as pattern 0? -/
def badScale (scale : Nat) : Bool :=
  match fval .bf16 scale with
  | .num _ m _ => m = 0
  | _ => true

/-- x / PSCALE for encoding. -/
def encQuot (x scale : Nat) : XV := divX (fval .f32 x) (fval .bf16 scale)

/-- R117 for the formats other than Q4X. -/
def encodeEl (fmt : Nat) (rm : Rm) (x scale : Nat) : Nat :=
  let y := encQuot x scale
  match fmt with
  | 1 => roundX .f16 rm y
  | 2 => roundX .bf16 rm y
  | 3 => roundX .f8e4 rm y
  | _ => wrapI 6 (xToInt rm (-32) 31 y)

/-- R118: the patterns of a Q4X block from its source values. -/
def q4xEncode (rm : Rm) (scale : Nat) : Nat → List Nat → List Nat
  | 0, _ => []
  | _, [] => []
  | f + 1, x :: r =>
    let y := encQuot x scale
    let i := match y with | .fin s n d e => roundInt rm s n d e | _ => 0
    let special := match fval .f32 x with | .num _ _ _ => false | _ => true
    let w := roundX .f8e4 rm y
    match special, r with
    | true, _ :: _ :: r' => 8 :: w % 16 :: w / 16 :: q4xEncode rm scale f r'
    | true, _ =>
      (match fval .f32 x with | .inf s => if s then 9 else 7 | _ => 0) :: q4xEncode rm scale f r
    | false, _ :: _ :: r' =>
      if -7 ≤ i ∧ i ≤ 7 then wrapI 4 i :: q4xEncode rm scale f r
      else 8 :: w % 16 :: w / 16 :: q4xEncode rm scale f r'
    | false, _ => wrapI 4 (clampI (-7) 7 i) :: q4xEncode rm scale f r

/-! ### Poison of a read (R208) -/

def poisonOf (n : Nat) : Nat :=
  match n with | 1 => 0xFF | 2 => 0x7E5A | 4 => 0x7FC05A5A | _ => 0x7FF8000000005A5A

end Sys2Proof.Machine
end

