-- ==== Sys2Proof/Machine/Mem.lean ====
section
/-! DEFINITION. Memory as the machine holds it: views, write buffers and copies as the sources of a read (10 R214 to R216), page
entries and translation (09 R202 to R205, 19 R358 to R361), the fetch of code (08 R180) and constant windows (09 R201). -/

namespace Sys2Proof.Machine

/-! ### Free values and fresh numbers -/

def fresh (s : State) : Nat × State := (s.nid, { s with nid := s.nid + 1 })

/-- A free value (log 2). -/
def draw (s : State) : Nat × State := (Config.freeNat s.rnd, { s with rnd := s.rnd + 1 })

/-- A free choice among `n` alternatives; none is drawn where there is only one. -/
def choose (n : Nat) (s : State) : Nat × State :=
  if n ≤ 1 then (0, s) else let x := draw s; (x.1 % n, x.2)

/-! ### Service counters (21 R376, 23 R391) -/

/-- The place of a die's register block (23 R391). -/
def dieReg (d off : Nat) : Nat := 0x40000 + 65536 * d + off
/-- The place of a stack's register block (23 R391). -/
def stackReg (n off : Nat) : Nat := 0x1000000 + 131072 * n + off
def clusterReg (core off : Nat) : Nat := dieReg (dieOfCore core) (off + 4 * (clusterOfCore core % 6))

/-- Add to a service counter of `n` bits, which saturates. -/
def addCtr (s : State) (off n k : Nat) : State :=
  let add := fun c => kvPut 0 off (min (kvGet 0 off c + k) (2 ^ n - 1)) c
  { s with ctrs := add s.ctrs, ctrNow := add s.ctrNow }

/-! ### Causes (08 R171) -/

inductive Cause
  | ifpar | illop | badtgt | strmperm | barbusy | pgfault | gprot | fmtflt | align | spadbnd | mxflt | caveerr | brk | swtrap
  | timer
  deriving DecidableEq, Repr, Inhabited

def Cause.code : Cause → Nat
  | .ifpar => 1 | .illop => 2 | .badtgt => 3 | .strmperm => 4 | .barbusy => 5 | .pgfault => 6 | .gprot => 7 | .fmtflt => 8
  | .align => 9 | .spadbnd => 10 | .mxflt => 11 | .caveerr => 12 | .brk => 13 | .swtrap => 14 | .timer => 15

/-! ### Physical addresses (09 R203, 19 R360, 23 R390, R391) -/

def inHbm (pa : Nat) : Bool := pa < hbmSize
def inTier (pa : Nat) : Bool := tierBase ≤ pa && pa < tierBase + tierSize
/-- Does this device store the address? -/
def inStorage (pa : Nat) : Bool := inHbm pa || inTier pa

/-- The granule of a physical address within its map. -/
def granule (pa : Nat) : Nat := if inTier pa then (pa - tierBase) / 2 ^ 34 else pa / 2 ^ 34

/-- The granule map's bit for an address: 1 interleaved, 0 direct (R390). -/
def interleaved (s : State) (pa : Nat) : Bool :=
  let g := granule pa
  (memByte s.pf ((if inTier pa then 0x90120 else 0x90100) + g / 8)).getLsbD (g % 8)

/-- The stack or channel of an interleaved line (R203). -/
def xorStack (pa : Nat) : Nat :=
  ((pa / 2 ^ 8 % 16) ^^^ (pa / 2 ^ 12 % 16)) ^^^ ((pa / 2 ^ 16 % 16) ^^^ (pa / 2 ^ 20 % 16))

/-- The stack, or tier channel, that holds an address. -/
def stackOf (s : State) (pa : Nat) : Nat := if interleaved s pa then xorStack pa else granule pa % 16

/-- The home die of an address (R198, R203). -/
def homeDie (s : State) (pa : Nat) : Nat := dieOfStack (stackOf s pa)

/-- The 2 MiB region of an address (09 R211). -/
def regionOf (pa : Nat) : Nat := pa / 2 ^ 21

/-- The FREADY and FFAIL bit of the unit that holds an address (23 R393): a stack, or the tier. -/
def unitBit (s : State) (pa : Nat) : Nat := if inTier pa then 26 else 9 + stackOf s pa
def unitFailed (s : State) (k : Nat) : Bool := s.ffail.getLsbD k
/-- May an access to the unit be taken (23 R394)? -/
def unitUp (s : State) (k : Nat) : Bool := s.fready.getLsbD k || s.ffail.getLsbD k

/-! ### Views -/

def viewOf (s : State) (d : Nat) : Memory := vecGet s.mem.view .empty d

def l2Key (d pa : Nat) : Nat := (d * 2 ^ 57 + pa) / 32

/-- Does a die's L2 hold the 32-byte half of a byte, so that a read of it does not reach the banks (09 R197)? -/
def heldL2 (s : State) (d pa : Nat) : Bool := s.mem.l2.contains (l2Key d pa)

/-- R211: a region whose cleared bit is 0 reads as zero. -/
def regionClearedQ (s : State) (pa : Nat) : Bool := !s.mem.uncleared.contains (regionOf pa)

/-- M(d)[x]. -/
def viewByte (s : State) (d pa : Nat) : Byte := if regionClearedQ s pa then memByte (viewOf s d) pa else 0
/-- The place in coherence order of the write that M(d)[x] holds. -/
def viewSeq (s : State) (d pa : Nat) : Nat := kvGet 0 pa (vecGet s.mem.vseq [] d)

def fillKey (d pa : Nat) : Nat := (d * 2 ^ 57 + pa) / 8

/-- R207, R208: is a word poisoned as its home die holds it: by a write, in the half that its L2 was filled with, or, where it holds
none, in HBM or the tier? -/
def homePsn (s : State) (pa : Nat) : Bool :=
  let h := homeDie s pa
  memPsn (viewOf s h) pa || (s.mem.fillPsn.contains (fillKey h pa) && heldL2 s h pa) ||
  (memPsn s.mem.home pa && !heldL2 s h pa && !s.mem.dirty.contains (pa / 64))

/-- R207, R208: would a fill of a word from its source give a die poison? A die's view that is older than the home die's in that word
takes none from it yet (10 R214). -/
def srcPsn (s : State) (d pa : Nat) : Bool :=
  homePsn s pa && (d == homeDie s pa ||
    (List.range 8).all fun i => viewSeq s d (8 * (pa / 8) + i) == viewSeq s (homeDie s pa) (8 * (pa / 8) + i))

/-- Does it lie in a poisoned word: one of M(d), or of the half that the die's L2 was, or now would be, filled with (R207, R208)?
Everything on a failed unit reads as poison (23 R394). -/
def viewPsn (s : State) (d pa : Nat) : Bool :=
  (regionClearedQ s pa && (memPsn (viewOf s d) pa || (s.mem.fillPsn.contains (fillKey d pa) && heldL2 s d pa) ||
    (srcPsn s d pa && !heldL2 s d pa))) || unitFailed s (unitBit s pa)

def viewBytes (s : State) (d pa : Nat) : Nat → List Byte
  | 0 => []
  | n + 1 => viewByte s d pa :: viewBytes s d (pa + 1) n

def anyViewPsn (s : State) (d pa n : Nat) : Bool := (List.range n).any fun i => viewPsn s d (pa + i)

/-- H[x] (11 R241). -/
def homeByte (s : State) (pa : Nat) : Byte := if regionClearedQ s pa then memByte s.mem.home pa else 0

/-- The cells and poisoned words of a memory outside `lo … hi − 1`. -/
def memClear (m : Memory) (lo hi : Nat) : Memory :=
  ⟨m.cells.filter fun c => !(lo ≤ c.1 && c.1 < hi), m.psn.filter fun w => !(lo ≤ 8 * w && 8 * w < hi)⟩

/-- R211: a region becomes zero and its bit is set. -/
def clearRegion (s : State) (r : Nat) : State :=
  if s.mem.uncleared.contains r then
    let lo := r * 2 ^ 21
    let hi := lo + 2 ^ 21
    { s with mem := { s.mem with
        home := memClear s.mem.home lo hi
        view := s.mem.view.map fun m => memClear m lo hi
        uncleared := delNat r s.mem.uncleared } }
  else s

/-- Set byte `pa` of a die's view, with its place in coherence order. -/
def putViewByte (d seq : Nat) (m : MemSys) (pa : Nat) (b : Byte) : MemSys :=
  { m with
    view := vecSet m.view d (memPutByte (vecGet m.view .empty d) pa b)
    vseq := vecSet m.vseq d (kvPut 0 pa seq (vecGet m.vseq [] d)) }

def putViewBytes (d seq : Nat) (m : MemSys) (pa : Nat) : List Byte → MemSys
  | [] => m
  | b :: bs => putViewBytes d seq (putViewByte d seq m pa b) (pa + 1) bs

/-- The addresses of the 8-byte words that a run of bytes touches. -/
def wordBytes (pa n : Nat) : List Nat := (List.range (8 * ((pa + n - 1) / 8 + 1 - pa / 8))).map (8 * (pa / 8) + ·)

/-- What a store numbered `t` replaced among the bytes `as`, and whether it lay in poison (R180, R201, R205, R208). -/
def logOf (die t : Nat) (old new : Nat → Byte × Bool) (as : List Nat) : List WLog :=
  as.filterMap fun a => let o := old a; if o = new a then none else some ⟨die, a, o.1, o.2, t⟩

def bytePsn (m : Memory) (a : Nat) : Byte × Bool := (memByte m a, memPsn m a)

/-- Is a controller's image running, rather than being replaced (23 R403)? -/
def ctlRuns (s : State) (k : Nat) : Bool := (vecGet s.ctls .reset k).phase == .armed

/-! ### Units that hold configuration writes (04 R95, R96) -/

def uDispatch : Nat := 0
/-- The cores, tile fetch units, streamers, hoop unit and vat of a die. -/
def uDie (d : Nat) : Nat := 1 + d
def uMemory : Nat := 6
def uFabric : Nat := 7
def uGraph (n : Nat) : Nat := 8 + n
def uSk (n c : Nat) : Nat := 24 + 16 * n + c
/-- The queue registers of a virtual function (23 R387). -/
def uFn (t : Nat) : Nat := 512 + t

/-- R96: a unit that has held a write for 2^20 cycles takes no new work until it has made its boundary. -/
def atLimit (s : State) (u : Nat) : Bool := (s.held.any (·.unit == u)) && 2 ^ 20 ≤ kvGet 0 u s.heldFor

/-- R95: a write accepted in a cycle is held for the boundary that follows; one held since an earlier cycle takes the next. -/
def heldDue (s : State) (u : Nat) : Bool := (s.held.any (·.unit == u)) && 0 < kvGet 0 u s.heldFor

/-- An access to a byte reaches its unit: the banks of a stack (16 R331), or a tier channel. -/
def touchMem (s : State) (pa : Nat) : State :=
  if inStorage pa then { s with mem := { s.mem with touch := insNat (unitBit s pa) s.mem.touch } } else s
/-- R394: does the move reach a unit that cannot serve yet? It then waits. -/
def waitsUnit (s : State) : Bool := s.mem.touch.any fun k => !unitUp s k

def touchLoc (s : State) (l : Loc) : State := match l with | .gm pa => touchMem s pa | _ => s

/-- The move cannot be made whole: it waits (10 R214). No unit has this number, so `waitsUnit` holds. -/
def holdMove (s : State) : State := { s with mem := { s.mem with touch := insNat 32 s.mem.touch } }

/-! ### Locations, and the parts of an access (10 R214) -/

def Loc.addr : Loc → Nat
  | .gm a => a | .remote _ a => a | .spad _ a => a | .lpriv _ a => a | .dspad _ _ a => a

def Loc.off (l : Loc) (i : Nat) : Loc :=
  match l with
  | .gm a => .gm (a + i)
  | .remote d a => .remote d (a + i)
  | .spad b a => .spad b (a + i)
  | .lpriv b a => .lpriv b (a + i)
  | .dspad u d a => .dspad u d (a + i)

/-- Are two locations in one memory? -/
def Loc.same : Loc → Loc → Bool
  | .gm _, .gm _ => true
  | .remote d _, .remote e _ => d == e
  | .spad b _, .spad c _ => b == c
  | .lpriv b _, .lpriv c _ => b == c
  | .dspad u d _, .dspad v e _ => u == v && d == e
  | _, _ => false

def Loc.isGm : Loc → Bool | .gm _ => true | _ => false
def Loc.isRemote : Loc → Bool | .remote _ _ => true | _ => false
def Loc.onChip : Loc → Bool | .gm _ => false | .remote _ _ => false | _ => true

/-- Do two runs of bytes share a byte? -/
def overlap (k : Loc) (n : Nat) (l : Loc) (m : Nat) : Bool :=
  k.same l && decide (k.addr < l.addr + m) && decide (l.addr < k.addr + n)

/-- The aligned parts of at most 8 bytes of an access (R214): offset and size of each. -/
def splitUnits (a : Nat) : Nat → Nat → List (Nat × Nat)
  | 0, _ => []
  | _, 0 => []
  | f + 1, n =>
    let k := if a % 8 = 0 && 8 ≤ n then 8 else if a % 4 = 0 && 4 ≤ n then 4 else if a % 2 = 0 && 2 ≤ n then 2 else 1
    (a, k) :: splitUnits (a + k) f (n - k)

def unitsOf (l : Loc) (n : Nat) : List (Loc × Nat) :=
  (splitUnits l.addr n n).map fun u => (l.off (u.1 - l.addr), u.2)

/-- The units of byte runs. -/
def runUnits (ps : List (Loc × Nat)) : List (Loc × Nat) := ps.flatMap fun p => unitsOf p.1 p.2

/-- The units of an engine's rows, each with its row's lane. -/
def rowUnits (rs : List MxRow) : List (Nat × Loc × Nat) := rs.flatMap fun k => (runUnits k.runs).map fun u => (k.lane, u.1, u.2)

/-! ### What the L2 slices of a die hold (09 R196, R197, R199) -/

/-- R152: has an operation on a die's cores read a unit in a line of its L2 that `hit` names, and not yet consumed its operands? -/
def pinnedBy (s : State) (d : Nat) (hit : Loc → Bool) : Bool :=
  s.waves.any fun w => dieOfCore w.core == d && w.mxOps.any fun o =>
    o.st == .queued && match o.chk with
      | some (ra, rb) => (rowUnits (ra ++ rb)).zipIdx.any fun e => !(kvGet [] e.2 o.got).isEmpty && hit e.1.2.1
      | none => false

/-- Is a 256-byte line of this device's memory pinned in a die's L2, and one of another device's? -/
def pinnedLine (s : State) (d line : Nat) : Bool := pinnedBy s d fun l => match l with | .gm pa => pa / 256 == line | _ => false
def pinnedX (s : State) (d dev line : Nat) : Bool :=
  pinnedBy s d fun l => match l with | .remote e pa => e == dev && pa / 256 == line | _ => false

/-- A read through a die's L2 reaches the unit of its bytes where a half of them is not held. -/
def touchL2 (s : State) (d pa n : Nat) : State :=
  if (List.range ((pa + n - 1) / 32 + 1 - pa / 32)).all fun i => s.mem.l2.contains (l2Key d pa + i) then s else touchMem s pa

/-- A rising list with each number once. -/
def dedupRising : List Nat → List Nat
  | [] => []
  | [a] => [a]
  | a :: b :: r => if a = b then dedupRising (b :: r) else a :: dedupRising (b :: r)

/-- The 256-byte lines that a die's L2 holds of this device's memory by their numbers, and those of another device from 2^49 × (device + 1)
up. -/
def l2Lines (s : State) (d : Nat) : List Nat :=
  dedupRising ((s.mem.l2.filter fun k => 32 * k / 2 ^ 57 == d).map fun k => 32 * k % 2 ^ 57 / 256) ++
  dedupRising ((s.mem.xc.filter fun e => e.1 / 2 ^ 79 == d).map fun e => (e.1 % 2 ^ 79 + 2 ^ 57) / 256)

/-- R152, R199: may a line be given up for another with no write-back? -/
def lineFree (s : State) (d ln : Nat) : Bool :=
  if ln < 2 ^ 49 then !pinnedLine s d ln && !(s.mem.dirty.any fun k => k / 4 == ln && homeDie s (256 * ln) == d)
  else !pinnedX s d (ln / 2 ^ 49 - 1) (ln % 2 ^ 49)

/-- A line leaves a die's L2. -/
def dropLine (s : State) (d ln : Nat) : State :=
  if ln < 2 ^ 49 then { s with mem := { s.mem with l2 := s.mem.l2.filter fun k => !(32 * k / 2 ^ 57 == d && 32 * k % 2 ^ 57 / 256 == ln) } }
  else { s with mem := { s.mem with xc := s.mem.xc.filter fun e => !(e.1 / 2 ^ 79 == d && (e.1 % 2 ^ 79 + 2 ^ 57) / 256 == ln) } }

/-- One of the lines of a list that may leave a cache, freely chosen (log 109). -/
def someLine (m : MemSys) (ls : List Nat) : Option Nat × MemSys := (ls[Config.freeLine m.evs % ls.length]?, { m with evs := m.evs + 1 })

/-- R1, R190, R199: a die's L2 holds `l2Cap` lines. Where a fill of line `ln` is one too many, another that may go leaves, freely chosen;
where none may, the fill is not kept (log 109). -/
def boundL2 (s : State) (d ln : Nat) : State :=
  if s.mem.l2.length + s.mem.xc.length ≤ l2Cap then s
  else
    let ls := l2Lines s d
    if ls.length ≤ l2Cap then s
    else
      let v := someLine s.mem (ls.filter fun k => k != ln && lineFree s d k)
      dropLine { s with mem := v.2 } d (v.1.getD ln)

/-- R197: a read fills the 32-byte halves of its bytes in a die's L2; a poisoned word comes as poison (R208). -/
def fillL2 (s : State) (d pa n : Nat) : State :=
  if inStorage pa then
    let new := ((List.range ((pa + n - 1) / 32 + 1 - pa / 32)).map (l2Key d pa + ·)).filter fun k => !s.mem.l2.contains k
    if new.isEmpty then s
    else
      let ws := new.flatMap fun k => (List.range 4).map (4 * k + ·)
      let bad := ws.filter fun w => regionClearedQ s (8 * w % 2 ^ 57) && srcPsn s d (8 * w % 2 ^ 57)
      let s := { s with mem := { s.mem with
        l2 := new.foldl (fun l k => insNat k l) s.mem.l2
        fillPsn := bad.foldl (fun l k => insNat k l) (s.mem.fillPsn.filter fun k => !ws.contains k) } }
      (dedupRising (new.map fun k => 32 * k % 2 ^ 57 / 256)).foldl (fun s ln => boundL2 s d ln) s
  else s

/-- A write fills both halves of the sectors that it reaches. -/
def fillSectors (s : State) (d pa n : Nat) : State := fillL2 s d (64 * (pa / 64)) (64 * ((pa + n - 1) / 64 + 1 - pa / 64))

/-- The sectors of a run of bytes become I, on one die or on all. -/
def dropL2 (s : State) (die : Option Nat) (pa n : Nat) : State :=
  { s with mem := { s.mem with l2 := s.mem.l2.filter fun k =>
      !((match die with | some d => 32 * k / 2 ^ 57 == d | none => true) &&
        pa / 64 ≤ 32 * k % 2 ^ 57 / 64 && 32 * k % 2 ^ 57 / 64 ≤ (pa + n - 1) / 64) } }

/-- R197: the state of a sector of this device's memory in a die's L2. -/
inductive Sector
  | i | c | d | g
  deriving DecidableEq, Repr, Inhabited

def sectorState (s : State) (d k : Nat) : Sector :=
  if homeDie s (64 * k) == d && s.mem.dirty.contains k then .d
  else if !(s.mem.l2.contains (l2Key d (64 * k)) || s.mem.l2.contains (l2Key d (64 * k + 32))) then .i
  else if homeDie s (64 * k) == d then .c
  else .g

/-! ### What the L1 of a core holds (09 R193, R196) -/

/-- Does a block hold its slots and resources (R33, R370)? All of them are its own until its last wave has left its slot. -/
def holdsCore (b : Block) : Bool := match b.mode with | .ended _ => false | _ => true

/-- Lines of the L1 of a core: 192 KiB, less what is carved for the lane-private slices of its blocks. -/
def l1Cap (s : State) (core : Nat) : Nat :=
  (196608 - (s.blocks.filter fun b => b.core == core && holdsCore b).foldl (fun a b =>
    a + match s.launches.find? (·.uid == b.launch) with | some l => b.nwaves * 32 * l.lr.lpriv | none => 0) 0) / 128

def l1Lines (m : MemSys) (core : Nat) : List Nat := dedupRising ((m.l1.filter fun e => e.1 / 2 ^ 57 == core).map fun e => e.1 / 128)

/-- R2, R190: where the L1 of a core holds more than `cap` lines, one of them other than `ln` leaves, freely chosen (log 109). -/
def boundL1 (cap core ln : Nat) (m : MemSys) : MemSys :=
  if m.l1.length ≤ cap then m
  else
    let ls := l1Lines m core
    if ls.length ≤ cap then m
    else
      let v := someLine m (ls.filter (· != ln))
      { v.2 with l1 := v.2.l1.filter fun e => e.1 / 128 != v.1.getD ln }

/-- A byte fills the L1 of a core. -/
def fillL1 (cap core key : Nat) (c : CopyB) (m : MemSys) : MemSys := boundL1 cap core (key / 128) { m with l1 := kvIns key c m.l1 }

/-! ### Stores to a view, and what it has held -/

/-- The words of a run of bytes become poisoned in a memory. -/
def markPsn (m : Memory) (a n : Nat) : Memory :=
  { m with psn := (List.range ((a + n - 1) / 8 + 1 - a / 8)).foldl (fun l i => insNat (a / 8 + i) l) m.psn }

/-- PSNCNT of a die counts the words that a run of bytes makes poison (21 R376). -/
def countPsn (s : State) (d : Nat) (old new : Memory) : State := addCtr s (dieReg d 0x18) 64 (new.psn.length - old.psn.length)

/-- The poison that a fill brought, after a write of bytes: a plain one clears it in the words it covers whole (R208). -/
def fillAfter (ks : List Nat) (d pa n : Nat) (plain : Bool) : List Nat :=
  if plain then ks.filter fun k => !(8 * k / 2 ^ 57 == d && pa ≤ 8 * k % 2 ^ 57 && 8 * k % 2 ^ 57 + 8 ≤ pa + n) else ks

/-- A memory's poisoned words after a write of bytes: a plain one clears those it covers whole, and a copy of poison poisons those it
touches (R208). -/
def storedPsn (v : Memory) (pa n : Nat) (plain p : Bool) : Memory :=
  let v := if plain then { v with psn := psnAfter v.psn pa n } else v
  if p then markPsn v pa n else v

/-- Store bytes in M(d), with their place in coherence order and their poison. -/
def storeView (s : State) (d pa : Nat) (bs : List Byte) (mask : Option (List Byte)) (seq : Nat) (p : Bool) : State :=
  let s := clearRegion (clearRegion s (regionOf pa)) (regionOf (pa + bs.length - 1))
  let m := putViewBytes d seq s.mem pa (match mask with | none => bs | some k => mergeBytes (viewBytes s d pa bs.length) bs k)
  let v := vecGet m.view .empty d
  let u := storedPsn v pa bs.length mask.isNone p
  countPsn { s with mem := { m with
      view := vecUpd m.view .empty d fun _ => u
      fillPsn := fillAfter m.fillPsn d pa bs.length mask.isNone
      wlog := logOf d m.clk (bytePsn (viewOf s d)) (bytePsn u) (wordBytes pa bs.length) ++ m.wlog
      clk := m.clk + 1 } }
    d (storedPsn v pa bs.length mask.isNone false) u

/-- Words of M(d) become poisoned where they stand. -/
def markView (s : State) (d pa n : Nat) : State :=
  let new := markPsn (viewOf s d) pa n
  let m := { s.mem with
    view := vecUpd s.mem.view .empty d fun _ => new
    wlog := logOf d s.mem.clk (bytePsn (viewOf s d)) (bytePsn new) (wordBytes pa n) ++ s.mem.wlog
    clk := s.mem.clk + 1 }
  countPsn { s with mem := m } d (viewOf s d) new

/-- The stores from the one numbered `t0` on that changed bytes of a view, the latest first. -/
def histTimes (s : State) (d pa n t0 : Nat) : List Nat :=
  ((s.mem.wlog.filter fun e => e.die == d && pa ≤ e.pa && e.pa < pa + n && t0 ≤ e.t).map WLog.t).eraseDups

/-- A logged byte as it stood at the store numbered `t`, and whether it lay in poison; `now` is what it holds. -/
def loggedAt (s : State) (d pa t : Nat) (now : Byte × Bool) : Byte × Bool :=
  s.mem.wlog.foldl (fun b e => if e.die == d && e.pa == pa && t ≤ e.t then (e.old, e.psn) else b) now

/-- M(d)[x] as it stood at the store numbered `t`, or now. -/
def byteAt (s : State) (d pa : Nat) (t : Option Nat) : Byte × Bool :=
  let now := (viewByte s d pa, viewPsn s d pa)
  match t with
  | none => now
  | some t => let x := loggedAt s d pa t now; (x.1, x.2 || unitFailed s (unitBit s pa))

/-- One point from the store numbered `t0` to now, chosen freely, for bytes that have a log. -/
def pickTime (s : State) (d pa n t0 : Nat) : Option Nat × State :=
  let ts := histTimes s d pa n t0
  let c := choose (ts.length + 1) s
  (if c.1 = 0 then none else ts[c.1 - 1]?, c.2)

/-- Bytes of a view at one point from `t0` to now, chosen freely, each with whether it lies in poison. -/
def histRead (s : State) (d pa n t0 : Nat) : List (Byte × Bool) × State :=
  let c := pickTime s d pa n t0
  ((List.range n).map fun i => byteAt s d (pa + i) c.1, fillL2 (touchL2 c.2 d pa n) d pa n)

/-! ### On-chip memories -/

def findBlock (s : State) (u : Nat) : Option Block := s.blocks.find? (·.uid == u)
def updBlock (s : State) (u : Nat) (f : Block → Block) : State :=
  { s with blocks := updFirst (·.uid == u) f s.blocks }
def findLaunch (s : State) (u : Nat) : Option Launch := s.launches.find? (·.uid == u)
def updLaunch (s : State) (u : Nat) (f : Launch → Launch) : State :=
  { s with launches := updFirst (·.uid == u) f s.launches }

/-- The atomics on a launch's completion bitmap (19 R364). -/
def bmpKey (launch : Nat) : LaneKey := ⟨launch, 35⟩

/-- Set a bit of a launch's completion flags (19 R367). -/
def setLaunchFlag (s : State) (u bit : Nat) : State :=
  updLaunch s u fun l => { l with flags := l.flags ||| (1#32 <<< bit) }

/-- The on-chip memory of a location, empty where its block or launch has ended. -/
def chipMem (s : State) : Loc → Memory
  | .spad b _ => match findBlock s b with | some k => k.spad | none => .empty
  | .lpriv b _ => match findBlock s b with | some k => k.lp | none => .empty
  | .dspad u d _ => match findLaunch s u with | some l => vecGet l.ds .empty d | none => .empty
  | _ => .empty

/-- The die that holds an on-chip memory. -/
def chipDie (s : State) : Loc → Nat
  | .spad b _ => match findBlock s b with | some k => dieOfCore k.core | none => 0
  | .lpriv b _ => match findBlock s b with | some k => dieOfCore k.core | none => 0
  | .dspad _ d _ => d
  | _ => 0

def markChip (s : State) (l : Loc) (n : Nat) (p : Bool) : State :=
  if !p then s
  else
    let s := countPsn s (chipDie s l) (chipMem s l) (markPsn (chipMem s l) l.addr n)
    match l with
    | .spad b a => updBlock s b fun k => { k with spad := markPsn k.spad a n }
    | .lpriv b a => updBlock s b fun k => { k with lp := markPsn k.lp a n }
    | .dspad u d a => updLaunch s u fun x => { x with ds := vecUpd x.ds .empty d fun m => markPsn m a n }
    | _ => s

/-- Store bytes in an on-chip memory. -/
def storeChip (s : State) (l : Loc) (bs : List Byte) (mask : Option (List Byte)) : State :=
  match l with
  | .spad b a => updBlock s b fun k => { k with spad := memStore k.spad a bs mask }
  | .lpriv b a => updBlock s b fun k => { k with lp := memStore k.lp a bs mask }
  | .dspad u d a => updLaunch s u fun x => { x with ds := vecUpd x.ds .empty d fun m => memStore m a bs mask }
  | _ => s

/-! ### The sources of a read (R215, R216) -/

def l1Key (core pa : Nat) : Nat := core * 2 ^ 57 + pa
def xKey (die dev pa : Nat) : Nat := (die * 2 ^ 22 + dev) * 2 ^ 57 + pa
def remKey (dev pa : Nat) : Nat := dev * 2 ^ 57 + pa
def laneNum (l : LaneKey) : Nat := l.wave * 128 + l.lane
/-- Is it a lane of a wave, rather than an engine that acts for it? -/
def isLane (l : LaneKey) : Bool := l.lane < 32
/-- Is it the matrix engine acting for a row lane? -/
def isEngine (k : LaneKey) : Bool := 64 ≤ k.lane
/-- Does an access with key `a` count as one of lane `k`'s: its own, or, once an `mwait` has counted it, one of its wave's engine
(07 R153)? -/
def actsFor (a k : LaneKey) (counted : Bool) : Bool := a == k || (a.wave == k.wave && isEngine a && counted)
/-- The key of what an `mwait` has counted for every lane of a wave (07 R153). -/
def waveKey (wave : Nat) : LaneKey := ⟨wave, 34⟩
def floorKey (l : LaneKey) (pa : Nat) : Nat := laneNum l * 2 ^ 57 + pa

def remFloorKey (l : LaneKey) (dev pa : Nat) : Nat := (laneNum l * 2 ^ 22 + dev) * 2 ^ 57 + pa

/-- Where a write stands in the coherence order of its bytes: its place once stored, else after every stored write, in the
order of its channel, else after those. -/
def wbPos (s : State) (w : Wb) : Nat :=
  match w.seq with
  | some n => n
  | none =>
    if w.state == .sent then s.mem.clk + 1 + (s.mem.chan.findIdx fun m => m.id == w.id)
    else s.mem.clk + 2 + s.mem.chan.length

def wbCovers (w : Wb) (l : Loc) : Bool := overlap w.loc w.bytes.length l 1

/-- The latest place that a lane has read or drained of a byte (R216). -/
def floorOf (s : State) (lane : LaneKey) (pa : Nat) : Nat :=
  s.mem.wb.foldl (fun a w =>
      if w.loc.isGm && wbCovers w (.gm pa) &&
        (w.readers.any (fun r => actsFor r.lane lane r.counted) || (actsFor w.lane lane w.counted && w.state == .sent))
      then max a (wbPos s w) else a)
    (max (kvGet 0 (floorKey lane pa) s.mem.floor) (kvGet 0 (floorKey (waveKey lane.wave) pa) s.mem.floor))

/-- The latest place of what the wave of an engine operation has sent to a byte before the operation (07 R153). -/
def engFloor (s : State) (k : RdBy) (pa : Nat) : Nat :=
  if isEngine k.lane then
    s.mem.wb.foldl (fun a w =>
        if w.loc.isGm && wbCovers w (.gm pa) && w.lane.wave == k.lane.wave && w.lane.lane != 33 && w.isq < k.isq && w.state == .sent
        then max a (wbPos s w) else a) 0
  else 0

/-- The same for a byte of another device. -/
def remFloorOf (s : State) (lane : LaneKey) (dev pa : Nat) : Nat :=
  max (kvGet 0 (remFloorKey lane dev pa) s.mem.rfloor) (kvGet 0 (remFloorKey (waveKey lane.wave) dev pa) s.mem.rfloor)

/-- A byte as a read takes it, and where from. -/
structure ByteSrc where
  val : Byte
  psn : Bool
  wbs : List Nat
  seq : Nat
  /-- the L1 copy it fills -/
  fill : Option CopyB
  deriving DecidableEq, Repr, Inhabited

/-- The first byte of the 8-byte word of a location. -/
def wordLoc : Loc → Loc
  | .gm a => .gm (8 * (a / 8))
  | .remote d a => .remote d (8 * (a / 8))
  | .spad b a => .spad b (8 * (a / 8))
  | .lpriv b a => .lpriv b (8 * (a / 8))
  | .dspad u d a => .dspad u d (8 * (a / 8))

/-- Does a write cover the whole 8-byte word of a byte (R208)? -/
def wholeWord (w : Wb) (l : Loc) : Bool :=
  w.mask.isNone && w.loc.addr ≤ (wordLoc l).addr && (wordLoc l).addr + 8 ≤ w.loc.addr + w.bytes.length

/-- R208: is the word of a byte poisoned above what lies below, by the buffered writes (newest first) that reach the word and that R216
allows? -/
def wordPsn (s : State) (fl : Nat) (l : Loc) (below : Bool) : List Wb → Bool
  | [] => below
  | w :: r =>
    let p := wordPsn s fl l below r
    if wbPos s w < fl then p else w.psn || (p && !wholeWord w l)

/-- The newest write of a list (newest first) that R216 allows, over what lies below. -/
def wbSource (s : State) (fl : Nat) (l : Loc) (base : Option ByteSrc) : List Wb → Option ByteSrc
  | [] => base
  | w :: r =>
    let below := wbSource s fl l base r
    if wbPos s w < fl then below
    else
      let i := l.addr - w.loc.addr
      let b := w.bytes.getD i 0
      match w.mask with
      | none => some ⟨b, false, [w.id], 0, none⟩
      | some k =>
        let mb := k.getD i 0
        if mb == 0xFF then some ⟨b, false, [w.id], 0, none⟩
        else if mb == 0 then below
        else below.map fun x => { x with val := mergeByte x.val b mb, wbs := w.id :: x.wbs }

/-- The same, with whether the word is poisoned: `p` is what lies below the write buffer, as far as R216 lets a read see it or not; `ws`
are the writes that reach the word. -/
def wbRead (s : State) (fl : Nat) (l : Loc) (base : Option ByteSrc) (p : Bool) (ws : List Wb) : Option ByteSrc :=
  (wbSource s fl l base (ws.filter fun w => wbCovers w l)).map fun x =>
    { x with psn := wordPsn s fl l (match base with | some b => b.psn | none => p) ws }

/-- The value below the write buffer: an L1 copy, then M(d); nothing where R216 skips both. -/
def gmBase (s : State) (fl core pa : Nat) (useL1 : Bool) : Option ByteSrc :=
  let d := dieOfCore core
  let c := s.mem.l1.find? fun e => e.1 == l1Key core pa
  match useL1, c with
  | true, some (_, k) =>
    if fl ≤ k.seq then some ⟨k.val, k.psn, [], k.seq, none⟩
    else if fl ≤ viewSeq s d pa then
      let x : CopyB := ⟨viewByte s d pa, viewSeq s d pa, viewPsn s d pa⟩
      some ⟨x.val, x.psn, [], x.seq, some x⟩
    else none
  | _, _ =>
    if fl ≤ viewSeq s d pa then
      let x : CopyB := ⟨viewByte s d pa, viewSeq s d pa, viewPsn s d pa⟩
      some ⟨x.val, x.psn, [], x.seq, if useL1 then some x else none⟩
    else none

/-- A byte of another device's home view. -/
def remByte (s : State) (dev pa : Nat) : CopyB :=
  let k := remKey dev pa
  ⟨kvGet 0 k s.mem.remote, kvGet 0 k s.mem.rseq, s.mem.remotePsn.contains (k / 8)⟩

/-- Is a write that a lane has drained or read (R216), or that the wave of an engine operation has stored (07 R153), still on its
way to that byte? -/
def remHeld (s : State) (k : LaneKey) (dev pa : Nat) : Bool :=
  s.mem.remoteW.any fun r => r.dev == dev && r.pa ≤ pa && pa < r.pa + r.bytes.length &&
    (actsFor r.lane k r.counted || (r.readers.any fun q => actsFor q.lane k q.counted) || (!isLane k && r.lane.wave == k.wave))

/-- A byte of another device: the X copy, or that device's view (R229); nothing where R216 allows neither yet. -/
def remBase (s : State) (lane : Option LaneKey) (core dev pa : Nat) : Option ByteSrc :=
  let v := remByte s dev pa
  if lane.any fun k => remHeld s k dev pa then none
  else
    match s.mem.xc.find? fun e => e.1 == xKey (dieOfCore core) dev pa with
    | some (_, k) =>
      if (match lane with | some i => remFloorOf s i dev pa | none => 0) ≤ k.seq then some ⟨k.val, k.psn, [], k.seq, none⟩
      else some ⟨v.val, v.psn, [], v.seq, some v⟩
    | none => some ⟨v.val, v.psn, [], v.seq, some v⟩

/-- Who reads: `lane` bounds what it may return (R216), none for an engine that nothing binds; `note` goes with a write it takes from
the write buffer (R219); `skip` names writes it does not see. -/
structure Reader where
  lane : Option LaneKey
  note : Option RdBy
  core : Nat
  useL1 : Bool
  skip : List Nat
  deriving DecidableEq, Repr, Inhabited

/-- The cave range under work that holds a byte (R226). -/
def flyOf (s : State) (pa : Nat) : Option RangeFly :=
  s.mem.fly.find? fun f => f.ranges.any fun r => r.1 ≤ pa && pa < r.1 + r.2

/-- R226: the values a front read of a byte under cave work may return: those it has held in M(h) since the dispatch move, and those
that front writes have stored to it since. -/
def flyValues (s : State) (f : RangeFly) (pa : Nat) : List (Byte × Bool) :=
  let h := homeDie s pa
  (byteAt s h pa none :: (histTimes s h pa 1 f.since).map fun t => byteAt s h pa (some t)) ++
    (f.front.filter fun k => k / 256 == pa).map fun k => (BitVec.ofNat 8 k, viewPsn s h pa)

/-- One byte by the sources of R215. -/
def readByte (r : Reader) (s : State) (l : Loc) : Option ByteSrc × State :=
  let wb := (s.mem.wb.filter fun w => w.core == r.core && w.fn.isNone && overlap w.loc w.bytes.length (wordLoc l) 8 && !r.skip.contains w.id).reverse
  match l with
  | .gm pa =>
    match flyOf s pa with
    | some f =>
      let vs := flyValues s f pa
      let c := choose vs.length s
      let v := vs.getD c.1 (0, false)
      (some ⟨v.1, v.2, [], 0, none⟩, c.2)
    | none =>
      let fl := max (match r.lane with | some k => floorOf s k pa | none => 0) (match r.note with | some k => engFloor s k pa | none => 0)
      (wbRead s fl l (gmBase s fl r.core pa r.useL1) (viewPsn s (dieOfCore r.core) pa) wb, s)
  | .remote dev pa =>
    let fl := match r.lane with | some k => remFloorOf s k dev pa | none => 0
    (wbRead s fl l (remBase s r.lane r.core dev pa) (remByte s dev pa).psn wb, s)
  | _ =>
    let m := chipMem s l
    (wbRead s 0 l (some ⟨memByte m l.addr, memPsn m l.addr, [], 0, none⟩) false wb, s)

/-- R197: the X copies of the 32-byte half of a byte are filled from the other device's view. -/
def fillX (s : State) (die dev pa : Nat) : State :=
  boundL2 { s with mem := { s.mem with
      xc := (List.range 32).foldl (fun xc i => let a := pa - pa % 32 + i; kvIns (xKey die dev a) (remByte s dev a) xc) s.mem.xc } }
    die ((remKey (dev + 1) pa) / 256)

/-- What a lane has read or drained of a byte only rises (R216). -/
def raiseAt (k seq : Nat) (m : Kv Nat) : Kv Nat := if seq = 0 then m else kvPut 0 k (max seq (kvGet 0 k m)) m

/-- Does a read of a byte reach the banks that hold it: is it neither the write buffer's, nor an L1 copy's, nor held by the die's L2? -/
def reachesBanks (r : Reader) (s : State) (pa : Nat) (x : ByteSrc) : Bool :=
  (flyOf s pa).isSome || ((x.fill.isSome || (!r.useL1 && x.wbs.isEmpty)) && !heldL2 s (dieOfCore r.core) pa)

/-- 07 R153: an engine's read of the write that stands at `seq` is remembered until an `mwait` counts its operation. -/
def noteEng (k : RdBy) (seq : Nat) (dev : Option Nat) (pa : Nat) (m : MemSys) : MemSys :=
  if isEngine k.lane && seq != 0 then { m with eng := ⟨k.lane.wave, k.isq, dev, pa, seq⟩ :: m.eng } else m

/-- Who has read a byte: the readers of a buffered write, and the lane's floor. -/
def noteReader (r : Reader) (l : Loc) (x : ByteSrc) (m : MemSys) : MemSys :=
  let m := match r.note with
    | some k => { m with
        wb := m.wb.map fun w => if x.wbs.contains w.id && !w.readers.contains k then { w with readers := w.readers ++ [k] } else w }
    | none => m
  let m := match r.lane, l with
    | some k, .gm pa => if isLane k then { m with floor := raiseAt (floorKey k pa) x.seq m.floor } else m
    | some k, .remote dev pa => if isLane k then { m with rfloor := raiseAt (remFloorKey k dev pa) x.seq m.rfloor } else m
    | _, _ => m
  match r.note, l with
  | some k, .gm pa => noteEng k x.seq none pa m
  | some k, .remote dev pa => noteEng k x.seq (some dev) pa m
  | _, _ => m

/-- What taking a byte leaves behind: who has read it, and the copies filled. -/
def noteByte (r : Reader) (s : State) (l : Loc) (x : ByteSrc) : State :=
  let s := { s with mem := noteReader r l x s.mem }
  match l with
  | .gm pa =>
    let t := match x.fill with
      | some c => { s with mem := fillL1 (l1Cap s r.core) r.core (l1Key r.core pa) c s.mem }
      | none => s
    let t := if reachesBanks r s pa x then touchMem t pa else t
    if x.fill.isSome || (!r.useL1 && x.wbs.isEmpty) then fillL2 t (dieOfCore r.core) pa 1 else t
  | .remote dev pa => if x.fill.isSome then fillX s (dieOfCore r.core) dev pa else s
  | _ => s

/-- A run of bytes read in one move: the bytes and whether a poisoned word was read; nothing where R216 leaves a byte no
source yet. -/
def readRun (r : Reader) (s : State) (l : Loc) : Nat → Option (List Byte × Bool × State)
  | 0 => some ([], false, s)
  | n + 1 =>
    match readByte r s l with
    | (none, _) => none
    | (some x, s) =>
      match readRun r (noteByte r s l x) (l.off 1) n with
      | none => none
      | some (bs, p, s) => some (x.val :: bs, x.psn || p, s)

/-- The reader for a unit of a core that no order binds: code, windows, an engine's own tables. -/
def coreReader (core : Nat) : Reader := ⟨none, none, core, false, []⟩

/-- A run of bytes for such a unit. -/
def readAll (core : Nat) (s : State) (l : Loc) (n : Nat) : List Byte × Bool × State :=
  match readRun (coreReader core) s l n with
  | some x => x
  | none => ([], false, s)

/-- A byte of another device as it stood at the store numbered `t`, or now, and whether it lay in poison. -/
def remAt (s : State) (dev pa : Nat) (t : Option Nat) : Byte × Bool :=
  let b := remByte s dev pa
  match t with
  | none => (b.val, b.psn)
  | some t => loggedAt s (4 + dev) pa t (b.val, b.psn)

/-- Bytes of another device at one point from `t0` to now, chosen freely, with what a read of them leaves. -/
def histRemote (s : State) (core dev pa n t0 : Nat) : List (Byte × Bool) × State :=
  let c := pickTime s (4 + dev) pa n t0
  ((List.range n).map fun i => remAt s dev (pa + i) c.1, (readAll core c.2 (.remote dev pa) n).2.2)

/-! ### Counter vectors (R214) -/

/-- a ≤ b in a window of 2^31. -/
def vLe1 (a b : Word) : Bool := (b - a).toNat < 2 ^ 31
def vLe (a b : Vec) : Bool := (List.range 4).all fun k => vLe1 (vecGet a 0 k) (vecGet b 0 k)
def vecOf (s : State) (d : Nat) : Vec := vecGet s.mem.vec (.replicate 4 0) d
/-- The later of two vectors, component by component. -/
def vMax (a b : Vec) : Vec := Vector.ofFn fun k : Fin 4 => if vLe1 (vecGet a 0 k) (vecGet b 0 k) then vecGet b 0 k else vecGet a 0 k
/-- No write is ever held 2^31 behind the counters: may die `h` stamp one more? -/
def stampRoom (s : State) (h : Nat) : Bool :=
  (s.mem.chan ++ s.mem.apply).all fun m => vLe1 (vecGet m.vec 0 h) (vecGet (vecOf s h) 0 h + 1)
def bumpVec (s : State) (d : Nat) : State :=
  { s with mem := { s.mem with vec := vecUpd s.mem.vec (.replicate 4 0) d fun v => vecUpd v 0 d (· + 1) } }

/-! ### Atomics (11 R238, R239) -/

/-- The new value of an atomic from the old one, both as patterns of `w` bits. -/
def aopNew (o : Aop) (ty : NumTy) (old b : Nat) : Nat :=
  match ty with
  | .i t =>
    let w := intBits t
    let x := intVal t old
    let y := intVal t b
    match o with
    | .add => wrapI w (x + y)
    | .min => if y < x then b % 2 ^ w else old
    | .max => if x < y then b % 2 ^ w else old
    | .and => Nat.land old b % 2 ^ w
    | .or => Nat.lor old b % 2 ^ w
    | .xor => Nat.xor old b % 2 ^ w
    | .exch => b % 2 ^ w
    | .inc => if b % 2 ^ w ≤ old then 0 else old + 1
  | .f t =>
    let t := f5 t
    match o with
    | .add => roundX t .rne (sumX .rne [fval t old, fval t b])
    | .min => fminmax t false old b
    | .max => fminmax t true old b
    | _ => b % 2 ^ fBits t

/-- What an atomic writes over the old value: a `cas` whose comparison fails writes nothing (R239). -/
def atomNew (fn : AtomFn) (old : List Byte) : Option (List Byte) :=
  let x := leNat old
  let n := old.length
  match fn with
  | .op o ty v => some (leBytes (aopNew o ty x v.toNat) n)
  | .cas o v _ => if x = o.toNat % 2 ^ (8 * n) then some (leBytes v.toNat n) else none
  | .setBit k => some (leBytes (Nat.lor x k.toNat) n)

/-! ### Page entries (19 R358 to R361) -/

def bits (x lo n : Nat) : Nat := x / 2 ^ lo % 2 ^ n
def bit (x k : Nat) : Bool := x.testBit k

/-- A page entry as its 128-bit pattern. -/
abbrev Pte := Nat
def pteV (e : Pte) : Bool := bit e 0
def pteR (e : Pte) : Bool := bit e 1
def pteW (e : Pte) : Bool := bit e 2
def pteX (e : Pte) : Bool := bit e 3
def pteLeaf (e : Pte) : Bool := bit e 4
def pteG (e : Pte) : Bool := bit e 5
def pteTier (e : Pte) : Bool := bit e 7
def pteC64 (e : Pte) : Bool := bit e 8
def pteFrame (e : Pte) : Nat := bits e 12 45 * 4096
def pteHome (e : Pte) : Nat := bits e 64 5
def pteDev (e : Pte) : Nat := bits e 72 22
def pteRmt (e : Pte) : Bool := bit e 94
/-- R203, R360: read as 0 on a tier page and on a page of another device. -/
def pteCave (e : Pte) : Bool := bit e 6 && !pteTier e && !pteRmt e
def pteFmt (e : Pte) : Nat := bits e 106 4
def pteGeom (e : Pte) : Nat := bits e 110 2
def pteScale (e : Pte) : Nat := bits e 112 16

/-- A valid pointer: no field set but V and FRAME, and the table in storage. -/
def ptrOk (e : Pte) : Bool := pteV e && e == pteFrame e + 1 && inStorage (pteFrame e)

/-- The bytes a leaf at a level maps. -/
def leafSize (e : Pte) (level : Nat) : Nat :=
  match level with | 2 => 2 ^ 30 | 1 => 2 ^ 21 | _ => if pteC64 e then 2 ^ 16 else 2 ^ 12

/-- A valid leaf (R358, R360; log 15). -/
def leafOk (s : State) (e : Pte) (level : Nat) : Bool :=
  let f := pteFrame e
  let g := granule f
  pteV e && pteLeaf e && level ≤ 2 && (level == 0 || !pteC64 e) &&
  bits e 95 11 == 0 && bits e 69 3 == 0 && bits e 57 7 == 0 && bits e 9 3 == 0 &&
  f % leafSize e level == 0 && pteHome e < 32 &&
  (if pteTier e then inTier f else inHbm f) &&
  (if pteRmt e then !pteG e && pteDev e != s.devno && (pteHome e == 0x1F || (pteHome e < 16 && g % 16 == pteHome e))
   else pteDev e == 0 &&
    (if pteHome e == 0x1F then interleaved s f else pteHome e < 16 && g % 16 == pteHome e && !interleaved s f))

/-- The store from which entries covering an address are read: the last invalidation that covers it (09 R205). -/
def invFrom (s : State) (tenant va : Nat) : Nat :=
  s.mem.invs.foldl (fun a r => if r.tenant == tenant && r.base ≤ va && va < r.base + r.len then max a r.t else a) 0

/-- An entry at a physical address, as some point since the last covering invalidation held it (log 8); a poisoned one reads
as R208's pattern, in which V is 0. -/
def readEntry (s : State) (tenant va a : Nat) : Pte × State :=
  let r := histRead s (homeDie s a) a 16 (invFrom s tenant va)
  (if r.1.any Prod.snd then 0 else leNat (r.1.map Prod.fst), r.2)

/-- R361: where the 16 entries of a 64 KiB group differ, any one of them; each may still read as an older value (R205). -/
def groupEntry (s : State) (tenant va tbl : Nat) : Pte × State :=
  let idx := va / 4096 % 512
  let own := readEntry s tenant va (tbl + 16 * idx)
  let base := tbl + 16 * (idx - idx % 16)
  let es := (List.range 16).map fun i => leNat (viewBytes s (homeDie s base) (base + 16 * i) 16)
  let grouped := pteC64 own.1 || es.any pteC64
  let still := (histTimes s (homeDie s base) base 256 (invFrom s tenant va)).isEmpty
  if still && (!grouped || es.all (· == own.1)) then own
  else
    let c := choose 16 own.2
    let e := readEntry c.2 tenant va (base + 16 * c.1)
    if grouped || pteC64 e.1 then e else (own.1, e.2)

/-- The walk of R358 from a table at a level: the leaf and its level, or nothing where an entry is invalid. -/
def walkFrom (tenant va : Nat) : Nat → Nat → State → Option (Pte × Nat) × State
  | 0, tbl, s =>
    let r := groupEntry s tenant va tbl
    (if leafOk r.2 r.1 0 then some (r.1, 0) else none, r.2)
  | l + 1, tbl, s =>
    let r := readEntry s tenant va (tbl + 16 * (va / 2 ^ (12 + 9 * (l + 1)) % 512))
    if !pteV r.1 then (none, r.2)
    else if pteLeaf r.1 then (if leafOk r.2 r.1 (l + 1) then some (r.1, l + 1) else none, r.2)
    else if ptrOk r.1 then walkFrom tenant va l (pteFrame r.1) r.2
    else (none, r.2)

inductive Acc | read | write | atom | fetch | graph
  deriving DecidableEq, Repr, Inhabited

/-- A translated address: where it lies, its entry, and the virtual bounds of its page. -/
structure Xl where
  loc : Loc
  pte : Pte
  base : Nat
  size : Nat
  deriving DecidableEq, Repr, Inhabited

/-- The address form of R191. -/
def canonical (va : Nat) : Bool := va < 2 ^ 56 || (2 ^ 64 - 2 ^ 56 ≤ va && va < 2 ^ 64)

def accOk (e : Pte) : Acc → Bool
  | .read => pteR e
  | .write => pteW e
  | .atom => pteR e && pteW e
  | .fetch => pteX e
  | .graph => pteR e

/-- R202: the first row that applies. `graph` is the access of a graph controller, for which a page without G faults; with `perm`,
a denied read or write comes before a graph page, as 07 R151 has it for an engine's row. -/
def xlateWith (perm : Bool) (s : State) (tenant root va : Nat) (acc : Acc) : Except Cause Xl × State :=
  if !canonical va then (.error .pgfault, s)
  else
    let v := va % 2 ^ 57
    match walkFrom tenant v 4 root s with
    | (none, s) => (.error .pgfault, s)
    | (some (e, l), s) =>
      if perm && !accOk e acc then (.error .pgfault, s)
      else if pteG e && acc != .graph then (.error (if acc == .fetch then .pgfault else .gprot), s)
      else if acc == .graph && !pteG e then (.error .pgfault, s)
      else if !accOk e acc then (.error .pgfault, s)
      else
        let n := leafSize e l
        let pa := pteFrame e + v % n
        (.ok ⟨if pteRmt e then .remote (pteDev e) pa else .gm pa, e, v - v % n, n⟩, s)

def xlate (s : State) (tenant root va : Nat) (acc : Acc) : Except Cause Xl × State := xlateWith false s tenant root va acc

/-- Is a page of every 4 KiB of a range reachable? The first failure with its address, or the translation of each piece of
the range: location and length. -/
def xlateRangeWith (perm : Bool) (tenant root : Nat) (acc : Acc) :
    Nat → Nat → Nat → State → Except (Cause × Nat) (List (Xl × Nat)) × State
  | 0, _, _, s => (.ok [], s)
  | f + 1, va, n, s =>
    if n = 0 then (.ok [], s)
    else
      match xlateWith perm s tenant root va acc with
      | (.error c, s) => (.error (c, va), s)
      | (.ok x, s) =>
        let k := min n (x.base + x.size - va % 2 ^ 57)
        match xlateRangeWith perm tenant root acc f ((va + k) % 2 ^ 64) (n - k) s with
        | (.error e, s) => (.error e, s)
        | (.ok r, s) => (.ok ((x, k) :: r), s)

def xlateRange (tenant root : Nat) (acc : Acc) (f va n : Nat) (s : State) : Except (Cause × Nat) (List (Xl × Nat)) × State :=
  xlateRangeWith false tenant root acc f va n s

/-! ### Code (03 R70, R72, 08 R180) -/

/-- A 64-bit address as a PC (R68): its low 57 bits where it has the form of R191. Any other is kept apart from every PC of 57 bits
(DESIGN CHOICE, log 90): no fetch reaches it, and a trap reports it as it is. -/
def pcOf (v : DWord) : VAddr := if canonical v.toNat then v.toNat % 2 ^ 57 else 2 ^ 64 + v.toNat

/-- The 64-bit address of a PC. -/
def pcVa (pc : VAddr) : Nat := if pc < 2 ^ 56 || 2 ^ 57 ≤ pc then pc else pc + (2 ^ 64 - 2 ^ 57)

/-- The bytes of a line from address `pa` on, with the pattern of R208 in place of those that lie in poison. -/
def poisonLine : Nat → List (Byte × Bool) → List Byte
  | _, [] => []
  | pa, b :: bs => (if b.2 then (leBytes (poisonOf 8) 8).getD (pa % 8) 0 else b.1) :: poisonLine (pa + 1) bs

/-- The bytes of a fetch line for a split on a core, at one point from the store numbered `t0` on (R180), or the cause of a fetch that
fails (R72). -/
def fetchLine (s : State) (l : Launch) (core : Nat) (t0 line : Nat) : Except Cause (List Byte) × State :=
  let va := pcVa line
  if va < l.lr.clo || l.lr.chi ≤ va then (.error .pgfault, s)
  else
    match xlate s l.lr.tenant l.lr.root va .fetch with
    | (.error c, s) => (.error c, s)
    | (.ok x, s) =>
      match x.loc with
      | .gm pa =>
        let d := dieOfCore core
        let r := histRead s d pa 64 t0
        (.ok (poisonLine pa r.1), r.2)
      | .remote dev pa =>
        let r := histRemote s core dev pa 64 t0
        (.ok (poisonLine pa r.1), r.2)
      | _ => (.error .pgfault, s)

/-- R70: a line with good parity at the first read or the refetch, none where both fail; and how often it was refetched. L2 may
itself report the line bad, and the refetch is then one from memory (log 8). -/
def fetchParity (s : State) (l : Launch) (core : Nat) (t0 line : Nat) : Except Cause (Option (List Byte) × Nat) × State :=
  match fetchLine s l core t0 line with
  | (.error c, s) => (.error c, s)
  | (.ok bs, s) =>
    if lineParityOk bs then (.ok (some bs, 0), s)
    else
      match fetchLine s l core t0 line with
      | (.error c, s) => (.error c, s)
      | (.ok bs, s) =>
        let c := choose 2 s
        if c.1 = 0 then (.ok (if lineParityOk bs then some bs else none, 1), c.2)
        else
          match fetchLine c.2 l core t0 line with
          | (.error c, s) => (.error c, s)
          | (.ok bs, s) => (.ok (if lineParityOk bs then some bs else none, 2), s)

/-- Is `pc` a legal transfer target: a slot (R68) whose TMASK bit is set, in a line a fetch can read (R71)? The error is the
address check's alone: a target whose line cannot be fetched traps at the target (R72). DESIGN CHOICE (log 89): the line's parity is not
checked here, but at the fetch. -/
def targetOk (s : State) (l : Launch) (core t0 : Nat) (pc : Nat) : Bool × State :=
  match slotOf (pc % 64) with
  | none => (false, s)
  | some k =>
    match fetchLine s l core t0 (pc - pc % 64) with
    | (.error _, s) => (true, s)
    | (.ok bs, s) => (lineTarget bs k, s)

/-! ### Constant windows (03 R60, 09 R201) -/

/-- Byte `o` of a list of runs. -/
def pieceAt : List (Loc × Nat) → Nat → Option Loc
  | [], _ => none
  | (l, n) :: r, o => if o < n then some (l.off o) else pieceAt r (o - n)

/-- The address by which a core's constant cache knows a word. -/
def ccKey : Loc → Nat
  | .remote dev a => (dev + 1) * 2 ^ 57 + a
  | k => k.addr

/-- R190, R201: a window word fills the constant cache of a core, 64 KiB of words; when it is full, which leaves is open. -/
def fillCc (s : State) (core : Nat) (k : Loc) : State :=
  let l := kvGet [] core s.mem.cc
  if l.contains (ccKey k) then s
  else
    let c := if l.length < 16384 then (l.length, s) else choose 16384 s
    { c.2 with mem := { c.2.mem with cc := kvPut [] core (ccKey k :: l.eraseIdx c.1) c.2.mem.cc } }

/-- A window word from its bytes as read, the pattern of R208 where they lie in poison, which the launch's status records. -/
def windowValue (l : Launch) (r : List (Byte × Bool) × State) (core : Nat) (k : Loc) : Word × State :=
  let s := fillCc r.2 core k
  if r.1.any Prod.snd then (0x7FC05A5A, setLaunchFlag s l.uid 4) else (BitVec.ofNat 32 (leNat (r.1.map Prod.fst)), s)

/-- Word `off` of window `w` of a launch, at the place its submission translated: its value at launch start, or one stored later
(log 10). -/
def windowWord (s : State) (l : Launch) (core w off : Nat) : Word × State :=
  match l.lr.wins[w]?, l.winAt[w]? with
  | some b, some ps =>
    if b.len ≤ 4 * off then (0, s)
    else
      match pieceAt ps (4 * off) with
      | none => (0, s)
      | some (.gm pa) => windowValue l (histRead s (homeDie s pa) pa 4 l.admT) core (.gm pa)
      | some (.remote dev pa) => windowValue l (histRemote s core dev pa 4 l.admT) core (.remote dev pa)
      | some _ => (0, s)
  | _, _ => (0, s)

end Sys2Proof.Machine
end

