-- ==== Sys2Proof/Machine/Ops.lean ====
section
/-! DEFINITION. The named operations that the meanings share: waves and splits, registers, lookahead windows (03 R63 to R66), the
end of lanes, splits and waves (06 R127), taking a trap (08 R165 to R171) and the issue of one front instruction. -/

namespace Sys2Proof.Machine

abbrev Out := Host.Outcome State Fault Refusal

/-! ### Waves and splits -/

def allLanes : Mask := BitVec.allOnes 32

def findWave (s : State) (u : Nat) : Option Wave := s.waves.find? (·.uid == u)
def updWave (s : State) (u : Nat) (f : Wave → Wave) : State := { s with waves := updFirst (·.uid == u) f s.waves }
def findSplit (w : Wave) (i : Nat) : Option Split := w.splits.find? (·.sid == i)
def updSplitW (w : Wave) (i : Nat) (f : Split → Split) : Wave := { w with splits := updFirst (·.sid == i) f w.splits }
def updSplit (s : State) (c : Cur) (f : Split → Split) : State := updWave s c.wave fun w => updSplitW w c.sid f

/-- The lanes of a split that have not exited. -/
def liveOf (w : Wave) (p : Split) : Mask := p.members &&& ~~~w.exited
/-- The lanes of a split whose `em` bit is 1 and which take part in its next instruction (08 R176, 14 R289). -/
def emOf (w : Wave) (p : Split) : Mask := liveOf w p &&& w.em &&& ~~~p.skip

def waveDie (w : Wave) : Nat := dieOfCore w.core

/-- The handler or resumed split in an arm split's companion slot (08 R170). -/
def companion (w : Wave) (p : Split) : Option Split :=
  w.splits.find? fun x => x.kind != .arm && x.arm == p.arm
/-- The arm split of a handler or resumed split. -/
def armOf (w : Wave) (p : Split) : Option Split := w.splits.find? fun x => x.kind == .arm && x.arm == p.arm

/-- A split's rank by age (02 R48): cycle of creation, the wave slot, then order of creation. -/
def mkAge (s : State) (w : Wave) : Nat :=
  ((vecGet s.dcyc 0 (waveDie w)).toNat * 2 * 64 + w.slot) * 2 ^ 64 + s.nid

/-- Do the waves of a block issue: is it not being saved or flushed? -/
def blkIssues (s : State) (u : Nat) : Bool :=
  match findBlock s u with
  | some b => b.mode != .saving && b.mode != .flushing
  | none => false

/-- Is a wave resident, so that `WCYC` counts (21 R372)? -/
def resident (s : State) (w : Wave) : Bool := w.exited != allLanes && blkIssues s w.blk

def newSplit (sid arm : Nat) (k : SplitKind) (pc : VAddr) (m : Mask) (age : Nat) : Split where
  sid := sid
  kind := k
  arm := arm
  pc := pc
  members := m
  stack := []
  age := age
  wins := []
  wait := .none
  trap := none
  recStack := []
  parked := 0
  skip := 0
  qdone := 0
  held := false
  stopped := false
  caveErr := none
  recErr := none
  icFrom := none
  second := false
  under := none
  recQ := 0

/-! ### Registers (03 R57, 04 R80 to R86) -/

def zeroLanes : Lanes Word := .replicate 32 0

def gWord (w : Wave) (r l : Nat) : Word := laneGet (w.g.getD r zeroLanes) 0 l
/-- `s0` reads as zero (R82). -/
def sWord (w : Wave) (r : Nat) : Word := if r = 0 then 0 else vecGet w.s 0 r
/-- `p7` reads true (R85). -/
def pMask (w : Wave) (p : PReg) : Mask := if p = 7 then allLanes else vecGet w.p 0 p.toNat
def pBit (w : Wave) (p : PReg) (l : Nat) : Bool := (pMask w p).getLsbD l

def gDWord (w : Wave) (r l : Nat) : DWord := word64 (gWord w r l) (gWord w (r + 1) l)
def sDWord (w : Wave) (r : Nat) : DWord := word64 (sWord w r) (sWord w (r + 1))
/-- A general register or pair of a lane, zero-extended. -/
def gGet (w : Wave) (wide : Bool) (r : Reg) (l : Nat) : DWord :=
  if wide then gDWord w r.toNat l else (gWord w r.toNat l).setWidth 64
def sGet (w : Wave) (wide : Bool) (r : Reg) : DWord :=
  if wide then sDWord w r.toNat else (sWord w r.toNat).setWidth 64

def listSet {α : Type} (l : List α) (i : Nat) (f : α → α) : List α :=
  match l, i with
  | [], _ => []
  | x :: r, 0 => f x :: r
  | x :: r, i + 1 => x :: listSet r i f

def setG1 (w : Wave) (r l : Nat) (v : Word) : Wave := { w with g := listSet w.g r fun x => laneSet x l v }
def setS1 (w : Wave) (r : Nat) (v : Word) : Wave := if r = 0 then w else { w with s := vecSet w.s r v }
def setP1 (w : Wave) (p l : Nat) (b : Bool) : Wave :=
  if p = 7 then w else { w with p := vecUpd w.p 0 p fun m => setBit m l b }
def setQ1 (w : Wave) (q l : Nat) (c : Cursor) : Wave :=
  { w with q := vecUpd w.q (.replicate 32 .closed) q fun x => laneSet x l c }

/-- Write words to consecutive registers. -/
def setGs (w : Wave) (r l : Nat) : List Word → Wave
  | [] => w
  | v :: vs => setGs (setG1 w r l v) (r + 1) l vs
def setSs (w : Wave) (r : Nat) : List Word → Wave
  | [] => w
  | v :: vs => setSs (setS1 w r v) (r + 1) vs

/-- One general register in the lanes of a mask. -/
def setGm (w : Wave) (r : Nat) (m : Mask) (f : Nat → Word) : Wave :=
  { w with g := listSet w.g r fun x => Vector.ofFn fun i : Fin 32 => if m.getLsbD i then f i else laneGet x 0 i }

/-- A register or pair in the lanes of a mask. -/
def setGd (w : Wave) (wide : Bool) (r : Reg) (m : Mask) (f : Nat → DWord) : Wave :=
  let w := setGm w r.toNat m fun i => lo32 (f i)
  if wide then setGm w (r.toNat + 1) m fun i => hi32 (f i) else w

def setSd (w : Wave) (wide : Bool) (r : Reg) (v : DWord) : Wave :=
  let w := setS1 w r.toNat (lo32 v)
  if wide then setS1 w (r.toNat + 1) (hi32 v) else w

/-- A predicate in the lanes of a mask; a write to `p7` is discarded. -/
def setPm (w : Wave) (p : PReg) (m v : Mask) : Wave :=
  if p = 7 then w else { w with p := vecUpd w.p 0 p.toNat fun x => (x &&& ~~~m) ||| (v &&& m) }

/-! ### Counters (21 R374) -/

def addPerf (s : State) (core n k : Nat) : State :=
  let i := core * 256 + n
  { s with perf := kvPut 0 i ((kvGet 0 i s.perf + k) % 2 ^ 64) s.perf }

/-! ### Windows (R64 to R66) -/

/-- Do two runs of registers meet? -/
def runsMeet : Option (Nat × Nat) → Option (Nat × Nat) → Bool
  | some (a, n), some (b, m) => a < b + m && b < a + n
  | _, _ => false

def winMeets (x y : Win) : Bool :=
  runsMeet x.gd y.gd || runsMeet x.sd y.sd || (x.qd.isSome && x.qd == y.qd) || (x.pd.isSome && x.pd == y.pd)

def winFull (x : Win) : Bool := x.need == 0 && !x.sneed

/-- The writes of a window. -/
def applyWin (w : Wave) (x : Win) : Wave :=
  let w := x.got.foldl (fun w r =>
    let w := match x.gd with | some (d, _) => setGs w d r.lane r.ws | none => w
    let w := match x.pd, r.p with | some p, some b => setP1 w p r.lane b | _, _ => w
    match x.qd, r.q with | some q, some c => setQ1 w q r.lane c | _, _ => w) w
  match x.sd with | some (d, _) => setSs w d x.sgot | none => w

/-- Is it closed, with a result for a uniform register? -/
def sClosed (x : Win) : Bool := x.closed && x.sd.isSome

/-- The first closed window whose results have all arrived, that no closed window before it, still waiting, meets, and before which no
window of another split closed that writes the same uniform register (R84). -/
def readyWin (others before : List Win) : List Win → Option Win
  | [] => none
  | x :: r =>
    if x.closed && winFull x && !(before.any fun y => winMeets x y) && !(others.any fun y => y.ord < x.ord && runsMeet x.sd y.sd) then some x
    else readyWin others (if x.closed then before ++ [x] else before) r

/-- Apply the windows of a list that are closed and complete, in closing order (R64). -/
def settleList (w : Wave) (others : List Win) : Nat → List Win → Wave × List Win
  | 0, l => (w, l)
  | f + 1, l =>
    match readyWin others [] l with
    | none => (w, l)
    | some x => settleList (applyWin w x) others f (l.erase x)

def allWins (w : Wave) : List Win := w.splits.flatMap Split.wins ++ w.orph

/-- The closed windows with uniform results that another split holds, or that ended splits left. -/
def foreignWins (w : Wave) (sid : Option Nat) : List Win :=
  ((w.splits.filter fun p => some p.sid != sid).flatMap fun p => p.wins.filter sClosed) ++
    (if sid.isSome then w.orph.filter sClosed else [])

def settleSplits (w : Wave) : List Split → Wave × List Split
  | [] => (w, [])
  | p :: r =>
    let a := settleList w (foreignWins w (some p.sid)) p.wins.length p.wins
    let b := settleSplits a.1 r
    (b.1, { p with wins := a.2 } :: b.2)

def passW (w : Wave) : Wave :=
  let a := settleSplits w w.splits
  let b := settleList a.1 (foreignWins w none) w.orph.length w.orph
  { b.1 with splits := a.2, orph := b.2 }

/-- As often as one window may let another follow. -/
def settleLoop : Nat → Wave → Wave
  | 0, w => w
  | n + 1, w => settleLoop n (passW w)

def mapWins (f : Win → Win) (w : Wave) : Wave :=
  { w with splits := w.splits.map fun p => { p with wins := p.wins.map f }, orph := w.orph.map f }

/-- R84: windows with uniform results are numbered as they close. -/
def numberWins (w : Wave) : Wave :=
  if (allWins w).any fun x => sClosed x && x.ord == 0 then
    let n := ((allWins w).map Win.ord).foldl max 0 + 1
    mapWins (fun x => if sClosed x && x.ord == 0 then { x with ord := n } else x) w
  else w

def settleW (w : Wave) : Wave := settleLoop (allWins w).length (numberWins w)

def settle (s : State) (u : Nat) : State := updWave s u settleW

/-- Close the windows that satisfy `f`: they follow those closed earlier, in the order of their instructions. -/
def closeWins (f : Win → Bool) (l : List Win) : List Win :=
  (l.filter fun x => x.closed || !f x) ++ ((l.filter fun x => !x.closed && f x).map fun x => { x with closed := true })

/-- One more instruction of the split has issued: windows opened before it run down. -/
def tickWins (before : Nat) (l : List Win) : List Win :=
  let l := l.map fun x => if x.closed || before ≤ x.id then x else { x with rem := x.rem - 1 }
  closeWins (fun x => x.rem == 0) l

/-- Where a result goes. -/
structure Dest where
  gd : Option (Nat × Nat) := none
  sd : Option (Nat × Nat) := none
  qd : Option Nat := none
  pd : Option PReg := none
  deriving DecidableEq, Repr, Inhabited

/-- Has an instruction a result for a register? -/
def Dest.any (d : Dest) : Bool := d.gd.isSome || d.sd.isSome || d.qd.isSome || d.pd.isSome

/-- Add a window to its split. -/
def addWin (s : State) (c : Cur) (x : Win) : State := updSplit s c fun p => { p with wins := p.wins ++ [x] }

/-- Open the window of a long-latency instruction for the results still to come; its number. It opens in a disabled instruction too
(R61). -/
def openWin (s : State) (c : Cur) (la : BitVec 4) (d : Dest) (need : Mask) (sneed : Bool) : Nat × State :=
  let n := s.nid
  let x : Win := ⟨n, la.toNat, false, need, sneed, d.gd, d.sd, d.qd, d.pd.map BitVec.toNat, [], [], 0⟩
  (n, if d.any then addWin { s with nid := n + 1 } c x else { s with nid := n + 1 })

/-- Open a window whose results are already there. -/
def openDone (s : State) (c : Cur) (la : BitVec 4) (d : Dest) (got : List LaneRes) (sgot : List Word) : State :=
  let n := s.nid
  let x : Win := ⟨n, la.toNat, false, 0, false, d.gd, d.sd, d.qd, d.pd.map BitVec.toNat, got, sgot, 0⟩
  if d.any then addWin { s with nid := n + 1 } c x else { s with nid := n + 1 }

def winTake (n : Nat) (r : LaneRes) (x : Win) : Win :=
  if x.id == n && x.need.getLsbD r.lane then { x with need := setBit x.need r.lane false, got := x.got ++ [r] } else x
def winTakeS (n : Nat) (v : List Word) (x : Win) : Win :=
  if x.id == n && x.sneed then { x with sneed := false, sgot := v } else x

/-- A lane's result arrives. -/
def deliver (s : State) (u n : Nat) (r : LaneRes) : State := settle (updWave s u (mapWins (winTake n r))) u
/-- A uniform result arrives. -/
def deliverS (s : State) (u n : Nat) (v : List Word) : State := settle (updWave s u (mapWins (winTakeS n v))) u

/-- A window whose result needs no more: it is dropped (12 R266, and a fault in an engine). -/
def dropWin (s : State) (u n : Nat) (lane : Nat) : State :=
  settle (updWave s u (mapWins fun x => if x.id == n then { x with need := setBit x.need lane false } else x)) u

/-- Does an operand meet a window's destinations? -/
def useMeets (u : Use) (x : Win) : Bool :=
  match u.file with
  | .g => runsMeet (some (u.first, u.count)) x.gd
  | .s => runsMeet (some (u.first, u.count)) x.sd
  | .p => match x.pd with | some p => u.first == p | none => false
  | .q => match x.qd with | some q => u.first == q | none => false
  | .t => false

/-- Instructions that close every open window of their split (R65). -/
def closesWins : Instr → Bool
  | .bdiv _ _ _ _ | .rjoin _ | .call _ _ | .ret _ | .jmpi _ _ | .exit _ | .yield _ => true
  | .bar _ _ | .bini _ _ _ | .binv _ _ | .barar _ _ _ _ | .barw _ _ _ _ | .sinc _ _ _ | .swait _ _ _ _ | .sset _ _ _
  | .tmset _ _ _ => true
  | .mwait _ _ _ | .chwait _ _ _ _ | .cwait _ _ _ | .mig _ _ _ | .tretRetry _ | .tretSkip _ | .tretEnd _ => true
  | _ => false

/-- R64: must an instruction wait for a result that has not arrived? Another split's window counts where it writes a shared
register. -/
def scoreboardBusy (w : Wave) (p : Split) (i : Instr) : Bool :=
  let us := i.uses
  -- what has closed has not taken effect yet; what this instruction closes must be able to
  let own := p.wins.filter fun x => x.closed ||
    (closesWins i && (!winFull x || p.wins.any fun y => !winFull y && winMeets x y))
  let others := (w.splits.filter (·.sid != p.sid)).flatMap fun q => q.wins.filter sClosed
  us.any fun u => own.any (useMeets u) || w.orph.any (useMeets u) || (u.file == .s && others.any (useMeets u))

/-! ### The end of lanes, splits and waves -/

def cursorOpen (c : Cursor) : Bool := c.st == 1 || c.st == 2

/-- R268: the release of a cursor's pin joins the lane's graph stream. -/
def queueClose (s : State) (w : Wave) (isq lane : Nat) (c : Cursor) : State :=
  let o : GOp := { id := s.nid, lane := ⟨w.uid, lane⟩, core := w.core, isq := isq, win := 0
                   tenant := match findLaunch s w.launch with | some l => l.lr.tenant | none => 0
                   launch := w.launch, kind := .gclose c, handle := 0, inl := c.inl, u := none, v := none, w := 0, rank := 0
                   phase := .start, stamp := 0, dead := true }
  { s with nid := s.nid + 1, graph := { s.graph with ops := s.graph.ops ++ [o] } }

/-- Is the release of a pin in its lane's stream already? -/
def closing (s : State) (p : Pin) : Bool :=
  s.graph.ops.any fun o => o.lane == p.owner && match o.kind with | .gclose c => c.pin.toNat == p.id | _ => false

/-- The pins that lanes of a wave hold, each with its lane (R268), whether or not a cursor still names them. -/
def pinsOf (s : State) (wave : Nat) (m : Mask) : List (Nat × Cursor) :=
  (s.graph.pins.filter fun p => p.owner.wave == wave && m.getLsbD p.owner.lane && !closing s p).map fun p =>
    (p.owner.lane, { Cursor.closed with pin := BitVec.ofNat 32 p.id, home := BitVec.ofNat 4 p.stack, inl := p.inl })

/-- The cursors held in a window for lanes become closed. -/
def closeHeld (m : Mask) (x : Win) : Win :=
  { x with got := x.got.map fun r => if m.getLsbD r.lane && r.q.isSome then { r with q := some .closed } else r }

/-- The pins of a wave's lanes are released, after what the lanes have issued (R268). -/
def releaseCursors (s : State) (w : Wave) (m : Mask) : State :=
  let dead := updAll (fun o : GOp => o.lane.wave == w.uid && m.getLsbD o.lane.lane) (fun o => { o with dead := true })
  let s := { s with graph := { s.graph with ops := dead s.graph.ops } }
  let q := s.nid
  (pinsOf s w.uid m).foldl (fun s e => queueClose s w q e.1 e.2) { s with nid := q + 1 }

/-- R91: close every cursor of lanes and release their pins. -/
def closeCursors (s : State) (u : Nat) (m : Mask) : State :=
  match findWave s u with
  | none => s
  | some w =>
    updWave (releaseCursors s w m) u fun w =>
      let w := mapWins (closeHeld m) w
      { w with q := w.q.map fun v => Vector.ofFn fun i : Fin 32 => if m.getLsbD i then .closed else laneGet v .closed i }

/-- Lanes become exited (R86). -/
def exitLanes (s : State) (u : Nat) (m : Mask) : State :=
  updWave (closeCursors s u m) u fun w =>
    { w with exited := w.exited ||| m, em := w.em &&& ~~~m, task := w.task &&& ~~~m }

/-- Take a split out of its wave; its windows stay, closed, until their results arrive. -/
def removeSplit (w : Wave) (i : Nat) : Wave :=
  match findSplit w i with
  | none => w
  | some p => { w with
      splits := w.splits.filter (·.sid != i)
      orph := w.orph ++ closeWins (fun _ => true) p.wins }

/-- A split ends (R127): its arm split issues again, and a resumed split left alone becomes the arm split (08 R177). DESIGN CHOICE (log 92):
its stack goes with it, and with that the lanes that only an entry of the stack holds: they never run. -/
def endSplitW (w : Wave) (i : Nat) : Wave :=
  match findSplit w i with
  | none => w
  | some p =>
    let w := removeSplit w i
    if p.kind == .arm then
      { w with splits := w.splits.map fun x => if x.kind == .resumed && x.arm == p.arm then { x with kind := .arm } else x }
    else
      { w with splits := w.splits.map fun x => if x.kind == .arm && x.arm == p.arm then { x with stopped := false } else x }

/-- The lanes that a handler split's return puts into the resumed split (08 R176). -/
def resumeLanes (w : Wave) (h : Split) : Mask :=
  ((match h.trap with | some t => t.em | none => 0) ||| h.parked) &&& ~~~w.exited

/-- R176: a handler split becomes a resumed split, or ends. -/
def resumeW (w : Wave) (h : Split) (retry : Bool) : Wave :=
  let t := h.trap.getD ⟨0, 0, 0, .replicate 32 0⟩
  let lanes := resumeLanes w h
  if lanes = 0 then endSplitW w h.sid
  else
    let alone := (armOf w h).isNone
    let w := updSplitW w h.sid fun p => { p with
      kind := if alone then .arm else .resumed
      members := lanes
      stack := h.recStack
      recStack := []
      caveErr := h.recErr
      recErr := none
      qdone := if h.parked = 0 && !retry then 0 else h.recQ
      recQ := 0
      trap := none
      parked := 0
      pc := if h.parked = 0 && !retry then nextPc (pcOf t.fpc) else pcOf t.fpc
      skip := if h.parked = 0 then (if retry then h.skip else 0) else if retry then h.skip else h.skip ||| t.em }
    { w with splits := w.splits.map fun x => if x.kind == .arm && x.arm == h.arm && x.sid != h.sid then { x with stopped := true } else x }

/-- Every lane has exited: the wave's splits are gone. -/
def endWaveW (w : Wave) : Wave :=
  if w.exited = allLanes then settleW (w.splits.foldl (fun w p => removeSplit w p.sid) w) else w

/-- After an instruction: end the split that has no lane left, and the wave. A handler split whose own lanes have all exited
while others are parked gives those back (log 16). -/
def reap (s : State) (c : Cur) : State :=
  updWave s c.wave fun w =>
    let w := match findSplit w c.sid with
      | none => w
      | some p =>
        if liveOf w p != 0 then w
        else if p.kind == .handler then resumeW w p true
        else settleW (endSplitW w c.sid)
    endWaveW w

/-- R168, R169: a wave ends by a trap. `bit` is the status of R367. -/
def killWave (s : State) (u bit code : Nat) : State :=
  match findWave s u with
  | none => s
  | some w =>
    let s := setLaunchFlag s w.launch bit
    let s := if bit = 1 then s else
      updLaunch s w.launch fun l => if l.tcode = 0 then { l with tcode := BitVec.ofNat 8 code } else l
    let s := exitLanes s u allLanes
    updWave s u endWaveW

/-! ### Taking a trap (R165 to R171) -/

/-- A lane's fault. -/
structure Flt where
  lane : Nat
  cause : Cause
  addr : DWord
  deriving DecidableEq, Repr, Inhabited

/-- The reported cause: the lowest code (R167). -/
def reported (fs : List Flt) : Nat := fs.foldl (fun a f => min a f.cause.code) 255

def fltMask (fs : List Flt) : Mask := maskOf fun i => fs.any (·.lane == i)

/-- TADDR: the address of each lane whose own cause is the one reported (R167). -/
def fltAddr (fs : List Flt) (code : Nat) : Lanes DWord :=
  Vector.ofFn fun i : Fin 32 =>
    match fs.find? fun f => f.lane == i.val && f.cause.code == code with
    | some f => f.addr
    | none => 0

/-- The part of a window that concerns lanes `m`, or the rest. -/
def winPart (m : Mask) (x : Win) : Win :=
  { x with need := x.need &&& m, got := x.got.filter fun r => m.getLsbD r.lane, sneed := false, sd := none, sgot := [] }
def winRest (m : Mask) (x : Win) : Win :=
  { x with need := x.need &&& ~~~m, got := x.got.filter fun r => !m.getLsbD r.lane }
def winEmpty (x : Win) : Bool := x.need == 0 && !x.sneed && x.got.isEmpty && x.sgot.isEmpty

/-- The windows of lanes `m` that leave a split, with their results. -/
def winsOut (m : Mask) (l : List Win) : List Win := (l.map (winPart m)).filter fun x => !winEmpty x
/-- The windows that stay: one that had no lane before stays open too (R61). -/
def winsStay (m : Mask) (l : List Win) : List Win :=
  (l.filter fun x => winEmpty x || !winEmpty (winRest m x)).map (winRest m)

/-- The fetches of a split read from this store on (R180). -/
def fetchFrom (l : Launch) (p : Split) : Nat := p.icFrom.getD l.admT

/-- Is the handler entry a legal target (R71)? -/
def handlerOk (s : State) (w : Wave) (p : Split) : Bool × State :=
  match findLaunch s w.launch with
  | none => (false, s)
  | some l => targetOk s l w.core (fetchFrom l p) (pcOf w.thb)

/-- R166, R176: the lanes of `fs` leave split `c` for a handler split, at `fpc`. DESIGN CHOICE (log 90): a PC stands in
`TFPC` and in a link as its 64-bit address, with bit 56 copied upwards. The handler split fetches with no `icinv` point of its own
(DESIGN CHOICE, log 95). Where a resumed split traps, the windows of the lanes that it parks close too (03 R65 names the lanes that trap only;
DESIGN CHOICE, log 114). -/
def enterHandler (s : State) (c : Cur) (fs : List Flt) (fpc : VAddr) : State :=
  match findWave s c.wave with
  | none => s
  | some w =>
    match findSplit w c.sid with
    | none => s
    | some p =>
      let code := reported fs
      let m := fltMask fs &&& ~~~w.exited
      let t : TrapRegs := ⟨BitVec.ofNat 32 code, BitVec.ofNat 64 (pcVa fpc), m, fltAddr fs code⟩
      let thb := pcOf w.thb
      let s := addPerf s w.core 7 1
      if p.kind == .resumed then
        settle (updSplit s c fun p => { p with
          kind := .handler, members := m, parked := p.members &&& ~~~m &&& ~~~w.exited, pc := thb, trap := some t
          recErr := p.caveErr, caveErr := none, recStack := p.stack, stack := [], wins := closeWins (fun _ => true) p.wins, wait := .none
          under := none, second := false, recQ := p.qdone, qdone := 0 }) c.wave
      else
        let h := { newSplit s.nid p.arm .handler thb m (mkAge s w) with
          trap := some t
          recStack := p.stack
          recErr := p.caveErr
          recQ := p.qdone
          wins := closeWins (fun _ => true) (winsOut m p.wins) }
        let s := { s with nid := s.nid + 1 }
        let s := updWave s c.wave fun w =>
          let w := updSplitW w c.sid fun p => { p with
            members := p.members &&& ~~~m, caveErr := none, wins := winsStay m p.wins, under := none, second := false, qdone := 0 }
          let w := { w with splits := w.splits ++ [h] }
          match findSplit w c.sid with
          | some p => if liveOf w p = 0 then removeSplit w c.sid else w
          | none => w
        settle s c.wave

/-- Taking a trap: a handler split, or the end of the wave (R168 to R170). The companion slot of an arm split is empty. -/
def takeTrap (s : State) (c : Cur) (fs : List Flt) (k : Cause) (fpc : VAddr) : State :=
  match findWave s c.wave with
  | none => s
  | some w =>
    match findSplit w c.sid with
    | none => s
    | some p =>
      let code := if fs.isEmpty then k.code else reported fs
      if p.kind == .handler then killWave s c.wave 2 code
      else if (fltMask fs &&& ~~~w.exited) = 0 || w.thb = 0 then killWave s c.wave 0 code
      else
        let r := handlerOk s w p
        if r.1 then enterHandler r.2 c fs fpc else killWave r.2 c.wave 1 0

/-! ### The issue of one instruction -/

/-- What an instruction does: its effect and where its split goes on, or the wait it stands at, or the lanes that trap. -/
inductive Res
  /-- complete; the split goes on at next(PC) -/
  | done (s : State)
  | jump (s : State) (pc : VAddr)
  /-- not issued: the split waits -/
  | wait (s : State) (w : Wait)
  /-- complete in the lanes that do not fault; the others leave for a handler split. `k` is the cause where no lane does -/
  | trap (s : State) (fs : List Flt) (k : Cause)
  /-- complete; the meaning has set the PC, or the split has ended -/
  | gone (s : State)
  /-- complete; the handler split returns (08 R176) -/
  | resume (s : State) (retry : Bool)

/-- What a meaning is given: the wave, the split, its launch, and the lanes. -/
structure Ctx where
  c : Cur
  w : Wave
  p : Split
  l : Launch
  /-- lanes with `em` 1 -/
  em : Mask
  /-- active lanes (R61) -/
  act : Mask
  deriving DecidableEq, Repr, Inhabited

/-- A trap that takes every lane of the split with `em` 1. -/
def trapAll (s : State) (x : Ctx) (k : Cause) (addr : DWord) : Res :=
  .trap s ((lanesOf x.em).map fun l => ⟨l, k, addr⟩) k

/-- The end of a per-lane instruction: its faults, if any, trap. -/
def laneEnd (s : State) (fs : List Flt) : Res := if fs.isEmpty then .done s else .trap s fs .illop

/-- ILLOP for the whole split (R74). -/
def illop (s : State) (x : Ctx) : Res := trapAll s x .illop 0

/-- BADTGT: the transferring lanes are the split's (log 17). -/
def badTarget (s : State) (x : Ctx) (pc : DWord) : Res :=
  .trap s ((lanesOf (liveOf x.w x.p)).map fun l => ⟨l, .badtgt, pc⟩) .badtgt

/-- The split issued an instruction (08 R181, 21 R374). -/
def countIssue (s : State) (x : Ctx) (before : Nat) : State :=
  let s := updBlock s x.w.blk fun b => { b with ret := b.ret + 1 }
  let s := addPerf s x.w.core 1 1
  let s := { s with issued := true, last := kvPut 0 (x.w.core * 4 + x.w.slot % 4) x.p.age s.last }
  settle (updSplit s x.c fun p => { p with
    wins := tickWins before p.wins, wait := .none, skip := if p.kind == .handler then p.skip else 0, qdone := 0
    held := false, under := none }) x.c.wave

/-- R170: the instruction is held, with no effect, until the companion slot empties. -/
def holdSplit (s : State) (c : Cur) : State := updSplit s c fun p => { p with held := true, wait := .none, under := none }

def setPc (s : State) (c : Cur) (pc : VAddr) : State := updSplit s c fun p => { p with pc := pc }

/-- The waits of a resumed split that let its arm split issue again (08 R177). -/
def Wait.frees : Wait → Bool
  | .bar _ | .barw _ _ | .sem _ _ _ | .join | .xlane | .batch | .ticket | .chute => true
  | _ => false

/-- Of two points in the order of the stores, the later (08 R180). -/
def laterFrom : Option Nat → Option Nat → Option Nat
  | some x, some y => some (max x y)
  | some x, none => some x
  | none, y => y

/-- The two become one split, which keeps the arm split's age. A `bar` at which only one of them has arrived is issued again, for both. -/
def mergeSplits (w : Wave) (p a : Split) : Wave :=
  let w := updSplitW w a.sid fun a => { a with
    members := a.members ||| p.members
    wins := a.wins ++ p.wins
    stopped := false
    skip := a.skip ||| p.skip
    qdone := a.qdone ||| p.qdone
    wait := match a.wait with | .qpush _ _ _ => .none | .bar k => if p.wait == .bar k then .bar k else .none | k => k
    icFrom := laterFrom a.icFrom p.icFrom
    caveErr := match a.caveErr with | some x => some x | none => p.caveErr }
  { w with splits := w.splits.filter (·.sid != p.sid) }

/-- Do two splits wait at one `rjoin`, barrier or cross-lane instruction (R177)? -/
def Wait.meets : Wait → Wait → Bool
  | .bar j, .bar k => j == k
  | .barw a _, .barw b _ | .barw a _, .barwAgain b _ | .barwAgain a _, .barw b _ | .barwAgain a _, .barwAgain b _ => a == b
  | .join, .join | .xlane, .xlane => true
  | _, _ => false

/-- R177: a resumed split and its arm split that wait at one such instruction with equal stacks. -/
def waitTogether (p a : Split) : Bool := p.kind == .resumed && a.kind == .arm && p.arm == a.arm && a.pc == p.pc && a.stack == p.stack && p.wait.meets a.wait

/-- R177: the two merge as the second of them begins to wait. -/
def mergeWaiting (w : Wave) (i : Nat) : Wave :=
  match findSplit w i with
  | none => w
  | some q =>
    match w.splits.find? fun r => waitTogether q r || waitTogether r q with
    | none => w
    | some r => if q.kind == .resumed then mergeSplits w q r else mergeSplits w r q

/-- A split waits; where it is a resumed one, its arm split may issue again, or the two merge (R177). -/
def waitAt (s : State) (x : Ctx) (w : Wait) : State :=
  updWave s x.c.wave fun v =>
    let v := updSplitW v x.c.sid fun p => { p with wait := w }
    let v := if x.p.kind == .resumed && w.frees then
        { v with splits := v.splits.map fun q => if q.kind == .arm && q.arm == x.p.arm then { q with stopped := false } else q }
      else v
    mergeWaiting v x.c.sid

/-- Complete an instruction. `s0` is the state it was issued in. DESIGN CHOICE (log 94): one that traps while it executes counts in RET
(08 R181). -/
def finish (s0 : State) (x : Ctx) (r : Res) : State :=
  match r with
  | .wait s w => { waitAt s x w with issued := false, cur := none }
  | .resume s retry =>
    { updWave (countIssue s x s0.nid) x.c.wave fun w =>
        endWaveW (match findSplit w x.c.sid with | some p => resumeW w p retry | none => w) with cur := none }
  | .done s => { reap (setPc (countIssue s x s0.nid) x.c (nextPc x.p.pc)) x.c with cur := none }
  | .jump s pc => { reap (setPc (countIssue s x s0.nid) x.c pc) x.c with cur := none }
  | .gone s => { reap (countIssue s x s0.nid) x.c with cur := none }
  | .trap s fs k =>
    if x.p.kind == .arm && (companion x.w x.p).isSome then
      { holdSplit s0 x.c with issued := false, cur := none }
    else if x.p.kind == .resumed then
      -- R176: the lanes outside F take no effect of the instruction
      let s := if x.em &&& ~~~(fltMask fs) = 0 then s else s0
      let t := updSplit (countIssue s x s0.nid) x.c fun p => { p with skip := x.p.skip }
      { takeTrap t x.c fs k x.p.pc with cur := none }
    else { takeTrap (setPc (countIssue s x s0.nid) x.c (nextPc x.p.pc)) x.c fs k x.p.pc with cur := none }

/-- Waits that begin once an instruction has taken part of its effect; at the others it has not issued. -/
def Wait.begun : Wait → Bool
  | .bar _ | .barw _ _ | .mig _ | .qpush _ _ _ => true
  | _ => false

/-- Complete an instruction that was attempted in `s0` and would issue in `s1`, where the windows that it closes are closed. One that
does not issue, since it only waits or is held, closes nothing (R65): an `rjoin` that waits for its partner closes its windows at the join
(DESIGN CHOICE, log 115). -/
def finishFrom (s0 s1 : State) (x : Ctx) (r : Res) : State :=
  match r with
  | .wait s w => finish s1 x (.wait (if w.begun then s else { s with waves := s0.waves }) w)
  | .trap s fs k => finish (if x.p.kind == .arm && (companion x.w x.p).isSome then s0 else s1) x (.trap s fs k)
  | r => finish s1 x r

/-- The issuing split, its wave and its launch; the instruction's own lanes are filled in by `runLane` and `runUni`. -/
def ctxOf (s : State) : Option Ctx :=
  match s.cur with
  | none => none
  | some c =>
    match findWave s c.wave with
    | none => none
    | some w =>
      match findSplit w c.sid, findLaunch s w.launch with
      | some p, some l => some ⟨c, w, p, l, emOf w p, emOf w p⟩
      | _, _ => none

/-- The lanes at which a guard is true (R61). -/
def guardMask (w : Wave) (g : Guard) : Mask := if g.pn then ~~~(pMask w g.pg) else pMask w g.pg

/-- R62: does a guard agree in the lanes of a split? `some b`: it is `b` in all of them. -/
def guardAgree (x : Ctx) (g : Guard) : Option Bool :=
  if x.em = 0 then some (g.pg == 7 && !g.pn)
  else
    let m := x.em &&& guardMask x.w g
    if m = x.em then some true else if m = 0 then some false else none

/-- R65: windows that the issuing instruction closes. -/
def closeFor (closes : Bool) (s : State) (c : Cur) : State :=
  if closes then settle (updSplit s c fun p => { p with wins := closeWins (fun _ => true) p.wins }) c.wave else s

/-- A per-lane instruction (R61). -/
def runLane (closes : Bool) (g : Guard) (s : State) (k : Ctx → State → Res) : Out :=
  match ctxOf s with
  | none => .refused .noIssuer
  | some x0 =>
    let s1 := closeFor closes s x0.c
    match ctxOf s1 with
    | none => .refused .noIssuer
    | some x => .next (finishFrom s s1 x (k { x with act := x.em &&& guardMask x.w g } s1))

/-- A wave-uniform instruction (R62). -/
def runUni (closes : Bool) (g : Guard) (s : State) (k : Ctx → State → Res) : Out :=
  match ctxOf s with
  | none => .refused .noIssuer
  | some x0 =>
    let s1 := closeFor closes s x0.c
    match ctxOf s1 with
    | none => .refused .noIssuer
    | some x =>
      .next (finishFrom s s1 x (match guardAgree x g with
        | none => illop s1 x
        | some false => .done s1
        | some true => k x s1))

/-- A move of the device: a state, or unchanged where its rule does not allow it (log 1). -/
def move (s : State) (r : Option State) : Out := .next (r.getD s)

end Sys2Proof.Machine
end

