-- ==== Sys2Proof/Machine/Operands.lean ====
section
/-! DEFINITION. Every operand form of the front instructions: general and uniform registers, immediates (03 R59), words of constant
windows (R60), and the places results go, at once or through a window. -/

namespace Sys2Proof.Machine

/-! ### Immediates (R59) -/

def immInt (t : IntTy) (v : Word) : DWord := if t == .s64 then v.signExtend 64 else v.setWidth 64
def immFlt (t : FltTy) (v : Word) : DWord :=
  match t with
  | .f64 => BitVec.ofNat 64 (convert .f64 .f32 .rne v.toNat)
  | .f32 => v.setWidth 64
  | _ => (v.extractLsb' 0 16).setWidth 64
def immFty (t : FTy5) (v : Word) : DWord :=
  match t with
  | .f16 => immFlt .f16 v | .bf16 => immFlt .bf16 v | .f32 => immFlt .f32 v | .f64 => immFlt .f64 v
  | .f8e4 => v.setWidth 64

/-! ### Sources -/

/-- A B operand as each lane reads it; a constant-window word is read once (R60). -/
def srcB (x : Ctx) (s : State) (wide : Bool) (imm : Word → DWord) : SrcB → (Nat → DWord) × State
  | .g r => (gGet x.w wide r, s)
  | .s r => (fun _ => sGet x.w wide r, s)
  | .imm v => (fun _ => imm v, s)
  | .cw k off =>
    let lo := windowWord s x.l x.w.core k.toNat off.toNat
    if wide then
      let hi := windowWord lo.2 x.l x.w.core k.toNat (off.toNat + 1)
      (fun _ => word64 lo.1 hi.1, hi.2)
    else (fun _ => lo.1.setWidth 64, lo.2)

def srcBInt (x : Ctx) (s : State) (t : IntTy) (b : SrcB) : (Nat → DWord) × State := srcB x s t.wide (immInt t) b
def srcBFlt (x : Ctx) (s : State) (t : FltTy) (b : SrcB) : (Nat → DWord) × State := srcB x s t.wide (immFlt t) b

/-- A C operand, or a B operand that is general or uniform. -/
def srcC (w : Wave) (wide : Bool) (b : SrcC) (l : Nat) : DWord :=
  match b with | .g r => gGet w wide r l | .s r => sGet w wide r

/-- A uniform or immediate operand of one register. -/
def srcU (w : Wave) (b : SrcU) : Word :=
  match b with | .s r => sWord w r.toNat | .imm v => v
/-- A uniform pair, or an immediate zero-extended. -/
def srcU64 (w : Wave) (b : SrcU) : DWord :=
  match b with | .s r => sDWord w r.toNat | .imm v => v.setWidth 64

/-- A vertex operand (12 R254): a general or uniform pair, or an immediate. -/
def srcV (w : Wave) (b : SrcV) (l : Nat) : DWord :=
  match b with | .g r => gGet w true r l | .s r => sGet w true r | .imm v => v.setWidth 64

/-- A operand: uniform with U (R124). -/
def aVal (w : Wave) (u wide : Bool) (r : Reg) (l : Nat) : Nat :=
  (if u then sGet w wide r else gGet w wide r l).toNat

/-! ### Results -/

/-- R124, R83: a result in each active lane, or once, from the lowest active lane. -/
def putResult (s : State) (x : Ctx) (u wide : Bool) (d : Reg) (f : Nat → DWord) : State :=
  if u then
    match lowLane x.act with
    | none => s
    | some l => updWave s x.c.wave fun w => setSd w wide d (f l)
  else updWave s x.c.wave fun w => setGd w wide d x.act f

def wordsOf (wide : Bool) (v : DWord) : List Word := if wide then [lo32 v, hi32 v] else [lo32 v]

/-- As `putResult`, at the close of the instruction's window (R64). -/
def putLater (s : State) (x : Ctx) (la : BitVec 4) (u wide : Bool) (d : Reg) (f : Nat → DWord) : State :=
  if u then
    openDone s x.c la { sd := some (d.toNat, wid wide) } []
      (match lowLane x.act with | none => [] | some l => wordsOf wide (f l))
  else openDone s x.c la { gd := some (d.toNat, wid wide) }
    ((lanesOf x.act).map fun l => ⟨l, wordsOf wide (f l), none, none⟩) []

/-- A register-computing instruction whose result is there at once. -/
def execAlu (g : Guard) (u wide : Bool) (d : Reg) (s : State) (k : Ctx → State → (Nat → DWord) × State) : Out :=
  runLane false g s fun x s => let r := k x s; .done (putResult r.2 x u wide d r.1)

/-- A register-computing instruction with lookahead. -/
def execLong (g : Guard) (la : BitVec 4) (u wide : Bool) (d : Reg) (s : State)
    (k : Ctx → State → (Nat → DWord) × State) : Out :=
  runLane false g s fun x s => let r := k x s; .done (putLater r.2 x la u wide d r.1)

end Sys2Proof.Machine
end

