-- ==== Sys2Proof/Machine/Flags.lean ====
section
/-! DEFINITION. What instructions record in predicates and in sticky bits: comparisons (06 R138), carries (R132), truth tables
(R139), the sticky bits of a wave (07 R149, 05 R122) and the status bits of a launch (19 R367). -/

namespace Sys2Proof.Machine

/-- An integer comparison (R138). -/
def icmpHolds (cc : Cc) (t : IntTy) (a b : Nat) : Bool :=
  let x := intVal t a
  let y := intVal t b
  ccHolds cc (if x < y then .lt else if y < x then .gt else .eq)

/-- A floating comparison (R138). -/
def fcmpHolds (cc : Cc) (t : FTy5) (a b : Nat) : Bool := ccHolds cc (cmpV (fval t a) (fval t b))

/-- The carry out of a 32-bit addition (R132). -/
def carryOut (a b : Nat) (c : Bool) : Bool := decide (2 ^ 32 ≤ a % 2 ^ 32 + b % 2 ^ 32 + c.toNat)

/-- A truth table of three predicates (R139). -/
def lutBit (lut : Byte) (a b c : Bool) : Bool := lut.getLsbD (4 * a.toNat + 2 * b.toNat + c.toNat)

/-- FMTERR of a wave (05 R122). -/
def setFmtErr (s : State) (u : Nat) (b : Bool) : State :=
  if b then updWave s u fun w => { w with fmtErr := true } else s

/-- MEMPSN of a launch (09 R208). -/
def setMemPsn (s : State) (launch : Nat) (b : Bool) : State := if b then setLaunchFlag s launch 4 else s

/-- STRMFLT of a launch, with the reason and address of the first (11 R248, 19 R367). -/
def setStrmFlt (s : State) (launch reason : Nat) (addr : DWord) : State :=
  updLaunch s launch fun l =>
    if l.flags.getLsbD 5 then l
    else { l with flags := l.flags ||| 0x20, sreason := BitVec.ofNat 8 reason, saddr := addr }

/-- CAVEERR of a launch, with the status code of the first (19 R367). -/
def setCaveErr (s : State) (launch code : Nat) : State :=
  updLaunch s launch fun l =>
    if l.flags.getLsbD 6 then l else { l with flags := l.flags ||| 0x40, ccode := BitVec.ofNat 8 code }

end Sys2Proof.Machine
end

