-- ==== Sys2Proof/Machine/Access.lean ====
section
/-! DEFINITION. How an access names its bytes: the five spaces (09 R191 to R195), the checks of each lane (11 R231), and the issue
of reads and writes into the ordering machine (10 R214, R215, 09 R206). -/

namespace Sys2Proof.Machine

def isqOf (s : State) : Nat × State := fresh s

/-- Blocks in one instance of level `k` (02 R34): the product of the extents of levels 3 to k. -/
def levelBlocks (lr : LaunchRec) (k : Nat) : Nat := (lr.levels.take (k - 2)).foldl (fun a e => a * e.ext) 1

/-- The lowest declared level whose domain is cluster or wider (R194). -/
def windowLevel (lr : LaunchRec) : Option Nat := (lr.levels.findIdx? fun e => 1 ≤ e.dom).map (· + 3)

def insBlock (b : Block) : List Block → List Block
  | [] => [b]
  | c :: r => if b.bid < c.bid then b :: c :: r else c :: insBlock b r

/-- The blocks whose allocations the cluster window reaches on a core of the cluster, in increasing `blockid` (R194). DESIGN CHOICE (log
107): a hoop-formed wave belongs to no level instance, so the window reaches its own allocation only. -/
def clBlocks (s : State) (l : Launch) (b : Block) (core : Nat) : List Block :=
  match if b.hoop then none else windowLevel l.lr with
  | none => if core % coresPerCluster = b.core % coresPerCluster then [b] else []
  | some k =>
    let n := levelBlocks l.lr k
    (s.blocks.filter fun c => c.launch == b.launch && !c.hoop && c.core == clusterOfCore b.core * coresPerCluster + core &&
      c.bid / n == b.bid / n).foldr insBlock []

/-- Byte `o` of allocations of `n` bytes laid end to end. -/
def clByte (n : Nat) : Nat → List Block → Option Loc
  | _, [] => none
  | o, b :: r => if o < n then some (.spad b.uid o) else clByte n (o - n) r

/-- One byte of an on-chip space; none where it lies outside (R191). -/
def chipByte (s : State) (l : Launch) (b : Block) (core wave lane : Nat) (sp : Space) (a : Nat) : Option Loc :=
  match sp with
  | .lp => if a < l.lr.lpriv then some (.lpriv b.uid ((wave * 32 + lane) * l.lr.lpriv + a)) else none
  | .sp => if a < l.lr.spad then some (.spad b.uid a) else none
  | .cl => if a / 2 ^ 24 = 0 then clByte l.lr.spad (a % 2 ^ 19) (clBlocks s l b (a / 2 ^ 19 % 32)) else none
  | .ds => if a < l.lr.dspad then some (.dspad l.uid (dieOfCore core) a) else none
  | .gm => none

/-- The first byte of a range of an on-chip space that lies outside it. -/
def chipFirstBad (s : State) (l : Launch) (b : Block) (core : Nat) (sp : Space) (a : Nat) : Nat → Option Nat
  | 0 => none
  | n + 1 =>
    match chipByte s l b core 0 0 sp a with
    | none => some a
    | some _ => if sp == .cl then chipFirstBad s l b core sp (a + 1) n
      else
        -- the other spaces are one run of bytes from 0
        let size := match sp with | .sp => l.lr.spad | .ds => l.lr.dspad | _ => l.lr.lpriv
        if a + n < size then none else some (max a size)

/-- A lane's access, past its checks. -/
structure LaneLoc where
  lane : Nat
  loc : Loc
  va : Nat
  xl : Option Xl
  deriving DecidableEq, Repr, Inhabited

/-- R231: a lane's address. -/
def laneAddr (w : Wave) (sp : Space) (a : Reg) (off : Word) (l : Nat) : Nat :=
  if sp == .gm then (gDWord w a.toNat l + off.signExtend 64).toNat else (gWord w a.toNat l + off).toNat

/-- R231: alignment, then range or translation. -/
def checkLane (x : Ctx) (s : State) (sp : Space) (acc : Acc) (al n a l : Nat) : Except Flt LaneLoc × State :=
  if a % al ≠ 0 then (.error ⟨l, .align, BitVec.ofNat 64 a⟩, s)
  else if sp == .gm then
    match xlate s x.l.lr.tenant x.l.lr.root a acc with
    | (.error k, s) => (.error ⟨l, k, BitVec.ofNat 64 a⟩, s)
    | (.ok t, s) => (.ok ⟨l, t.loc, a, some t⟩, s)
  else
    match findBlock s x.w.blk with
    | none => (.error ⟨l, .spadbnd, BitVec.ofNat 64 a⟩, s)
    | some b =>
      match chipByte s x.l b x.w.core x.w.waveid.toNat l sp a, chipByte s x.l b x.w.core x.w.waveid.toNat l sp (a + n - 1) with
      | some k, some _ => (.ok ⟨l, k, a, none⟩, s)
      | _, _ => (.error ⟨l, .spadbnd, BitVec.ofNat 64 a⟩, s)

/-- The lanes of a list checked one after the other: those that pass, and the faults. -/
def checkLanes (x : Ctx) (sp : Space) (acc : Acc) (al n : Nat) (addr : Nat → Nat) :
    List Nat → State → List LaneLoc × List Flt × State
  | [], s => ([], [], s)
  | l :: r, s =>
    match checkLane x s sp acc al n (addr l) l with
    | (.error f, s) => let y := checkLanes x sp acc al n addr r s; (y.1, f :: y.2.1, y.2.2)
    | (.ok k, s) => let y := checkLanes x sp acc al n addr r s; (k :: y.1, y.2.1, y.2.2)

def laneMask (ls : List LaneLoc) : Mask := maskOf fun i => ls.any (·.lane == i)

/-! ### Issue -/

/-- The 32-byte sectors of device memory that byte runs touch, once each (R206). -/
def sectorsIn (rs : List (Loc × Nat)) : List (Option Nat × Nat) :=
  (rs.flatMap fun r =>
    let ks := (List.range ((r.1.addr + r.2 - 1) / 32 + 1 - r.1.addr / 32)).map (· + r.1.addr / 32)
    match r.1 with
    | .gm _ => ks.map fun k => (none, k)
    | .remote d _ => ks.map fun k => (some d, k)
    | _ => []).eraseDups

/-- An instruction's sector requests at L1 count as hits or misses (R206, 21 R374); which are hits is free (log 85). -/
def askL1 (s : State) (core : Nat) (rs : List (Loc × Nat)) : State :=
  let n := (sectorsIn rs).length
  if n = 0 then s else let c := choose (n + 1) s; addPerf (addPerf c.2 core 3 c.1) core 4 (n - c.1)

def addAct (s : State) (a : Act) : State := { s with mem := { s.mem with acts := s.mem.acts ++ [a] } }
def addWb (s : State) (w : Wb) : State := { s with mem := { s.mem with wb := s.mem.wb ++ [w] } }

/-- One lane's read enters its issue stream, a part of at most 8 bytes for each unit. -/
def issueRead (s : State) (w : Wave) (isq win lane : Nat) (kind : ActKind) (us : List (Loc × Nat)) (post : Post) : State :=
  let n := s.nid
  addAct { s with nid := n + 1 }
    ⟨n, ⟨w.uid, lane⟩, w.core, isq, kind, us.map fun u => ⟨u.1, u.2, none⟩, post, win⟩

/-- The reads of an instruction. -/
def issueReads (s : State) (w : Wave) (isq win : Nat) (kind : ActKind) : List (Nat × List (Loc × Nat) × Post) → State
  | [] => s
  | (l, us, p) :: r => issueReads (issueRead s w isq win l kind us p) w isq win kind r

/-- One unit of a write enters the write buffer. -/
def putWb (s : State) (lane : LaneKey) (core isq : Nat) (counted : Bool) (src : Option Nat) (rel : Option Scope)
    (l : Loc) (bs : List Byte) (mask : Option (List Byte)) (psn : Bool) : State :=
  let n := s.nid
  addWb { s with nid := n + 1 } ⟨n, lane, core, isq, l, bs, mask, rel, none, none, counted, src, [], .pending, none, false, psn⟩

/-- A run of bytes as its units; a unit of which no bit changes is no write. -/
def putRun (s : State) (lane : LaneKey) (core isq : Nat) (counted : Bool) (src : Option Nat) (rel : Option Scope) :
    List (Loc × Nat) → List Byte → List Byte → State
  | [], _, _ => s
  | (l, n) :: r, bs, k =>
    let m := k.take n
    let s := if m.all (· == 0) then s
      else putWb s lane core isq counted src rel l (bs.take n) (if m.all (· == 0xFF) then none else some m) false
    putRun s lane core isq counted src rel r (bs.drop n) (k.drop n)

/-- One lane's write: where, its bytes, and the bits that change. -/
structure LaneW where
  lane : Nat
  loc : Loc
  bytes : List Byte
  mask : List Byte
  deriving DecidableEq, Repr, Inhabited

/-- The bits of a byte that the writes of a list change. -/
def writtenBits (ws : List LaneW) (l : Loc) : Byte :=
  ws.foldl (fun m w =>
    if overlap w.loc w.bytes.length l 1 then m ||| w.mask.getD (l.addr - w.loc.addr) 0 else m) 0

/-- R206: bits that a higher lane writes are not written by a lower one. -/
def trimWrites : List LaneW → List LaneW
  | [] => []
  | w :: r =>
    let k := w.mask.mapIdx fun i m => m &&& ~~~(writtenBits r (w.loc.off i))
    { w with mask := k } :: trimWrites r

/-- The unit of a write that does not fill its bytes (05 R119): one over the bytes it touches. Where these lie in lines of two home
dies there are two, one at each home, for no single move stores both (DESIGN CHOICE, log 84). -/
def elemUnits (s : State) (l : Loc) (n : Nat) : List (Loc × Nat) :=
  match l with
  | .gm pa =>
    let k := 256 - pa % 256
    if k < n && homeDie s pa != homeDie s (pa + k) then [(l, k), (l.off k, n - k)] else [(l, n)]
  | _ => [(l, n)]

/-- The writes of an instruction, in lane order; with `whole`, each is an element's unit (05 R119). -/
def issueWrites (s : State) (w : Wave) (isq : Nat) (rel : Option Scope) (whole : Bool) : List LaneW → State
  | [] => s
  | x :: r =>
    let us := if whole then elemUnits s x.loc x.bytes.length else unitsOf x.loc x.bytes.length
    issueWrites (putRun s ⟨w.uid, x.lane⟩ w.core isq true none rel us x.bytes x.mask) w isq rel whole r

end Sys2Proof.Machine
end

