-- ==== Sys2Proof/Machine/Ordering.lean ====
section
/-! DEFINITION. The moves of the ordering machine (10 R215 to R222, 11 R240 to R244): reads, drains, stamps, applies, the completion of
fences and cache operations, and evictions. -/

namespace Sys2Proof.Machine

def scopeNum : Scope → Nat | .wave => 0 | .block => 1 | .cluster => 2 | .die => 3 | .device => 4 | .system => 5
def wider (a b : Scope) : Bool := scopeNum b < scopeNum a

/-! ### What has been done (R218 to R220) -/

def isPref (a : Act) : Bool := a.post == .none && match a.kind with | .read _ _ => true | _ => false

/-- Has an access been performed? Fences and cache operations leave the list when they complete. -/
def performed (a : Act) : Bool :=
  match a.kind with
  | .fence _ _ _ | .take _ | .cache _ _ _ _ => false
  | _ => a.units.all fun u => u.got.isSome

def isFence (a : Act) : Bool := match a.kind with | .fence _ _ _ | .take _ => true | _ => false

/-- Is it a read of a list or of a graph object (R227)? -/
def gopRead : GKind → Bool
  | .gdeg | .gld | .gfind | .gver | .gopen | .gnext _ | .gcst _ => true
  | _ => false

/-- Is a read of the lane before `isq` still to be performed? -/
def readPending (s : State) (k : LaneKey) (isq : Nat) : Bool :=
  (s.mem.acts.any fun a => a.lane == k && a.isq < isq && !isPref a && !isFence a && !performed a) ||
  (s.graph.ops.any fun o => o.lane == k && o.isq < isq && (gopRead o.kind || match o.kind with | .gnew _ _ => true | _ => false)) ||
  (s.search.ops.any fun o => o.lane == k && o.isq < isq)

/-- The key of an engine operation's row (07 R149), and of a copy's accesses. -/
def engKey (wave lane : Nat) : LaneKey := ⟨wave, 64 + lane⟩
def copyKey (wave : Nat) : LaneKey := ⟨wave, 33⟩

/-- R221: is an earlier `fence.ar` of the lane still to complete? What the lane does later comes after it. -/
def fenceOpen (s : State) (k : LaneKey) (isq : Nat) : Bool :=
  s.mem.acts.any fun a => a.lane == k && a.isq < isq && match a.kind with | .fence .ar _ _ => true | _ => false

/-- R218: is some access of the lane before `isq` not done at scope `sc`? DEDUCED (log 105): a streamer copy counts as an access of its
lanes only once the wave has observed its completion, so that one not yet observed holds no release. -/
def notDone (s : State) (k : LaneKey) (isq : Nat) (sc : Scope) : Bool :=
  readPending s k isq || fenceOpen s k isq ||
  (wider sc .block &&
    ((s.mem.wb.any fun w => actsFor w.lane k w.counted && w.isq < isq && (!w.loc.isRemote || sc == .system)) ||
     (s.graph.ops.any fun o => o.lane == k && o.isq < isq))) ||
  (sc == .system && s.mem.remoteW.any fun w => actsFor w.lane k w.counted && w.isq < isq)

/-- R219: may a release of the lane at `isq` be performed? -/
def releaseOk (s : State) (k : LaneKey) (isq : Nat) (sc : Scope) : Bool :=
  !notDone s k isq sc &&
  !(wider sc .block && s.mem.wb.any fun w => w.loc.isGm && w.lane != k &&
    w.readers.any fun r => actsFor r.lane k r.counted && r.isq < isq)

def acqOf (a : Act) : Bool :=
  match a.kind with
  | .read acq _ => acq.isSome
  | .atomLocal _ acq _ _ => acq.isSome
  | .atomHome acq => acq.isSome
  | .fence k _ _ => k != .rel
  | .take _ => true
  | .cache _ _ _ _ => true

/-- R220, R221, R242: does an earlier acquire, fence or cache operation of the lane hold back its access at `isq`? -/
def acqBlocked (s : State) (k : LaneKey) (isq : Nat) : Bool :=
  (s.mem.acts.any fun a => a.lane == k && a.isq < isq && acqOf a && !performed a) ||
  (s.search.ops.any fun o => o.lane == k && o.isq < isq && match o.kind with | .incld acq _ => acq | _ => false)

/-- R219: does an earlier `fence.rel` of the lane hold back its write at `isq`? -/
def relBlocked (s : State) (k : LaneKey) (isq : Nat) : Bool :=
  s.mem.acts.any fun a => a.lane == k && a.isq < isq && isFence a

/-- The lanes that issued a copy. -/
def copyIssuers (s : State) (c : Nat) : List LaneKey :=
  match (s.blocks.flatMap Block.copies).find? (·.id == c) with
  | some c => (lanesOf c.lanes).map fun l => ⟨c.wave, l⟩
  | none => []

/-- The lanes that issued an access with a key and a source: the lane itself, an engine row's lane, or a copy's. -/
def issuers (s : State) (k : LaneKey) (src : Option Nat) : List LaneKey :=
  if isEngine k then [⟨k.wave, k.lane - 64⟩]
  else if k.lane == 33 then (match src with | some c => copyIssuers s c | none => [])
  else [k]

/-- R217: is an earlier read of the lane of one of these bytes still pending? -/
def readBefore (s : State) (k : LaneKey) (isq : Nat) (l : Loc) (n : Nat) : Bool :=
  (s.mem.acts.any fun a => a.lane == k && a.isq < isq && !isPref a && !isFence a &&
    a.units.any fun u => u.got.isNone && overlap u.loc u.n l n) ||
  -- a unit of the descriptor of a `gnew` (12 R272)
  s.graph.ops.any fun o => o.lane == k && o.isq < isq && match o.kind with
    | .gnew d got => (List.range 4).any fun i => !got.any (·.1 == i) && overlap (d.off (8 * i)) 8 l n
    | _ => false

/-- R217: is an earlier write of the lane to one of these bytes still to drain? -/
def writeBefore (s : State) (k : LaneKey) (isq : Nat) (l : Loc) (n : Nat) : Bool :=
  s.mem.wb.any fun w => w.lane == k && w.isq < isq && w.state == .pending && overlap w.loc w.bytes.length l n

/-- R238: has a lower lane of the same atomic instruction, at the same bytes, still to be performed? -/
def lowerAtom (s : State) (k : LaneKey) (isq : Nat) (l : Loc) (n : Nat) : Bool :=
  (s.mem.acts.any fun a => a.lane.wave == k.wave && a.lane.lane < k.lane && a.isq == isq && !performed a &&
    (match a.kind with | .atomLocal _ _ _ _ => true | _ => false) && a.units.any fun u => overlap u.loc u.n l n) ||
  (s.mem.wb.any fun w => w.lane.wave == k.wave && w.lane.lane < k.lane && w.isq == isq && w.state == .pending &&
    w.fn.isSome && overlap w.loc w.bytes.length l n)

/-! ### Copies -/

/-- R220: an acquire wider than `.block` discards the core's L1 copies; `.system` also the die's X copies. -/
def discardFor (s : State) (core : Nat) (sc : Scope) : State :=
  if wider sc .block then
    let m := s.mem
    let m := { m with l1 := m.l1.filter fun e => e.1 / 2 ^ 57 != core }
    let m := if sc == .system then { m with xc := m.xc.filter fun e => e.1 / 2 ^ 57 / 2 ^ 22 != dieOfCore core } else m
    { s with mem := m }
  else s

def discardAcq (s : State) (core : Nat) (acq : Option Scope) : State :=
  match acq with | some sc => discardFor s core sc | none => s

/-- Discard every L1 copy of a physical range. -/
def dropL1 (s : State) (lo n : Nat) : State :=
  { s with mem := { s.mem with l1 := s.mem.l1.filter fun e => !(lo ≤ e.1 % 2 ^ 57 && e.1 % 2 ^ 57 < lo + n) } }

/-- The X sectors of bytes of another device become I, on one die or on all (R197, R200). -/
def dropX (s : State) (die : Option Nat) (dev lo n : Nat) : State :=
  { s with mem := { s.mem with xc := s.mem.xc.filter fun e =>
      !((match die with | some d => e.1 / 2 ^ 57 / 2 ^ 22 == d | none => true) && e.1 / 2 ^ 57 % 2 ^ 22 == dev &&
        lo / 64 ≤ e.1 % 2 ^ 57 / 64 && e.1 % 2 ^ 57 / 64 ≤ (lo + n - 1) / 64) } }

/-- R216: note that a lane has read or drained the write that stands at `seq`. -/
def raiseFloor (m : MemSys) (k : LaneKey) (seq pa : Nat) : Nat → MemSys
  | 0 => m
  | n + 1 =>
    let i := floorKey k pa
    raiseFloor { m with floor := kvPut 0 i (max seq (kvGet 0 i m.floor)) m.floor } k seq (pa + 1) n

/-- The same for bytes of another device. -/
def raiseRem (m : MemSys) (k : LaneKey) (seq dev pa n : Nat) : MemSys :=
  { m with rfloor := (List.range n).foldl (fun f i => raiseAt (remFloorKey k dev (pa + i)) seq f) m.rfloor }

/-- The place of a write of bytes, of this device or of `dev`, binds who has read or made it: a lane at once; the lanes of a wave whose
engine has, once an `mwait` has counted its operation (07 R153). -/
def raiseBy (dev : Option Nat) (seq pa n : Nat) (m : MemSys) (r : RdBy) : MemSys :=
  let raise := fun k => match dev with | none => raiseFloor m k seq pa n | some d => raiseRem m k seq d pa n
  if isLane r.lane then raise r.lane
  else if !isEngine r.lane then m
  else if r.counted then raise (waveKey r.lane.wave)
  else { m with eng := (List.range n).map (fun i => ⟨r.lane.wave, r.isq, dev, pa + i, seq⟩) ++ m.eng }

def raiseFloors (m : MemSys) (seq pa n : Nat) (rs : List RdBy) : MemSys := rs.foldl (raiseBy none seq pa n) m

/-- A write's own lane, as one of those that know its place. -/
def Wb.own (w : Wb) : RdBy := ⟨w.lane, w.isq, w.counted⟩

/-- Set L1 copies of stored bytes on a core: all of them, or those it holds. -/
def setL1 (cap core seq : Nat) (all : Bool) (m : MemSys) (pa : Nat) (psn : Bool) : List Byte → MemSys
  | [] => m
  | b :: bs =>
    let k := l1Key core pa
    let m := if all || m.l1.any (·.1 == k) then fillL1 cap core k ⟨b, seq, psn⟩ m else m
    setL1 cap core seq all m (pa + 1) psn bs

/-! ### Results -/

/-- A poisoned read of `n` bytes returns the pattern of its width (09 R208). -/
def readPattern (bs : List Byte) (psn : Bool) : Nat := if psn then poisonOf bs.length else leNat bs

/-- The value of a load, extended to its type (11 R232). -/
def loadValue (ty : IntTy) (v n : Nat) : DWord :=
  BitVec.ofNat 64 (if ty.signed then wrapI 64 (sx (8 * n) v) else v)

/-- Elements read by `ldf` or an engine from the bytes of a page: from byte `blk`, each byte none where it lies in a poisoned word;
their decoded values, and whether FMTERR is set (05 R111 to R116). -/
def decodeRun (k n fmt geom : Nat) (scale : Nat) (blk : Nat) (bs : List (Option Byte)) : List Nat × Bool :=
  let byte := fun i : Nat => (bs.getD (i - blk) none).map BitVec.toNat
  match fmt with
  | 4 =>
    let len := geomLen geom
    let pat := fun e : Nat => (byte (e / 2)).map fun b => if e % 2 = 0 then b % 16 else b / 16
    let b0 := k / len
    let b1 := (k + n - 1) / len
    let block := fun (q : Nat → Option Nat) => (List.range (b1 + 1 - b0)).map fun j =>
      q4xBlock len ((List.range len).map fun i => q ((b0 + j) * len + i))
    let evs := (block pat).flatMap (·.1)
    -- FMTERR comes from positions up to the last one decoded
    let upTo := fun e : Nat => if e < k + n then pat e else some 0
    ((List.range n).map fun j => decodeEl scale (evs.getD (k - b0 * len + j) .psn), (block upTo).any (·.2))
  | _ =>
    let ev := fun e : Nat =>
      match fmt with
      | 3 => match byte e with | some b => EV.pat .f8e4 b | none => .psn
      | 5 =>
        let g := 3 * (e / 4)
        let lo := 6 * (e % 4)
        let need := (List.range 3).filter fun j => 8 * j < lo + 6 && lo < 8 * j + 8
        if need.any fun j => (byte (g + j)).isNone then .psn
        else .int (sx 6 (bits ((List.range 3).foldl (fun a j => a + (byte (g + j)).getD 0 * 2 ^ (8 * j)) 0) lo 6))
      | _ =>
        match byte (2 * e), byte (2 * e + 1) with
        | some a, some b => EV.pat (if fmt = 1 then .f16 else .bf16) (a + 256 * b)
        | _, _ => .psn
    ((List.range n).map fun j => decodeEl scale (ev (k + j)), false)

/-- The bytes of an access with those of poisoned words left out. -/
def unitBytes (us : List UnitR) : List (Option Byte) :=
  us.flatMap fun u => match u.got with
    | some (bs, p) => bs.map fun b => if p then none else some b
    | none => []

/-- The words that an access leaves in its window, and whether it sets FMTERR. -/
def postWords (p : Post) (us : List UnitR) : List Word × Bool :=
  let vals := us.map fun u => match u.got with | some (bs, q) => readPattern bs q | none => 0
  match p with
  | .ld ty _ =>
    let n := match us.head? with | some u => u.n | none => 4
    let v := loadValue ty (vals.headD 0) n
    (wordsOf ty.wide v, false)
  | .ldq => (vals.flatMap fun v => wordsOf true (BitVec.ofNat 64 v), false)
  | .ldf k n fmt geom scale blk =>
    let r := decodeRun k n fmt geom scale.toNat blk (unitBytes us)
    (r.1.map (BitVec.ofNat 32), r.2)
  | .atom wide => (wordsOf wide (BitVec.ofNat 64 (vals.headD 0)), false)
  | .none => ([], false)

def launchOfWave (s : State) (u : Nat) : Nat := match findWave s u with | some w => w.launch | none => 0

/-- An access whose units have all been taken leaves the stream, and its result arrives. -/
def finishAct (s : State) (a : Act) : State :=
  let r := postWords a.post a.units
  let s := { s with mem := { s.mem with acts := s.mem.acts.filter (·.id != a.id) } }
  if a.post == .none then s
  else
    let s := setFmtErr s a.lane.wave r.2
    let s := setMemPsn s (launchOfWave s a.lane.wave) (a.units.any fun u => match u.got with | some (_, p) => p | none => false)
    deliver s a.lane.wave a.win ⟨a.lane.lane, r.1, none, none⟩

def updAct (s : State) (n : Nat) (f : Act → Act) : State :=
  { s with mem := { s.mem with acts := updFirst (·.id == n) f s.mem.acts } }

def setUnit (us : List UnitR) (i : Nat) (g : List Byte × Bool) : List UnitR := listSet us i fun u => { u with got := some g }

/-- The bytes of unit `i` of an access have been taken. -/
def takeUnit (s : State) (a : Act) (i : Nat) (g : List Byte × Bool) : State :=
  let a' := { a with units := setUnit a.units i g }
  let s := updAct s a.id fun _ => a'
  if performed a' then finishAct s a' else s

/-- An atomic was performed; its result reaches the lane (R222). -/
def atomGot (s : State) (n : Option Nat) (g : List Byte × Bool) (now : Bool) : State :=
  match n.bind fun n => s.mem.acts.find? (·.id == n) with
  | none => s
  | some a =>
    let a' := { a with units := setUnit a.units 0 g }
    let acq := match a.kind with | .atomHome q => q | _ => none
    let s := discardAcq s a.core acq
    if now then finishAct s a' else updAct s a.id fun _ => a'

/-- The result of an atomic performed at another die arrives there. -/
def atomArrive (s : State) (n : Option Nat) : State :=
  match n.bind fun n => s.mem.acts.find? (·.id == n) with
  | none => s
  | some a => if performed a then finishAct s a else s

/-! ### Reads (R215, R217, R220, R222) -/

/-- R394: is the unit that holds a location up? -/
def locUp (s : State) : Loc → Bool
  | .gm pa => unitUp s (unitBit s pa)
  | _ => true

/-- May the unit of an access be taken? -/
def readOk (s : State) (a : Act) (u : UnitR) : Bool :=
  locUp s u.loc && (isPref a || (!acqBlocked s a.lane a.isq && !readBefore s a.lane a.isq u.loc u.n))

/-- May an atomic be performed on the core or at an on-chip memory? -/
def atomOk (s : State) (a : Act) (rel : Option Scope) (u : UnitR) : Bool :=
  locUp s u.loc && !acqBlocked s a.lane a.isq && !relBlocked s a.lane a.isq && !readBefore s a.lane a.isq u.loc u.n &&
  !lowerAtom s a.lane a.isq u.loc u.n &&
  (match rel with | some sc => releaseOk s a.lane a.isq sc | none => true) &&
  (!u.loc.onChip || !writeBefore s a.lane a.isq u.loc u.n)

/-- Place an atomic's write in the write buffer: before any later write of its own lane to the bytes (R217), else last. -/
def placeWb (w : Wb) (l : List Wb) : List Wb :=
  let i := l.findIdx fun v => v.lane == w.lane && w.isq < v.isq && overlap v.loc v.bytes.length w.loc w.bytes.length
  l.take i ++ w :: l.drop i

/-- A lane's read: R216 binds it, and R219 remembers what it takes from the write buffer. -/
def laneReader (a : Act) (useL1 : Bool) (skip : List Nat) : Reader := ⟨some a.lane, some ⟨a.lane, a.isq, true⟩, a.core, useL1, skip⟩

/-- An atomic in one move on the core (R222): the value by the sources of a read, the write into the write buffer. -/
def atomOnCore (s : State) (a : Act) (fn : AtomFn) (acq : Option Scope) (u : UnitR) : Option State :=
  let later := s.mem.wb.filter fun w => w.lane == a.lane && a.isq < w.isq
  match readRun (laneReader a true (later.map Wb.id)) s u.loc u.n with
  | none => none
  | some (bs, p, s) =>
    let s := match if p then none else atomNew fn bs with
      | none => s
      | some new =>
        let w : Wb := ⟨s.nid, a.lane, a.core, a.isq, u.loc, new, none, none, none, none, true, none, [], .pending, none, true, false⟩
        { s with nid := s.nid + 1, mem := { s.mem with wb := placeWb w s.mem.wb } }
    some (takeUnit (discardAcq s a.core acq) a 0 (bs, p))

/-- An atomic at an on-chip memory. -/
def atomOnChip (s : State) (a : Act) (fn : AtomFn) (acq : Option Scope) (u : UnitR) : State :=
  let m := chipMem s u.loc
  let bs := memBytes m u.loc.addr u.n
  let p := anyPsn m u.loc.addr u.n
  let s := match if p then none else atomNew fn bs with | none => s | some new => storeChip s u.loc new none
  takeUnit (discardAcq s a.core acq) a 0 (bs, p)

def readMoveS (s : State) (acc unit : Nat) : Option State :=
  match s.mem.acts.find? (·.id == acc) with
  | none => none
  | some a =>
    match a.units[unit]? with
    | none => none
    | some u =>
      if u.got.isSome then none
      else
        match a.kind with
        | .read acq nl1 =>
          if !readOk s a u then none
          else
            match readRun (if isPref a then { coreReader a.core with useL1 := !nl1 } else laneReader a (!nl1) []) s u.loc u.n with
            | none => none
            | some (bs, p, s) => some (takeUnit (discardAcq s a.core acq) a unit (bs, p))
        | .atomLocal fn acq rel _ =>
          if !atomOk s a rel u then none
          else if u.loc.onChip then some (atomOnChip s a fn acq u)
          else atomOnCore s a fn acq u
        | _ => none

def execReadMove (acc unit : Nat) (s : State) : Out := move s (readMoveS s acc unit)

/-! ### Writes (R215, R217, R219) -/

def findWb (s : State) (n : Nat) : Option Wb := s.mem.wb.find? (·.id == n)

/-- Must the older write `v` to a byte of `w` be stored first (R217)? Two of one lane or of one copy; the engine's of the wave, once
counted (07 R153); what a copy's lanes wrote before it (R224); what an atomic on the core has read, and what two reads of one lane
returned in this order. -/
def inOrder (s : State) (v w : Wb) : Bool :=
  (v.lane == w.lane && (w.lane.lane != 33 || v.src == w.src)) ||
  (v.lane.wave == w.lane.wave && isEngine v.lane && (isEngine w.lane || v.counted)) ||
  (w.lane.lane == 33 && v.isq < w.isq && (issuers s w.lane w.src).contains v.lane) ||
  (w.atm && v.readers.any (·.lane == w.lane)) || (w.readers.any fun r => isLane r.lane && v.readers.any (·.lane == r.lane))

/-- May a write drain? -/
def drainOk (s : State) (w : Wb) : Bool :=
  let older := s.mem.wb.takeWhile fun v => v.id != w.id
  w.state == .pending && locUp s w.loc &&
  (issuers s w.lane w.src).all (fun k => !acqBlocked s k w.isq && !relBlocked s k w.isq) &&
  !(s.mem.acts.any fun a => a.lane == w.lane && a.isq < w.isq && !performed a &&
    (match a.kind with | .atomLocal _ _ _ _ => true | _ => false) && a.units.any fun u => overlap u.loc u.n w.loc w.bytes.length) &&
  !(older.any fun v => v.core == w.core && v.state == .pending && overlap v.loc v.bytes.length w.loc w.bytes.length && inOrder s v w) &&
  (w.fn.isNone ||
    (!lowerAtom s w.lane w.isq w.loc w.bytes.length &&
     !(s.mem.acts.any fun a => a.lane == w.lane && a.isq < w.isq && !isPref a && some a.id != w.act &&
        a.units.any fun u => u.got.isNone && overlap u.loc u.n w.loc w.bytes.length))) &&
  (match w.rel with | some sc => releaseOk s w.lane w.isq sc | none => true)

/-- A write leaves the write buffer: its lane and its readers have seen its place (R216). -/
def removeWb (s : State) (n : Nat) : State :=
  match findWb s n with
  | none => s
  | some w =>
    let m := { s.mem with wb := s.mem.wb.filter (·.id != n) }
    match w.seq with
    | some q => { s with mem := raiseFloors m q w.loc.addr w.bytes.length (w.own :: w.readers) }
    | none => { s with mem := m }

/-- R227, R226: a front write to a byte under cave work is one of the values its reads may return. -/
def noteFly (s : State) (pa : Nat) : List Byte → State
  | [] => s
  | b :: bs =>
    let add := fun (f : RangeFly) =>
      if f.ranges.any (fun r => r.1 ≤ pa && pa < r.1 + r.2) then { f with front := (pa * 256 + b.toNat) :: f.front } else f
    noteFly { s with mem := { s.mem with fly := s.mem.fly.map add } } (pa + 1) bs

/-- H := M(h) for a sector, and its dirty mark is cleared (R241). -/
def writeBack (s : State) (k : Nat) : State :=
  let h := homeDie s (k * 64)
  let bs := viewBytes s h (k * 64) 64
  let psn := (List.range 8).filter fun i => viewPsn s h (k * 64 + 8 * i)
  let m := memStore s.mem.home (k * 64) bs none
  touchMem { s with mem := { s.mem with
    home := { m with psn := psn.foldl (fun l i => insNat (k * 8 + i) l) m.psn }
    dirty := delNat k s.mem.dirty } } (k * 64)

/-- R197, R199: a full L2 all of whose lines are dirty or pinned writes one back and gives it up for the line of a write. -/
def roomL2 (s : State) (d ln : Nat) : State :=
  if s.mem.l2.length + s.mem.xc.length < l2Cap then s
  else
    let ls := l2Lines s d
    if ls.length < l2Cap || ls.contains ln || ls.any (lineFree s d) then s
    else
      let v := someLine s.mem (ls.filter fun k => k < 2 ^ 49 && !pinnedLine s d k)
      match v.1 with
      | none => s
      | some k => dropLine ((s.mem.dirty.filter fun q => q / 4 == k).foldl writeBack { s with mem := v.2 }) d k

/-- The sectors that a write reaches are filled before its bytes are merged, and become D on their home die. -/
def dirtySectors (s : State) (h pa n : Nat) : State :=
  let s := fillSectors (roomL2 s h (pa / 256)) h pa n
  { s with mem := { s.mem with
    dirty := (List.range ((pa + n - 1) / 64 + 1 - pa / 64)).foldl (fun d i => insNat (pa / 64 + i) d) s.mem.dirty } }

/-- The write is stored in M(h), with its stamp (R215, R216, R241); the bytes it holds then. `p`: they are a copy of poison. -/
def storeHome (s : State) (h pa : Nat) (bs : List Byte) (mask : Option (List Byte)) (p : Bool) : List Byte × Nat × Vec × State :=
  let s := touchL2 (bumpVec s h) h (64 * (pa / 64)) (64 * ((pa + bs.length - 1) / 64 + 1 - pa / 64))
  let seq := s.mem.clk + 1
  let s := storeView (dirtySectors s h pa bs.length) h pa bs mask seq p
  let new := viewBytes s h pa bs.length
  (new, seq, vecOf s h, noteFly s pa new)

/-- The stamped write joins Q(e) for every other die. -/
def spread (s : State) (m : Msg) (h : Nat) : State :=
  { s with mem := { s.mem with apply := s.mem.apply ++
      ((List.range 4).filter (· != h)).map fun e => { m with src := h, dst := e } } }

/-- R222: an atomic at its home die: the old bytes, what it writes, and whether the word is poisoned, so that nothing is written. -/
def atomHomeV (s : State) (h pa n : Nat) (fn : AtomFn) : List Byte × Option (List Byte) × Bool :=
  let old := viewBytes s h pa n
  let p := anyViewPsn s h pa n
  (old, if p then none else atomNew fn old, p)

/-- R216: the lane has read what M(h) holds of these bytes. -/
def seenAt (s : State) (k : LaneKey) (h pa : Nat) : Nat → State
  | 0 => s
  | n + 1 => seenAt { s with mem := raiseFloor s.mem k (viewSeq s h pa) pa 1 } k h (pa + 1) n

def masked (mask : Option (List Byte)) : Option (List Byte) := mask.map fun k => k.map fun _ => 0xFF

/-- Store a write, or perform an atomic, at home die `h`. `own` is the writing core's die. -/
def homeMove (s : State) (w : Wb) (h own : Nat) (pa : Nat) : State :=
  let n := w.bytes.length
  let v := match w.fn with
    | none => (w.bytes, some w.bytes, false)
    | some fn => atomHomeV s h pa n fn
  match v.2.1 with
  | none => atomGot (seenAt (removeWb s w.id) w.lane h pa n) w.act (v.1, v.2.2) true
  | some bs =>
    let r := storeHome s h pa (if unitFailed s (unitBit s pa) then viewBytes s h pa n else bs) w.mask w.psn
    let s := spread r.2.2.2 ⟨w.id, w.lane, w.core, w.isq, pa, r.1, masked w.mask, none, w.act, w.counted, w.src, h, h, r.2.2.1, r.2.1, w.psn⟩ h
    let s := { s with mem := { s.mem with wb := updFirst (·.id == w.id) (fun x => { x with seq := some r.2.1, bytes := r.1, mask := masked w.mask }) s.mem.wb } }
    if h = own then
      let s := { s with mem := setL1 (l1Cap s w.core) w.core r.2.1 true s.mem pa (anyViewPsn s h pa n) r.1 }
      let s := removeWb s w.id
      if w.fn.isSome then atomGot s w.act (v.1, false) true else s
    else
      let s := { s with mem := raiseFloors s.mem r.2.1 pa n (w.own :: w.readers) }
      if w.fn.isSome then atomGot s w.act (v.1, false) false else s

def drainS (s : State) (n : Nat) : Option State :=
  match findWb s n with
  | none => none
  | some w =>
    if !drainOk s w then none
    else
      match w.loc with
      | .gm pa =>
        let h := homeDie s pa
        let d := dieOfCore w.core
        if h = d then (if stampRoom s h then some (homeMove s w h d pa) else none)
        else
          let m : Msg := ⟨w.id, w.lane, w.core, w.isq, pa, w.bytes, w.mask, w.fn, w.act, w.counted, w.src, d, h, vecOf s d, 0, w.psn⟩
          some { s with mem := { s.mem with
            chan := s.mem.chan ++ [m]
            wb := updFirst (·.id == n) (fun x => { x with state := .sent }) s.mem.wb } }
      | .remote dev pa =>
        let s := dropX (removeWb s n) (some (dieOfCore w.core)) dev pa w.bytes.length
        let r : RemoteW := ⟨w.id, w.lane, w.core, w.isq, dev, pa, w.bytes, w.mask, w.fn, w.act, w.counted, w.src,
          w.readers, w.psn⟩
        some { s with mem := { s.mem with remoteW := s.mem.remoteW ++ [r] } }
      | l => some (markChip (storeChip (removeWb s n) l w.bytes w.mask) l w.bytes.length w.psn)

def execDrain (w : Nat) (s : State) : Out := move s (drainS s w)

/-- The head of F(d,h). -/
def chanHead (s : State) (d h : Nat) : Option Msg := s.mem.chan.find? fun m => m.src == d && m.dst == h

def stampS (s : State) (d h : Nat) : Option State :=
  match chanHead s d h with
  | none => none
  | some m =>
    if !vLe m.vec (vecOf s h) || !stampRoom s h then none
    else
      let s := { s with mem := { s.mem with chan := s.mem.chan.filter (·.id != m.id) } }
      match findWb s m.id with
      | some w => some (homeMove s w h d m.pa)
      | none => some s

def execStamp (d h : Nat) (s : State) : Out := move s (stampS s d h)

/-- Bytes of a stamped write that are later, in coherence order, than what the view holds. -/
def applyBytes (s : State) (e seq pa : Nat) : List Byte → List Byte
  | [] => []
  | b :: bs => (if viewSeq s e pa < seq then b else viewByte s e pa) :: applyBytes s e seq (pa + 1) bs

/-- R197, R198: the sectors of a write that the writing die holds in state G fill both halves before it updates them. -/
def fillG (s : State) (e pa n : Nat) : State :=
  [pa, pa + n - 1].foldl (fun s a => if sectorState s e (a / 64) == .g then fillL2 s e (64 * (a / 64)) 64 else s) s

def applyS (s : State) (e o : Nat) : Option State :=
  match s.mem.apply.find? fun m => m.src == o && m.dst == e with
  | none => none
  | some m =>
    if !((List.range 4).all fun k => k == o || vLe1 (vecGet m.vec 0 k) (vecGet (vecOf s e) 0 k)) then none
    else
      let s := { s with mem := { s.mem with
        apply := s.mem.apply.filter fun x => !(x.id == m.id && x.dst == e && x.src == o)
        vec := vecUpd s.mem.vec (.replicate 4 0) e fun v => vecSet v o (vecGet m.vec 0 o) } }
      let s := if e = dieOfCore m.core then fillG s e m.pa m.bytes.length else s
      let bs := applyBytes s e m.seq m.pa m.bytes
      let s := storeView s e m.pa bs m.mask m.seq m.psn
      -- R198: a guest copy on the writing die is updated in place, on any other it becomes I
      let s := if e = dieOfCore m.core then s else dropL2 s (some e) m.pa bs.length
      if e = dieOfCore m.core && (findWb s m.id).isSome then
        let s := { s with mem := setL1 (l1Cap s m.core) m.core m.seq false s.mem m.pa (anyViewPsn s e m.pa bs.length) bs }
        some (atomArrive (removeWb s m.id) m.act)
      else some s

def execApply (e o : Nat) (s : State) : Out := move s (applyS s e o)

/-! ### Fences and cache operations (R221, R240 to R243) -/

/-- Is a write of the lane before `isq` still on its way to some die? -/
def spreading (s : State) (k : LaneKey) (isq : Nat) : Bool :=
  (s.mem.wb.any fun w => actsFor w.lane k w.counted && w.isq < isq && w.loc.isGm) ||
  (s.mem.apply.any fun m => actsFor m.lane k m.counted && m.isq < isq)

def fenceOk (s : State) (a : Act) (k : FenceKind) (sc : Scope) (wait : Option Vec) : Bool :=
  match k with
  | .acq => !readPending s a.lane a.isq
  | .rel => releaseOk s a.lane a.isq sc
  | .ar => releaseOk s a.lane a.isq sc &&
    match wait with
    | none => true
    | some v => !spreading s a.lane a.isq && (List.range 4).all fun e => vLe v (vecOf s e)

/-- Sectors of physical ranges whose home is die `h`. -/
def sectorsOf (s : State) (rs : List (Nat × Nat)) (h : Nat) : List Nat :=
  (rs.flatMap fun r => (List.range ((r.1 + r.2 - 1) / 64 + 1 - r.1 / 64)).map (· + r.1 / 64)).eraseDups.filter
    fun k => homeDie s (k * 64) == h

/-- M(e) := H for a sector whose bytes in H are `bs`, in a move that stores in the views at `seq`; the words `ps` are poisoned there. -/
def restoreOn (s : State) (e a seq : Nat) (bs : List Byte) (ps : List Nat) : State :=
  let s := storeView s e a bs none seq false
  let new := { viewOf s e with psn := ps.foldl (fun l i => insNat i l) (viewOf s e).psn }
  { s with mem := { s.mem with
    view := vecUpd s.mem.view .empty e fun _ => new
    wlog := logOf e (s.mem.clk - 1) (bytePsn (viewOf s e)) (bytePsn new) (wordBytes a 64) ++ s.mem.wlog } }

/-- M(e) := H for a sector on every die (R243). -/
def restoreSector (s : State) (k : Nat) : State :=
  let bs := (List.range 64).map fun i => homeByte s (k * 64 + i)
  let ps := ((List.range 8).map (k * 8 + ·)).filter fun i => regionClearedQ s (k * 64) && s.mem.home.psn.contains i
  (List.range 4).foldl (fun t e => restoreOn t e (k * 64) (s.mem.clk + 1) bs ps) (touchMem s (k * 64))

def inRanges (rs : List (Nat × Nat)) (pa n : Nat) : Bool := rs.any fun r => pa < r.1 + r.2 && r.1 < pa + n

/-- R242, R243: is a write that lane `k` issued before `isq` to bytes of the ranges still to reach M(h): one of its own atomics not yet
performed, one in the write buffer or between dies, or one on its way to another device? -/
def rangePending (s : State) (k : LaneKey) (isq : Nat) (rs : List (Nat × Nat)) (us : List UnitR) : Bool :=
  (s.mem.acts.any fun b => b.lane == k && b.isq < isq && !performed b &&
    (match b.kind with | .atomLocal _ _ _ _ => true | _ => false) &&
    b.units.any fun u => u.loc.isGm && inRanges rs u.loc.addr u.n) ||
  (s.mem.wb.any fun w => actsFor w.lane k w.counted && w.isq < isq && w.seq.isNone &&
    match w.loc with
    | .gm pa => inRanges rs pa w.bytes.length
    | l => us.any fun u => overlap u.loc u.n l w.bytes.length) ||
  (s.mem.remoteW.any fun w => actsFor w.lane k w.counted && w.isq < isq &&
    us.any fun u => overlap u.loc u.n (.remote w.dev w.pa) w.bytes.length)

/-- May the operation take its move for home die `h`? Lanes of a `cinv` act in increasing order (R243); those of `cwb` and `cflush` in any. -/
def cacheOk (s : State) (a : Act) (k : CacheKind) (rs : List (Nat × Nat)) (h : Nat) : Bool :=
  !acqBlocked s a.lane a.isq && !rangePending s a.lane a.isq rs a.units &&
  (k != .inv || !(s.mem.acts.any fun b => b.id != a.id && b.isq == a.isq && b.lane.wave == a.lane.wave && b.lane.lane < a.lane.lane &&
    match b.kind with | .cache _ _ _ _ => true | _ => false)) &&
  (k != .inv || !(s.mem.apply.any fun m => m.src == h && inRanges rs m.pa m.bytes.length))

def cacheMove (s : State) (a : Act) (k : CacheKind) (rs : List (Nat × Nat)) (dies : List Nat) (count : Nat) : Option State :=
  match dies with
  | [] => none
  | h :: rest =>
    if !cacheOk s a k rs h then none
    else
      let ks := sectorsOf s rs h
      let dirty := ks.filter s.mem.dirty.contains
      let s := match k with
        | .inv => ks.foldl (fun s k => { restoreSector s k with mem := { (restoreSector s k).mem with dirty := delNat k s.mem.dirty } }) s
        | _ => dirty.foldl writeBack s
      let s := if k == .wb then s else ks.foldl (fun s k => dropL2 (dropL1 s (k * 64) 64) none (k * 64) 64) s
      let n := if k == .inv then count + dirty.length else count
      if rest.isEmpty then
        let s := if k == .wb then s
          else a.units.foldl (fun s u => match u.loc with | .remote dev pa => dropX s none dev pa u.n | _ => s) s
        let s := { s with mem := { s.mem with acts := s.mem.acts.filter (·.id != a.id) } }
        some (if k == .inv then deliver s a.lane.wave a.win ⟨a.lane.lane, [BitVec.ofNat 32 (min n (2 ^ 32 - 1))], none, none⟩ else s)
      else some (updAct s a.id fun a => { a with kind := .cache k rs rest n })

/-- R229, R217, R238: may a write to another device be applied there? Writes of one lane to one 256-byte line keep their order, those of
its wave's engine that an `mwait` has counted among them, an `mst` comes after what the wave stored to its bytes before it (07 R153), and at
the same bytes a lower lane of one atomic instruction comes first. -/
def remoteOk (s : State) (r : RemoteW) : Bool :=
  !(isEngine r.lane && (s.mem.remoteW.any fun v => v.lane.wave == r.lane.wave && isLane v.lane && v.isq < r.isq &&
    overlap (.remote v.dev v.pa) v.bytes.length (.remote r.dev r.pa) r.bytes.length)) &&
  !((s.mem.remoteW.takeWhile (·.id != r.id)).any fun v => v.dev == r.dev && v.pa / 256 == r.pa / 256 && actsFor v.lane r.lane v.counted &&
    (r.lane.lane != 33 || v.cp == r.cp)) &&
  !(r.fn.isSome && (s.mem.remoteW.any fun v => v.fn.isSome && v.isq == r.isq && v.lane.wave == r.lane.wave && v.lane.lane < r.lane.lane &&
    overlap (.remote v.dev v.pa) v.bytes.length (.remote r.dev r.pa) r.bytes.length))

/-- The bytes of a write stand at the other device, with their place in the coherence order and their poison (R208, R216). -/
def putRemote (s : State) (r : RemoteW) (new : List Byte) : State :=
  let m := s.mem
  let n := new.length
  let k := remKey r.dev r.pa
  let seq := m.clk + 1
  let old := (List.range n).map fun i => kvGet (0 : Byte) (k + i) m.remote
  let new := match r.mask with | some q => mergeBytes old new q | none => new
  let p := if r.mask.isNone then psnAfter m.remotePsn k n else m.remotePsn
  let m := { m with
    remote := (new.zipIdx).foldl (fun t (e : Byte × Nat) => kvPut 0 (k + e.2) e.1 t) m.remote
    rseq := (List.range n).foldl (fun t i => kvPut 0 (k + i) seq t) m.rseq
    remotePsn := if r.psn then (markPsn ⟨[], p⟩ k n).psn else p
    clk := m.clk + 1 }
  let m := { m with
    wlog := logOf (4 + r.dev) s.mem.clk (fun a => remAt s r.dev a none) (fun a => remAt { s with mem := m } r.dev a none) (wordBytes r.pa n) ++ m.wlog }
  let m := raiseRem m ⟨r.lane.wave, 32⟩ seq r.dev r.pa n
  { s with mem := (⟨r.lane, r.isq, r.counted⟩ :: r.readers).foldl (raiseBy (some r.dev) seq r.pa n) m }

/-- A write to another device is applied at its home there (R229). -/
def remoteMove (s : State) (r : RemoteW) : State :=
  let n := r.bytes.length
  let k := remKey r.dev r.pa
  let s := { s with mem := { s.mem with remoteW := s.mem.remoteW.filter (·.id != r.id) } }
  -- R224: who observes the copy that wrote them reads them in no older X copy
  let s := if r.lane.lane = 33 then dropX s (some (dieOfCore r.core)) r.dev r.pa n else s
  match r.fn with
  | none => putRemote s r r.bytes
  | some fn =>
    let old := (List.range n).map fun i => kvGet (0 : Byte) (k + i) s.mem.remote
    let p := (List.range n).any fun i => s.mem.remotePsn.contains ((k + i) / 8)
    let s := match if p then none else atomNew fn old with | some new => putRemote s r new | none => s
    -- R364: the bit of a block that ended is lost
    let s := if p && r.lane == bmpKey r.lane.wave then setLaunchFlag s r.lane.wave 14 else s
    atomGot s r.act (old, p) true

def completeS (s : State) (p : Nat) : Option State :=
  match s.mem.acts.find? (·.id == p) with
  | some a =>
    match a.kind with
    | .fence k sc wait =>
      if fenceOk s a k sc wait then
        let s := { s with mem := { s.mem with acts := s.mem.acts.filter (·.id != a.id) } }
        some (if k == .rel then s else discardFor s a.core sc)
      else none
    | .take v =>
      if vLe v (vecOf s (dieOfCore a.core)) then
        some (discardFor { s with mem := { s.mem with acts := s.mem.acts.filter (·.id != a.id) } } a.core .device)
      else none
    | .cache k rs dies n => cacheMove s a k rs dies n
    | _ => none
  | none =>
    match s.mem.remoteW.find? (·.id == p) with
    | some r => if remoteOk s r then some (remoteMove s r) else none
    | none => none

def execCompleteMove (p : Nat) (s : State) : Out := move s (completeS s p)

end Sys2Proof.Machine
end

