-- ==== Sys2Proof/Machine/MemIsa.lean ====
section
/-! DEFINITION. Loads and stores, plain and page-decoded (11 R230 to R236). -/

namespace Sys2Proof.Machine

/-- Bytes of an access of a type with its SZ (R232). -/
def accBytes (ty : IntTy) (sz : Sz) : Nat :=
  match sz with | .b8 => 1 | .b16 => 2 | .full => if ty.wide then 8 else 4

/-- Does a read bypass L1 (`.nl1`, 09 R196)? -/
def skipsL1 (k : ActKind) : Bool := match k with | .read _ nl1 => nl1 | _ => false

/-- A load of one unit or more for each lane: checks, window, reads. -/
def loadLanes (x : Ctx) (s : State) (la : BitVec 4) (sp : Space) (al n : Nat) (a : Reg) (off : Word) (d : Reg) (words : Nat)
    (kind : ActKind) (post : Post) : Res :=
  let r := checkLanes x sp .read al n (laneAddr x.w sp a off) (lanesOf x.act) s
  let q := isqOf (if skipsL1 kind then r.2.2 else askL1 r.2.2 x.w.core (r.1.map fun k => (k.loc, n)))
  let o := openWin q.2 x.c la { gd := some (d.toNat, words) } (laneMask r.1) false
  laneEnd (issueReads o.2 x.w q.1 o.1 kind (r.1.map fun k => (k.lane, unitsOf k.loc n, post))) r.2.1

def execLd (g : Guard) (la : BitVec 4) (o : LdOp) (s : State) : Out :=
  runLane false g s fun x s =>
    let n := accBytes o.ty o.sz
    loadLanes x s la o.sp n n o.a o.off o.d (wid o.ty.wide) (.read o.acq o.nl1) (.ld o.ty o.sz)

def execLdq (g : Guard) (la : BitVec 4) (o : LdqOp) (s : State) : Out :=
  runLane false g s fun x s => loadLanes x s la o.sp 16 16 o.a o.off o.d 4 (.read none o.nl1) .ldq

/-- A store of `n` bytes for each lane. -/
def storeLanes (x : Ctx) (s : State) (sp : Space) (n : Nat) (a : Reg) (off : Word) (rel : Option Scope) (v : Nat → Nat) : Res :=
  let r := checkLanes x sp .write n n (laneAddr x.w sp a off) (lanesOf x.act) s
  let q := isqOf (askL1 r.2.2 x.w.core (r.1.map fun k => (k.loc, n)))
  let ws := trimWrites (r.1.map fun k => ⟨k.lane, k.loc, leBytes (v k.lane) n, List.replicate n 0xFF⟩)
  laneEnd (issueWrites q.2 x.w q.1 rel false ws) r.2.1

def execSt (g : Guard) (o : StOp) (s : State) : Out :=
  runLane false g s fun x s =>
    storeLanes x s o.sp (accBytes o.ty o.sz) o.a o.off o.rel fun l => (srcC x.w o.ty.wide o.b l).toNat

def quadNat (w : Wave) (r l : Nat) : Nat :=
  (gDWord w r l).toNat + (gDWord w (r + 2) l).toNat * 2 ^ 64

def execStq (g : Guard) (o : StqOp) (s : State) : Out :=
  runLane false g s fun x s => storeLanes x s o.sp 16 o.a o.off none (quadNat x.w o.b.toNat)

/-! ### Page elements (R234 to R236) -/

/-- The element number at a page offset, where that is a boundary of the format (R234). -/
def elemAt (fmt geom off : Nat) : Option Nat :=
  match fmt with
  | 1 | 2 => if off % 2 = 0 then some (off / 2) else none
  | 3 => some off
  | 4 => if off % (geomLen geom / 2) = 0 then some (2 * off) else none
  | 5 => if off % 3 = 0 then some (4 * (off / 3)) else none
  | _ => none

/-- A lane's run of elements: its lane, the page, and the first element. -/
structure ElemRun where
  lane : Nat
  /-- the first byte of the page -/
  page : Loc
  pte : Pte
  first : Nat
  n : Nat
  deriving DecidableEq, Repr, Inhabited

def Loc.back (l : Loc) (i : Nat) : Loc :=
  match l with
  | .gm a => .gm (a - i)
  | .remote d a => .remote d (a - i)
  | .spad b a => .spad b (a - i)
  | .lpriv b a => .lpriv b (a - i)
  | .dspad u d a => .dspad u d (a - i)

/-- R234, R121: translation, format, boundary and range. -/
def elemRun (k : LaneLoc) (idx n : Nat) : Except Flt ElemRun :=
  let x := k.xl.getD default
  let off := k.va % 2 ^ 57 - x.base
  let fmt := pteFmt x.pte
  let a := BitVec.ofNat 64 k.va
  if fmt = 0 || 6 ≤ fmt then .error ⟨k.lane, .fmtflt, a⟩
  else
    match elemAt fmt (pteGeom x.pte) off with
    | none => .error ⟨k.lane, .align, a⟩
    | some e0 =>
      if e0 + idx + n ≤ pageElems fmt x.size then .ok ⟨k.lane, k.loc.back off, x.pte, e0 + idx, n⟩
      else .error ⟨k.lane, .align, a⟩

def splitRuns (f : LaneLoc → Except Flt ElemRun) : List LaneLoc → List ElemRun × List Flt
  | [] => ([], [])
  | k :: r =>
    let y := splitRuns f r
    match f k with
    | .ok e => (e :: y.1, y.2)
    | .error e => (y.1, e :: y.2)

/-- The runs of the active lanes of `ldf` and `stf`. -/
def elemRuns (x : Ctx) (s : State) (acc : Acc) (a : Reg) (off : Word) (c : SrcC) (n : Nat) :
    List ElemRun × List Flt × State :=
  let r := checkLanes x .gm acc 1 1 (laneAddr x.w .gm a off) (lanesOf x.act) s
  let y := splitRuns (fun k => elemRun k (srcC x.w false c k.lane).toNat n) r.1
  (y.1, r.2.1 ++ y.2, r.2.2)

/-- The bytes of a page that a run is decoded from: first byte and count (R235; log 18). -/
def runBytes (fmt geom e n : Nat) : Nat × Nat :=
  match fmt with
  | 1 | 2 => (2 * e, 2 * n)
  | 3 => (e, n)
  | 5 => let b := 3 * (e / 4); (b, 3 * ((e + n - 1) / 4) + 3 - b)
  | _ =>
    let len := geomLen geom
    let b := e / len * len
    let last := e + n - 1
    let top := min (last + 2) ((last / len + 1) * len - 1)
    (b / 2, top / 2 + 1 - b / 2)

/-- The bytes of its page that a lane's run touches. -/
def ElemRun.bytes (e : ElemRun) : Loc × Nat :=
  let b := runBytes (pteFmt e.pte) (pteGeom e.pte) e.first e.n
  (e.page.off b.1, b.2)

def execLdf (g : Guard) (la : BitVec 4) (o : LdfOp) (s : State) : Out :=
  runLane false g s fun x s =>
    let r := elemRuns x s .read o.a o.off o.c o.cnt.n
    let q := isqOf (if o.nl1 then r.2.2 else askL1 r.2.2 x.w.core (r.1.map ElemRun.bytes))
    let w := openWin q.2 x.c la { gd := some (o.d.toNat, o.cnt.n) } (maskOf fun i => r.1.any (·.lane == i)) false
    let acts := r.1.map fun e =>
      let fmt := pteFmt e.pte
      let b := runBytes fmt (pteGeom e.pte) e.first e.n
      (e.lane, unitsOf (e.page.off b.1) b.2,
        Post.ldf e.first e.n fmt (pteGeom e.pte) (BitVec.ofNat 16 (pteScale e.pte)) b.1)
    laneEnd (issueReads w.2 x.w q.1 w.1 (.read none o.nl1) acts) r.2.1

/-- The bytes and mask of one element of a format other than Q4X, and where it lies in its page (R113, R119). -/
def elemWrite (fmt e p : Nat) : Nat × List Byte × List Byte :=
  match fmt with
  | 1 | 2 => (2 * e, leBytes p 2, [0xFF, 0xFF])
  | 3 => (e, leBytes p 1, [0xFF])
  | _ =>
    let lo := 6 * (e % 4)
    let b := lo / 8
    let n := (lo + 5) / 8 + 1 - b
    (3 * (e / 4) + b, leBytes (p * 2 ^ (lo % 8)) n, leBytes (63 * 2 ^ (lo % 8)) n)

/-- `stf` of one lane in a format other than Q4X (R117). -/
def stfLane (w : Wave) (rm : Rm) (b : Reg) (e : ElemRun) : List LaneW :=
  let fmt := pteFmt e.pte
  (List.range e.n).map fun j =>
    let v := gWord w (b.toNat + j) e.lane
    let p := if badScale (pteScale e.pte) then 0 else encodeEl fmt rm v.toNat (pteScale e.pte)
    let y := elemWrite fmt (e.first + j) p
    ⟨e.lane, e.page.off y.1, y.2.1, y.2.2⟩

/-! `stf` on Q4X pages (R236). -/

/-- The blocks a run touches: their numbers in its page. -/
def blocksOf (e : ElemRun) : List Nat :=
  let len := geomLen (pteGeom e.pte)
  (List.range ((e.first + e.n - 1) / len + 1 - e.first / len)).map (· + e.first / len)

def samePage (a b : ElemRun) : Bool := a.page == b.page && a.pte == b.pte

/-- Is a block of a run's page covered by the runs of a list? -/
def blockCovered (rs : List ElemRun) (e : ElemRun) (b : Nat) : Bool :=
  let len := geomLen (pteGeom e.pte)
  (List.range len).all fun i => rs.any fun r => samePage r e && r.first ≤ b * len + i && b * len + i < r.first + r.n

/-- The lanes left when those whose run reaches an uncovered block are taken out, again and again. -/
def coveredRuns : Nat → List ElemRun → List ElemRun
  | 0, rs => rs
  | f + 1, rs =>
    let t := rs.filter fun e => (blocksOf e).all (blockCovered rs e)
    if t.length = rs.length then rs else coveredRuns f t

/-- The blocks to write: page, entry and number of each, once. -/
def coveredBlocks (rs : List ElemRun) : List (Loc × Pte × Nat) :=
  (rs.flatMap fun e => (blocksOf e).map fun b => (e.page, e.pte, b)).eraseDups

/-- The highest lane of a list whose run names an element. -/
def namer (rs : List ElemRun) (page : Loc) (pte : Pte) (e : Nat) : Option ElemRun :=
  (rs.filter fun r => r.page == page && r.pte == pte && r.first ≤ e && e < r.first + r.n).getLast?

/-- The bytes of a pattern list, two patterns to a byte. -/
def nibbles : List Nat → List Byte
  | a :: b :: r => BitVec.ofNat 8 (a + 16 * b) :: nibbles r
  | [a] => [BitVec.ofNat 8 a]
  | [] => []

/-- The writes of one block: each byte is the write of the highest lane that names one of its positions. -/
def blockWrites (w : Wave) (rm : Rm) (b : Reg) (rs : List ElemRun) (k : Loc × Pte × Nat) : List LaneW :=
  let len := geomLen (pteGeom k.2.1)
  let e0 := k.2.2 * len
  let val := fun e => match namer rs k.1 k.2.1 e with
    | some r => (gWord w (b.toNat + (e - r.first)) r.lane).toNat
    | none => 0
  let pats := if badScale (pteScale k.2.1) then List.replicate len 0
    else q4xEncode rm (pteScale k.2.1) len ((List.range len).map fun i => val (e0 + i))
  let lane := fun e => match namer rs k.1 k.2.1 e with | some r => r.lane | none => 0
  let owner := fun i => max (lane (e0 + 2 * i)) (lane (e0 + 2 * i + 1))
  (List.range 32).filterMap fun l =>
    let mask := (List.range (len / 2)).map fun i => if owner i = l then (0xFF : Byte) else 0
    if mask.all (· == 0) then none else some ⟨l, k.1.off (e0 / 2), nibbles pats, mask⟩

def execStf (g : Guard) (o : StfOp) (s : State) : Out :=
  runLane false g s fun x s =>
    let r := elemRuns x s .write o.a o.off o.c o.cnt.n
    let q4 := r.1.filter fun e => pteFmt e.pte == 4
    let plain := r.1.filter fun e => pteFmt e.pte != 4
    let q6 := plain.filter fun e => pteFmt e.pte == 5
    let rest := plain.filter fun e => pteFmt e.pte != 5
    let ok := coveredRuns 33 q4
    let bad := (q4.filter fun e => !ok.contains e).map fun e =>
      (⟨e.lane, .align, BitVec.ofNat 64 (laneAddr x.w .gm o.a o.off e.lane)⟩ : Flt)
    let q := isqOf (askL1 r.2.2 x.w.core ((ok ++ plain).map ElemRun.bytes))
    let s := setFmtErr q.2 x.c.wave ((ok ++ plain).any fun e => badScale (pteScale e.pte))
    let s := issueWrites s x.w q.1 none false (trimWrites (rest.flatMap (stfLane x.w o.rm o.b)))
    let s := issueWrites s x.w q.1 none true (trimWrites (q6.flatMap (stfLane x.w o.rm o.b)))
    let s := issueWrites s x.w q.1 none false ((coveredBlocks ok).flatMap (blockWrites x.w o.rm o.b ok))
    laneEnd s (r.2.1 ++ bad)

end Sys2Proof.Machine
end

