-- ==== Sys2Proof/Machine/Sync.lean ====
section
/-! DEFINITION. Level barriers, named barriers, semaphores and deadlines (10 R223, 21 R377 to R383). -/

namespace Sys2Proof.Machine

/-- Has every access that the split's lanes have issued reached what a release at `sc` asks (R219, R223)? -/
def splitReleased (s : State) (x : Ctx) (sc : Scope) : Bool :=
  (lanesOf (liveOf x.w x.p)).all fun l => releaseOk s ⟨x.w.uid, l⟩ s.nid sc

/-- A class 11 instruction: ILLOP in a handler split (08 R169). -/
def runSync (g : Guard) (s : State) (k : Ctx → State → Res) : Out :=
  runUni true g s fun x s => if x.p.kind == .handler then illop s x else k x s

/-- A predicate result in every lane of the split with `em` 1 (R377). -/
def putPred (s : State) (x : Ctx) (p : PReg) (b : Bool) : State :=
  updWave s x.c.wave fun w => setPm w p x.em (if b then allLanes else 0)

/-! ### Level barriers (R378, R379) -/

/-- The scope of a level (02 R35): `.block` at level 2. -/
def levelScope (lr : LaunchRec) (k : Nat) : Scope :=
  if k ≤ 2 then .block
  else match lr.levels[k - 3]? with
    | some e => match e.dom with | 0 => .block | 1 => .cluster | 2 => .die | _ => .device
    | none => .block

def levelDeclared (lr : LaunchRec) (k : Nat) : Bool := k = 2 || (3 ≤ k && k - 3 < lr.levels.length)

/-- Is a wave a member of the level-`k` instance of wave `x`? -/
def sameInstance (lr : LaunchRec) (s : State) (k : Nat) (x w : Wave) : Bool :=
  w.blk == x.blk ||
  (3 ≤ k && w.launch == x.launch && !w.hoop && !x.hoop &&
    match findBlock s x.blk, findBlock s w.blk with
    | some a, some b => a.bid / levelBlocks lr k == b.bid / levelBlocks lr k
    | _, _ => false)

/-- R379: does every split of the wave that holds a lane wait at a `bar` of level `k`? -/
def waveArrived (k : Nat) (w : Wave) : Bool := w.splits.all fun p => (liveOf w p == 0 && p.parked &&& ~~~w.exited == 0) || p.wait == .bar k

def barMembers (s : State) (x : Ctx) (k : Nat) : List Wave :=
  s.waves.filter fun w => sameInstance x.l.lr s k x.w w && w.exited != allLanes

/-- Saved blocks of the instance: their waves are members still, as they stood at the save (08 R185). -/
def savedMember (s : State) (x : Ctx) (k : Nat) (v : Saved) : Bool :=
  3 ≤ k && v.blk.launch == x.w.launch && !v.blk.hoop && !x.w.hoop &&
    match findBlock s x.w.blk with
    | some a => a.bid / levelBlocks x.l.lr k == v.blk.bid / levelBlocks x.l.lr k
    | none => false

/-- Has every wave of a saved block arrived? One that restarts has not. -/
def savedArrived (k : Nat) (v : Saved) : Bool := !v.restart && (v.waves.filter (·.exited != allLanes)).all (waveArrived k)

def goWave (k : Nat) (w : Wave) : Wave :=
  { w with splits := w.splits.map fun p => if p.wait == .bar k then { p with wait := .barGo } else p }

/-- The phase completes: every split that waits may leave. -/
def releaseBar (s : State) (x : Ctx) (k : Nat) : State :=
  let us := (barMembers s x k).map Wave.uid
  { s with
    waves := updAll (fun w => us.contains w.uid) (goWave k) s.waves
    saved := updAll (savedMember s x k) (fun v => { v with waves := v.waves.map (goWave k) }) s.saved }

def barRun (x : Ctx) (s : State) (k : Nat) : Res :=
  if !levelDeclared x.l.lr k then illop s x
  else
    let sc := levelScope x.l.lr k
    if x.p.wait == .barGo then .done (discardFor s x.w.core sc)
    else if x.p.wait != .bar k && !splitReleased s x sc then .wait s .order
    else
      -- R177: a resumed split that waits here merges as its arm split arrives
      let t := updWave s x.c.wave fun w => mergeWaiting (updSplitW w x.c.sid fun p => { p with wait := .bar k }) x.c.sid
      if (barMembers t x k).all (waveArrived k) && (t.saved.filter (savedMember t x k)).all (savedArrived k) then .done (discardFor (releaseBar t x k) x.w.core sc)
      else .wait s (.bar k)

def execBar (g : Guard) (lvl : BitVec 3) (s : State) : Out := runSync g s fun x s => barRun x s lvl.toNat

/-! ### Named barriers (R380, R381) -/

/-- The record at an address of the block's scratchpad: VALID, EXP, ARR, GEN. -/
structure BarRec where
  valid : Bool
  exp : Nat
  arr : Nat
  gen : Word
  deriving DecidableEq, Repr, Inhabited

/-- The record as 8-byte words, a poisoned one as R208's pattern. -/
def barBytes (b : Block) (a : Nat) : List Byte :=
  [a, a + 8].flatMap fun k => if anyPsn b.spad k 8 then leBytes (poisonOf 8) 8 else memBytes b.spad k 8

def readBar (b : Block) (a : Nat) : BarRec :=
  let v := leNat (barBytes b a)
  ⟨v.testBit 0, bits v 32 16, bits v 48 16, BitVec.ofNat 32 (bits v 96 32)⟩

def storeBytes (s : State) (blk a : Nat) (bs : List Byte) : State := storeChip s (.spad blk a) bs none

def setBarValid (s : State) (b : Block) (a : Nat) : State :=
  storeBytes s b.uid a [memByte b.spad a &&& 0xFE]
def setBarArr (s : State) (blk a n : Nat) : State := storeBytes s blk (a + 6) (leBytes n 2)
def setBarGen (s : State) (blk a : Nat) (n : Word) : State := storeBytes s blk (a + 12) (leBytes n.toNat 4)

/-- Splits of the block that wait at `a` and satisfy `f` on their token leave with the predicate given. -/
def releaseBarw (s : State) (blk a : Nat) (f : Word → Bool) (r : Bool) : State :=
  { s with waves := s.waves.map fun w =>
      if w.blk == blk then
        { w with splits := w.splits.map fun p =>
            match p.wait with
            | .barw b t | .barwAgain b t => if b == a && f t then { p with wait := .barwGo r } else p
            | _ => p }
      else w }

/-- One arrival (R381). -/
def arriveBar (s : State) (b : Block) (a : Nat) : State :=
  let r := readBar b a
  if r.exp ≤ r.arr + 1 then
    let g := r.gen + 1
    releaseBarw (setBarGen (setBarArr s b.uid a 0) b.uid a g) b.uid a (· != g) true
  else setBarArr s b.uid a (r.arr + 1)

/-- The hidden count WAIT. -/
def barWaiters (s : State) (blk a : Nat) : Nat :=
  (s.waves.filter (·.blk == blk)).foldl (fun n w =>
    n + (w.splits.filter fun p => match p.wait with | .barw b _ | .barwAgain b _ => b == a | _ => false).length) 0

/-- ILLOP of a named-barrier instruction, with the record's address (R381). -/
def barIllop (x : Ctx) (s : State) (a : Nat) : Res := trapAll s x .illop (BitVec.ofNat 64 a)

/-- Reading a poisoned record is recorded (09 R208). -/
def barPsn (x : Ctx) (s : State) (b : Block) (a : Nat) : State := if anyPsn b.spad a 16 then setLaunchFlag s x.w.launch 4 else s

/-- The checks that every named-barrier instruction makes first: alignment, then the allocation. Its record is then
read and written after the split's earlier stores to it (10 R217). -/
def barAt (x : Ctx) (s : State) (a : Nat) (k : Block → Res) : Res :=
  if a % 16 ≠ 0 then trapAll s x .align (BitVec.ofNat 64 a)
  else if x.l.lr.spad < a + 16 then trapAll s x .spadbnd (BitVec.ofNat 64 a)
  else
    match findBlock s x.w.blk with
    | none => barIllop x s a
    | some b =>
      if s.mem.wb.any fun w => w.lane.wave == x.w.uid && (liveOf x.w x.p).getLsbD w.lane.lane &&
          overlap w.loc w.bytes.length (.spad b.uid a) 16 then .wait s .order
      else k b

def barEntry (b : Block) (a : Nat) : Option BarEnt := b.bars.find? (·.addr == a)

def biniRun (x : Ctx) (s : State) (a n : Nat) : Res :=
  barAt x s a fun b =>
    if n = 0 || 65535 < n then barIllop x s a
    else if (barEntry b a).isNone && 16 ≤ b.bars.length then barIllop x s a
    else
      let busy := 0 < barWaiters s b.uid a || match barEntry b a with | some e => 0 < e.pend | none => false
      if busy then trapAll s x .barbusy (BitVec.ofNat 64 a)
      else
        let s := if (barEntry b a).isSome then s else updBlock s b.uid fun b => { b with bars := b.bars ++ [⟨a, 0⟩] }
        .done (storeBytes s b.uid a (leBytes (1 + n * 2 ^ 32) 16))

def execBini (g : Guard) (a : Reg) (b : SrcU) (s : State) : Out :=
  runSync g s fun x s => biniRun x s (sWord x.w a.toNat).toNat (srcU x.w b).toNat

def execBinv (g : Guard) (a : Reg) (s : State) : Out :=
  runSync g s fun x s =>
    let a := (sWord x.w a.toNat).toNat
    barAt x s a fun b =>
      if (barEntry b a).isNone then barIllop x s a
      else .done (releaseBarw (setBarValid s b a) b.uid a (fun _ => true) false)

def execBarar (g : Guard) (d a : Reg) (pr : PReg) (s : State) : Out :=
  runSync g s fun x s =>
    let a := (sWord x.w a.toNat).toNat
    barAt x s a fun b =>
      if (barEntry b a).isNone then barIllop x s a
      else if !splitReleased s x .block then .wait s .order
      else
        let r := readBar b a
        let s := barPsn x s b a
        let s := updWave s x.c.wave fun w => setS1 w d.toNat r.gen
        let s := if r.valid then arriveBar s b a else s
        .done (putPred s x pr r.valid)

/-- A `barw` reads its record, or waits at it. -/
def barwRead (x : Ctx) (s : State) (a : Nat) (tok : Word) (pr : PReg) : Res :=
  barAt x s a fun b =>
    if (barEntry b a).isNone then barIllop x s a
    else
      let r := readBar b a
      let s := barPsn x s b a
      if !r.valid then .done (putPred s x pr false)
      else if r.gen != tok then .done (putPred s x pr true)
      else .wait s (.barw a tok)

/-- `barw` with its token: what is released by then, else the record's state. After a restore it is issued again. -/
def barwRun (x : Ctx) (s : State) (a : Nat) (tok : Word) (pr : PReg) : Res :=
  match x.p.wait with
  | .barwGo r => .done (putPred s x pr r)
  | .barw b t => .wait s (.barw b t)
  | .barwAgain b t => barwRead x s b t pr
  | _ => barwRead x s a tok pr

def execBarw (g : Guard) (a : Reg) (b : SrcU) (pr : PReg) (s : State) : Out :=
  runSync g s fun x s => barwRun x s (sWord x.w a.toNat).toNat (srcU x.w b) pr

/-! ### Semaphores (R382) -/

def sem0 : Sem := ⟨0, none⟩
def semKey (core n : Nat) : Nat := clusterOfCore core * 256 + n
def semGet (s : State) (k : Nat) : Sem := kvGet sem0 k s.sems
def semPut (s : State) (k : Nat) (v : Sem) : State := { s with sems := kvPut sem0 k v s.sems }

/-- Add to a semaphore for a tenant; the increment is dropped where another tenant holds it. -/
def semAdd (s : State) (core n tenant : Nat) (v : Word) : State :=
  let k := semKey core n
  let m := semGet s k
  if m.tag.getD tenant = tenant then
    semPut s k ⟨BitVec.ofNat 32 (min (m.val.toNat + v.toNat) (2 ^ 32 - 1)), some tenant⟩
  else addCtr s (clusterReg core 0x120) 32 1

def execSinc (g : Guard) (n : Byte) (b : SrcU) (s : State) : Out :=
  runSync g s fun x s =>
    if !splitReleased s x .cluster then .wait s .order
    else .done (semAdd s x.w.core n.toNat x.l.lr.tenant (srcU x.w b))

/-- An older waiter on the semaphore whose threshold its value meets is tested first. -/
def olderWaiter (s : State) (core n since : Nat) (v : Word) : Bool :=
  s.waves.any fun w => clusterOfCore w.core == clusterOfCore core && w.splits.any fun p =>
    match p.wait with
    | .sem m t thr => m == n && t < since && thr.toNat ≤ v.toNat
    | _ => false

def swaitRun (x : Ctx) (s : State) (dec : Bool) (n : Nat) (t : Word) : Res :=
  let k := semKey x.w.core n
  let m := semGet s k
  if m.tag.getD x.l.lr.tenant ≠ x.l.lr.tenant then illop s x
  else
    let s := semPut s k ⟨m.val, some x.l.lr.tenant⟩
    let q := match x.p.wait with | .sem _ a _ => (a, s) | _ => fresh s
    if t.toNat ≤ m.val.toNat && (t == 0 || !olderWaiter s x.w.core n q.1 m.val) then
      let s := if dec then semPut q.2 k ⟨m.val - t, some x.l.lr.tenant⟩ else q.2
      .done (discardFor s x.w.core .cluster)
    else .wait q.2 (.sem n q.1 t)

def execSwait (g : Guard) (dec : Bool) (n : Byte) (b : SrcU) (s : State) : Out :=
  runSync g s fun x s => swaitRun x s dec n.toNat (srcU x.w b)

def execSset (g : Guard) (n : Byte) (b : SrcU) (s : State) : Out :=
  runSync g s fun x s =>
    let k := semKey x.w.core n.toNat
    let m := semGet s k
    if m.tag.getD x.l.lr.tenant ≠ x.l.lr.tenant then illop s x
    else .done (semPut s k ⟨srcU x.w b, some x.l.lr.tenant⟩)

/-! ### Deadlines (R383) -/

def execTmset (g : Guard) (rel : Bool) (b : SrcU) (s : State) : Out :=
  runSync g s fun x s =>
    let v := srcU64 x.w b
    .done (updWave s x.c.wave fun w => { w with wtdl := if rel && v != 0 then w.wcyc + v else v, timer := false, wnew := true })

end Sys2Proof.Machine
end

