-- ==== Sys2Proof/Machine/Streamer.lean ====
section
/-! DEFINITION. The streamer and the chutes of a block (10 R224, 11 R245 to R251, 14 R293 to R297). -/

namespace Sys2Proof.Machine

/-! ### Ranges as an engine reaches them -/

/-- The reason codes of 07 R151. -/
def reasonOf : Cause → Nat
  | .pgfault => 1 | .gprot => 2 | .fmtflt => 3 | .align => 4 | .spadbnd => 5 | _ => 0

/-- Where an engine acts for a block: its launch, the block, the core. -/
structure Eng where
  l : Launch
  b : Block
  core : Nat
  deriving DecidableEq, Repr, Inhabited

/-- A byte before the runs that follow it: one run where the next byte of its memory comes next, so that a write of a whole word is one
(09 R208). -/
def joinByte (k : Loc) : List (Loc × Nat) → List (Loc × Nat)
  | (l, n) :: r => if l == k.off 1 then (k, n + 1) :: r else (k, 1) :: (l, n) :: r
  | [] => [(k, 1)]

/-- Byte runs of an on-chip range. -/
def chipPieces (e : Eng) (s : State) (sp : Space) (a : Nat) : Nat → Except (Cause × Nat) (List (Loc × Nat))
  | 0 => .ok []
  | n + 1 =>
    match chipByte s e.l e.b e.core 0 0 sp a with
    | none => .error (.spadbnd, a)
    | some k =>
      if sp == .cl then
        match chipPieces e s sp (a + 1) n with
        | .ok r => .ok (joinByte k r)
        | .error x => .error x
      else
        match chipFirstBad s e.l e.b e.core sp a (n + 1) with
        | none => .ok [(k, n + 1)]
        | some x => .error (.spadbnd, x)

/-- Byte runs of a range of any space, or its first failure. -/
def pieces (e : Eng) (s : State) (sp : Space) (acc : Acc) (a n : Nat) : Except (Cause × Nat) (List (Loc × Nat)) × State :=
  if sp == .gm then
    match xlateRangeWith true e.l.lr.tenant e.l.lr.root acc (n / 4096 + 2) a n s with
    | (.ok ps, s) => (.ok (ps.map fun p => (p.1.loc, p.2)), s)
    | (.error x, s) => (.error x, s)
  else (chipPieces e s sp (a % 2 ^ 32) n, s)

/-- A byte and whether it lies in a poisoned word. -/
abbrev PByte := Byte × Bool

/-- Of the buffered writes to a byte, those that an engine may see or not, chosen for each: what it leaves out. -/
def hideSome (free : Wb → Bool) (l : Loc) : List Wb → State → List Nat × State
  | [], s => ([], s)
  | w :: r, s =>
    if wbCovers w l && free w then
      let c := choose 2 s
      let y := hideSome free l r c.2
      (if c.1 = 1 then w.id :: y.1 else y.1, y.2)
    else hideSome free l r s

/-- Bytes as an engine reads them, past L1 (10 R215, 07 R152, R153, R248). -/
def engineBytes (r : Reader) (free : Wb → Bool) (l : Loc) : Nat → State → List PByte × State
  | 0, s => ([], s)
  | n + 1, s =>
    let k := hideSome free l s.mem.wb s
    let x := readByte { r with skip := k.1 } k.2 l
    let v := x.1.getD ⟨0, false, [], 0, none⟩
    let y := engineBytes r free (l.off 1) n (noteByte r x.2 l v)
    ((v.val, v.psn) :: y.1, y.2)

/-- Is every unit that a run of bytes reads from up (23 R394)? -/
def runUp (s : State) (p : Loc × Nat) : Bool := (List.range (p.2 / 256 + 2)).all fun i => locUp s (p.1.off (min (256 * i) (p.2 - 1)))
def piecesUp (s : State) (ps : List (Loc × Nat)) : Bool := ps.all (runUp s)

/-- The bytes of units, from place `i` on: those an engine has read before, and the others now. -/
def readUnits (r : Reader) (free : Wb → Bool) (got : Kv (List PByte)) : Nat → List (Loc × Nat) → State → List PByte × State
  | _, [], s => ([], s)
  | i, (l, n) :: us, s =>
    let old := kvGet [] i got
    let x := if old.length = n then (old, s) else engineBytes r free l n s
    let y := readUnits r free got (i + 1) us x.2
    (x.1 ++ y.1, y.2)

/-- The writes of an engine enter the write buffer, a unit at a time. -/
def writeUnits (lane : LaneKey) (core isq src : Nat) : List (Loc × Nat) → List PByte → State → State
  | [], _, s => s
  | (l, n) :: r, bs, s =>
    let u := bs.take n
    writeUnits lane core isq src r (bs.drop n)
      (putWb s lane core isq false (some src) none l (u.map Prod.fst) none (u.any Prod.snd))

/-- Is a buffered write of a copy that has not completed? -/
def openCopy (s : State) (w : Wb) : Bool :=
  w.lane.lane == 33 && match w.src with | some c => (s.blocks.flatMap Block.copies).any (·.id == c) | none => false

/-- R248: a byte that two running copies write ends with the value of either, so a unit of the one that meets a unit of the other is
written byte by byte. -/
def apart (s : State) (self : Nat) (us : List (Loc × Nat)) : List (Loc × Nat) :=
  us.flatMap fun u =>
    if s.mem.wb.any fun w => w.state == .pending && w.src != some self && overlap w.loc w.bytes.length u.1 u.2 && openCopy s w
    then (List.range u.2).map fun i => (u.1.off i, 1) else [u]

/-- Bytes with the pattern of R208 in fields of the given widths of which a byte is poisoned, and whether one was. -/
def fieldBytes : List Nat → List PByte → List Byte × Bool
  | [], _ => ([], false)
  | n :: r, bs =>
    let u := bs.take n
    let y := fieldBytes r (bs.drop n)
    if u.any Prod.snd then (leBytes (poisonOf n) n ++ y.1, true) else (u.map Prod.fst ++ y.1, y.2)

/-- Fields of a block's scratchpad as the block's core sees them. -/
def spadFields (s : State) (b : Block) (a : Nat) (ws : List Nat) : List Byte × Bool :=
  fieldBytes ws (engineBytes (coreReader b.core) (fun _ => false) (.spad b.uid a) ws.sum s).1

/-! ### Chutes (R293) -/

structure ChHdr where
  nslot : Nat
  slotsz : Nat
  wr : Word
  rd : Word
  deriving DecidableEq, Repr, Inhabited

def hdrOf (bs : List Byte) : ChHdr :=
  let v := leNat bs
  ⟨bits v 0 32, bits v 32 32, BitVec.ofNat 32 (bits v 64 32), BitVec.ofNat 32 (bits v 96 32)⟩

/-- The header of a chute, and whether it holds a poisoned word. -/
def chRead (s : State) (b : Block) (a : Nat) : ChHdr × Bool := let r := spadFields s b a [4, 4, 4, 4]; (hdrOf r.1, r.2)
def chHdr (s : State) (b : Block) (a : Nat) : ChHdr := (chRead s b a).1

def findChute (b : Block) (a : Nat) : Option Chute := b.chutes.find? (·.addr == a)

def setChWr (s : State) (blk a : Nat) (v : Word) : State := storeBytes s blk (a + 8) (leBytes v.toNat 4)
def setChRd (s : State) (blk a : Nat) (v : Word) : State := storeBytes s blk (a + 12) (leBytes v.toNat 4)

/-- The address of slot `k`. -/
def slotAddr (h : ChHdr) (a : Nat) (k : Word) : Nat := a + 16 + (k.toNat % h.nslot) * h.slotsz

/-- The split's earlier stores to bytes of the scratchpad have yet to be stored (10 R217). -/
def spadPending (s : State) (x : Ctx) (a n : Nat) : Bool :=
  s.mem.wb.any fun w => w.lane.wave == x.w.uid && (liveOf x.w x.p).getLsbD w.lane.lane &&
    overlap w.loc w.bytes.length (.spad x.w.blk a) n

/-- R295. -/
def chiniRun (x : Ctx) (s : State) (a n sz : Nat) : Res :=
  match findBlock s x.w.blk with
  | none => illop s x
  | some b =>
    if a % 16 ≠ 0 then trapAll s x .align (BitVec.ofNat 64 a)
    else if n = 0 || 4096 < n || sz < 16 || 65536 < sz || sz % 16 ≠ 0 then illop s x
    else if x.l.lr.spad < a + 16 + n * sz then trapAll s x .spadbnd (BitVec.ofNat 64 (max a x.l.lr.spad))
    else if spadPending s x a 16 then .wait s .order
    else
      let bad := match findChute b a with
        | some c => c.cl != (chHdr s b a).wr
        | none => decide (16 ≤ b.chutes.length)
      if bad then illop s x
      else
        let s := updBlock s b.uid fun b => { b with chutes := b.chutes.filter (·.addr != a) ++ [⟨a, 0, []⟩] }
        .done (storeBytes s b.uid a (leBytes (n + sz * 2 ^ 32) 16))

def execChini (g : Guard) (a : Reg) (b : SrcU) (c : Reg) (s : State) : Out :=
  runUni false g s fun x s => chiniRun x s (sWord x.w a.toNat).toNat (srcU x.w b).toNat (sWord x.w c.toNat).toNat

/-- The checks of `chwait` and `chrel`, as for a plain access to the header. -/
def chuteAt (x : Ctx) (s : State) (a : Nat) (k : State → Block → ChHdr → Res) : Res :=
  match findBlock s x.w.blk with
  | none => illop s x
  | some b =>
    if a % 16 ≠ 0 then trapAll s x .align (BitVec.ofNat 64 a)
    else if x.l.lr.spad < a + 16 then trapAll s x .spadbnd (BitVec.ofNat 64 (max a x.l.lr.spad))
    else if spadPending s x a 16 then .wait s .order
    else let h := chRead s b a; k (setMemPsn s x.w.launch h.2) b h.1

def execChwait (g : Guard) (d a : Reg) (b : SrcU) (s : State) : Out :=
  runUni true g s fun x s =>
    let a := (sWord x.w a.toNat).toNat
    let n := (srcU x.w b).toNat
    chuteAt x s a fun s _ h =>
      if h.nslot < n then illop s x
      else if (h.wr - h.rd).toNat < n then .wait s .chute
      else .done (updWave s x.c.wave fun w => setS1 w d.toNat (BitVec.ofNat 32 (slotAddr h a h.rd)))

def execChrel (g : Guard) (a : Reg) (b : SrcU) (s : State) : Out :=
  runUni false g s fun x s =>
    let a := (sWord x.w a.toNat).toNat
    let n := srcU x.w b
    chuteAt x s a fun s blk h =>
      if (h.wr - h.rd).toNat < n.toNat then illop s x
      else if !splitReleased s x .block then .wait s .order
      else .done (if n = 0 then s else setChRd s blk.uid a (h.rd + n))

/-! ### Issue of a copy (R245 to R247) -/

def cwKind (c : Word) : Nat := bits c.toNat 30 2
def cwTarget (c : Word) : Nat := bits c.toNat 0 19

/-- May a completion word be used with a copy of `n` bytes to `dst` (R247, R296, R380)? DESIGN CHOICE (log 118): it is the value of the destination's
low word that must be 0 for a chute. -/
def cwOk (s : State) (b : Block) (c : Word) (dsp : Space) (dst n : Nat) : Bool :=
  bits c.toNat 19 11 == 0 &&
  match cwKind c with
  | 0 => true
  | 1 => cwTarget c < 256
  | 2 => cwTarget c % 16 == 0 && dst % 2 ^ 32 == 0 && dsp == .sp && (findChute b (cwTarget c)).isSome &&
      decide (n ≤ (chHdr s b (cwTarget c)).slotsz)
  | _ => (barEntry b (cwTarget c)).isSome

/-- R246: streamer issue rights. -/
def hasRights (x : Ctx) : Bool := x.l.lr.producer != 0xFF && x.w.waveid.toNat == x.l.lr.producer

/-- The first byte of an on-chip range that lies outside its space; a range of `.gm` is checked when the copy runs. -/
def rangeBad (e : Eng) (s : State) (sp : Space) (a n : Nat) : Option Nat :=
  if sp == .gm then none else chipFirstBad s e.l e.b e.core sp (a % 2 ^ 32) n

def firstSome : List (Option Nat) → Option Nat
  | [] => none
  | some x :: _ => some x
  | none :: r => firstSome r

/-- The completion word's own ranges. DESIGN CHOICE (log 118): a chute's header and all its slots, as it stands at issue, since which slot a copy will
take is not known then. -/
def cwBad (e : Eng) (s : State) (c : Word) : Option Nat :=
  match cwKind c with
  | 2 =>
    let h := chHdr s e.b (cwTarget c)
    rangeBad e s .sp (cwTarget c) (16 + h.nslot * h.slotsz)
  | 3 => rangeBad e s .sp (cwTarget c) 16
  | _ => none

/-- An accepted copy enters the block's queue. -/
def enqueueCopy (s : State) (x : Ctx) (b : Block) (k : CopyKind) (dsp ssp : Space) (dst src : DWord) (len idx : Nat) (c : Word) :
    State :=
  let q := fresh s
  let i := fresh q.2
  let n : Copy := ⟨i.1, x.w.uid, x.em, k, dsp, ssp, dst, src, len, idx, c, q.1, false, false, none, [], none⟩
  updBlock i.2 b.uid fun b => { b with
    copies := b.copies ++ [n]
    bars := if cwKind c = 3 then b.bars.map fun e => if e.addr == cwTarget c then { e with pend := e.pend + 1 } else e else b.bars }

def engOf (x : Ctx) (b : Block) : Eng := ⟨x.l, b, x.w.core⟩

/-- The four checks of R246 in their order. `n`: bytes written; `ops`: the operand ranges of step 4. -/
def issueCopy (x : Ctx) (s : State) (lenOk : Bool) (misal : Option Nat) (k : CopyKind) (dsp ssp : Space) (dst src : DWord)
    (n len idx : Nat) (c : Word) (ops : Eng → List (Option Nat)) : Res :=
  match findBlock s x.w.blk with
  | none => illop s x
  | some b =>
    let e := engOf x b
    if !hasRights x then trapAll s x .strmperm 0
    else if !lenOk || !cwOk s b c dsp dst.toNat n then illop s x
    else
      match misal with
      | some a => trapAll s x .align (BitVec.ofNat 64 a)
      | none =>
        match firstSome (ops e ++ [cwBad e s c]) with
        | some a => trapAll s x .spadbnd (BitVec.ofNat 64 a)
        | none => .done (enqueueCopy s x b k dsp ssp dst src len idx c)

/-- The destination range, which a chute's slot replaces. -/
def dstBad (e : Eng) (s : State) (c : Word) (dsp : Space) (dst : DWord) (n : Nat) : Option Nat :=
  if cwKind c = 2 then none else rangeBad e s dsp dst.toNat n

def execCpy (g : Guard) (o : CpyOp) (s : State) : Out :=
  runUni false g s fun x s =>
    let len := (srcU x.w o.len).toNat
    let n := if o.conv == .dec then 4 * len else len
    let m := if o.conv == .enc then 4 * len else len
    let dst := sDWord x.w o.d.toNat
    let src := sDWord x.w o.a.toNat
    let c := sWord x.w o.c.toNat
    issueCopy x s (len ≤ 2 ^ 24) none (.cpy o.conv) o.dsp o.ssp dst src n len 0 c fun e =>
      [dstBad e s c o.dsp dst n, rangeBad e s o.ssp src.toNat m]

/-! `cpyw` (R250). -/

/-- The widths of a layout record's fields. -/
def winFields : List Nat := [2, 2, 2, 2, 2, 1, 1, 1, 1, 1, 1, 1, 1, 2, 4, 4, 4]

structure WinRec where
  row0 : Int
  col0 : Int
  h : Nat
  w : Nat
  nc : Nat
  eb : Nat
  wr : Nat
  wc : Nat
  rs : Nat
  cs : Nat
  dr : Int
  dc : Int
  pitch : Nat
  pad : Nat
  ok : Bool
  deriving DecidableEq, Repr, Inhabited

def winRec (bs : List Byte) : WinRec :=
  let v := leNat bs
  let f := fun o n => bits v (8 * o) (8 * n)
  let h := f 4 2
  let w := f 6 2
  let nc := f 8 2
  let eb := f 10 1
  let wr := f 12 1
  let wc := f 13 1
  let rs := f 14 1
  let cs := f 15 1
  ⟨sx 16 (f 0 2), sx 16 (f 2 2), h, w, nc, eb, wr, wc, rs, cs, sx 8 (f 16 1), sx 8 (f 17 1), f 20 4, f 24 4,
    1 ≤ h && 1 ≤ w && 1 ≤ nc && nc ≤ 4096 && (eb == 1 || eb == 2 || eb == 4) && 1 ≤ wr && wr ≤ 64 && 1 ≤ wc && wc ≤ 64 &&
    1 ≤ rs && 1 ≤ cs && f 11 1 == 0 && f 18 2 == 0 && f 28 4 == 0⟩

def WinRec.bytes (r : WinRec) : Nat := r.wr * r.wc * r.nc * r.eb

/-- The image row and column of position `p`. -/
def WinRec.at (r : WinRec) (p : Nat) : Option (Nat × Nat) :=
  let y := r.row0 + (p / r.wc : Nat) * r.rs + r.dr
  let c := r.col0 + (p % r.wc : Nat) * r.cs + r.dc
  if 0 ≤ y && y < r.h && 0 ≤ c && c < r.w then some (y.toNat, c.toNat) else none

/-- The source runs of a window in order: none where a position is padding. -/
def WinRec.rows (r : WinRec) : List (Option Nat) :=
  (List.range (r.wr * r.wc)).map fun p => (r.at p).map fun q => q.1 * r.pitch + q.2 * r.nc * r.eb

def addrIn (sp : Space) (a : DWord) (off : Nat) : Nat :=
  if sp == .gm then (a.toNat + off) % 2 ^ 64 else (a.toNat + off) % 2 ^ 32

def execCpyw (g : Guard) (o : CpywOp) (s : State) : Out :=
  runUni false g s fun x s =>
    let ra := (sWord x.w o.b.toNat).toNat
    let dst := sDWord x.w o.d.toNat
    let src := sDWord x.w o.a.toNat
    let c := sWord x.w o.c.toNat
    let inside := ra + 32 ≤ x.l.lr.spad
    let rd := match findBlock s x.w.blk with
      | some b => if inside then spadFields s b ra winFields else ([], false)
      | none => ([], false)
    let hdr := rd.1
    let s := setMemPsn s x.w.launch rd.2
    let r := winRec hdr
    let n := if inside then r.bytes else 0
    issueCopy x s (!inside || r.ok) (if ra % 32 = 0 then none else some ra) (.cpyw hdr) .sp o.ssp dst src n n 0 c fun e =>
      [if inside then dstBad e s c .sp dst n else none,
       if inside then firstSome (r.rows.map fun q => match q with
          | some off => rangeBad e s o.ssp (addrIn o.ssp src off) (r.nc * r.eb)
          | none => none) else none,
       rangeBad e s .sp ra 32]

/-! `gath` and `scat` (R251). -/

/-- Index `k` of an index list. -/
def idxAt (bs : List Byte) (k : Nat) : Nat := leNat ((bs.drop (4 * k)).take 4)

/-- A base that is not a multiple of min(es, 16). -/
def baseBad (sp : Space) (a : DWord) (es : Nat) : Option Nat :=
  let v := addrIn sp a 0
  if v % min es 16 = 0 then none else some v

def execGath (g : Guard) (o : GathOp) (s : State) : Out :=
  runUni false g s fun x s =>
    let es := 4 * 2 ^ o.es.toNat
    let n := o.n.toNat
    let dst := sDWord x.w o.d.toNat
    let src := sDWord x.w o.a.toNat
    let ia := (sWord x.w o.b.toNat).toNat
    let c := sWord x.w o.c.toNat
    issueCopy x s true (firstSome [baseBad o.dsp dst es, baseBad o.ssp src es]) (.gath n es) o.dsp o.ssp dst src (n * es) (n * es)
      ia c fun e => [dstBad e s c o.dsp dst (n * es), rangeBad e s .sp ia (4 * n)]

def execScat (g : Guard) (o : GathOp) (s : State) : Out :=
  runUni false g s fun x s =>
    let es := 4 * 2 ^ o.es.toNat
    let n := o.n.toNat
    let dst := sDWord x.w o.d.toNat
    let src := sDWord x.w o.a.toNat
    let ia := (sWord x.w o.b.toNat).toNat
    let c := sWord x.w o.c.toNat
    let chip := o.dsp != .gm && ia + 4 * n ≤ x.l.lr.spad
    let rd := match findBlock s x.w.blk with
      | some b => if chip then some (spadFields s b ia (List.replicate n 4)) else none
      | none => none
    let ix := rd.map Prod.fst
    let s := setMemPsn s x.w.launch (rd.any Prod.snd)
    let ext := match ix with
      | some bs => if cwKind c = 2 then (List.range n).foldl (fun a k => max a ((idxAt bs k + 1) * es)) 0 else n * es
      | none => n * es
    issueCopy x s true (firstSome [baseBad o.dsp dst es, baseBad o.ssp src es]) (.scat n es ix) o.dsp o.ssp dst src ext (n * es)
      ia c fun e =>
        [match ix with
          | some bs => if cwKind c = 2 then none
            else firstSome ((List.range n).map fun k => rangeBad e s o.dsp (addrIn o.dsp dst (idxAt bs k * es)) es)
          | none => none,
         rangeBad e s o.ssp src.toNat (n * es), rangeBad e s .sp ia (4 * n)]

/-! ### The start of a copy (R246, R296) -/

def copyStartS (s : State) (blk : Nat) : Option State :=
  match findBlock s blk with
  | none => none
  | some b =>
    match b.copies.find? fun c => !c.running with
    | none => none
    | some c =>
      if 64 ≤ (b.copies.filter (·.running)).length then none
      else
        let start := fun (slot : Option Word) (b : Block) =>
          { b with copies := updFirst (·.id == c.id) (fun k => { k with running := true, slot := slot }) b.copies }
        if cwKind c.word = 2 then
          match findChute b (cwTarget c.word) with
          | none => some (updBlock s blk (start none))
          | some t =>
            let h := chHdr s b t.addr
            if (t.cl - h.rd).toNat = h.nslot then none
            else some (updBlock s blk fun b =>
              let b := start (some t.cl) b
              { b with chutes := b.chutes.map fun u => if u.addr == t.addr then { u with cl := u.cl + 1 } else u })
        else some (updBlock s blk (start none))

def execCopyStart (blk : Nat) (s : State) : Out := move s (copyStartS s blk)

/-! ### What a copy moves -/

/-- R234, R249: the pages of `n` elements from an element boundary on. -/
def elSegs (e : Eng) (acc : Acc) : Nat → Nat → Nat → State → Except (Cause × Nat) (List ElSeg) × State
  | 0, _, _, s => (.ok [], s)
  | f + 1, va, n, s =>
    if n = 0 then (.ok [], s)
    else
      match xlateWith true s e.l.lr.tenant e.l.lr.root va acc with
      | (.error c, s) => (.error (c, va), s)
      | (.ok x, s) =>
        let fmt := pteFmt x.pte
        let off := va % 2 ^ 57 - x.base
        if fmt = 0 || 6 ≤ fmt then (.error (.fmtflt, va), s)
        else
          match elemAt fmt (pteGeom x.pte) off with
          | none => (.error (.align, va), s)
          | some e0 =>
            let k := min n (pageElems fmt x.size - e0)
            match elSegs e acc f ((va + (x.size - off)) % 2 ^ 64) (n - k) s with
            | (.error c, s) => (.error c, s)
            | (.ok r, s) => (.ok (⟨x.loc.back off, x.pte, e0, k⟩ :: r), s)

/-- The byte run that a segment's elements are read from. -/
def segRun (g : ElSeg) : Loc × Nat :=
  let b := runBytes (pteFmt g.pte) (pteGeom g.pte) g.e0 g.n
  (g.page.off b.1, b.2)

/-- The decoded `.f32` values of segments from their bytes, and whether FMTERR is set (R116). -/
def decSegs : List ElSeg → List PByte → List Nat × Bool
  | [], _ => ([], false)
  | g :: r, bs =>
    let fmt := pteFmt g.pte
    let b := runBytes fmt (pteGeom g.pte) g.e0 g.n
    let v := decodeRun g.e0 g.n fmt (pteGeom g.pte) (pteScale g.pte) b.1 ((bs.take b.2).map fun p => if p.2 then none else some p.1)
    let y := decSegs r (bs.drop b.2)
    (v.1 ++ y.1, v.2 || y.2)

/-- One write of an encoded element or block. -/
structure EncW where
  loc : Loc
  bytes : List Byte
  mask : List Byte
  deriving DecidableEq, Repr, Inhabited

/-- The writes that encode values into a segment (R117 to R119); none where a Q4X run does not cover whole blocks. -/
def encSeg (g : ElSeg) (vals : List Nat) : Option (List EncW) :=
  let fmt := pteFmt g.pte
  let bad := badScale (pteScale g.pte)
  if fmt = 4 then
    let len := geomLen (pteGeom g.pte)
    if g.e0 % len ≠ 0 || g.n % len ≠ 0 then none
    else some ((List.range (g.n / len)).map fun j =>
      let pats := if bad then List.replicate len 0 else q4xEncode .rne (pteScale g.pte) len ((vals.drop (j * len)).take len)
      ⟨g.page.off ((g.e0 + j * len) / 2), nibbles pats, List.replicate (len / 2) 0xFF⟩)
  else some ((List.range g.n).map fun j =>
    let p := if bad then 0 else encodeEl fmt .rne (vals.getD j 0) (pteScale g.pte)
    let y := elemWrite fmt (g.e0 + j) p
    ⟨g.page.off y.1, y.2.1, y.2.2⟩)

def encSegs : List ElSeg → List Nat → Option (List EncW)
  | [], _ => some []
  | g :: r, vals =>
    match encSeg g vals, encSegs r (vals.drop g.n) with
    | some a, some b => some (a ++ b)
    | _, _ => none

/-- The writes of an encoding. An element that does not fill its bytes stays one unit (05 R119). -/
def putEnc (lane : LaneKey) (core isq src : Nat) : List EncW → State → State
  | [], s => s
  | w :: r, s =>
    let us := if w.mask.all (· == 0xFF) then apart s src (unitsOf w.loc w.bytes.length) else elemUnits s w.loc w.bytes.length
    putEnc lane core isq src r (putRun s lane core isq false (some src) none us w.bytes w.mask)

/-- The bytes that such writes write: one that two elements share counts once (21 R374). -/
def encBytes : List EncW → Nat
  | [] => 0
  | [w] => w.bytes.length
  | w :: v :: r => w.bytes.length - (if v.loc == w.loc.off (w.bytes.length - 1) then 1 else 0) + encBytes (v :: r)

/-- What a copy comes to: its writes in the write buffer, with the flags it raises and the bytes it writes, or the reason and
address that fail it; `none` while a unit it reads is not up (23 R394). -/
structure Moved where
  s : State
  fmtErr : Bool
  psn : Bool
  wrote : Nat

/-- The destination address, or that of the chute slot claimed. -/
def copyDst (s : State) (b : Block) (c : Copy) : DWord :=
  match c.slot with
  | some k => BitVec.ofNat 64 (slotAddr (chHdr s b (cwTarget c.word)) (cwTarget c.word) k)
  | none => c.dst

/-- The bytes of runs enter the write buffer. -/
def putAll (e : Eng) (c : Copy) (ps : List (Loc × Nat)) (bs : List PByte) (s : State) : State :=
  writeUnits (copyKey c.wave) e.core c.isq c.id (apart s c.id (runUnits ps)) bs s

def f32Bytes (vs : List Nat) : List PByte := vs.flatMap fun v => (leBytes v 4).map fun b => (b, false)

/-- Little-endian words of a byte list; a word of which a byte is poisoned reads as the pattern (R208). -/
def words32 : List PByte → List Nat
  | a :: b :: c :: d :: r =>
    (if a.2 || b.2 || c.2 || d.2 then poisonOf 4 else leNat [a.1, b.1, c.1, d.1]) :: words32 r
  | _ => []

/-- Pieces of several ranges, in order. -/
def manyPieces (e : Eng) (sp : Space) (acc : Acc) (n : Nat) : List Nat → State → Except (Cause × Nat) (List (Loc × Nat)) × State
  | [], s => (.ok [], s)
  | a :: r, s =>
    match pieces e s sp acc a n with
    | (.error x, s) => (.error x, s)
    | (.ok p, s) =>
      match manyPieces e sp acc n r s with
      | (.error x, s) => (.error x, s)
      | (.ok q, s) => (.ok (p ++ q), s)

/-- The index list that a running copy reads (R251). -/
def idxUnits (e : Eng) (c : Copy) : List (Loc × Nat) :=
  match c.kind with
  | .gath n _ => unitsOf (.spad e.b.uid c.idx) (4 * n)
  | .scat n _ none => unitsOf (.spad e.b.uid c.idx) (4 * n)
  | _ => []

/-- The indices of a copy, where its issue read them or from what it has read since. -/
def idxWords (c : Copy) (bs : List PByte) : List Nat :=
  match c.kind with
  | .scat n _ (some ix) => (List.range n).map (idxAt ix)
  | _ => words32 bs

/-- What a copy reads: byte runs, and for decoded ones the elements they hold. -/
structure CopySrc where
  runs : List (Loc × Nat)
  segs : List ElSeg
  deriving DecidableEq, Repr, Inhabited

def toSrc (r : Except (Cause × Nat) (List (Loc × Nat)) × State) : Except (Cause × Nat) CopySrc × State :=
  match r with
  | (.error x, s) => (.error x, s)
  | (.ok ps, s) => (.ok ⟨ps, []⟩, s)

/-- The source of a copy, translated (R248); an element run keeps the entry with which its first unit was read (09 R205). -/
def copySrc (e : Eng) (c : Copy) (ix : List Nat) (s : State) : Except (Cause × Nat) CopySrc × State :=
  match c.kind with
  | .cpy .raw => toSrc (pieces e s c.ssp .read c.src.toNat c.len)
  | .cpy .enc => toSrc (pieces e s c.ssp .read c.src.toNat (4 * c.len))
  | .cpy .dec =>
    match c.segs with
    | some gs => (.ok ⟨gs.map segRun, gs⟩, s)
    | none =>
      match elSegs e .read (c.len / 1024 + 4) c.src.toNat c.len s with
      | (.error x, s) => (.error x, s)
      | (.ok gs, s) => let gs := gs.filter fun g => g.n != 0; (.ok ⟨gs.map segRun, gs⟩, s)
  | .cpyw hdr =>
    let r := winRec hdr
    toSrc (manyPieces e c.ssp .read (r.nc * r.eb) (r.rows.filterMap fun q => q.map (addrIn c.ssp c.src)) s)
  | .gath _ es => toSrc (manyPieces e c.ssp .read es (ix.map fun i => addrIn c.ssp c.src (i * es)) s)
  | .scat n es _ => toSrc (pieces e s c.ssp .read c.src.toNat (n * es))

/-- How a copy reads: no lane's order binds it, and what an unfinished copy writes it sees or not (R248). -/
def copyReader (e : Eng) (c : Copy) : Reader := { coreReader e.core with note := some ⟨copyKey c.wave, c.isq, true⟩ }
def copyFree (s : State) (c : Copy) (w : Wb) : Bool := w.src != some c.id && openCopy s w

/-- The bytes of a window: image runs of `n` bytes where they lie inside, padding elsewhere. -/
def winBytes (r : WinRec) : List (Option Nat) → List PByte → List PByte
  | none :: q, bs => ((List.range r.nc).flatMap fun _ => (leBytes r.pad r.eb).map fun b => (b, false)) ++ winBytes r q bs
  | some _ :: q, bs => bs.take (r.nc * r.eb) ++ winBytes r q (bs.drop (r.nc * r.eb))
  | [], _ => []

/-- The writes of a copy that has read `bs`, or the failure of its destination. R249 names no address for a Q4X run that does not cover whole
blocks: it is reported at the start of the destination (DESIGN CHOICE, log 110). -/
def copyWrite (e : Eng) (c : Copy) (ix : List Nat) (k : CopySrc) (dst : DWord) (s : State)
    (bs : State → List PByte × State) : Except (Option (Nat × Nat)) Moved × State :=
  let err := fun (x : Cause × Nat) => (Except.error (some (reasonOf x.1, x.2)) : Except (Option (Nat × Nat)) Moved)
  -- bytes to runs of the destination, once its pages have passed
  let raw := fun (dp : Except (Cause × Nat) (List (Loc × Nat)) × State) (f : List PByte → List PByte × Bool) =>
    match dp with
    | (.error x, s) => (err x, s)
    | (.ok dp, s) =>
      if !piecesUp s k.runs then (.error none, s)
      else
        let b := bs s
        let v := f b.1
        (.ok ⟨putAll e c dp v.1 b.2, v.2, b.1.any Prod.snd, v.1.length⟩, b.2)
  match c.kind with
  | .cpy .raw => raw (pieces e s c.dsp .write dst.toNat c.len) fun b => (b, false)
  | .cpy .dec => raw (pieces e s c.dsp .write dst.toNat (4 * c.len)) fun b => let v := decSegs k.segs b; (f32Bytes v.1, v.2)
  | .cpyw hdr =>
    let r := winRec hdr
    raw (pieces e s .sp .write dst.toNat r.bytes) fun b => (winBytes r r.rows b, false)
  | .gath n es => raw (pieces e s c.dsp .write dst.toNat (n * es)) fun b => (b, false)
  | .scat _ es _ => raw (manyPieces e c.dsp .write es (ix.map fun i => addrIn c.dsp dst (i * es)) s) fun b => (b, false)
  | .cpy .enc =>
    match elSegs e .write (c.len / 1024 + 4) dst.toNat c.len s with
    | (.error x, s) => (err x, s)
    | (.ok gs, s) =>
      if !piecesUp s k.runs then (.error none, s)
      else
        let b := bs s
        match encSegs gs (words32 b.1) with
        | none => (err (.align, dst.toNat), b.2)
        | some ws =>
          (.ok ⟨putEnc (copyKey c.wave) e.core c.isq c.id ws b.2, gs.any (fun g => g.n != 0 && badScale (pteScale g.pte)),
            b.1.any Prod.snd, encBytes ws⟩, b.2)

/-- The whole of a copy's work: what it has not read yet is read, and it writes. -/
def runCopy (e : Eng) (c : Copy) (s : State) : Except (Option (Nat × Nat)) Moved × State :=
  let us := idxUnits e c
  let i := readUnits (copyReader e c) (copyFree s c) c.got 0 us s
  let ix := idxWords c i.1
  match copySrc e c ix i.2 with
  | (.error x, s) => (.error (some (reasonOf x.1, x.2)), s)
  | (.ok k, s) =>
    match copyWrite e c ix k (copyDst s e.b c) s (readUnits (copyReader e c) (copyFree s c) c.got us.length (runUnits k.runs)) with
    | (.ok m, s) => (.ok { m with psn := m.psn || i.1.any Prod.snd }, s)
    | r => r

/-! ### The two moves of a running copy (R224, R247, R248) -/

/-- R224: the issuing lanes' earlier accesses are done at `.block`, and no acquire or fence of theirs before the copy is pending
(R220, R221). -/
def copyReady (s : State) (c : Copy) : Bool :=
  (lanesOf c.lanes).all fun l => !readPending s ⟨c.wave, l⟩ c.isq && !acqBlocked s ⟨c.wave, l⟩ c.isq

/-- Is the copy a collective (R251)? -/
def collective (l : Launch) (c : Copy) : Bool :=
  let t := match c.kind with
    | .gath _ _ => if c.ssp == .gm then some c.src.toNat else none
    | .scat _ _ _ => if c.dsp == .gm then some c.dst.toNat else none
    | _ => none
  match t with
  | some a => l.lr.redLen != 0 && l.lr.redBase ≤ a && a < l.lr.redBase + l.lr.redLen
  | none => false

/-- The byte runs of a range, page by page, but for those that do not translate. -/
def readable (e : Eng) : Nat → Nat → Nat → State → List (Loc × Nat)
  | 0, _, _, _ => []
  | f + 1, va, n, s =>
    if n = 0 then []
    else
      match xlateWith true s e.l.lr.tenant e.l.lr.root va .read with
      | (.error _, s) => let k := min n (4096 - va % 4096); readable e f ((va + k) % 2 ^ 64) (n - k) s
      | (.ok x, s) => let k := min n (x.base + x.size - va % 2 ^ 57); (x.loc, k) :: readable e f ((va + k) % 2 ^ 64) (n - k) s

/-- The reduction buffer's bytes. -/
def bufPieces (s : State) (e : Eng) : List (Loc × Nat) := readable e (e.l.lr.redLen / 4096 + 2) e.l.lr.redBase e.l.lr.redLen s

/-- Did an access of the issuing lanes before the copy touch the collective's buffer: one of their own, or one of their wave's engine that an
`mwait` has counted? -/
def collMine (c : Copy) (ps : List (Loc × Nat)) (k : RdBy) (l : Loc) (n : Nat) : Bool :=
  k.isq < c.isq && ((lanesOf c.lanes).any fun i => actsFor k.lane ⟨c.wave, i⟩ k.counted) && ps.any fun p => overlap p.1 p.2 l n

/-- The copy has drained its writes, those to another device having arrived there. Those of one that signals a semaphore, which releases at
`.cluster` (21 R382), have been applied on the die. A collective's, and what its lanes wrote to the buffer before it or have read of it
from the write buffer (R219), have reached every die and device. -/
def copyDrained (s : State) (e : Eng) (c : Copy) : Bool :=
  if collective e.l c then
    let ps := bufPieces s e
    let mine := fun (k : RdBy) (rs : List RdBy) (src : Option Nat) (l : Loc) (n : Nat) =>
      (k.lane == copyKey c.wave && src == some c.id) || (k :: rs).any fun k => collMine c ps k l n
    !(s.mem.wb.any fun w => mine w.own w.readers w.src w.loc w.bytes.length) &&
    !(s.mem.apply.any fun m => mine ⟨m.lane, m.isq, m.counted⟩ [] m.cp (.gm m.pa) m.bytes.length) &&
    !(s.mem.remoteW.any fun r => mine ⟨r.lane, r.isq, r.counted⟩ r.readers r.cp (.remote r.dev r.pa) r.bytes.length)
  else
    !(s.mem.wb.any fun w => w.src == some c.id && w.lane == copyKey c.wave && (w.state == .pending || cwKind c.word == 1)) &&
    !(s.mem.remoteW.any fun r => r.cp == some c.id && r.lane == copyKey c.wave)

/-- WR passes every filled slot that follows it. -/
def advanceWr : Nat → Word → List Word → Word × List Word
  | 0, w, f => (w, f)
  | n + 1, w, f => if f.contains w then advanceWr n (w + 1) (f.filter (· != w)) else (w, f)

/-- The completion is signalled (R247). -/
def signalCopy (s : State) (l : Launch) (b : Block) (c : Copy) : State :=
  let s := updBlock s b.uid fun b => { b with copies := b.copies.filter (·.id != c.id) }
  let t := cwTarget c.word
  match cwKind c.word with
  | 1 => semAdd s b.core t l.lr.tenant 1
  | 2 =>
    match findChute b t, c.slot with
    | some u, some k =>
      let r := advanceWr (u.filled.length + 1) (chHdr s b t).wr (u.filled ++ [k])
      let s := updBlock s b.uid fun b => { b with
        chutes := b.chutes.map fun v => if v.addr == t then { v with filled := r.2 } else v }
      setChWr s b.uid t r.1
    | _, _ => s
  | 3 =>
    let s := updBlock s b.uid fun b => { b with
      bars := b.bars.map fun e => if e.addr == t then { e with pend := e.pend - 1 } else e }
    if (readBar b t).valid then arriveBar s b t
    else setStrmFlt (addCtr s (clusterReg b.core 0x100) 32 1) l.uid 6 (BitVec.ofNat 64 t)
  | _ => s

def updCopy (s : State) (blk c : Nat) (f : Copy → Copy) : State :=
  updBlock s blk fun b => { b with copies := updFirst (·.id == c) f b.copies }

def copyRunS (s : State) (l : Launch) (b : Block) (c : Copy) : Option State :=
  let done := fun (s : State) => updCopy s b.uid c.id fun c => { c with wrote := true, got := [] }
  match runCopy ⟨l, b, b.core⟩ c s with
  | (.error none, _) => none
  | (.error (some x), s) => some (done (setStrmFlt s l.uid x.1 (BitVec.ofNat 64 x.2)))
  | (.ok m, _) =>
    let s := setMemPsn (setFmtErr m.s c.wave m.fmtErr) l.uid m.psn
    some <| done (addPerf s b.core 6 m.wrote)

/-- A running copy reads one unit of its index list or of its source, before the move that reads the rest and writes. -/
def copyReadS (s : State) (blk copy unit : Nat) : Option State :=
  match findBlock s blk with
  | none => none
  | some b =>
    match findLaunch s b.launch, b.copies.find? (·.id == copy) with
    | some l, some c =>
      if !c.running || c.wrote || !copyReady s c || !(kvGet [] unit c.got).isEmpty then none
      else
        let e : Eng := ⟨l, b, b.core⟩
        let ix := idxUnits e c
        let take := fun (s : State) (u : Loc × Nat) =>
          if !runUp s u then none
          else
            let x := engineBytes (copyReader e c) (copyFree s c) u.1 u.2 s
            some (updCopy x.2 blk copy fun c => { c with got := kvPut [] unit x.1 c.got })
        match ix[unit]? with
        | some u => take s u
        | none =>
          -- the index list comes first
          if (List.range ix.length).any fun i => (kvGet [] i c.got).isEmpty then none
          else
            match copySrc e c (idxWords c (readUnits (copyReader e c) (copyFree s c) c.got 0 ix s).1) s with
            | (.error _, _) => none
            | (.ok k, s) =>
              (runUnits k.runs)[unit - ix.length]?.bind
                (take (updCopy s blk copy fun c => { c with segs := if c.kind == .cpy .dec then some k.segs else none }))
    | _, _ => none

/-- R224: a collective's end is an acquire of the launch's reduction buffer on the core. -/
def acquireBuf (s : State) (e : Eng) : State :=
  (bufPieces s e).foldl (fun s p =>
      match p.1 with
      | .gm pa => { s with mem := { s.mem with l1 := s.mem.l1.filter fun c =>
          !(l1Key e.core pa ≤ c.1 && c.1 < l1Key e.core pa + p.2) } }
      | .remote dev pa => dropX s (some (dieOfCore e.core)) dev pa p.2
      | _ => s) s

def copyCompleteS (s : State) (blk copy : Nat) : Option State :=
  match findBlock s blk with
  | none => none
  | some b =>
    match findLaunch s b.launch, b.copies.find? (·.id == copy) with
    | some l, some c =>
      if !c.running then none
      else if !c.wrote then (if copyReady s c then copyRunS s l b c else none)
      else if !copyDrained s ⟨l, b, b.core⟩ c then none
      else
        some (signalCopy (if collective l c then acquireBuf s ⟨l, b, b.core⟩ else s) l b c)
    | _, _ => none

def execCopyComplete (blk copy : Nat) (s : State) : Out := move s (copyCompleteS s blk copy)

end Sys2Proof.Machine
end

