-- ==== Sys2Proof/Machine/Matrix.lean ====
section
/-! DEFINITION. The matrix engine: tiles, operand rows, exact summation, batches and their faults (07). -/

namespace Sys2Proof.Machine

/-! ### Issue (R147 to R149, R158) -/

/-- Operations of the open set. -/
def openOps (w : Wave) : List MxOp := w.mxOps.filter fun o => o.batch.isNone

/-- A row address of a lane (R149). -/
def rowAddr (w : Wave) (spc : Bool) (r : Reg) (off : DWord) (l : Nat) : DWord :=
  if spc then (gWord w r.toNat l + lo32 off).setWidth 64 else gDWord w r.toNat l + off

def noRows : Lanes DWord := .replicate 32 0

/-- An engine operation joins the open set (R158). -/
def issueMx (x : Ctx) (s : State) (k : MxKind) (t : Reg) (af : Af) (spc : Option Sf) (a b : Lanes DWord) : Res :=
  if 256 ≤ (openOps x.w).length then illop s x
  else
    let i := fresh s
    let q := fresh i.2
    let o : MxOp := ⟨i.1, k, t.toNat, af, spc, x.em, a, b, q.1, none, .queued, 0, 0, noRows, none, [], none⟩
    .done (updWave q.2 x.c.wave fun w => { w with mxOps := w.mxOps ++ [o] })

def rowsOf (x : Ctx) (spc : Bool) (r : Reg) (off : DWord) : Lanes DWord := Vector.ofFn fun i : Fin 32 => rowAddr x.w spc r off i.val

def execMma (g : Guard) (_la : BitVec 4) (o : MmaOp) (s : State) : Out :=
  runUni false g s fun x s =>
    issueMx x s .mma o.t .f32 o.spc (rowsOf x o.spc.isSome o.a (o.offA.signExtend 64)) (rowsOf x o.spc.isSome o.b (o.offB.signExtend 64))

def execMlut (g : Guard) (_la : BitVec 4) (o : MmaOp) (s : State) : Out :=
  runUni false g s fun x s =>
    issueMx x s .mlut o.t .f32 o.spc (rowsOf x o.spc.isSome o.a (o.offA.signExtend 64)) (rowsOf x o.spc.isSome o.b (o.offB.signExtend 64))

def execMzero (g : Guard) (_la : BitVec 4) (t : Reg) (af : Af) (s : State) : Out :=
  runUni false g s fun x s => issueMx x s .mzero t af none noRows noRows

def execMld (g : Guard) (_la : BitVec 4) (o : MldOp) (s : State) : Out :=
  runUni false g s fun x s =>
    issueMx x s .mld o.t o.af (if o.spc then some .bf16 else none) (rowsOf x o.spc o.a (o.off.signExtend 64)) noRows

def execMst (g : Guard) (_la : BitVec 4) (o : MstOp) (s : State) : Out :=
  runUni false g s fun x s =>
    issueMx x s .mst o.t .f32 (if o.spc then some .bf16 else none) (rowsOf x o.spc o.a (o.off.signExtend 64)) noRows

/-! ### Batches (R158 to R161) -/

def opOf (w : Wave) (i : Nat) : Option MxOp := w.mxOps.find? (·.id == i)

/-- Every operation of a batch has completed: its operations are gone. -/
def batchDone (w : Wave) (b : MxBatch) : Bool := b.ops.all fun i => match opOf w i with | some o => o.st == .done | none => true

def batchSettled (w : Wave) (b : MxBatch) : Bool :=
  b.ops.all fun i => match opOf w i with | some o => o.st != .queued | none => true

def batchAborted (w : Wave) (b : MxBatch) : Bool :=
  b.ops.any fun i => match opOf w i with | some o => o.st == .aborted | none => false

inductive BatchSt | complete | faulted | pending
  deriving DecidableEq, Repr, Inhabited

/-- R159, over the closed batches in number order: are all before complete, are all before complete or faulted? -/
def batchStates (w : Wave) : Bool → Bool → List MxBatch → List (MxBatch × BatchSt)
  | _, _, [] => []
  | allC, ok, b :: r =>
    let st := if allC && batchDone w b then BatchSt.complete
      else if ok && batchSettled w b && batchAborted w b then .faulted
      else .pending
    (b, st) :: batchStates w (allC && st == .complete) (ok && st != .pending) r

def batchList (w : Wave) : List (MxBatch × BatchSt) := batchStates w true true w.mxBatches

/-- The latest closed batch with a number, those up to it, and its state. -/
def namedBatch (w : Wave) (n : Byte) : Option (MxBatch × BatchSt) := ((batchList w).filter fun e => e.1.num == n).getLast?

def execMfence (g : Guard) (la : BitVec 4) (d : Reg) (s : State) : Out :=
  runUni false g s fun x s =>
    if 16 ≤ ((batchList x.w).filter fun e => e.2 != .complete && !e.1.dropped).length then .wait s .batchRoom
    else
      let n := x.w.mxCtr
      let b : MxBatch := ⟨x.w.mxSerial, n, (openOps x.w).length, (openOps x.w).map MxOp.id, s.nid, false⟩
      let s := updWave s x.c.wave fun w => { w with
        mxOps := (w.mxOps.map fun o => if o.batch.isNone then { o with batch := some w.mxSerial } else o).filter fun o => o.st != .done
        mxBatches := (w.mxBatches.filter fun b => b.num != n || !batchDone w b) ++ [b]
        mxCtr := n + 1
        mxSerial := w.mxSerial + 1 }
      .done (openDone s x.c la { sd := some (d.toNat, 1) } [] [n.setWidth 32])

/-- R153: the accesses of batches up to `b` count as the wave's, issued before this point. -/
def countWrites (s : State) (u : Nat) (b : MxBatch) : State :=
  let mine := fun (k : LaneKey) (src : Option Nat) => k.wave == u && isEngine k && match src with | some i => decide (i < b.upto) | none => false
  let m := s.mem
  -- R216: what they have read or made binds every lane of the wave from here on
  let old := fun (e : EngSeen) => e.wave == u && decide (e.op < b.upto)
  let m := (m.eng.filter old).foldl (fun m e => raiseBy e.dev e.seq e.pa 1 m ⟨⟨u, 64⟩, e.op, true⟩) { m with eng := m.eng.filter fun e => !old e }
  { s with mem := { m with
      wb := m.wb.map fun e => { e with
        counted := e.counted || mine e.lane e.src
        readers := e.readers.map fun r => { r with counted := r.counted || mine r.lane (some r.isq) } }
      chan := m.chan.map fun e => { e with counted := e.counted || mine e.lane e.cp }
      apply := m.apply.map fun e => { e with counted := e.counted || mine e.lane e.cp }
      remoteW := m.remoteW.map fun e => { e with
        counted := e.counted || mine e.lane e.cp
        readers := e.readers.map fun r => { r with counted := r.counted || mine r.lane (some r.isq) } } } }

/-- The oldest faulted batch up to `b`, and its first aborted operation with its index. -/
def oldestFault (w : Wave) (b : MxBatch) : Option (MxBatch × Nat × MxOp) :=
  match (batchList w).find? fun e => e.2 == .faulted && e.1.serial ≤ b.serial with
  | none => none
  | some (f, _) =>
    let i := f.ops.findIdx fun i => match opOf w i with | some o => o.st == .aborted | none => false
    match f.ops[i]? with
    | none => none
    | some k => (opOf w k).map fun o => (f, i, o)

/-- The status word (R161). -/
def mxStatus (n : Byte) : Option (MxBatch × Nat × MxOp) → Word × Mask
  | none => (BitVec.ofNat 32 (n.toNat * 256), 0)
  | some (b, i, o) => (BitVec.ofNat 32 (2 ^ 31 + o.reason * 2 ^ 28 + b.num.toNat * 256 + i), o.bad)

def execMwait (g : Guard) (st : Option Reg) (a : Reg) (s : State) : Out :=
  runUni true g s fun x s =>
    let n := (sWord x.w a.toNat).setWidth 8
    let put := fun (s : State) (v : Word × Mask) => match st with
      | some d => updWave s x.c.wave fun w => setSs w d.toNat [v.1, v.2]
      | none => s
    match namedBatch x.w n with
    | none => .done (put s (mxStatus n none))
    | some (_, .pending) => .wait s .batch
    | some (b, _) =>
      let f := oldestFault x.w b
      match f, st with
      | some (_, _, o), none => .trap s ((lanesOf x.em).map fun l => ⟨l, .mxflt, laneGet o.addr 0 l⟩) .mxflt
      | _, _ => .done (put (countWrites s x.w.uid b) (mxStatus n f))

/-- R162: the aborted operations of a faulted batch go, or run again; the operations held on their tiles run. A replay runs the aborted ones
in issue order and then the held ones: from `n` on they are numbered so. -/
def releaseOps (w : Wave) (b : MxBatch) (drop : Bool) (n : Nat) : Wave :=
  let hit := fun o : MxOp => o.st == .aborted && b.ops.contains o.id
  let ts := (w.mxOps.filter hit).map MxOp.t
  let freed := fun o : MxOp => o.st == .held && ts.contains o.t
  let order := ((w.mxOps.filter hit) ++ w.mxOps.filter freed).map MxOp.id
  { w with mxOps := (if drop then w.mxOps.filter fun o => !hit o else w.mxOps).map fun o =>
      if hit o || freed o then { o with st := .queued, rep := if drop then o.rep else some (n + order.idxOf o.id) } else o }

/-- R158: whether a batch counts as dropped. -/
def dropBatch (w : Wave) (serial : Nat) (d : Bool) : Wave :=
  { w with mxBatches := updAll (·.serial == serial) (fun b => { b with dropped := d }) w.mxBatches }

def execMrep (g : Guard) (drop : Bool) (a : Reg) (s : State) : Out :=
  runUni false g s fun x s =>
    match namedBatch x.w ((sWord x.w a.toNat).setWidth 8) with
    | some (b, .faulted) =>
      let n := s.nid
      .done (updWave { s with nid := n + x.w.mxOps.length } x.c.wave fun w => dropBatch (releaseOps w b drop n) b.serial drop)
    | _ => .done s

def execMflg (g : Guard) (d : Reg) (s : State) : Out :=
  runUni false g s fun x s =>
    let v := x.w.accInf.toNat + 2 * x.w.accSat.toNat + 4 * x.w.fmtErr.toNat
    .done (updWave s x.c.wave fun w => { setS1 w d.toNat (BitVec.ofNat 32 v) with accInf := false, accSat := false, fmtErr := false })

/-! ### Rows (R150, R151, R156, R157) -/

def sfFmt : Sf → Nat | .bf16 => 2 | .f16 => 1 | .f8e4 => 3
def rowBytes : Nat → Nat | 3 => 32 | 4 => 16 | 5 => 24 | _ => 64

/-- The scale 1.0 as a `.bf16` pattern. -/
def oneBf : Nat := 0x3F80

/-- An operand row of `mma`, or the A row of `mlut` (R150, R151). -/
def checkRow (e : Eng) (s : State) (spc : Option Sf) (lutA : Bool) (lane a : Nat) : Except Cause MxRow × State :=
  match spc with
  | some f =>
    let fmt := sfFmt f
    let n := rowBytes fmt
    if a % n ≠ 0 then (.error .align, s)
    else if e.l.lr.spad < a + n then (.error .spadbnd, s)
    else (.ok ⟨lane, [(.spad e.b.uid a, n)], fmt, 0, oneBf, 0, 0⟩, s)
  | none =>
    match xlateWith true s e.l.lr.tenant e.l.lr.root a .read with
    | (.error c, s) => (.error c, s)
    | (.ok x, s) =>
      let fmt := pteFmt x.pte
      let off := a % 2 ^ 57 - x.base
      let geom := pteGeom x.pte
      if fmt = 0 || 6 ≤ fmt || (lutA && fmt != 2) then (.error .fmtflt, s)
      else
        let e0 := match fmt with | 1 | 2 => off / 2 | 3 => off | 4 => 2 * off | _ => 4 * (off / 3)
        let ok := if fmt = 5 then off % 3 == 0 && e0 + 32 ≤ pageElems 5 x.size else off % rowBytes fmt == 0
        if !ok then (.error .align, s)
        else
          let b := runBytes fmt geom e0 32
          (.ok ⟨lane, [((x.loc.back off).off b.1, b.2)], fmt, geom, pteScale x.pte, e0, b.1⟩, s)

/-- A raw row of `n` bytes, which may cross a page (R156, R157). -/
def checkRaw (e : Eng) (s : State) (spc : Bool) (acc : Acc) (lane a n : Nat) : Except Cause MxRow × State :=
  if spc then
    if a % 16 ≠ 0 then (.error .align, s)
    else if e.l.lr.spad < a + n then (.error .spadbnd, s)
    else (.ok ⟨lane, [(.spad e.b.uid a, n)], 0, 0, 0, 0, 0⟩, s)
  else
    match xlateRangeWith true e.l.lr.tenant e.l.lr.root acc 3 a n s with
    | (.error (c, va), s) =>
      -- a later page may fail for a reason of lower code (R151)
      if c == .gprot && va = a then
        match xlateWith true s e.l.lr.tenant e.l.lr.root ((a + n - 1) % 2 ^ 64) acc with
        | (.error d, s) => (.error (if reasonOf d < reasonOf c then d else c), s)
        | (.ok _, s) => (.error c, s)
      else (.error c, s)
    | (.ok ps, s) => if a % 16 ≠ 0 then (.error .align, s) else (.ok ⟨lane, ps.map fun p => (p.1.loc, p.2), 0, 0, 0, 0, 0⟩, s)

/-- A failing row: its lane, reason and address. -/
structure RowFail where
  lane : Nat
  reason : Nat
  addr : DWord
  deriving DecidableEq, Repr, Inhabited

/-- The rows of one operand over lanes. -/
def checkRows (f : Nat → State → Except Cause MxRow × State) (addr : Nat → DWord) : List Nat → State → List MxRow × List RowFail × State
  | [], s => ([], [], s)
  | l :: r, s =>
    match f l s with
    | (.error c, s) => let y := checkRows f addr r s; (y.1, ⟨l, reasonOf c, addr l⟩ :: y.2.1, y.2.2)
    | (.ok k, s) => let y := checkRows f addr r s; (k :: y.1, y.2.1, y.2.2)

def afBytes : Af → Nat | .f16 => 64 | _ => 128

def tileOf (w : Wave) (t : Nat) : Tile := w.tiles.getD t ⟨.f32, []⟩

/-- Every row of an operation: the A rows, the B rows, and the failures. -/
def opRows (e : Eng) (w : Wave) (o : MxOp) (s : State) : List MxRow × List MxRow × List RowFail × State :=
  let ls := lanesOf o.rows
  let aA := fun l => laneGet o.a 0 l
  let aB := fun l => laneGet o.b 0 l
  let spc := o.spc.isSome
  match o.kind with
  | .mzero => ([], [], [], s)
  | .mld => let r := checkRows (fun l s => checkRaw e s spc .read l (aA l).toNat (afBytes o.af)) aA ls s; (r.1, [], r.2.1, r.2.2)
  | .mst =>
    let r := checkRows (fun l s => checkRaw e s spc .write l (aA l).toNat (afBytes (tileOf w o.t).af)) aA ls s
    (r.1, [], r.2.1, r.2.2)
  | .mma =>
    let a := checkRows (fun l s => checkRow e s o.spc false l (aA l).toNat) aA ls s
    let b := checkRows (fun l s => checkRow e s o.spc false l (aB l).toNat) aB ls a.2.2
    (a.1, b.1, a.2.1 ++ b.2.1, b.2.2)
  | .mlut =>
    let a := checkRows (fun l s => checkRow e s o.spc true l (aA l).toNat) aA ls s
    let b := checkRows (fun l s => checkRaw e s spc .read l (aB l).toNat 16) aB (ls.filter (· < 8)) a.2.2
    (a.1, b.1, a.2.1 ++ b.2.1, b.2.2)

/-! ### Reading rows (R152, R153) -/

/-- How an operation reads for row lane `lane`: a store that its wave issued after it is seen or not, byte by byte (R153). -/
def mxReader (w : Wave) (o : MxOp) (lane : Nat) : Reader :=
  { coreReader w.core with lane := some ⟨w.uid, 32⟩, note := some ⟨engKey w.uid lane, o.isq, false⟩ }
def mxFree (w : Wave) (o : MxOp) (e : Wb) : Bool := e.lane.wave == w.uid && o.isq < e.isq

/-- Rows with the bytes the operation reads, their units numbered from `i`. -/
def mxRows (w : Wave) (o : MxOp) : Nat → List MxRow → State → List (MxRow × List PByte) × State
  | _, [], s => ([], s)
  | i, k :: r, s =>
    let us := runUnits k.runs
    let x := readUnits (mxReader w o k.lane) (mxFree w o) o.got i us s
    let y := mxRows w o (i + us.length) r x.2
    ((k, x.1) :: y.1, y.2)

/-- The 32 element values of an operand row, and whether FMTERR is set (R116, R208). -/
def rowVals (spc : Bool) (k : MxRow) (bs : List PByte) : List FV × Bool :=
  if spc then
    let t : FTy5 := match k.fmt with | 1 => .f16 | 2 => .bf16 | _ => .f8e4
    let n := elBits k.fmt / 8
    ((List.range 32).map fun i =>
      let b := (bs.drop (n * i)).take n
      if b.any Prod.snd then .psn else fval t (leNat (b.map Prod.fst)), false)
  else
    let d := decodeRun k.e0 32 k.fmt k.geom k.scale k.blk (bs.map fun p => if p.2 then none else some p.1)
    (d.1.map (fval .f32), d.2)

/-- A matrix of values by row; a lane with no row has zeros. -/
def rowsMatrix (spc : Bool) (rs : List (MxRow × List PByte)) : List (Nat × List FV) := rs.map fun r => (r.1.lane, (rowVals spc r.1 r.2).1)

def zeroF : FV := .num false 0 0

def mval (m : List (Nat × List FV)) (i k : Nat) : FV :=
  match m.find? fun r => r.1 == i with
  | some r => r.2.getD k zeroF
  | none => zeroF

/-! ### Exact summation (R154 to R156) -/

/-- A cell after one accumulation, and whether ACCINF and ACCSAT are set. -/
structure Acc1 where
  c : Word
  inf : Bool
  sat : Bool
  deriving DecidableEq, Repr, Inhabited

def maxF16 (s : Bool) : Word := if s then 0xFBFF else 0x7BFF

/-- `acc_add` (R155). -/
def accAdd (af : Af) (x : Acc1) (v : XV) : Acc1 :=
  match af with
  | .f32 =>
    let c := roundX .f32 .rne (sumX .rne [fval .f32 x.c.toNat, fval .f32 (roundX .f32 .rne v)])
    ⟨BitVec.ofNat 32 c, x.inf || c % 2 ^ 31 == 0x7F800000, x.sat⟩
  | .f16 =>
    match sumX .rne [fval .f16 (x.c.toNat % 2 ^ 16), fval .f32 (roundX .f32 .rne v)] with
    | .psn => { x with c := 0x7E5A }
    | .nan => { x with c := 0x7E00 }
    | .inf s => { x with c := maxF16 s, sat := true }
    | y =>
      let c := roundX .f16 .rne y
      if c % 2 ^ 15 = 0x7C00 then { x with c := maxF16 (decide (2 ^ 15 ≤ c)), sat := true } else { x with c := BitVec.ofNat 32 c }
  | .s32 =>
    let nan := match v with | .psn => true | .nan => true | _ => false
    if x.c = 0x80000000 || nan then { x with c := 0x80000000, sat := true }
    else
      let k : Int := match v with
        | .inf s => if s then -2 ^ 200 else 2 ^ 200
        | y => xToInt .rne (-2 ^ 200) (2 ^ 200) y
      let t := x.c.toInt + k
      let r := clampI (-2147483647) 2147483647 t
      { x with c := BitVec.ofInt 32 r, sat := x.sat || r != t }

def mmaCell (af : Af) (c : Word) (a b : Nat → FV) : Acc1 :=
  (List.range 4).foldl (fun x g => accAdd af x (sumX .rne ((List.range 8).map fun k => mulV (a (8 * g + k)) (b (8 * g + k))))) ⟨c, false, false⟩

/-- t[h] of R156, as a value. -/
def lutSum (a : Nat → FV) (h nib : Nat) : FV :=
  fval .f32 (roundX .f32 .rne (sumX .rne ((List.range 4).map fun m => if nib.testBit m then a (4 * h + m) else negV (a (4 * h + m)))))

def mlutCell (af : Af) (c : Word) (a : Nat → FV) (w : Nat → Option Nat) : Acc1 :=
  let t := fun h => match w h with | some nib => lutSum a h nib | none => zeroF
  (List.range 4).foldl (fun x g => accAdd af x (sumX .rne [t (2 * g), t (2 * g + 1)])) ⟨c, false, false⟩

def cellOf (t : Tile) (i j : Nat) : Word := kvGet 0 (32 * i + j) t.cells

/-- Every cell of a tile from `f`, with the flags of the whole (R155). -/
def mapTile (af : Af) (f : Nat → Nat → Acc1) : Tile × Bool × Bool :=
  let cs := (List.range 1024).map fun n => f (n / 32) (n % 32)
  (⟨af, (cs.zipIdx.filter fun e => e.1.c != 0).map fun e => (e.2, e.1.c)⟩, cs.any Acc1.inf, cs.any Acc1.sat)

/-- The nibble w(h, j) of R156, which a poisoned word makes its pattern's. DESIGN CHOICE (log 116): the pattern is that of 64 bits, byte for byte. -/
def lutNib (rs : List (MxRow × List PByte)) (h j : Nat) : Option Nat :=
  match rs.find? fun r => r.1.lane == h with
  | none => none
  | some r =>
    let b := r.2.getD (j / 2) (0, false)
    let v := (if b.2 then (leBytes (poisonOf 8) 8).getD (j / 2 % 8) 0 else b.1).toNat
    some (if j % 2 = 0 then v % 16 else v / 16)

/-! ### Execution (R147, R151, R160) -/

def setTile (w : Wave) (t : Nat) (x : Tile) : Wave := { w with tiles := listSet w.tiles t fun _ => x }

def updOp (w : Wave) (i : Nat) (f : MxOp → MxOp) : Wave := { w with mxOps := updFirst (·.id == i) f w.mxOps }

/-- An operation has completed: one of a closed batch is no longer kept. -/
def endOp (w : Wave) (o : MxOp) : Wave :=
  if o.batch.isNone then updOp w o.id fun o => { o with st := .done } else { w with mxOps := w.mxOps.filter (·.id != o.id) }

/-- The cells of a row that `mld` reads. -/
def mldCells (af : Af) (lane : Nat) (bs : List PByte) : List (Nat × Word) :=
  let n := match af with | .f16 => 2 | _ => 4
  (List.range 32).map fun j =>
    let b := (bs.drop (n * j)).take n
    (32 * lane + j, BitVec.ofNat 32 (if b.any Prod.snd then poisonOf n else leNat (b.map Prod.fst)))

def mstBytes (t : Tile) (lane : Nat) : List PByte :=
  (List.range 32).flatMap fun j =>
    (leBytes (cellOf t lane j).toNat (match t.af with | .f16 => 2 | _ => 4)).map fun b => (b, false)

/-- An `mst` row enters the write buffer. -/
def mstRows (w : Wave) (o : MxOp) (t : Tile) : List MxRow → State → State
  | [], s => s
  | k :: r, s => mstRows w o t r (writeUnits (engKey w.uid k.lane) w.core o.isq o.id (runUnits k.runs) (mstBytes t k.lane) s)

/-- The effect of an operation whose rows have all passed. -/
def runOp (w : Wave) (o : MxOp) (ra rb : List MxRow) (s : State) : State :=
  let t := tileOf w o.t
  let spc := o.spc.isSome
  let set := fun (s : State) (x : Tile) => updWave s w.uid fun w => setTile w o.t x
  match o.kind with
  | .mzero => set s ⟨o.af, []⟩
  | .mld =>
    let r := mxRows w o 0 ra s
    let cs := (r.1.flatMap fun x => mldCells o.af x.1.lane x.2).filter fun c => c.2 != 0
    setMemPsn (set r.2 ⟨o.af, cs⟩) w.launch (r.1.any fun x => x.2.any Prod.snd)
  | .mst => mstRows w o t ra s
  | .mma =>
    let a := mxRows w o 0 ra s
    let b := mxRows w o (rowUnits ra).length rb a.2
    let ma := rowsMatrix spc a.1
    let mb := rowsMatrix spc b.1
    let y := mapTile t.af fun i j => mmaCell t.af (cellOf t i j) (fun k => mval ma i k) (fun k => mval mb k j)
    let err := (a.1 ++ b.1).any fun x => (rowVals spc x.1 x.2).2
    let s := updWave (set b.2 y.1) w.uid fun w => { w with accInf := w.accInf || y.2.1, accSat := w.accSat || y.2.2 }
    setMemPsn (setFmtErr s w.uid err) w.launch ((a.1 ++ b.1).any fun x => x.2.any Prod.snd)
  | .mlut =>
    let a := mxRows w o 0 ra s
    let b := mxRows w o (rowUnits ra).length rb a.2
    let ma := rowsMatrix spc a.1
    let y := mapTile t.af fun i j => mlutCell t.af (cellOf t i j) (fun k => mval ma i k) (fun h => lutNib b.1 h j)
    let err := a.1.any fun x => (rowVals spc x.1 x.2).2
    let s := updWave (set b.2 y.1) w.uid fun w => { w with accInf := w.accInf || y.2.1, accSat := w.accSat || y.2.2 }
    setMemPsn (setFmtErr s w.uid err) w.launch ((a.1 ++ b.1).any fun x => x.2.any Prod.snd)

/-- The lowest failing lane's reason, and the failing lanes with their addresses, A before B. -/
def abortOp (o : MxOp) (fs : List RowFail) : MxOp :=
  let bad := maskOf fun i => fs.any (·.lane == i)
  let first := (lowLane bad).bind fun l => fs.find? (·.lane == l)
  { o with
    st := .aborted
    reason := match first with | some f => f.reason | none => 0
    bad := bad
    addr := Vector.ofFn fun i : Fin 32 => match fs.find? (·.lane == i.val) with | some f => f.addr | none => 0
    chk := none
    got := [] }

/-- What the wave stored before an `mst` to the bytes it writes stands before it. -/
def mstReady (s : State) (w : Wave) (o : MxOp) (ra : List MxRow) : Bool :=
  o.kind != .mst || !(s.mem.wb.any fun e => e.lane.wave == w.uid && isLane e.lane && e.isq < o.isq && e.state == .pending &&
    ra.any fun k => k.runs.any fun r => overlap e.loc e.bytes.length r.1 r.2)

/-- May the operation read a unit for a row lane: no acquire or fence of the lane before it is pending (10 R220, R221), the unit is up,
and what the wave stored to another device has arrived there? -/
def rowReady (s : State) (w : Wave) (o : MxOp) (u : Nat × Loc × Nat) : Bool :=
  !acqBlocked s ⟨w.uid, u.1⟩ o.isq && runUp s u.2 &&
  match u.2.1 with
  | .remote dev pa => (List.range u.2.2).all fun i => !remHeld s ⟨w.uid, 32⟩ dev (pa + i)
  | _ => true

/-- Does an operation that a replay runs again wait for one that comes before it there (R162)? -/
def replayHeld (w : Wave) (o : MxOp) : Bool :=
  match o.rep with
  | some k => w.mxOps.any fun p => p.st == .queued && match p.rep with | some j => j < k | none => false
  | none => false

/-- An operation's next step, once every earlier one on its tile, and of its replay, has been done: its rows are checked, one that fails
aborting it, or held behind an aborted one. -/
def mxCheck (s : State) (w : Wave) (o : MxOp) (l : Launch) (b : Block) : Option (Option (List MxRow × List MxRow) × State) :=
  let before := (w.mxOps.takeWhile fun p => p.id != o.id).filter fun p => p.t == o.t
  if o.st != .queued || replayHeld w o || before.any fun p => p.st == .queued then none
  else if before.any fun p => p.st == .aborted || p.st == .held then
    some (none, updWave s w.uid fun w => updOp w o.id fun o => { o with st := .held })
  else
    match o.chk with
    | some c => some (some c, s)
    | none =>
      let r := opRows ⟨l, b, w.core⟩ w o s
      let s := r.2.2.2
      if !r.2.2.1.isEmpty then
        some (none, updWave s w.uid fun w =>
          let w := updOp w o.id fun o => abortOp o r.2.2.1
          match o.batch with | some n => dropBatch w n false | none => w)
      else some (some (r.1, r.2.1), updWave s w.uid fun w => updOp w o.id fun o => { o with chk := some (r.1, r.2.1) })

/-- An operation is checked, and what it has not read yet is read and its effect takes place. -/
def matrixS (s : State) (u op : Nat) : Option State :=
  match findWave s u with
  | none => none
  | some w =>
    match opOf w op, findBlock s w.blk, findLaunch s w.launch with
    | some o, some b, some l =>
      match mxCheck s w o l b with
      | none => none
      | some (none, s) => some s
      | some (some (ra, rb), s) =>
        let ready := if o.kind == .mst then piecesUp s (ra.flatMap MxRow.runs) && mstReady s w o ra
          else (rowUnits (ra ++ rb)).all (rowReady s w o)
        if !ready then none else some (addPerf (updWave (runOp w o ra rb s) u fun w => endOp w o) w.core 5 1)
    | _, _, _ => none

/-- An operation reads one unit of its rows, before the move that reads the rest (R153). -/
def mxReadS (s : State) (u op unit : Nat) : Option State :=
  match findWave s u with
  | none => none
  | some w =>
    match opOf w op, findBlock s w.blk, findLaunch s w.launch with
    | some o, some b, some l =>
      if o.kind == .mst then none
      else
        match mxCheck s w o l b with
        | none => none
        | some (none, s) => some s
        | some (some (ra, rb), s) =>
          match (rowUnits (ra ++ rb))[unit]? with
          | none => none
          | some k =>
            if !rowReady s w o k || !(kvGet [] unit o.got).isEmpty then none
            else
              let x := engineBytes (mxReader w o k.1) (mxFree w o) k.2.1 k.2.2 s
              some (updWave x.2 u fun w => updOp w op fun o => { o with got := kvPut [] unit x.1 o.got })
    | _, _, _ => none

def execMatrixOpExecute (wave op : Nat) (s : State) : Out := move s (matrixS s wave op)

/-! ### The end of a wave's engine work (R162, R164) -/

/-- Has every operation completed, been aborted or been held? -/
def mxSettled (w : Wave) : Bool := w.mxOps.all fun o => o.st != .queued

/-- The operations that are left are discarded, which the launch records. -/
def discardOps (s : State) (u : Nat) : State :=
  match findWave s u with
  | none => s
  | some w =>
    let s := if w.mxOps.any fun o => o.st != .done then setLaunchFlag s w.launch 3 else s
    updWave { s with mem := { s.mem with eng := s.mem.eng.filter (·.wave != u) } } u fun w => { w with mxOps := [], mxBatches := [] }

/-! ### Evictions (09 R197, 11 R241) -/

/-- R241: an evict move for a dirty sector that no operation pins; it leaves the L2 of its home die. -/
def execEvict (k : Nat) (s : State) : Out :=
  let h := homeDie s (64 * k)
  move s (if s.mem.dirty.contains k && !pinnedLine s h (k / 4) then some (dropL2 (writeBack s k) (some h) (64 * k) 64) else none)

/-- R197: a clean sector that no operation pins leaves a die's L2. -/
def evictClean (s : State) (d k : Nat) : State :=
  if (sectorState s d k == .c || sectorState s d k == .g) && !pinnedLine s d (k / 4) then dropL2 s (some d) (64 * k) 64 else s

/-- R197, R199: an X sector that no operation pins is evicted from a die's L2. -/
def evictX (s : State) (die dev k : Nat) : State := if pinnedX s die dev (k / 4) then s else dropX s (some die) dev (64 * k) 64

end Sys2Proof.Machine
end

