-- ==== Sys2Proof/Machine/Search.lean ====
section
/-! DEFINITION. Bound-and-fell search (15 R299 to R311, 10 R228): the incumbent slots, their copies and counters, and the search
instructions of class 10. -/

namespace Sys2Proof.Machine

/-! ### Slots, copies and counters -/

def slotOfInc (s : State) (n : Nat) : Slot := vecGet s.search.slots .reset n
def updSlot (s : State) (n : Nat) (f : Slot → Slot) : State :=
  { s with search := { s.search with slots := vecUpd s.search.slots .reset n f } }

def worstKey : DWord := BitVec.allOnes 64

/-- A core's copy of a slot (R305). -/
def coreCopy (s : State) (core n : Nat) : DWord := kvGet worstKey (core * 16 + n) s.search.coreCopy
/-- A vat's copy of a slot. -/
def vatCopy (s : State) (die n : Nat) : DWord := kvGet worstKey (die * 16 + n) s.search.vatCopy

/-- R301: does a bound fail against a copy? -/
def boundFails (b c : DWord) : Bool := c.toNat ≤ b.toNat

def satAdd64 (a k : Nat) : Nat := min (a + k) (2 ^ 64 - 1)

/-- FELLED of a slot (R310). -/
def addFelled (s : State) (n k : Nat) : State := updSlot s n fun x => { x with felled := satAdd64 x.felled k }
/-- SPAWNED of a slot (R310). -/
def addSpawned (s : State) (n k : Nat) : State := updSlot s n fun x => { x with spawned := satAdd64 x.spawned k }

/-- R93, R300: a slot becomes active; its key, tag, vector, counters and copies are reset. -/
def activateSlot (s : State) (n : Nat) : State :=
  { s with search := { s.search with
    slots := vecSet s.search.slots n { Slot.reset with active := true }
    coreCopy := s.search.coreCopy.filter fun e => e.1 % 16 != n
    vatCopy := s.search.vatCopy.filter fun e => e.1 % 16 != n
    bcasts := s.search.bcasts.filter fun b => b.slot != n } }

/-- The search unit's FREADY bit (23 R393). -/
def searchUp (s : State) : Bool := unitUp s 25

/-! ### Broadcasts (R305) -/

def holderDie : Holder → Nat | .core c => dieOfCore c | .vat d => d

def holders : List Holder := (List.range nCores).map .core ++ (List.range nDies).map .vat

/-- A committed key sets out for every copy. -/
def broadcast (n : Nat) (k : DWord) : List Holder → State → State
  | [], s => s
  | h :: r, s =>
    let b : Bcast := ⟨s.nid, n, k, h, (vecGet s.dcyc 0 (holderDie h)).toNat⟩
    broadcast n k r { s with nid := s.nid + 1, search := { s.search with bcasts := s.search.bcasts ++ [b] } }

def minKey (a b : DWord) : DWord := if a.toNat ≤ b.toNat then a else b

def arriveS (s : State) (n : Nat) : Option State :=
  match s.search.bcasts.find? (·.id == n) with
  | none => none
  | some b =>
    let x := { s.search with bcasts := s.search.bcasts.filter (·.id != n) }
    some { s with search := match b.holder with
      | .core c => { x with coreCopy := kvPut worstKey (c * 16 + b.slot) (minKey (coreCopy s c b.slot) b.key) x.coreCopy }
      | .vat d => { x with vatCopy := kvPut worstKey (d * 16 + b.slot) (minKey (vatCopy s d b.slot) b.key) x.vatCopy } }

def execBroadcastArrival (b : Nat) (s : State) : Out := move s (arriveS s b)

/-- Must a broadcast arrive before its holder's clock goes on? -/
def bcastDue (s : State) (die : Nat) : Bool :=
  s.search.bcasts.any fun b => holderDie b.holder == die && b.cyc + 4096 ≤ (vecGet s.dcyc 0 die).toNat

/-! ### Commits and reads at the search unit (R303, R304) -/

/-- Does a lower lane of the same instruction, or an earlier operation of the lane, come first? -/
def sopFirst (s : State) (o : SOp) : Bool :=
  (s.search.ops.takeWhile (·.id != o.id)).all fun p =>
    p.lane != o.lane && (p.isq != o.isq || p.lane.wave != o.lane.wave ||
      match p.kind with | .incld _ (some _) => true | _ => false)

def sopGone (s : State) (n : Nat) : State :=
  { s with search := { s.search with ops := s.search.ops.filter (·.id != n) } }

/-- R394: reads of a failed search unit return poison, and its writes are discarded. -/
def searchFailed (s : State) : Bool := unitFailed s 25
def poisonKey : DWord := BitVec.ofNat 64 (poisonOf 8)

/-- A lane's access has read poison (09 R208). -/
def laneMemPsn (s : State) (k : LaneKey) : State :=
  match findWave s k.wave with | some w => setLaunchFlag s w.launch 4 | none => s

def incminS (s : State) (n : Nat) : Option State :=
  match s.search.ops.find? (·.id == n) with
  | none => none
  | some o =>
    match o.kind with
    | .incld _ _ => none
    | .incmin k t =>
      if !searchUp s || !sopFirst s o || acqBlocked s o.lane o.isq || relBlocked s o.lane o.isq ||
        !releaseOk s o.lane o.isq .device then none
      else if searchFailed s then
        some (deliver (laneMemPsn (sopGone s n) o.lane) o.lane.wave o.win ⟨o.lane.lane, wordsOf true poisonKey, some false, none⟩)
      else
        let old := (slotOfInc s o.slot).key
        let ok : Bool := k.toNat < old.toNat
        let v := vecOf s (dieOfCore o.core)
        let s := sopGone s n
        let s := if ok then
            broadcast o.slot k holders (updSlot s o.slot fun x => { x with key := k, tag := t, vec := v })
          else s
        some (deliver s o.lane.wave o.win ⟨o.lane.lane, wordsOf true old, some ok, none⟩)

def execIncminCommit (op : Nat) (s : State) : Out := move s (incminS s op)

/-- R304, R228: the read, then its completion once the lane's die has applied every write the commit vector counts. -/
def incldS (s : State) (n : Nat) : Option State :=
  match s.search.ops.find? (·.id == n) with
  | none => none
  | some o =>
    match o.kind with
    | .incmin _ _ => none
    | .incld acq got =>
      if got.isNone && (!searchUp s || !sopFirst s o || acqBlocked s o.lane o.isq) then none
      else
        let x := slotOfInc s o.slot
        let bad := got.isNone && searchFailed s
        let g := got.getD (if bad then (poisonKey, poisonKey, .replicate 4 0) else (x.key, x.tag, x.vec))
        if vLe g.2.2 (vecOf s (dieOfCore o.core)) then
          let s := if bad then laneMemPsn (sopGone s n) o.lane else sopGone s n
          let s := if acq then discardFor s o.core .device else s
          some (deliver s o.lane.wave o.win ⟨o.lane.lane, wordsOf true g.1 ++ wordsOf true g.2.1, none, none⟩)
        else if got.isSome then none
        else some { s with search := { s.search with
          ops := updFirst (·.id == n) (fun o => { o with kind := .incld acq (some g) }) s.search.ops } }

def execIncldRead (op : Nat) (s : State) : Out := move s (incldS s op)

/-! ### The instructions (R302, R309) -/

/-- An instruction of a search launch: ILLOP where the launch binds no slot (R300). -/
def runSearch (g : Guard) (s : State) (k : Nat → Ctx → State → Res) : Out :=
  runLane false g s fun x s => match x.l.lr.search with | some n => k n x s | none => illop s x

def addSop (s : State) (o : SOp) : State :=
  { s with nid := s.nid + 1, search := { s.search with ops := s.search.ops ++ [{ o with id := s.nid }] } }

/-- The lanes' operations at the search unit, in lane order. -/
def searchLanes (x : Ctx) (s : State) (slot : Nat) (la : BitVec 4) (d : Dest) (f : Nat → SOpKind) : Res :=
  let q := isqOf s
  let o := openWin q.2 x.c la d x.act false
  .done ((lanesOf x.act).foldl (fun s l => addSop s ⟨0, ⟨x.c.wave, l⟩, x.w.core, q.1, slot, o.1, f l⟩) o.2)

def execIncmin (g : Guard) (la : BitVec 4) (o : IncminOp) (s : State) : Out :=
  runSearch g s fun n x s =>
    searchLanes x s n la { gd := some (o.d.toNat, 2), pd := if o.pr = 7 then none else some o.pr } fun l =>
      .incmin (gDWord x.w o.a.toNat l) (srcC x.w true o.b l)

def execIncld (g : Guard) (la : BitVec 4) (acq : Bool) (d : Reg) (s : State) : Out :=
  runSearch g s fun n x s => searchLanes x s n la { gd := some (d.toNat, 4) } fun _ => .incld acq none

def execTbound (g : Guard) (b : SrcC) (s : State) : Out :=
  runSearch g s fun _ x s =>
    let t : Lanes DWord := Vector.ofFn fun i : Fin 32 =>
      if x.act.getLsbD i then srcC x.w true b i else laneGet x.w.tbnd 0 i
    .done (updWave s x.c.wave fun w => { w with tbnd := t })

/-- The open windows of a split close in some of its lanes. -/
def closeLanes (s : State) (c : Cur) (m : Mask) : State :=
  settle (updWave s c.wave fun w =>
    match findSplit w c.sid with
    | none => w
    | some p =>
      let part := (closeWins (fun _ => true) (p.wins.map (winPart m))).filter fun x => !winEmpty x
      let w := updSplitW w c.sid fun p => { p with wins := winsStay m p.wins }
      { w with orph := w.orph ++ part }) c.wave

/-- R309: the lanes whose bound fails against the core's copy exit felled. -/
def execFchk (g : Guard) (s : State) : Out :=
  runSearch g s fun n x s =>
    let c := coreCopy s x.w.core n
    let ls := (lanesOf x.act).filter fun l => boundFails (laneGet x.w.tbnd 0 l) c
    let m := maskOf fun i => ls.contains i
    .done (if m = 0 then s else addFelled (exitLanes (closeLanes s x.c m) x.c.wave m) n ls.length)

end Sys2Proof.Machine
end

