-- ==== Sys2Proof/Machine/Units.lean ====
section
/-! DEFINITION. Accesses of the device's own units and of its host to device memory, which they make at the home die of each byte
(14 R278, 19 R362 to R368, 23 R389), and the registers of the physical function's window that hold tenants (R391). -/

namespace Sys2Proof.Machine

/-! ### The tenant table (19 R362, 23 R391) -/

/-- `n` bytes of the physical function's window, low byte first. -/
def pfNat (s : State) (off n : Nat) : Nat := leNat (memBytes s.pf off n)
def tenantEnt (t : Nat) : Nat := 0x1000 + 128 * t
def tenantField (s : State) (t off n : Nat) : Nat := pfNat s (tenantEnt t + off) n
/-- The level 4 table of a tenant. -/
def tenantRoot (s : State) (t : Nat) : Nat := bits (tenantField s t 0 8) 13 44 * 8192

/-- The page tables that a launch's accesses walk: those of its admission, or its tenant's once it has completed. -/
def rootOf (s : State) (launch t : Nat) : Nat :=
  match findLaunch s launch with | some l => l.lr.root | none => tenantRoot s t

/-! ### Reads and writes at the home die -/

/-- The key of the device's own units: no lane of a wave has it. -/
def unitKey : LaneKey := ⟨0, 32⟩

/-- One part of a unit's write, which home die `h` makes itself (09 R198); where no die may stamp one more (10 R214), the move that makes it
waits whole. `p`: its bytes come from a poisoned word. -/
def unitPutP (s : State) (l : Loc) (bs : List Byte) (p : Bool) : State :=
  match l with
  | .gm pa =>
    let h := homeDie s pa
    let id := s.nid
    let s := if stampRoom s h then s else holdMove s
    let r := storeHome { s with nid := id + 1 } h pa (if unitFailed s (unitBit s pa) then viewBytes s h pa bs.length else bs) none p
    spread r.2.2.2 ⟨id, unitKey, h * coresPerDie, id, pa, r.1, none, none, none, true, none, h, h, r.2.2.1, r.2.1, p⟩ h
  | .remote dev pa =>
    let id := s.nid
    { s with nid := id + 1, mem := { s.mem with remoteW := s.mem.remoteW ++ [⟨id, unitKey, 0, id, dev, pa, bs, none, none, none, true, none, [], p⟩] } }
  | l => markChip (storeChip s l bs none) l bs.length p

def unitPut (s : State) (l : Loc) (bs : List Byte) : State := unitPutP s l bs false

/-- A byte of another device as the device's own units see it: their latest write on its way there, or what the device holds. -/
def ownByte (s : State) (dev pa : Nat) : CopyB :=
  s.mem.remoteW.foldl (fun b r =>
      if r.lane == unitKey && r.dev == dev && r.pa ≤ pa && pa < r.pa + r.bytes.length && r.fn.isNone
      then ⟨r.bytes.getD (pa - r.pa) 0, 0, r.psn⟩ else b)
    (remByte s dev pa)

/-- A unit's read of one part: the pattern of R208 where it meets a poisoned word, and whether it did. -/
def unitGet (s : State) (l : Loc) (n : Nat) : List Byte × Bool :=
  match l with
  | .gm pa =>
    let h := homeDie s pa
    if anyViewPsn s h pa n then (leBytes (poisonOf n) n, true) else (viewBytes s h pa n, false)
  | .remote dev pa =>
    let bs := (List.range n).map fun i => ownByte s dev (pa + i)
    if bs.any CopyB.psn then (leBytes (poisonOf n) n, true) else (bs.map CopyB.val, false)
  | l =>
    if anyPsn (chipMem s l) l.addr n then (leBytes (poisonOf n) n, true) else (memBytes (chipMem s l) l.addr n, false)

/-- A unit's atomic on `n` bytes: on another device it is performed there (R229). `u`: for whom. -/
def unitAtom (s : State) (u : LaneKey) (l : Loc) (n : Nat) (fn : AtomFn) : State :=
  match l with
  | .remote dev pa =>
    let id := s.nid
    { s with nid := id + 1, mem := { s.mem with remoteW := s.mem.remoteW ++
        [⟨id, u, 0, id, dev, pa, List.replicate n 0, none, some fn, none, true, none, [], false⟩] } }
  | l =>
    match if (unitGet s l n).2 then none else atomNew fn (unitGet s l n).1 with
    | some new => unitPut s l new
    | none => s

/-- A unit's write of a run of pieces, each byte with whether it comes from a poisoned word. -/
def unitWriteP : List (Loc × Nat) → List (Byte × Bool) → State → State
  | [], _, s => s
  | (l, n) :: r, bs, s => unitWriteP r (bs.drop n) (unitPutP s l ((bs.take n).map Prod.fst) ((bs.take n).any Prod.snd))

def unitWrite (us : List (Loc × Nat)) (bs : List Byte) (s : State) : State := unitWriteP us (bs.map fun b => (b, false)) s

/-- The parts of at most 8 bytes of a translated range. -/
def rangeUnits (ps : List (Xl × Nat)) : List (Loc × Nat) := ps.flatMap fun p => unitsOf p.1.loc p.2

def unitRead (s : State) (us : List (Loc × Nat)) : List Byte × Bool :=
  (us.flatMap fun u => (unitGet s u.1 u.2).1, us.any fun u => (unitGet s u.1 u.2).2)

/-- The parts of a virtual range for a unit. -/
def unitRange (s : State) (tenant root : Nat) (acc : Acc) (va n : Nat) : Except (Cause × Nat) (List (Loc × Nat)) × State :=
  match xlateRange tenant root acc (n / 4096 + 2) va n s with
  | (.error e, s) => (.error e, s)
  | (.ok ps, s) => (.ok (rangeUnits ps), s)

/-- A unit's write of a virtual range; nothing is written where a page of it is not writable. -/
def unitStore (s : State) (tenant root va : Nat) (bs : List Byte) : Bool × State :=
  match unitRange s tenant root .write va bs.length with
  | (.error _, s) => (false, s)
  | (.ok us, s) => (true, unitWrite us bs s)

/-- The same with poison, for bytes that may come from poisoned words. -/
def unitStoreP (s : State) (tenant root va : Nat) (bs : List (Byte × Bool)) : State :=
  match unitRange s tenant root .write va bs.length with
  | (.error _, s) => s
  | (.ok us, s) => unitWriteP us bs s

def touchUnits (us : List (Loc × Nat)) (s : State) : State := us.foldl (fun s u => touchLoc s u.1) s

/-- A unit's read of a virtual range, each byte with whether it lies in a poisoned word. -/
def unitLoadP (s : State) (tenant root va n : Nat) : Except (Cause × Nat) (List (Byte × Bool)) × State :=
  match unitRange s tenant root .read va n with
  | (.error e, s) => (.error e, s)
  | (.ok us, s) => (.ok (us.flatMap fun u => (unitGet s u.1 u.2).1.map fun b => (b, (unitGet s u.1 u.2).2)), touchUnits us s)

/-- A unit's read of a virtual range. -/
def unitLoad (s : State) (tenant root va n : Nat) : Except (Cause × Nat) (List Byte × Bool) × State :=
  match unitRange s tenant root .read va n with
  | (.error e, s) => (.error e, s)
  | (.ok us, s) => (.ok (unitRead s us), touchUnits us s)

end Sys2Proof.Machine
end

