-- ==== Sys2Proof/Machine/Vat.lean ====
section
/-! DEFINITION. Task records (14 R282 to R292): the vats with their spill and reload, and the task instructions of class 10. -/

namespace Sys2Proof.Machine

/-! ### Vats (R282 to R285) -/


def updTasks (s : State) (f : Tasks → Tasks) : State := { s with tasks := f s.tasks }
def recsOn (s : State) (d : Nat) : List TaskRec := s.tasks.recs.filter (·.die == d)
def residentOn (s : State) (d : Nat) : List TaskRec := (recsOn s d).filter (·.spilled.isNone)
def dropRec (s : State) (n : Nat) : State := updTasks s fun t => { t with recs := t.recs.filter (·.id != n) }

/-- The records of a group (02 R42), oldest first by arrival position. -/
def insPos (r : TaskRec) : List TaskRec → List TaskRec
  | [] => [r]
  | q :: l => if r.pos < q.pos then r :: q :: l else q :: insPos r l
def byPos (l : List TaskRec) : List TaskRec := l.foldr insPos []
def groupOn (s : State) (d launch stage : Nat) : List TaskRec :=
  (recsOn s d).filter fun r => r.launch == launch && r.stage == stage
def groupKey (launch stage d : Nat) : Nat := (launch * 8 + stage) * 4 + d

/-- R283: a stage's occupancy on a die. -/
def occupancy (s : State) (launch stage d : Nat) : Nat := (groupOn s d launch stage).length

/-- R284: a tenant's share of a vat. -/
def vatWeight (s : State) (t : Nat) : Nat := tenantField s t 0x18 2
def vatShare (s : State) (d t : Nat) : Nat :=
  let ts := (t :: (recsOn s d).map TaskRec.tenant).eraseDups
  vatSlots * vatWeight s t / ts.foldl (fun a u => a + vatWeight s u) 0
def vatHeld (s : State) (d t : Nat) : Nat := ((residentOn s d).filter (·.tenant == t)).length

/-- Room for a record of a launch in its tenant's spill region. -/
def spillSlot (s : State) (launch : Nat) : Option Nat :=
  (findLaunch s launch).bind fun l =>
    let used := s.tasks.recs.filterMap fun r => if r.tenant == l.lr.tenant then r.spilled else none
    ((List.range (l.lr.spillLen / 128)).map fun i => l.lr.spillBase + 128 * i).find? fun a => !used.contains a

/-- The bound of a record that a copy of its launch's slot is held against. -/
def recSlot (s : State) (r : TaskRec) : Option (Nat × DWord) :=
  match r.bound, (findLaunch s r.launch).bind (·.lr.search) with
  | some b, some n => some (n, b)
  | _, _ => none

/-- A record meets a fell point of its vat: it is felled, or what follows happens. -/
def vatFell (s : State) (r : TaskRec) (k : State) : State :=
  match recSlot s r with
  | some (n, b) => if boundFails b (vatCopy s r.die n) then addFelled (dropRec s r.id) n 1 else k
  | none => k

def drawBytes : Nat → State → List Byte × State
  | 0, s => ([], s)
  | n + 1, s => let x := draw s; let r := drawBytes n x.2; (BitVec.ofNat 8 x.1 :: r.1, r.2)

def addRec (s : State) (r : TaskRec) : State := updTasks s fun t => { t with recs := t.recs ++ [r] }

/-- The newest resident record of a tenant on a die. -/
def newestOf (s : State) (d t : Nat) : Option TaskRec := (byPos ((residentOn s d).filter (·.tenant == t))).getLast?

/-- R284, first row: the tenant farthest above its share that has room, and its record to spill. -/
def spillVictim (s : State) (d : Nat) : Option (TaskRec × Nat) :=
  let ts := (List.range 64).filterMap fun t =>
    if vatShare s d t < vatHeld s d t then
      (newestOf s d t).bind fun r => (spillSlot s r.launch).map fun a => (vatHeld s d t - vatShare s d t, r, a)
    else none
  match ts with
  | [] => none
  | x :: r => some (r.foldl (fun b y => if b.1 < y.1 then y else b) x).2

/-- A record is written to the spill region: how its 128 bytes lie there the spec leaves open (log 2). -/
def writeSpill (s : State) (r : TaskRec) (a : Nat) : State :=
  let b := drawBytes 128 s
  let s := (unitStore b.2 r.tenant (rootOf b.2 r.launch r.tenant) a b.1).2
  updTasks s fun t => { t with recs := updFirst (·.id == r.id) (fun x => { x with spilled := some a }) t.recs }

/-- R284: a record that stands in the vat is spilled. -/
def spillRec (s : State) (r : TaskRec) (a : Nat) : State := vatFell s r (writeSpill s r a)

/-- R284: a record enters its vat, or is dropped. `fell`: its own spill on entry is a fell point, as balancing's is not (R285). -/
def enterVat (s : State) (r : TaskRec) (fell : Bool) : Option State :=
  if (residentOn s r.die).length < vatSlots then some (addRec s r)
  else
    let first := if vatHeld s r.die r.tenant < vatShare s r.die r.tenant then spillVictim s r.die else none
    match first with
    | some (v, a) => some (addRec (spillRec s v a) r)
    | none => (spillSlot s r.launch).map fun a => if fell then spillRec (addRec s r) r a else writeSpill (addRec s r) r a

/-- A record of a group arrives in cycle `c` (02 R42). -/
def noteArrival (t : Tasks) (k c : Nat) : Tasks :=
  let a := kvGet 0 k t.lastArr
  { t with lastArr := kvPut 0 k c t.lastArr, prevArr := if a = c then t.prevArr else kvPut 0 k a t.prevArr }

/-- A record is enqueued on the die of a core. -/
def enqueue (s : State) (w : Wave) (l : Launch) (stage : Nat) (words : Vector Word 16) (bound : Option DWord) : Option State :=
  let d := waveDie w
  let c := (vecGet s.dcyc 0 d).toNat
  let r : TaskRec := ⟨s.nid, d, l.uid, stage, l.lr.tenant, words, bound, s.tasks.nextPos, c, vecOf s d, none⟩
  (enterVat { s with nid := s.nid + 1 } r true).map fun s => updTasks s fun t =>
    noteArrival { t with nextPos := t.nextPos + 1 } (groupKey l.uid stage d) c

/-- R285: one reload into a free slot; the tenant furthest below its share comes first. -/
def reloadOne (d : Nat) (s : State) : Option State :=
  if vatSlots ≤ (residentOn s d).length then none
  else
    let sp := (recsOn s d).filter (·.spilled.isSome)
    let below := fun t : Nat => (vatShare s d t : Int) - vatHeld s d t
    match (List.range 64).filter fun t => sp.any (·.tenant == t) with
    | [] => none
    | t :: r =>
      let u := r.foldl (fun b y => if below b < below y then y else b) t
      (byPos (sp.filter (·.tenant == u))).head?.map fun x => vatFell s x <|
        updTasks s fun t => { t with recs := updFirst (·.id == x.id) (fun x => { x with spilled := none }) t.recs }

/-- R285: a record is reloaded, while fewer than four have been in the die's cycle. -/
def reloadS (d : Nat) (s : State) : Option State :=
  if nDies ≤ d || 4 ≤ vecGet s.tasks.reloads 0 d then none
  else (reloadOne d s).map fun s => updTasks s fun t => { t with reloads := vecUpd t.reloads 0 d (· + 1) }

def execVatReload (die : Nat) (s : State) : Out := .next (iter (reloadS die) 4 s)

/-! ### The instructions (R287 to R292) -/

/-- A declared task stage of a launch (R39). -/
def taskStage (l : Launch) (k : Nat) : Option StageBind :=
  match l.lr.stages[k]? with
  | some b => if k != 0 && b.depth != 0 then some b else none
  | none => none

/-- A task instruction: ILLOP where the launch does not declare the stage as a task stage (R287). -/
def runTask (g : Guard) (stage : BitVec 3) (s : State) (k : StageBind → Ctx → State → Res) : Out :=
  runLane false g s fun x s => match taskStage x.l stage.toNat with | some b => k b x s | none => illop s x

def group16 (w : Wave) (a l : Nat) : Vector Word 16 := Vector.ofFn fun i : Fin 16 => gWord w (a + i) l

/-- Are the earlier accesses of lanes released at `.device`? -/
def lanesReleased (s : State) (w : Wave) (m : Mask) : Bool := (lanesOf m).all fun l => releaseOk s ⟨w.uid, l⟩ s.nid .device

/-- R288: one lane's spawn: its status, and what it leaves. `c` is the core's copy, read once. -/
def spawnLane (x : Ctx) (stage : Nat) (o : TspawnOp) (c : Option (Nat × DWord)) (s : State) (l : Nat) : Nat × State :=
  let b := srcC x.w true o.b l
  let words := group16 x.w o.a.toNat l
  match c with
  | none =>
    match enqueue s x.w x.l stage words none with
    | some s => (0, s)
    | none => (2, s)
  | some (n, k) =>
    if boundFails b k then (1, addFelled (addSpawned s n 1) n 1)
    else
      match enqueue s x.w x.l stage words (some b) with
      | some s => (0, addSpawned s n 1)
      | none => (2, s)

def spawnLanes (x : Ctx) (stage : Nat) (o : TspawnOp) (c : Option (Nat × DWord)) : List Nat → State → State
  | [], s => s
  | l :: r, s =>
    let y := spawnLane x stage o c s l
    let s := updWave y.2 x.c.wave fun w =>
      setP1 (setG1 w o.d.toNat l (BitVec.ofNat 32 y.1)) o.pr.toNat l (y.1 == 0)
    spawnLanes x stage o c r s

def execTspawn (g : Guard) (o : TspawnOp) (s : State) : Out :=
  runTask g o.stage s fun _ x s =>
    if !lanesReleased s x.w x.act then .wait s .order
    else
      let c := x.l.lr.search.map fun n => (n, coreCopy s x.w.core n)
      .done (spawnLanes x o.stage.toNat o c (lanesOf x.act) s)

/-- R292: a task ends; in a hoop-formed wave, as by `exit`. -/
def execTdone (g : Guard) (s : State) : Out :=
  runLane false g s fun x s =>
    let m := x.act &&& x.w.task
    if x.w.hoop then .done (exitLanes (closeLanes s x.c x.act) x.c.wave x.act)
    else .done (updWave (closeCursors s x.c.wave m) x.c.wave fun w => { w with task := w.task &&& ~~~m })

/-- R289: may a lane of a `qpush` enqueue, and what then? -/
def pushLane (s : State) (c : Cur) (w : Wave) (l : Launch) (stage a lane : Nat) : Option State :=
  (taskStage l stage).bind fun b =>
    if !releaseOk s ⟨w.uid, lane⟩ s.nid .device || b.depth ≤ occupancy s l.uid stage (waveDie w) then none
    else (enqueue s w l stage (group16 w a lane) none).map fun s => updSplit s c fun p => { p with qdone := setBit p.qdone lane true }

/-- The lanes enqueue in increasing order while there is room. -/
def pushLanes (c : Cur) (w : Wave) (l : Launch) (stage a : Nat) : List Nat → State → Bool × State
  | [], s => (true, s)
  | n :: r, s =>
    match pushLane s c w l stage a n with
    | some s => pushLanes c w l stage a r s
    | none => (false, s)

def execQpush (g : Guard) (stage : BitVec 3) (a : Reg) (s : State) : Out :=
  runTask g stage s fun _ x s =>
    let r := pushLanes x.c x.w x.l stage.toNat a.toNat (lanesOf (x.act &&& ~~~x.p.qdone)) s
    if r.1 then .done r.2 else .wait r.2 (.qpush stage.toNat a.toNat x.act)

/-- R289: the next lane of a split that waits at `qpush`. -/
def qpushEnqueueS (s : State) (wave sid lane : Nat) : Option State :=
  (findWave s wave).bind fun w =>
    (findSplit w sid).bind fun p =>
      (findLaunch s w.launch).bind fun l =>
        match p.wait with
        | .qpush stage a act =>
          if lowLane (act &&& ~~~p.qdone) == some lane then pushLane s ⟨wave, sid⟩ w l stage a lane else none
        | _ => none

def execQpushEnqueue (wave split lane : Nat) (s : State) : Out := move s (qpushEnqueueS s wave split lane)

/-- The oldest resident record of a group. -/
def takeable (s : State) (d launch stage : Nat) : Option TaskRec :=
  (byPos ((groupOn s d launch stage).filter (·.spilled.isNone))).head?

/-- Has the die applied what the enqueuing lane released, so that a take may acquire it (10 R225)? -/
def recCovered (s : State) (d : Nat) (r : TaskRec) : Bool := vLe r.vec (vecOf s d)

/-- A lane's take is an acquire at `.device`: it is done at once where its die has applied what the record's enqueue released. -/
def takeAcquire (s : State) (w : Wave) (isq l : Nat) (r : TaskRec) : State :=
  if recCovered s (waveDie w) r then discardFor s w.core .device else issueRead s w isq 0 l (.take r.vec) [] .none

/-- R290: the records that lanes take, oldest first, and each lane's result. -/
def popLanes (x : Ctx) (stage isq : Nat) : List Nat → State → List LaneRes × State
  | [], s => ([], s)
  | l :: r, s =>
    match takeable s (waveDie x.w) x.l.uid stage with
    | none => let y := popLanes x stage isq r s; (⟨l, [], some false, none⟩ :: y.1, y.2)
    | some t =>
      let s := updWave (takeAcquire (dropRec s t.id) x.w isq l t) x.c.wave fun w => { w with
        task := setBit w.task l true
        tbnd := if x.l.lr.search.isSome then laneSet w.tbnd l (t.bound.getD 0) else w.tbnd }
      let y := popLanes x stage isq r s
      (⟨l, t.words.toList, some true, none⟩ :: y.1, y.2)

def execQpop (g : Guard) (la : BitVec 4) (o : QpopOp) (s : State) : Out :=
  runTask g o.stage s fun _ x s =>
    let q := isqOf s
    let y := popLanes x o.stage.toNat q.1 (lanesOf x.act) q.2
    .done (openDone y.2 x.c la { gd := some (o.d.toNat, 16), pd := if o.pr = 7 then none else some o.pr } y.1 [])

/-- R291. -/
def execQstat (g : Guard) (la : BitVec 4) (d : Reg) (stage : BitVec 3) (s : State) : Out :=
  runTask g stage s fun _ x s =>
    let k := stage.toNat
    let die := waveDie x.w
    let v := word64 (BitVec.ofNat 32 (occupancy s x.l.uid k die)) (BitVec.ofNat 32 (kvGet 0 (k * 4 + die) x.l.quota))
    .done (putLater s x la true true d fun _ => v)

end Sys2Proof.Machine
end

