-- ==== Sys2Proof/Machine/Place.lean ====
section
/-! DEFINITION. How the dispatcher and the hoop units place work on cores and end it (02 R29 to R53, 14 R280 to R286, 19 R364 to R369,
20 R370, 22 R384). -/

namespace Sys2Proof.Machine

/-! ### Resources of a core (R369) -/

/-- Does a wave hold its slot (R33, 07 R164)? -/
def holdsSlot (w : Wave) : Bool := w.exited != allLanes || !mxSettled w

structure Amounts where
  blocks : Nat
  waves : Nat
  regs : Nat
  spad : Nat
  carve : Nat
  tiles : Nat
  deriving DecidableEq, Repr, Inhabited

def coreCap : Amounts := ⟨32, 64, 2048, 327680, 131072, 64⟩

def wavesOf (lr : LaunchRec) (hoop : Bool) : Nat := if hoop then 1 else (lr.block + 31) / 32

/-- What a block of `W` waves needs, `w` of them holding their slots. -/
def need (lr : LaunchRec) (W w : Nat) : Amounts := ⟨1, w, w * lr.regs, lr.spad, W * 32 * lr.lpriv, w * lr.tiles⟩

def Amounts.plus (a b : Amounts) : Amounts :=
  ⟨a.blocks + b.blocks, a.waves + b.waves, a.regs + b.regs, a.spad + b.spad, a.carve + b.carve, a.tiles + b.tiles⟩
def Amounts.fits (a b : Amounts) : Bool :=
  a.blocks ≤ b.blocks && a.waves ≤ b.waves && a.regs ≤ b.regs && a.spad ≤ b.spad && a.carve ≤ b.carve && a.tiles ≤ b.tiles

def setMode (s : State) (u : Nat) (m : BlkMode) : State := updBlock s u fun b => { b with mode := m }

/-- What the blocks on a core hold. -/
def heldOn (s : State) (core : Nat) : Amounts :=
  (s.blocks.filter fun b => b.core == core && holdsCore b).foldl (fun a b =>
    match findLaunch s b.launch with
    | none => a
    | some l => a.plus (need l.lr b.nwaves b.nwaves)) ⟨0, 0, 0, 0, 0, 0⟩

def fitsOn (s : State) (core : Nat) (n : Amounts) : Bool := ((heldOn s core).plus n).fits coreCap

/-- Blocks of one launch that an empty core holds: the limiting resource decides. -/
def perCore (n : Amounts) : Nat :=
  let q := fun c k : Nat => if k = 0 then none else some (c / k)
  ([q coreCap.blocks n.blocks, q coreCap.waves n.waves, q coreCap.regs n.regs, q coreCap.spad n.spad,
    q coreCap.carve n.carve, q coreCap.tiles n.tiles].filterMap id).foldl min 32

/-- The free wave slots of a core, in increasing order. -/
def freeSlots (s : State) (core : Nat) : List Nat :=
  (List.range 64).filter fun k => !(s.waves.any fun w => w.core == core && w.slot == k &&
    match findBlock s w.blk with | some b => holdsCore b | none => true)

/-- Some of the lines of a list, freely chosen. -/
def someOf : List Nat → State → List Nat × State
  | [], s => ([], s)
  | k :: r, s => let y := someOf r s; let c := choose 2 y.2; (if c.1 = 0 then y.1 else k :: y.1, c.2)

/-- R193: the storage of lane-private slices is carved from a core's L1, or freed: which lines occupied it the spec leaves open; what is
left holds no more. -/
def carve (s : State) (core lpriv : Nat) : State :=
  if lpriv = 0 then s
  else
    let y := someOf (l1Lines s.mem core) s
    let m := { y.2.mem with l1 := y.2.mem.l1.filter fun e => !(e.1 / 2 ^ 57 == core && y.1.contains (e.1 / 128)) }
    let extra := (l1Lines m core).length - l1Cap s core
    { y.2 with mem := (List.range extra).foldl (fun m _ => boundL1 (l1Cap s core) core (2 ^ 57 * nCores) m) m }

/-- The slices of a block's lanes are carved, or freed. -/
def carveFor (s : State) (b : Block) : State :=
  match findLaunch s b.launch with | some l => carve s b.core l.lr.lpriv | none => s

/-- Has a block's last wave left its slot? -/
def retires (s : State) (d : Nat) (b : Block) : Bool :=
  dieOfCore b.core == d && holdsCore b && (s.waves.filter (·.blk == b.uid)).all fun w => !holdsSlot w

/-- R370: the blocks of a die whose last wave has left its slot free what they hold for the next cycle. -/
def retireBlocks (s : State) (d : Nat) : State :=
  (s.blocks.filter (retires s d)).foldl carveFor
    { s with blocks := s.blocks.map fun b => if retires s d b then { b with mode := .ended none } else b }

/-! ### Level instances (R36, R37, R45) -/

def topLevel (lr : LaunchRec) : Nat := lr.levels.length + 2
/-- Blocks of one instance of the highest declared level. -/
def gang (lr : LaunchRec) : Nat := levelBlocks lr (topLevel lr)
/-- Stage 0 blocks of the launch. -/
def gridBlocks (lr : LaunchRec) : Nat := lr.grid * gang lr

def domOf (dom core : Nat) : Nat :=
  match dom with | 0 => core | 1 => clusterOfCore core | 2 => dieOfCore core | _ => 0

def coresOf (lr : LaunchRec) : List Nat := (List.range lr.ncores).map (lr.core0 + ·)
def mayUse (lr : LaunchRec) (core : Nat) : Bool := lr.core0 ≤ core && core < lr.core0 + lr.ncores

def rotate (l : List Nat) (n : Nat) : List Nat := if l.isEmpty then l else l.drop (n % l.length) ++ l.take (n % l.length)
def extProd (ls : List LevelBind) : Nat := ls.foldl (fun a e => a * e.ext) 1

/-- The core of block `j` of instance number `n` of the first level of a list, highest first, where such instances take the cores `l`
in order. Instances of a narrower domain take the instances of that domain in turn, and then the next cores of each (R36, R45). -/
def placeIn : List LevelBind → List Nat → Nat → Nat → Nat
  | [], l, n, _ => l.getD (n % l.length) 0
  | e :: r, l, n, j =>
    if e.dom = 0 then l.getD (n % l.length) 0
    else
      let i := n * e.ext + j / extProd r
      match r with
      | [] => l.getD (i % l.length) 0
      | c :: _ =>
        if c.dom = 0 || c.dom = e.dom then placeIn r l i (j % extProd r)
        else
          let gs := (l.map (domOf c.dom)).eraseDups
          let g := gs.getD (i % gs.length) 0
          placeIn r (l.filter fun k => domOf c.dom k == g) (i / gs.length) (j % extProd r)

/-- The core of block `j` of an instance whose first block is on core `c` (R45). -/
def coreInGang (lr : LaunchRec) (c j : Nat) : Nat :=
  match lr.levels.reverse with
  | [] => c
  | e :: r =>
    let cs := (coresOf lr).filter fun k => domOf e.dom k == domOf e.dom c
    placeIn (e :: r) (rotate cs (cs.findIdx (· == c))) 0 j

/-- The cores of an instance whose first block is on core `c`. -/
def gangCores (lr : LaunchRec) (c : Nat) : List Nat := ((List.range (gang lr)).map (coreInGang lr c)).eraseDups

/-- The core to which an instance is assigned. -/
def assignedCore (lr : LaunchRec) (q : Nat) : Nat := lr.core0 + q * gang lr % lr.ncores
/-- The cores on which blocks of an instance are assigned. -/
def instCores (lr : LaunchRec) (q : Nat) : List Nat := gangCores lr (assignedCore lr q)

/-- `lvlK` of a block (R37). -/
def lvlOf (lr : LaunchRec) (bid k : Nat) : Nat :=
  if topLevel lr < k then 0
  else
    let x := bid / levelBlocks lr k
    match lr.levels[k - 2]? with
    | some e => x % e.ext
    | none => x

/-! ### Starting waves (R32, R33, R38) -/

/-- A wave as it starts. `ts` are the records of a hoop-formed wave. -/
def newWave (uid launch blk core slot idx bid stage : Nat) (lr : LaunchRec) (hoop : Bool) (ts : List TaskRec) : Wave where
  uid := uid
  launch := launch
  blk := blk
  core := core
  slot := slot
  hoop := hoop
  stage := stage
  waveid := BitVec.ofNat 32 idx
  blockid := if hoop then BitVec.allOnes 32 else BitVec.ofNat 32 bid
  lvls := Vector.ofFn fun i : Fin 6 => if hoop then BitVec.allOnes 32 else BitVec.ofNat 32 (lvlOf lr bid (i + 2))
  nregs := lr.regs
  ntiles := lr.tiles
  g := (List.range lr.regs).map fun r =>
    if r < 16 then Vector.ofFn fun i : Fin 32 => match ts[i.val]? with | some t => vecGet t.words 0 r | none => 0
    else zeroLanes
  s := .replicate 64 0
  p := Vector.ofFn fun i : Fin 8 => if i.val = 7 then allLanes else 0
  em := lowMask (if hoop then ts.length else lr.block - 32 * idx)
  exited := ~~~(lowMask (if hoop then ts.length else lr.block - 32 * idx))
  q := .replicate 16 (.replicate 32 .closed)
  tiles := List.replicate lr.tiles ⟨.f32, []⟩
  accInf := false
  accSat := false
  fmtErr := false
  mxOps := []
  mxBatches := []
  mxCtr := 0
  mxSerial := 0
  wcyc := 0
  wtdl := 0
  timer := false
  wnew := false
  thb := 0
  tbnd := Vector.ofFn fun i : Fin 32 => match ts[i.val]? with | some t => t.bound.getD 0 | none => 0
  task := if hoop then lowMask ts.length else 0
  ticketCtr := 0
  tickets := []
  splits := []
  orph := []

/-- The waves of a block start, each in its own slot. -/
def startWaves (l : Launch) (b : Block) (ts : List TaskRec) (pc : VAddr) : List Nat → List Nat → State → State
  | [], _, s => s
  | _, [], s => s
  | k :: sl, i :: r, s =>
    let w := newWave s.nid l.uid b.uid b.core k i b.bid b.stage l.lr b.hoop ts
    let s := { s with nid := s.nid + 1 }
    let p := newSplit s.nid 0 .arm pc (~~~w.exited) (mkAge s w)
    startWaves l b ts pc sl r { s with nid := s.nid + 1, waves := s.waves ++ [{ w with splits := [p] }] }

def stageEntry (l : Launch) (stage : Nat) : VAddr :=
  pcOf (BitVec.ofNat 64 (l.lr.code + (l.lr.stages.getD stage ⟨0, 0, none⟩).entry))

/-- R71: each wave's entry is checked as it starts; where its TMASK bit is clear the wave, which has no handler yet, ends by BADTGT
(log 81). -/
def checkEntry (l : Launch) (core : Nat) (pc : VAddr) : List Wave → State → State
  | [], s => s
  | w :: r, s =>
    let y := targetOk s l core l.admT pc
    checkEntry l core pc r (if y.1 then y.2 else killWave y.2 w.uid 0 Cause.badtgt.code)

/-- A block starts on a core, with an acquire at `.device` (10 R225). -/
def startBlock (s : State) (l : Launch) (core bid stage : Nat) (hoop : Bool) (ts : List TaskRec) : State :=
  let W := wavesOf l.lr hoop
  let b : Block := ⟨s.nid, l.uid, core, bid, hoop, stage, s.nid, W, .empty, .empty, 0, [], [], [], .run, []⟩
  let s := { s with nid := s.nid + 1, blocks := s.blocks ++ [b] }
  let s := startWaves l b ts (stageEntry l stage) (freeSlots s core) (List.range W) s
  checkEntry l core (stageEntry l stage) (s.waves.filter (·.blk == b.uid)) (discardFor s core .device)

/-! ### Which blocks may start (R45, R46, R53, R279, R286, R365, R394, R403) -/

/-- Does the dispatcher start work on a core? -/
def coreOpen (s : State) (core : Nat) : Bool :=
  s.fready.getLsbD (5 + dieOfCore core) && !s.vacated.contains core && (vecGet s.ctls .reset 1).phase == .armed

/-- The stage's waves resident on a die. -/
def stageWaves (s : State) (launch stage die : Nat) : Nat :=
  (s.waves.filter fun w => w.launch == launch && w.stage == stage && waveDie w == die && holdsSlot w).length
def quotaOf (l : Launch) (stage die : Nat) : Nat := kvGet 0 (stage * 4 + die) l.quota

/-! Dependences (R365, R366). -/

structure DepMap where
  cw : Nat
  pw : Nat
  ax : Nat
  ay : Nat
  rw : Nat
  rh : Nat
  bx : Int
  byy : Int
  pn : Nat
  deriving DecidableEq, Repr, Inhabited

def depMap (bs : List Byte) : DepMap :=
  let n := leNat bs
  ⟨bits n 0 16, bits n 16 16, bits n 32 8, bits n 40 8, bits n 48 8, bits n 56 8, sx 16 (bits n 64 16), sx 16 (bits n 80 16), bits n 96 32⟩

/-- The producer's blocks whose bits a block needs. -/
def neededBits (m : DepMap) (b : Nat) : List Nat :=
  let x := b % m.cw
  let y := b / m.cw
  (List.range m.rh).flatMap fun (j : Nat) => (List.range m.rw).filterMap fun (i : Nat) =>
    let px : Int := ((m.ax * x + i : Nat) : Int) + m.bx
    let py : Int := ((m.ay * y + j : Nat) : Int) + m.byy
    if 0 ≤ px && px < m.pw && 0 ≤ py && py * m.pw + px < m.pn then some (py * m.pw + px).toNat else none

/-- One bit of a bitmap, by a plain read on a die: a poisoned byte reads as R208's pattern. -/
def bitmapBit (s : State) (l : Launch) (die base n : Nat) : Bool × State :=
  match xlate s l.lr.tenant l.lr.root (base + n / 8) .read with
  | (.error _, s) => (false, s)
  | (.ok x, s) =>
    match x.loc with
    | .gm pa => ((if viewPsn s die pa then 0xFF else viewByte s die pa).getLsbD (n % 8), touchMem s pa)
    | k => (((unitGet s k 1).1.headD 0).getLsbD (n % 8), s)

def allBits (l : Launch) (die base : Nat) : List Nat → State → Bool × State
  | [], s => (true, s)
  | n :: r, s => let y := bitmapBit s l die base n; if y.1 then allBits l die base r y.2 else y

def depsMet (s : State) (l : Launch) (die b : Nat) : Bool × State :=
  if l.lr.depBitmap = 0 then (true, s) else allBits l die l.lr.depBitmap (neededBits (depMap l.lr.map) b) s

/-- The blocks of an instance start together, none unless all fit and their dependences are met. -/
def startGang (l : Launch) (c q : Nat) : List Nat → State → Option State
  | [], s => some s
  | j :: r, s =>
    let core := coreInGang l.lr c j
    let bid := q * gang l.lr + j
    let W := wavesOf l.lr false
    if !coreOpen s core || !fitsOn s core (need l.lr W W) then none
    else
      let d := depsMet s l (dieOfCore core) bid
      if d.1 then startGang l c q r (startBlock d.2 l core bid 0 false []) else none

/-- Take the blocks of an instance out of the ranges not started. -/
def takeTodo (lo n : Nat) : List (Nat × Nat) → List (Nat × Nat)
  | [] => []
  | (a, b) :: r =>
    if a ≤ lo && lo < b then ([(a, lo), (lo + n, b)].filter fun x => x.1 < x.2) ++ r else (a, b) :: takeTodo lo n r

def gangQuota (s : State) (l : Launch) (c : Nat) : Bool :=
  (List.range (gang l.lr)).all fun j =>
    let d := dieOfCore (coreInGang l.lr c j)
    stageWaves s l.uid 0 d < quotaOf l 0 d

/-- An instance starts with its first block on a core. -/
def startInstance (s : State) (l : Launch) (c q : Nat) : Option State :=
  if !gangQuota s l c then none
  else (startGang l c q (List.range (gang l.lr)) s).map fun s =>
    updLaunch s l.uid fun l => { l with todo := takeTodo (q * gang l.lr) (gang l.lr) l.todo }

/-- The lowest instance not started that has a block assigned to a core. -/
def headInstance (l : Launch) (core : Nat) : Option Nat :=
  l.todo.findSome? fun r =>
    ((List.range l.lr.ncores).map (r.1 / gang l.lr + ·)).find? fun q => q * gang l.lr < r.2 && (instCores l.lr q).contains core

/-- The instance that a core starts next: its first block is assigned there, and on none of its cores does an earlier block wait to
start (R45). -/
def nextInstance (l : Launch) (core : Nat) : Option Nat :=
  (headInstance l core).bind fun q =>
    if assignedCore l.lr q == core && (instCores l.lr q).all fun c => headInstance l c == some q then some q else none

/-- The highest instance not started that has a block assigned to a core. -/
def lastInstance (l : Launch) (core : Nat) : Option Nat :=
  l.todo.reverse.findSome? fun r =>
    let q1 := r.2 / gang l.lr
    ((List.range l.lr.ncores).filterMap fun i => if i < q1 then some (q1 - 1 - i) else none).find? fun q =>
      r.1 ≤ q * gang l.lr && (instCores l.lr q).contains core

/-- Does launch `a` come before `b` in the device launch queue (R279)? -/
def outranks (a b : Launch) : Bool := b.lr.prio < a.lr.prio || (a.lr.prio == b.lr.prio && a.adm < b.adm)

/-- Is a core's die at the start of a cycle that follows the launch's admission (R370, 22 R384)? -/
def startsNow (s : State) (l : Launch) (core : Nat) : Bool :=
  let d := dieOfCore core
  !vecGet s.begun true d && vecGet s.dcyc 0 d != vecGet l.admCyc 0 d

/-- R53: a started block that waits to be restored or restarted comes first. -/
def savedFirst (s : State) (l : Launch) (core : Nat) : Bool :=
  s.saved.any fun v => match findLaunch s v.blk.launch with
    | some k => l.lr.prio ≤ k.lr.prio && mayUse k.lr core && (v.blk.hoop || k.lr.steal || v.blk.core == core)
    | none => false

/-- The instance that a launch starts with its first block on a core, where all of it may start (R370). -/
def startReady (s : State) (l : Launch) (core : Nat) : Option State :=
  (nextInstance l core).bind fun q =>
    if (instCores l.lr q).any (savedFirst s l) then none else startInstance s l core q

/-- The start that R370 gives a launch on a core: every die with a block of the instance is at a cycle's start (R384). -/
def startOn (s : State) (l : Launch) (core : Nat) : Option State :=
  if !(((nextInstance l core).map (instCores l.lr)).getD []).all (startsNow s l) then none else startReady s l core

/-- Blocks of a launch not started that are assigned to cores that satisfy `f`. -/
def countTodo (l : Launch) (f : Nat → Bool) : Nat :=
  let per := fun q => ((List.range (gang l.lr)).filter fun j => f (coreInGang l.lr (assignedCore l.lr q) j)).length
  let sum := fun lo n => (List.range n).foldl (fun a i => a + per (lo + i)) 0
  l.todo.foldl (fun a r =>
    let lo := r.1 / gang l.lr
    let hi := r.2 / gang l.lr
    -- the assignment repeats after as many instances as there are cores
    a + (hi - lo) / l.lr.ncores * sum lo l.lr.ncores + sum lo ((hi - lo) % l.lr.ncores)) 0

/-- R46: the core with the most blocks not started, ties to the lower. -/
def donor (l : Launch) : Option Nat :=
  let cs := (coresOf l.lr).map fun c => (c, countTodo l (· == c))
  match cs.filter fun x => 0 < x.2 with
  | [] => none
  | x :: r => some (r.foldl (fun b y => if b.2 < y.2 then y else b) x).1

/-- Does the core to which an instance is assigned start it in this cycle? It comes before a core that would take it (R46). -/
def ownerStarts (s : State) (l : Launch) (q : Nat) : Bool :=
  nextInstance l (assignedCore l.lr q) == some q && (startOn s l (assignedCore l.lr q)).isSome

/-- The instance that a core takes of a launch, where no other launch comes before it (R46). -/
def stealOn (s : State) (l : Launch) (core : Nat) : Option State :=
  let cs := gangCores l.lr core
  if !l.lr.steal || !mayUse l.lr core || !cs.all (startsNow s l) || (headInstance l core).isSome || cs.any (savedFirst s l) then none
  else (donor l).bind fun d => (lastInstance l d).bind fun q => if ownerStarts s l q then none else startInstance s l core q

/-- Has a launch that comes before `l` a start to make on one of these cores, of a block assigned there or of one it takes (R279)? An
instance that waits for a die whose present cycle is not over its start, and is the launch's own admission cycle, makes none yet (22 R384,
log 112). -/
def outranked (s : State) (l : Launch) (cs : List Nat) : Bool :=
  s.launches.any fun k => outranks k l &&
    ((cs.any fun c => startsNow s k c && ((headInstance k c).bind fun q =>
        if (instCores k.lr q).all fun x => startsNow s k x || vecGet s.begun true (dieOfCore x) then startReady s k (assignedCore k.lr q)
        else none).isSome) ||
     (k.lr.steal && (coresOf k.lr).any fun c => (gangCores k.lr c).any cs.contains && (stealOn s k c).isSome))

def blockStartS (s : State) (launch core : Nat) : Option State :=
  (findLaunch s launch).bind fun l => (nextInstance l core).bind fun q =>
    if outranked s l (instCores l.lr q) then none else startOn s l core

def execBlockStart (launch core : Nat) (s : State) : Out := move s (blockStartS s launch core)

/-- Is there a start that a die's present cycle does not pass without (R370, 22 R384)? An instance on several dies holds each of them at
the start of a cycle until all are there. -/
def startDue (s : State) (d : Nat) : Bool :=
  s.launches.any fun l => !l.todo.isEmpty && (coresOf l.lr).any fun c =>
    ((nextInstance l c).any fun q => (instCores l.lr q).any fun k => dieOfCore k == d && startsNow s l k) && (startReady s l c).isSome

def blockStealS (s : State) (launch core : Nat) : Option State :=
  (findLaunch s launch).bind fun l => if outranked s l (gangCores l.lr core) then none else stealOn s l core

def execBlockSteal (launch core : Nat) (s : State) : Out := move s (blockStealS s launch core)

/-! ### Hoop formation (R42, R43) -/

/-- A group's records that wait at the start of the cycle. -/
def waitingAt (s : State) (d launch stage : Nat) : List TaskRec :=
  let now := (vecGet s.dcyc 0 d).toNat
  byPos ((groupOn s d launch stage).filter fun r => r.spilled.isNone && r.cyc < now)

/-- The cycle of a group's last arrival before the cycle `now`. -/
def arrivedBefore (s : State) (k now : Nat) : Nat :=
  if kvGet 0 k s.tasks.lastArr = now then kvGet 0 k s.tasks.prevArr else kvGet 0 k s.tasks.lastArr

/-- Does a group form a wave on a core in this cycle? -/
def groupForms (s : State) (l : Launch) (d stage core : Nat) : Bool :=
  let now := (vecGet s.dcyc 0 d).toNat
  let k := groupKey l.uid stage d
  let n := (waitingAt s d l.uid stage).length
  (32 ≤ n || (0 < n && arrivedBefore s k now + 64 < now)) && kvGet 0 k s.tasks.formed != now + 1 &&
  mayUse l.lr core && dieOfCore core == d && s.fready.getLsbD (5 + d) && !s.vacated.contains core &&
  fitsOn s core (need l.lr 1 1) && stageWaves s l.uid stage d < quotaOf l stage d

/-- Groups are served by launch, then by stage (R42). -/
def groupFirst (s : State) (l : Launch) (d stage core : Nat) : Bool :=
  !(s.launches.any fun k => (List.range 8).any fun t =>
    (outranks k l || (k.uid == l.uid && t < stage)) && groupForms s k d t core)

/-- Fell point 1: the records whose bound fails against the core's copy are felled. -/
def hoopFell (core : Nat) : List TaskRec → State → List TaskRec × State
  | [], s => ([], s)
  | r :: rs, s =>
    let s := dropRec s r.id
    let x := match recSlot s r with
      | some (n, b) => if boundFails b (coreCopy s core n) then some n else none
      | none => none
    match x with
    | some n => hoopFell core rs (addFelled s n 1)
    | none => let y := hoopFell core rs s; (r :: y.1, y.2)

/-- A hoop-formed wave (02 R42). DESIGN CHOICE (log 121): in a cycle in which the die has not yet applied what a record's enqueuer released
(10 R225) no wave is formed of its group, and the cycle passes. -/
def hoopS (s : State) (d launch stage core : Nat) : Option State :=
  (findLaunch s launch).bind fun l =>
    let ts := (waitingAt s d launch stage).take 32
    if vecGet s.begun true d || !groupForms s l d stage core || !groupFirst s l d stage core || !ts.all (recCovered s d) then none
    else
      let now := (vecGet s.dcyc 0 d).toNat
      let r := hoopFell core ts s
      let s := updTasks r.2 fun t => { t with formed := kvPut 0 (groupKey launch stage d) (now + 1) t.formed }
      some (if r.1.isEmpty then s else addPerf (startBlock s l core 0 stage true r.1) core 8 1)

/-- Is there a wave that the start of a die's present cycle forms (R42)? -/
def hoopDue (s : State) (d : Nat) : Bool :=
  s.tasks.recs.any (·.die == d) && s.launches.any fun l => (List.range 8).any fun k => (coresOf l.lr).any fun c =>
    dieOfCore c == d && (hoopS s d l.uid k c).isSome

def execHoopFormation (die launch stage core : Nat) (s : State) : Out := move s (hoopS s die launch stage core)

/-! ### Quotas and balancing (R285, R286) -/

def launchDies (lr : LaunchRec) : List Nat := ((coresOf lr).map dieOfCore).eraseDups

def insDec (f : Nat → Nat) (k : Nat) : List Nat → List Nat
  | [] => [k]
  | j :: r => if f j < f k then k :: j :: r else j :: insDec f k r

/-- Stages in decreasing order of `f`, ties to the lower. -/
def byDec (f : Nat → Nat) (l : List Nat) : List Nat := l.foldl (fun a k => insDec f k a) []

/-- One more for the first `r` stages of a list. -/
def giveOne : List Nat → Nat → Kv Nat → Nat × Kv Nat
  | [], r, q => (r, q)
  | k :: ks, r, q => if r = 0 then (r, q) else giveOne ks (r - 1) (kvPut 0 k (kvGet 0 k q + 1) q)

/-- The procedure of R286: `P` slots among the stages `U` with occupancies `o`; quotas by stage. -/
def shareOut (P : Nat) (o : Nat → Nat) (U : List Nat) : Kv Nat :=
  let O := U.foldl (fun a k => a + o k) 0
  if O = 0 then []
  else
    let q : Kv Nat := U.foldl (fun m k => kvPut 0 k (P * o k / O) m) []
    let r := P - U.foldl (fun a k => a + P * o k / O) 0
    let a := giveOne (U.filter fun k => kvGet 0 k q == 0) r q
    (giveOne (byDec (fun k => P * o k % O) U) a.1 a.2).2

def stageBlocked (s : State) (l : Launch) (b : StageBind) (d : Nat) : Bool :=
  match b.out with
  | some k => (l.lr.stages.getD k ⟨0, 0, none⟩).depth ≤ occupancy s l.uid k d
  | none => false

/-- A launch's quotas on a die. -/
def quotasOn (s : State) (l : Launch) (d : Nat) : Kv Nat :=
  let cs := (coresOf l.lr).filter fun c => dieOfCore c == d
  let others := (s.waves.filter fun w => w.launch != l.uid && holdsSlot w && cs.contains w.core).length
  let o := fun k => if k = 0 then countTodo l fun c => dieOfCore c == d else occupancy s l.uid k d
  let U := (List.range 8).filter fun k =>
    let b := l.lr.stages.getD k ⟨0, 0, none⟩
    b.depth != 0 && 0 < o k && !stageBlocked s l b d
  shareOut (64 * cs.length - others) o U

def setQuotas (s : State) (launch d : Nat) : State :=
  match findLaunch s launch with
  | none => s
  | some l =>
    let q := quotasOn s l d
    updLaunch s launch fun l => { l with
      quota := (List.range 8).foldl (fun m k => kvPut 0 (k * 4 + d) (kvGet 0 k q) m) l.quota }

/-- A record moves to another die's vat (R285). -/
def moveRec (s : State) (r : TaskRec) (d : Nat) : State :=
  let c := (vecGet s.dcyc 0 d).toNat
  match enterVat (dropRec s r.id) { r with die := d, cyc := c } false with
  | some s => updTasks s fun t => noteArrival t (groupKey r.launch r.stage d) c
  | none => s

/-- One receiver of one stage. -/
def balanceOne (s : State) (l : Launch) (stage : Nat) (d : Nat) : State :=
  if occupancy s l.uid stage d ≠ 0 then s
  else
    let n := fun e => ((groupOn s e l.uid stage).filter (·.spilled.isNone)).length
    match byDec n (launchDies l.lr) with
    | e :: _ =>
      let rs := byPos ((groupOn s e l.uid stage).filter (·.spilled.isNone))
      (rs.drop (rs.length - min 1024 (n e / 2))).foldl (fun s r => moveRec s r d) s
    | [] => s

/-- The receivers hold no record of the stage at the boundary. -/
def balance (s : State) (l : Launch) : State :=
  (List.range 8).foldl (fun s k =>
    if (taskStage l k).isNone then s
    else ((launchDies l.lr).filter fun d => occupancy s l.uid k d == 0).foldl (fun s d => balanceOne s l k d) s) s

/-- DEDUCED (log 103): each die's quota boundary is its own; the stages are balanced over all dies before the die's quotas are set. -/
def quotaS (s : State) (d : Nat) : Option State :=
  let c := vecGet s.dcyc 0 d
  if nDies ≤ d || c.toNat % 1024 ≠ 0 || c == vecGet s.quotaAt 0 d || (vecGet s.ctls .reset 1).phase != .armed then none
  else
    let s := s.launches.foldl balance s
    let s := s.launches.foldl (fun s l => setQuotas s l.uid d) s
    some { s with quotaAt := vecSet s.quotaAt d c }

def execQuotaBoundary (die : Nat) (s : State) : Out := move s (quotaS s die)

/-! ### The end of blocks and launches (R280, R364, R367) -/

/-- Has everything that the wave's lanes issued been done, and every write of others that they read been applied (10 R219)? -/
def waveQuiet (s : State) (w : Wave) : Bool :=
  !(s.mem.acts.any fun a => a.lane.wave == w.uid) &&
  !(s.mem.wb.any fun b => b.lane.wave == w.uid || b.readers.any (·.lane.wave == w.uid)) &&
  !(s.mem.remoteW.any fun b => b.lane.wave == w.uid) && !(s.graph.ops.any fun o => o.lane.wave == w.uid) &&
  !(s.search.ops.any fun o => o.lane.wave == w.uid)

/-- R364: the block's bit is set by an atomic at its home die, once that die has applied what the block's end releases, or is lost;
nothing while it has not. -/
def setBitmap (s : State) (l : Launch) (bid : Nat) (rel : Vec) : Option State :=
  match xlate s l.lr.tenant l.lr.root (l.lr.bitmap + bid / 8) .atom with
  | (.error _, s) => some (setLaunchFlag s l.uid 14)
  | (.ok x, s) =>
    let fn := AtomFn.setBit (BitVec.ofNat 8 (2 ^ (bid % 8)))
    match x.loc with
    | .gm pa =>
      if !vLe rel (vecOf s (homeDie s pa)) || !locUp s x.loc then none
      else
        let old := unitGet s x.loc 1
        some (if old.2 then setLaunchFlag s l.uid 14 else unitAtom s (bmpKey l.uid) x.loc 1 fn)
    | k => some (unitAtom s (bmpKey l.uid) k 1 fn)

def removeBlock (s : State) (u : Nat) : State :=
  { s with blocks := s.blocks.filter (·.uid != u), waves := s.waves.filter (·.blk != u) }

/-- R348: a failed `cdisp` or `cmsg` that a wave has not waited on when it ends. -/
def reportTickets (s : State) (w : Wave) : State :=
  w.tickets.foldl (fun s t => match t.done with
    | some c => if c.code = 0 || t.mig || t.seen then s else setCaveErr s w.launch c.code
    | none => s) s

/-- A block leaves for good. -/
def dropBlock (s : State) (u : Nat) : State :=
  removeBlock ((s.waves.filter (·.blk == u)).foldl reportTickets s) u

/-- A block's end is counted. -/
def countEnd (s : State) (b : Block) : State :=
  let s := dropBlock ((s.waves.filter (·.blk == b.uid)).foldl (fun s w => discardOps s w.uid) s) b.uid
  let v := vecOf s (dieOfCore b.core)
  updLaunch s b.launch fun l => { l with ended := if b.hoop then l.ended else l.ended + 1, rel := some (match l.rel with | some r => vMax r v | none => v) }

/-- Is everything that a block's waves issued done? Copies that wait for a chute slot no wave is left to release go with the block. -/
def blockDone (s : State) (b : Block) : Bool :=
  (s.waves.filter (·.blk == b.uid)).all (waveQuiet s) && !b.copies.any (·.running) && (copyStartS s b.uid).isNone

/-- A block whose resources are free ends: with a completion bitmap it first notes what its end releases, then sets its bit (R364). -/
def blockEndS (s : State) (u : Nat) : Option State :=
  (findBlock s u).bind fun b =>
    match b.mode with
    | .ended rel =>
      if !blockDone s b then none
      else
        match findLaunch s b.launch with
        | none => some (countEnd s b)
        | some l =>
          if b.hoop || l.lr.bitmap = 0 then some (countEnd s b)
          else
            match rel with
            | none => some (setMode s u (.ended (some (vecOf s (dieOfCore b.core)))))
            | some v => (setBitmap s l b.bid v).map fun s => countEnd s b
    | _ => none

def execBlockEnd (blk : Nat) (s : State) : Out := move s (blockEndS s blk)

/-- The completion record (R367) but for FLAGS. -/
def completionTail (l : Launch) : List Byte :=
  [l.tcode, l.ccode, l.sreason, 0] ++ leBytes l.saddr.toNat 8 ++ leBytes l.ended 8 ++ leBytes 0 8

def vf0 : VfRegs := .reset
def vfGet (s : State) (n : Nat) : VfRegs := kvGet vf0 n s.vf
def vfPut (s : State) (n : Nat) (f : VfRegs → VfRegs) : State := { s with vf := kvPut vf0 n (f (vfGet s n)) s.vf }

/-- R387: the queue registers of a function take effect while its queue is empty. -/
def takeQueue (v : VfRegs) : VfRegs :=
  if v.qhead == v.qtail then
    { v with qbase := v.heldBase.getD v.qbase, qlen := v.heldLen.getD v.qlen, heldBase := none, heldLen := none }
  else v

/-- A launch's record is written, FLAGS last, and its function's interrupt follows (23 R388). -/
def writeCompletion (s : State) (l : Launch) : State :=
  if l.lr.status = 0 then s
  else
    let a := unitStore s l.lr.tenant l.lr.root (l.lr.status + 4) (completionTail l)
    let b := unitStore a.2 l.lr.tenant l.lr.root l.lr.status (leBytes (l.flags ||| 0x80000000).toNat 4)
    let fn := if l.from64 < 64 then l.from64 else l.lr.tenant
    if b.1 && (vfGet b.2 fn).msien.getLsbD 0 then { b.2 with out := b.2.out ++ [.msi fn] } else b.2

/-- A slot that no launch binds any more is inactive (04 R93). -/
def releaseSlot (s : State) (n : Option Nat) : State :=
  match n with
  | some k => if s.launches.any fun l => l.lr.search == some k then s else updSlot s k fun x => { x with active := false }
  | none => s

/-- R225, R367: has the die where the record stands applied everything that the launch's blocks released? -/
def completionCovered (s : State) (l : Launch) : Bool × State :=
  if l.lr.status = 0 then (true, s)
  else
    match xlate s l.lr.tenant l.lr.root l.lr.status .write with
    | (.error _, s) => (true, s)
    | (.ok x, s) => (match x.loc, l.rel with | .gm pa, some v => vLe v (vecOf s (homeDie s pa)) | _, _ => true, s)

def completionS (s : State) (launch : Nat) : Option State :=
  (findLaunch s launch).bind fun l =>
    if !l.todo.isEmpty || s.blocks.any (·.launch == launch) || s.saved.any (·.blk.launch == launch) ||
      s.tasks.recs.any (·.launch == launch) || s.cave.works.any (·.launch == launch) ||
      s.mem.remoteW.any (·.lane == bmpKey launch) || !ctlRuns s 1 then none
    else
      let c := completionCovered s l
      if !c.1 then none
      else
      let s := writeCompletion c.2 l
      some (releaseSlot { s with launches := s.launches.filter (·.uid != launch) } l.lr.search)

def execLaunchCompletion (launch : Nat) (s : State) : Out := move s (completionS s launch)

end Sys2Proof.Machine
end

