-- ==== Sys2Proof/Machine/Admission.lean ====
section
/-! DEFINITION. The admission of launches (14 R279, 19 R352 to R356, R362): the head record of a launch queue is read, checked in the
order of R356, and enters the device launch queue or completes at once. -/

namespace Sys2Proof.Machine

/-! ### The launch record (R352 to R355) -/

/-- A level entry (R353). -/
def levelEntry (n k : Nat) : Nat := bits n (8 * (0x18 + 4 * k)) 32
/-- A window entry (R354). -/
def winEntry (n k : Nat) : Nat := bits n (8 * (0x80 + 8 * k)) 64
/-- A stage entry (R355). -/
def stageEnt (n k : Nat) : Nat := bits n (8 * (0xC0 + 8 * k)) 64

/-- A field of the record, by offset and bytes. -/
def fld (n off len : Nat) : Nat := bits n (8 * off) (8 * len)

/-- The record's own fields; those of its tenant are filled in at admission. -/
def parseRec (n : Nat) : LaunchRec where
  tenant := fld n 0x04 2
  prio := fld n 0x06 1
  idemp := bit (fld n 0x07 1) 0
  steal := bit (fld n 0x07 1) 1
  code := fld n 0x08 8
  grid := fld n 0x10 4
  block := fld n 0x14 2
  search := if bit (fld n 0x17 1) 7 then some (fld n 0x17 1 % 16) else none
  levels := (List.range (min 5 (fld n 0x16 1))).map fun k => ⟨bits (levelEntry n k) 0 16, bits (levelEntry n k) 16 2⟩
  regs := fld n 0x2C 2
  tiles := fld n 0x2E 1
  producer := fld n 0x2F 1
  spad := fld n 0x30 4
  lpriv := fld n 0x34 2
  dspad := fld n 0x38 4
  core0 := fld n 0x3C 2
  ncores := fld n 0x3E 2
  e := fld n 0x40 8
  bitmap := fld n 0x48 8
  depBitmap := fld n 0x50 8
  map := leBytes (fld n 0x58 16) 16
  redBase := fld n 0x68 8
  redLen := fld n 0x70 4
  status := fld n 0x78 8
  wins := (List.range 8).map fun k => ⟨bits (winEntry n k) 51 10 * 1024, pcVa (bits (winEntry n k) 0 51 * 64)⟩
  stages := (List.range 8).map fun k =>
    ⟨bits (stageEnt n k) 32 16, bits (stageEnt n k) 0 32, if bit (stageEnt n k) 51 then some (bits (stageEnt n k) 48 3) else none⟩
  root := 0
  clo := 0
  chi := 0
  priv := false
  spillBase := 0
  spillLen := 0
  pinBase := 0
  pinLen := 0
  ctxBase := 0
  ctxLen := 0

def levelsOk (n : Nat) : Bool :=
  let k := fld n 0x16 1
  (List.range 5).all fun i =>
    let e := levelEntry n i
    if i < k then bits e 18 14 == 0 && bits e 0 16 != 0 && (i == 0 || bits (levelEntry n (i - 1)) 16 2 ≤ bits e 16 2) else e == 0

def stageOk (n k : Nat) : Bool :=
  let e := stageEnt n k
  bits e 52 12 == 0 &&
  (if bit e 51 then bits e 48 3 != 0 && bits (stageEnt n (bits e 48 3)) 32 16 != 0 else bits e 48 3 == 0)

def mapOk (n : Nat) : Bool :=
  if fld n 0x50 8 = 0 then fld n 0x58 16 == 0
  else
    let m := depMap (leBytes (fld n 0x58 16) 16)
    m.cw != 0 && m.pw != 0 && m.rw != 0 && m.rh != 0 && m.pn != 0

/-- R356, step 1: is every field within its limits? -/
def recOk (n : Nat) : Bool :=
  let r := parseRec n
  fld n 0x00 4 == 1 && r.tenant < 64 && r.prio < 16 && fld n 0x07 1 < 4 && r.code % 64 == 0 && r.grid != 0 &&
  1 ≤ r.block && r.block ≤ 512 && fld n 0x16 1 ≤ 5 &&
  (if bit (fld n 0x17 1) 7 then bits (fld n 0x17 1) 4 3 == 0 else fld n 0x17 1 == 0) && levelsOk n &&
  8 ≤ r.regs && r.regs ≤ 256 && r.regs % 8 == 0 && r.tiles ≤ 8 && (r.producer == 0xFF || r.producer < (r.block + 31) / 32) &&
  r.spad ≤ 327680 && r.spad % 4096 == 0 && r.lpriv ≤ 4096 && r.lpriv % 64 == 0 && fld n 0x36 2 == 0 &&
  r.dspad ≤ 48 * 2 ^ 20 && r.dspad % 65536 == 0 && 1 ≤ r.ncores && r.core0 + r.ncores ≤ nCores &&
  r.bitmap % 8 == 0 && mapOk n && r.redBase % 64 == 0 && r.redLen % 64 == 0 && (r.redBase != 0 || r.redLen == 0) &&
  fld n 0x74 4 == 0 && r.status % 32 == 0 &&
  ((List.range 8).all fun k => bits (winEntry n k) 61 3 == 0 && bits (winEntry n k) 51 10 ≤ 512) &&
  ((List.range 8).all (stageOk n)) && bits (stageEnt n 0) 32 16 != 0 && gridBlocks r < 2 ^ 32

/-! ### The tenant entry (R362) -/

def tenantOk (s : State) (t : Nat) : Bool :=
  let f := tenantField s t
  let root := f 0 8
  let cs := f 0x1C 4
  bit root 0 && bits root 1 12 == 0 && bits root 57 7 == 0 && f 0x08 8 < f 0x10 8 && f 0x18 2 != 0 && f 0x1A 1 < 16 && f 0x1B 1 < 4 &&
  1 ≤ cs / 65536 && cs / 65536 ≤ 768 && cs % 65536 + cs / 65536 ≤ 768 &&
  f 0x20 8 % 128 == 0 && f 0x28 8 % 128 == 0 && f 0x30 8 % 32 == 0 && f 0x38 8 % 32 == 0 && f 0x40 8 % 64 == 0 && f 0x48 8 % 64 == 0 &&
  1 ≤ f 0x58 4 && f 0x58 4 ≤ 4096 && f 0x5C 4 ≤ 48 * 2 ^ 20 && f 0x5C 4 % 65536 == 0 && f 0x60 32 == 0

/-- The record with what its tenant's entry gives at admission. -/
def withTenant (s : State) (r : LaunchRec) : LaunchRec :=
  let f := tenantField s r.tenant
  { r with
    root := tenantRoot s r.tenant, clo := f 0x08 8, chi := f 0x10 8, priv := bit (f 0x1B 1) 0
    spillBase := f 0x20 8, spillLen := f 0x28 8, pinBase := f 0x30 8, pinLen := f 0x38 8, ctxBase := f 0x40 8, ctxLen := f 0x48 8 }

/-- R356, step 2; `from64` is the submitting function, or 64 for the fabric queue. -/
def tenantMatch (s : State) (r : LaunchRec) (from64 : Nat) : Bool :=
  let f := tenantField s r.tenant
  let cs := f 0x1C 4
  tenantOk s r.tenant && (if from64 < 64 then from64 == r.tenant else bit (f 0x1B 1) 1) && r.prio ≤ f 0x1A 1 &&
  cs % 65536 ≤ r.core0 && r.core0 + r.ncores ≤ cs % 65536 + cs / 65536 && r.dspad ≤ f 0x5C 4

/-! ### The other checks -/

/-- R36: does an empty instance of a level's domain, within the launch's cores, hold an instance of the level, with every narrower
instance whole in its own domain as R45 places it? DESIGN CHOICE (log 49): it is enough that the instance fits with its first block on
some core of the launch, however unequally the launch's cores lie in the domain's instances. -/
def levelFits (r : LaunchRec) (k : Nat) : Bool :=
  let per := perCore (need r (wavesOf r false) (wavesOf r false))
  let r' := { r with levels := r.levels.take (k - 2) }
  levelBlocks r k ≤ r.ncores * per && (coresOf r).any fun c =>
    let ps := (List.range (levelBlocks r k)).map (coreInGang r' c)
    ps.eraseDups.all fun x => ps.count x ≤ per

def levelCheck (r : LaunchRec) : Bool := (List.range (r.levels.length + 1)).all fun i => levelFits r (i + 2)

/-- R71: the entry's line is fetched and its slot is marked a target. -/
def entryOk (s : State) (l : Launch) (pc : VAddr) : Bool × State :=
  match slotOf (pc % 64) with
  | none => (false, s)
  | some k =>
    match fetchLine s l l.lr.core0 l.admT (pc - pc % 64) with
    | (.error _, s) => (false, s)
    | (.ok bs, s) => (lineTarget bs k, s)

def entriesOk (l : Launch) : List Nat → State → Bool × State
  | [], s => (true, s)
  | k :: r, s =>
    if (l.lr.stages.getD k ⟨0, 0, none⟩).depth = 0 then entriesOk l r s
    else let y := entryOk s l (stageEntry l k); if y.1 then entriesOk l r y.2 else y

/-- Is every page of a range open to an access? -/
def rangeOpen (s : State) (r : LaunchRec) (acc : Acc) (va n : Nat) : Bool × State :=
  match xlateRange r.tenant r.root acc (n / 4096 + 2) va n s with
  | (.ok _, s) => (true, s)
  | (.error _, s) => (false, s)

/-- R201: where the bytes of the bound windows lie; nothing where one is not wholly mapped and readable. -/
def winsAt (r : LaunchRec) : List WinBind → State → Option (List (List (Loc × Nat))) × State
  | [], s => (some [], s)
  | w :: ws, s =>
    match xlateRange r.tenant r.root .read (w.len / 4096 + 2) w.addr w.len s with
    | (.error _, s) => (none, s)
    | (.ok ps, s) => let y := winsAt r ws s; (y.1.map fun l => ps.map (fun p => (p.1.loc, p.2)) :: l, y.2)

/-- R356, steps 2 to 6: the bit of the status of the first check that fails, or none and where the windows lie. -/
def admitChecks (s : State) (l : Launch) : Option Nat × List (List (Loc × Nat)) × State :=
  if !tenantMatch s l.lr l.from64 then (some 12, [], s)
  else if !levelCheck l.lr then (some 8, [], s)
  else
    let a := entriesOk l (List.range 8) s
    if !a.1 then (some 9, [], a.2)
    else
      match winsAt l.lr l.lr.wins a.2 with
      | (none, s) => (some 10, [], s)
      | (some ps, s) =>
        if l.lr.bitmap = 0 then (none, ps, s)
        else
          let c := rangeOpen s l.lr .write l.lr.bitmap ((gridBlocks l.lr + 7) / 8)
          (if c.1 then none else some 13, ps, c.2)

/-! ### Admission (R279) -/

def mkLaunch (s : State) (n : Nat) (recAddr from64 : Nat) : Launch where
  uid := s.nid
  adm := s.admSeq
  lr := withTenant s (parseRec n)
  recAddr := recAddr
  from64 := from64
  admT := s.mem.clk
  vec := s.mem.hostVec
  admCyc := s.dcyc
  winAt := []
  flags := 0
  tcode := 0
  ccode := 0
  sreason := 0
  saddr := 0
  ended := 0
  todo := [(0, gridBlocks (parseRec n))]
  quota := []
  ds := .replicate 4 .empty
  rel := none
  nextTab := 0
  saveList := 0

/-- A rejected launch completes at once: its record is written with the status. -/
def rejectLaunch (s : State) (l : Launch) (bit : Nat) : State :=
  let t := if l.from64 < 64 then l.from64 else l.lr.tenant % 64
  writeCompletion s { l with flags := 1#32 <<< bit, lr := { l.lr with tenant := t, root := tenantRoot s t } }

/-- A launch whose record has been read: it is admitted, or rejected. -/
def enterLaunch (s : State) (bs : List Byte) (recAddr from64 : Nat) : State :=
  let n := leNat bs
  let l := mkLaunch s n recAddr from64
  let s := { s with nid := s.nid + 1, admSeq := s.admSeq + 1 }
  if !recOk n then rejectLaunch s l 11
  else
    let c := admitChecks s l
    match c.1 with
    | some b => rejectLaunch c.2.2 l b
    | none =>
      let s := c.2.2
      let s := match l.lr.search with
        | some k => if s.launches.any fun x => x.lr.search == some k then s else activateSlot s k
        | none => s
      -- where the dispatcher keeps the launch's tables is open (log 2)
      let a := draw s
      let b := draw a.2
      let s := { b.2 with
        graph := { b.2.graph with ran := b.2.graph.ran ++ [(l.lr.tenant, l.lr.code, b.2.mem.clk)] }
        launches := b.2.launches ++ [{ l with winAt := c.2.1, nextTab := BitVec.ofNat 64 a.1, saveList := BitVec.ofNat 64 b.1 }] }
      (List.range nDies).foldl (fun s d => setQuotas s l.uid d) s

/-- The head of a function's queue: its record and address; an unreadable one stops the queue (23 R387). -/
def hostHead (s : State) (fn : Nat) : Option (List Byte × Nat) × State :=
  let v := vfGet s fn
  if v.qlen = 0 || v.qhead = v.qtail || v.qerr.getLsbD 2 then (none, s)
  else
    let a := v.qbase.toNat + 256 * (v.qhead.toNat % v.qlen.toNat)
    match unitLoad s fn (tenantRoot s fn) a 256 with
    | (.error _, s) => (none, vfPut s fn fun v => { v with qerr := v.qerr ||| 4 })
    | (.ok r, s) => (some (r.1, a), s)

def hostHeads : List Nat → State → List (Nat × List Byte × Nat) × State
  | [], s => ([], s)
  | k :: r, s =>
    let h := hostHead s k
    let y := hostHeads r h.2
    (match h.1 with | some x => (k, x.1, x.2) :: y.1 | none => y.1, y.2)

/-- The head served: the highest priority, then the first at or after the round-robin position. -/
def serve (rr : Nat) (hs : List (Nat × List Byte × Nat)) : Option (Nat × List Byte × Nat) :=
  let prio := fun h : Nat × List Byte × Nat => (h.2.1.getD 6 0).toNat
  let dist := fun h : Nat × List Byte × Nat => (h.1 + 65 - rr) % 65
  match hs with
  | [] => none
  | h :: r => some (r.foldl (fun b y => if prio b < prio y || (prio b == prio y && dist y < dist b) then y else b) h)

/-- Does the dispatcher take launches in (23 R394, R403)? -/
def admits (s : State) : Bool :=
  s.fready.getLsbD 0 && s.fready.getLsbD 1 && s.fready.getLsbD 2 && (vecGet s.ctls .reset 1).phase == .armed &&
  s.launches.length < 4096 && !heldDue s uDispatch &&
  -- the tail write arrives after the host's earlier writes (log 82)
  (List.range 4).all fun e => vLe s.mem.hostVec (vecOf s e)

/-- Is there room on every die for a launch's die scratchpad beside those of the launches admitted (09 R190, R195)? DESIGN CHOICE (log 83):
a record with a field outside its limits needs none; one that a later check of R356 will reject waits for the room first. -/
def dspadRoom (s : State) (n : Nat) : Bool :=
  !recOk n || s.launches.foldl (fun a l => a + l.lr.dspad) (parseRec n).dspad ≤ 48 * 2 ^ 20

def admissionS (s : State) : Option State :=
  if !admits s then none
  else
    let y := hostHeads (List.range 64) s
    let hs := match y.2.fabric.queue.head? with
      | some f => y.1 ++ [(64, f.bytes, 0)]
      | none => y.1
    match serve s.rrpos hs with
    | none => some y.2
    | some (q, bs, a) =>
      if !dspadRoom y.2 (leNat bs) then some y.2 else
      let s := { y.2 with rrpos := (q + 1) % 65 }
      let s := if q < 64 then vfPut s q fun v => takeQueue { v with qhead := v.qhead + 1 }
        else { s with fabric := { s.fabric with queue := s.fabric.queue.tail } }
      some (enterLaunch s bs a q)

def execLaunchAdmission (s : State) : Out := move s (admissionS s)

end Sys2Proof.Machine
end

