-- ==== Sys2Proof/Machine/Atomic.lean ====
section
/-! DEFINITION. Atomics, fences, cache operations and prefetch (11 R237 to R244). -/

namespace Sys2Proof.Machine

def ordAcq (o : Ord6) (sc : Scope) : Option Scope := if o == .acq || o == .ar then some sc else none
def ordRel (o : Ord6) (sc : Scope) : Option Scope := if o == .rel || o == .ar then some sc else none

/-- One lane's atomic enters its issue stream: at the core or an on-chip memory, or in the write buffer on its way to the home
die (R222); one on another device's line always goes there (R238). -/
def issueAtom (s : State) (w : Wave) (isq win n : Nat) (ord : Ord6) (sc : Scope) (wide : Bool) (k : LaneLoc) (fn : AtomFn) : State :=
  let id := s.nid
  if k.loc.onChip || (k.loc.isGm && !wider sc .block) then
    issueRead s w isq win k.lane (.atomLocal fn (ordAcq ord sc) (ordRel ord sc) sc) [(k.loc, n)] (.atom wide)
  else
    let s := issueRead s w isq win k.lane (.atomHome (ordAcq ord sc)) [(k.loc, n)] (.atom wide)
    let i := s.nid
    addWb { s with nid := i + 1 } ⟨i, ⟨w.uid, k.lane⟩, w.core, isq, k.loc, List.replicate n 0, none, ordRel ord sc, some fn, some id,
      true, none, [], .pending, none, false, false⟩

def issueAtoms (s : State) (w : Wave) (isq win n : Nat) (ord : Ord6) (sc : Scope) (wide : Bool) (fn : Nat → AtomFn) :
    List LaneLoc → State
  | [] => s
  | k :: r => issueAtoms (issueAtom s w isq win n ord sc wide k (fn k.lane)) w isq win n ord sc wide fn r

def atomLanes (x : Ctx) (s : State) (la : BitVec 4) (ord : Ord6) (sp : Space) (wide : Bool) (sc : Scope) (d a : Reg) (off : Word)
    (fn : Nat → AtomFn) : Res :=
  let n := if wide then 8 else 4
  let r := checkLanes x sp .atom n n (laneAddr x.w sp a off) (lanesOf x.act) s
  let q := isqOf (if wider sc .block then r.2.2 else askL1 r.2.2 x.w.core (r.1.map fun k => (k.loc, n)))
  let o := openWin q.2 x.c la { gd := some (d.toNat, wid wide) } (laneMask r.1) false
  laneEnd (issueAtoms o.2 x.w q.1 o.1 n ord sc wide fn r.1) r.2.1

def execAtom (g : Guard) (la : BitVec 4) (o : AtomOp) (s : State) : Out :=
  runLane false g s fun x s =>
    atomLanes x s la o.ord o.sp o.ty.wide o.sc o.d o.a o.off fun l => .op o.aop o.ty (srcC x.w o.ty.wide o.b l)

def execCas (g : Guard) (la : BitVec 4) (o : CasOp) (s : State) : Out :=
  runLane false g s fun x s =>
    atomLanes x s la o.ord o.sp o.ty.wide o.sc o.d o.a o.off fun l =>
      .cas (gGet x.w o.ty.wide o.d l) (srcC x.w o.ty.wide o.b l) o.ty.wide

/-- R240: in each active lane, a release, an acquire or both. -/
def execFence (g : Guard) (k : FenceKind) (sc : Scope) (s : State) : Out :=
  runLane false g s fun x s =>
    let q := isqOf s
    let wait := if k == .ar && wider sc .die then some (vecOf s (waveDie x.w)) else none
    .done ((lanesOf x.act).foldl (fun s l => issueRead s x.w q.1 0 l (.fence k sc wait) [] .none) q.2)

/-- The physical pieces of a translated range: those of this device, and those of others. -/
def gmPieces (ps : List (Xl × Nat)) : List (Nat × Nat) :=
  ps.filterMap fun p => match p.1.loc with | .gm a => some (a, p.2) | _ => none
def remPieces (ps : List (Xl × Nat)) : List (Loc × Nat) :=
  ps.filterMap fun p => if p.1.loc.isRemote then some (p.1.loc, p.2) else none

/-- One lane of a cache operation (R242, R243): its pieces, or its fault. -/
def cacheLane (x : Ctx) (s : State) (k : CacheKind) (a n l : Nat) : Except Flt (List (Xl × Nat)) × State :=
  if k == .inv && (a % 64 ≠ 0 || n % 64 ≠ 0) then (.error ⟨l, .align, BitVec.ofNat 64 a⟩, s)
  else
    match xlateRange x.l.lr.tenant x.l.lr.root (if k == .inv then .write else .read) (n / 4096 + 2) a n s with
    | (.error e, s) => (.error ⟨l, e.1, BitVec.ofNat 64 e.2⟩, s)
    | (.ok ps, s) => (.ok ps, s)

def cacheLanes (x : Ctx) (k : CacheKind) (addr len : Nat → Nat) :
    List Nat → State → List (Nat × List (Xl × Nat)) × List Flt × State
  | [], s => ([], [], s)
  | l :: r, s =>
    match cacheLane x s k (addr l) (len l) l with
    | (.error f, s) => let y := cacheLanes x k addr len r s; (y.1, f :: y.2.1, y.2.2)
    | (.ok p, s) => let y := cacheLanes x k addr len r s; ((l, p) :: y.1, y.2.1, y.2.2)

/-- Numbers in an order chosen freely (log 2). -/
def anyOrder : Nat → List Nat → State → List Nat × State
  | 0, _, s => ([], s)
  | f + 1, l, s =>
    let c := choose l.length s
    let r := anyOrder f (l.eraseIdx c.1) c.2
    ((l[c.1]?).toList ++ r.1, r.2)

/-- The lanes' operations enter their streams; an empty range needs no move. The spec states no order among the moves that an operation
takes at the home dies: they come in any. -/
def issueCache (w : Wave) (isq win : Nat) (k : CacheKind) : List (Nat × List (Xl × Nat)) → State → State
  | [], s => s
  | (l, ps) :: r, s =>
    let s :=
      if ps.isEmpty then (if k == .inv then deliver s w.uid win ⟨l, [0], none, none⟩ else s)
      else
        let o := anyOrder nDies (List.range nDies) s
        issueRead o.2 w isq win l (.cache k (gmPieces ps) o.1 0) (remPieces ps) .none
    issueCache w isq win k r s

def execCache (k : CacheKind) (g : Guard) (d : Option Reg) (o : CacheOp) (s : State) : Out :=
  runLane false g s fun x s =>
    let r := cacheLanes x k (laneAddr x.w .gm o.a o.off) (fun l => (srcC x.w false o.b l).toNat) (lanesOf x.act) s
    let q := isqOf r.2.2
    let ls := maskOf fun i => r.1.any (·.1 == i)
    let w := match d with
      | some d => openWin q.2 x.c 0 { gd := some (d.toNat, 1) } ls false
      | none => (0, q.2)
    laneEnd (issueCache x.w q.1 w.1 k r.1 w.2) r.2.1

def execCwb (g : Guard) (o : CacheOp) (s : State) : Out := execCache .wb g none o s
def execCinv (g : Guard) (d : Reg) (o : CacheOp) (s : State) : Out := execCache .inv g (some d) o s
def execCflush (g : Guard) (o : CacheOp) (s : State) : Out := execCache .flush g none o s

/-- R244: the 32-byte sector of each lane; an address that cannot be read does nothing. DEDUCED (log 106): a graph page is such an address,
as R244 has it, although 09 R212 names a prefetch among the accesses that trap GPROT there. -/
def prefLanes (x : Ctx) (l1 : Bool) (isq : Nat) (addr : Nat → Nat) : List Nat → State → State
  | [], s => s
  | l :: r, s =>
    match xlate s x.l.lr.tenant x.l.lr.root (addr l) .read with
    | (.error _, s) => prefLanes x l1 isq addr r s
    | (.ok t, s) =>
      let k := t.loc.back (t.loc.addr % 32)
      prefLanes x l1 isq addr r (issueRead s x.w isq 0 l (.read none (!l1)) (unitsOf k 32) .none)

/-- The sectors whose fills have entered since `n` accesses were pending. -/
def prefLocs (n : Nat) (s : State) : List (Loc × Nat) := (s.mem.acts.drop n).flatMap fun a => a.units.map fun u => (u.loc, u.n)

def execPref (g : Guard) (l1 : Bool) (a : Reg) (off : Word) (s : State) : Out :=
  runLane false g s fun x s =>
    let q := isqOf s
    let t := prefLanes x l1 q.1 (laneAddr x.w .gm a off) (lanesOf x.act) q.2
    .done (if l1 then askL1 t x.w.core (prefLocs s.mem.acts.length t) else t)

end Sys2Proof.Machine
end

