-- ==== Sys2Proof/Machine/Float.lean ====
section
/-! DEFINITION. The floating instructions (06 R133, R134): each result is the exact value rounded once. -/

namespace Sys2Proof.Machine

/-- A two-operand form on patterns. -/
def fltBinX (o : FltBin) (f : Nat → Nat → Nat) (x : Ctx) (s : State) : (Nat → DWord) × State :=
  let b := srcBFlt x s o.ty o.b
  (fun l => BitVec.ofNat 64 (f (aVal x.w o.u o.ty.wide o.a l) (b.1 l).toNat), b.2)

def fltUnX (o : FltUn) (f : Nat → Nat) (x : Ctx) (s : State) : (Nat → DWord) × State :=
  (fun l => BitVec.ofNat 64 (f (aVal x.w o.u o.ty.wide o.a l)), s)

def faddV (t : FTy5) (rm : Rm) (a b : Nat) : Nat := roundX t rm (sumX rm [fval t a, fval t b])
def fsubV (t : FTy5) (rm : Rm) (a b : Nat) : Nat := roundX t rm (sumX rm [fval t a, negV (fval t b)])
def fmulV (t : FTy5) (rm : Rm) (a b : Nat) : Nat := roundX t rm (.ofFV (mulV (fval t a) (fval t b)))
/-- R105: a NaN or poison of any operand is the result's; the product is not rounded. -/
def ffmaV (t : FTy5) (rm : Rm) (a b c : Nat) : Nat :=
  let z := fval t c
  let p := mulV (fval t a) (fval t b)
  roundX t rm (if z == .psn then .psn else sumX rm [p, z])
def fdivV (t : FTy5) (rm : Rm) (a b : Nat) : Nat := roundX t rm (divX (fval t a) (fval t b))
def frcpV (t : FTy5) (rm : Rm) (a : Nat) : Nat := roundX t rm (divX (.num false 1 0) (fval t a))
/-- R134: the sign cleared or inverted; a NaN is canonical, poison stays. -/
def fabsV (t : FTy5) (a : Nat) : Nat :=
  match fval t a with | .psn => fPoison t | .nan => fCanon t | _ => a % fSign t
def fnegV (t : FTy5) (a : Nat) : Nat :=
  match fval t a with
  | .psn => fPoison t
  | .nan => fCanon t
  | _ => (a + fSign t) % 2 ^ fBits t

def execFadd (g : Guard) (rm : Rm) (o : FltBin) (s : State) : Out :=
  execAlu g o.u o.ty.wide o.d s (fltBinX o (faddV (f5 o.ty) rm))

def execFsub (g : Guard) (rm : Rm) (o : FltBin) (s : State) : Out :=
  execAlu g o.u o.ty.wide o.d s (fltBinX o (fsubV (f5 o.ty) rm))

def execFmul (g : Guard) (rm : Rm) (o : FltBin) (s : State) : Out :=
  execAlu g o.u o.ty.wide o.d s (fltBinX o (fmulV (f5 o.ty) rm))

def execFfma (g : Guard) (rm : Rm) (o : FltBin) (c : SrcC) (s : State) : Out :=
  execAlu g o.u o.ty.wide o.d s fun x s =>
    let b := srcBFlt x s o.ty o.b
    (fun l => BitVec.ofNat 64
      (ffmaV (f5 o.ty) rm (aVal x.w o.u o.ty.wide o.a l) (b.1 l).toNat (srcC x.w o.ty.wide c l).toNat), b.2)

def execFdiv (g : Guard) (la : BitVec 4) (rm : Rm) (o : FltBin) (s : State) : Out :=
  execLong g la o.u o.ty.wide o.d s (fltBinX o (fdivV (f5 o.ty) rm))

def execFmin (g : Guard) (o : FltBin) (s : State) : Out :=
  execAlu g o.u o.ty.wide o.d s (fltBinX o (fminmax (f5 o.ty) false))

def execFmax (g : Guard) (o : FltBin) (s : State) : Out :=
  execAlu g o.u o.ty.wide o.d s (fltBinX o (fminmax (f5 o.ty) true))

def execFabs (g : Guard) (o : FltUn) (s : State) : Out :=
  execAlu g o.u o.ty.wide o.d s (fltUnX o (fabsV (f5 o.ty)))

def execFneg (g : Guard) (o : FltUn) (s : State) : Out :=
  execAlu g o.u o.ty.wide o.d s (fltUnX o (fnegV (f5 o.ty)))

def execFrcp (g : Guard) (la : BitVec 4) (rm : Rm) (o : FltUn) (s : State) : Out :=
  execLong g la o.u o.ty.wide o.d s (fltUnX o (frcpV (f5 o.ty) rm))

def execFrsq (g : Guard) (la : BitVec 4) (rm : Rm) (o : FltUn) (s : State) : Out :=
  execLong g la o.u o.ty.wide o.d s (fltUnX o fun a => roundX (f5 o.ty) rm (rsqX (fval (f5 o.ty) a)))

def execFsqrt (g : Guard) (la : BitVec 4) (rm : Rm) (o : FltUn) (s : State) : Out :=
  execLong g la o.u o.ty.wide o.d s (fltUnX o fun a => roundX (f5 o.ty) rm (sqrtX (fval (f5 o.ty) a)))

def execFex2 (g : Guard) (la : BitVec 4) (rm : Rm) (o : FltUn) (s : State) : Out :=
  execLong g la o.u o.ty.wide o.d s (fltUnX o fun a => ex2 (f5 o.ty) rm (fval (f5 o.ty) a))

def execFlg2 (g : Guard) (la : BitVec 4) (rm : Rm) (o : FltUn) (s : State) : Out :=
  execLong g la o.u o.ty.wide o.d s (fltUnX o fun a => lg2 (f5 o.ty) rm (fval (f5 o.ty) a))

def execFsin (g : Guard) (la : BitVec 4) (rm : Rm) (o : FltUn) (s : State) : Out :=
  execLong g la o.u o.ty.wide o.d s (fltUnX o fun a => trig (f5 o.ty) rm false (fval (f5 o.ty) a))

def execFcos (g : Guard) (la : BitVec 4) (rm : Rm) (o : FltUn) (s : State) : Out :=
  execLong g la o.u o.ty.wide o.d s (fltUnX o fun a => trig (f5 o.ty) rm true (fval (f5 o.ty) a))

end Sys2Proof.Machine
end

