-- ==== Sys2Proof/Machine/Lane.lean ====
section
/-! DEFINITION. Comparisons, predicates, the execution mask and the cross-lane instructions (06 R138 to R144). -/

namespace Sys2Proof.Machine

def execIcmp (g : Guard) (o : IcmpOp) (s : State) : Out :=
  runLane false g s fun x s =>
    let b := srcBInt x s o.ty o.b
    .done (updWave b.2 x.c.wave fun w => setPm w o.d x.act
      (maskOf fun l => icmpHolds o.cc o.ty (gGet x.w o.ty.wide o.a l).toNat (b.1 l).toNat))

def execFcmp (g : Guard) (o : FcmpOp) (s : State) : Out :=
  runLane false g s fun x s =>
    let b := srcB x s o.ty.wide (immFty o.ty) o.b
    .done (updWave b.2 x.c.wave fun w => setPm w o.d x.act
      (maskOf fun l => fcmpHolds o.cc o.ty (gGet x.w o.ty.wide o.a l).toNat (b.1 l).toNat))

def execPlog (g : Guard) (d a b c : PReg) (lut : Byte) (s : State) : Out :=
  runLane false g s fun x s =>
    .done (updWave s x.c.wave fun w => setPm w d x.act
      (maskOf fun l => lutBit lut (pBit x.w a l) (pBit x.w b l) (pBit x.w c l)))

def execPmov (g : Guard) (o : PmovOp) (s : State) : Out :=
  runLane false g s fun x s =>
    .done (updWave s x.c.wave fun w =>
      match o with
      | .toP d a => setPm w d x.act (maskOf fun l => gWord x.w a.toNat l != 0)
      | .toG d a => setGd w false d x.act fun l => if pBit x.w a l then 1 else 0)

/-! ### Cross-lane instructions (R142 to R144) -/

/-- The lanes that a split's own serialised divergence holds (R128, R144). -/
def serialHeld (w : Wave) (p : Split) : Mask :=
  p.stack.foldl (fun m e => if e.outer then m else m ||| (if e.els then e.t else e.f)) 0 &&& ~~~w.exited

/-- One execution: the participants, the lanes read as present, and the lanes that are absent (R143). -/
structure Cross where
  part : Mask
  absent : Mask
  deriving DecidableEq, Repr, Inhabited

/-- The other splits of the wave that wait at a cross-lane instruction at the same PC. -/
def meeting (x : Ctx) : List Split :=
  x.w.splits.filter fun q => q.sid != x.p.sid && q.pc == x.p.pc && q.wait == .xlane

/-- R144: run `k` over the participants once the split is whole, or has met the others. The others' splits go on from their own
waits. -/
def runCross (g : Guard) (part : Bool) (s : State) (k : Ctx → Cross → State → State) : Out :=
  runLane false g s fun x s =>
    if x.p.wait == .xlaneGo then .done s
    else
      let live := ~~~x.w.exited
      if part then .done (k x ⟨x.act, live &&& ~~~x.p.members⟩ s)
      else if x.p.kind == .handler then illop s x
      else if liveOf x.w x.p = live then .done (k x ⟨x.act, 0⟩ s)
      else if serialHeld x.w x.p != 0 then illop s x
      else
        let qs := meeting x
        if live &&& ~~~(qs.foldl (fun m q => m ||| q.members) x.p.members) != 0 then .wait s .xlane
        else
          let p := qs.foldl (fun m q => m ||| (emOf x.w q &&& guardMask x.w g)) x.act
          let s := k { x with act := p } ⟨p, 0⟩ s
          -- R177: a resumed split that waits here merges as its arm split arrives
          .done (updWave s x.c.wave fun w =>
            let w := mergeWaiting (updSplitW w x.c.sid fun p => { p with wait := .xlane }) x.c.sid
            { w with splits := w.splits.map fun q => if q.sid != x.c.sid && qs.any (·.sid == q.sid) then { q with wait := .xlaneGo } else q })

def execBallot (g : Guard) (part u : Bool) (d : Reg) (a : PReg) (s : State) : Out :=
  runCross g part s fun x c s => putResult s x u false d fun _ => (c.part &&& pMask x.w a).setWidth 64

def voteV (k : VoteKind) (part p : Mask) : Bool :=
  match k with
  | .all => part &&& ~~~p == 0
  | .any => part &&& p != 0
  | .uni => part &&& ~~~p == 0 || part &&& p == 0

def execVote (g : Guard) (part : Bool) (k : VoteKind) (d a : PReg) (s : State) : Out :=
  runCross g part s fun x c s =>
    updWave s x.c.wave fun w => setPm w d c.part (if voteV k c.part (pMask x.w a) then allLanes else 0)

/-- The source lane of `shfl`: none where it lies outside the wave (R143). -/
def shflSrc (m : ShflMode) (l b : Nat) : Option Nat :=
  let r : Int := match m with
    | .idx => (b % 32 : Nat)
    | .up => (l : Int) - b
    | .down => (l : Int) + b
    | .xor => (Nat.xor l (b % 32) : Nat)
  if r < 0 ∨ 31 < r then none else some r.toNat

/-- R142. DESIGN CHOICE (log 91): B is one 32-bit operand with `.z64` too. -/
def execShfl (g : Guard) (part : Bool) (o : ShflOp) (s : State) : Out :=
  runCross g part s fun x c s =>
    let b := srcBInt x s .z32 o.b
    putResult b.2 x false o.wide o.d fun l =>
      match shflSrc o.mode l ((b.1 l).toNat % 2 ^ 32) with
      | none => gGet x.w o.wide o.a l
      | some j => if c.absent.getLsbD j then 0 else gGet x.w o.wide o.a j

/-- The reduction of integer terms (R143). -/
def redInt (k : RedKind) (t : IntTy) (ts : List Nat) : Nat :=
  let w := intBits t
  match k with
  | .add => wrapI w (ts.foldl (fun a v => a + intVal t v) 0)
  | .min => wrapI w (ts.foldl (fun a v => min a (intVal t v)) (intMax t))
  | .max => wrapI w (ts.foldl (fun a v => max a (intVal t v)) (intMin t))
  | .and => ts.foldl Nat.land (2 ^ w - 1)
  | .or => ts.foldl Nat.lor 0
  | .xor => ts.foldl Nat.xor 0

/-- The reduction of floating terms: an exact sum rounded once, or `fmin` and `fmax` over the terms (R143). -/
def redFlt (k : RedKind) (t : FTy5) (rm : Rm) (ts : List Nat) : Nat :=
  match k with
  | .min => ts.foldl (fminmax t false) (fInf t)
  | .max => ts.foldl (fminmax t true) (withSign t true (fInf t))
  | _ => if ts.isEmpty then 0 else roundX t rm (sumX rm (ts.map (fval t)))

def redV (o : RedOp) (ts : List Nat) : DWord :=
  BitVec.ofNat 64 (match o.ty with
    | .i t => redInt o.op t ts
    | .f t => redFlt o.op (f5 t) o.rm ts)

def execLred (g : Guard) (part u : Bool) (o : RedOp) (s : State) : Out :=
  runCross g part s fun x c s =>
    let v := redV o ((lanesOf c.part).map (aVal x.w u o.ty.wide o.a))
    putResult s x u o.ty.wide o.d fun _ => v

def execLscan (g : Guard) (part excl : Bool) (o : RedOp) (s : State) : Out :=
  runCross g part s fun x c s =>
    putResult s x false o.ty.wide o.d fun l =>
      redV o (((lanesOf c.part).filter fun j => j < l || (!excl && j == l)).map (aVal x.w false o.ty.wide o.a))

/-! ### The execution mask (R140, R141) -/

def execEmrd (g : Guard) (u : Bool) (d : Reg) (s : State) : Out :=
  execAlu g u false d s fun x s => (fun _ => (x.w.em &&& x.p.members).setWidth 64, s)

/-- R86: the formula of `emwr`. -/
def emwrV (em m v ex : Mask) : Mask := (em &&& ~~~m) ||| (v &&& m &&& ~~~ex)

def execEmwr (b : SrcU) (s : State) : Out :=
  runLane false .always s fun x s =>
    .done (updWave s x.c.wave fun w => { w with em := emwrV w.em x.p.members (srcU x.w b) w.exited })

end Sys2Proof.Machine
end

