-- ==== Sys2Proof/Machine/Cave.lean ====
section
/-! DEFINITION. The cave level beneath its instructions (16): contexts, what a cave access reaches, near-bank micro-instructions and
their errors, the dispatch and completion moves, tickets, and the placement of cave work on stack cores. -/

namespace Sys2Proof.Machine

/-! ### Stack cores and contexts (R312, R313) -/

def skPerStack : Nat := 16
def skKey (n c : Nat) : Nat := n * skPerStack + c
def skGet (s : State) (n c : Nat) : SkCore := kvGet .reset (skKey n c) s.cave.cores
def skUpd (s : State) (n c : Nat) (f : SkCore → SkCore) : State :=
  { s with cave := { s.cave with cores := kvPut .reset (skKey n c) (f (skGet s n c)) s.cave.cores } }

/-- The context that a stack core runs for the program or for the handler. -/
def ctxGet (s : State) (u : CurCave) : Option CaveCtx :=
  if u.hand then (skGet s u.stack u.skc).hand else (skGet s u.stack u.skc).prog
def ctxPut (s : State) (u : CurCave) (x : Option CaveCtx) : State :=
  skUpd s u.stack u.skc fun k => if u.hand then { k with hand := x } else { k with prog := x }

def findWork (s : State) (i : Nat) : Option Work := s.cave.works.find? (·.id == i)
def updWork (s : State) (i : Nat) (f : Work → Work) : State :=
  { s with cave := { s.cave with works := updFirst (·.id == i) f s.cave.works } }
def delWork (s : State) (i : Nat) : State :=
  { s with cave := { s.cave with works := s.cave.works.filter (·.id != i) } }

def CaveKind.work : CaveKind → Nat
  | .inst w _ => w | .region w => w | .handler w _ => w
def CaveKind.isInst : CaveKind → Bool | .inst _ _ => true | _ => false

def zeroV : Vector Word 32 := .replicate 32 0

/-- R94: every register of a cave program is 0 at its start, but for `x1`, `x2` and what the caller sets. -/
def newCtx (s : State) (k : CaveKind) (launch tenant pc : Nat) (x1 x2 : DWord) (range : Nat × Nat) : CaveCtx where
  kind := k
  launch := launch
  tenant := tenant
  x := vecSet (vecSet (.replicate 32 0) 1 x1) 2 x2
  v := .replicate 16 zeroV
  m := .replicate 8 0
  pc := pc
  lm := .empty
  midx := 0
  micro := []
  groups := []
  report := none
  count := 0
  range := range
  started := s.nid
  part := none

/-! ### Registers (R94) -/

def xGet (x : CaveCtx) (r : XReg) : DWord := if r = 0 then 0 else vecGet x.x 0 r.toNat
def xSet (x : CaveCtx) (r : XReg) (v : DWord) : CaveCtx := if r = 0 then x else { x with x := vecSet x.x r.toNat v }
def vGet (x : CaveCtx) (r : VReg) : Vector Word 32 := vecGet x.v zeroV r.toNat
def vSet (x : CaveCtx) (r : VReg) (v : Vector Word 32) : CaveCtx := { x with v := vecSet x.v r.toNat v }
def mGet (x : CaveCtx) (r : MReg) : DWord := if r = 7 then BitVec.allOnes 64 else vecGet x.m 0 r.toNat
def mSet (x : CaveCtx) (r : MReg) (v : DWord) : CaveCtx := if r = 7 then x else { x with m := vecSet x.m r.toNat v }

/-- The lanes of a `v` register: 32 of 32 bits, or 64 of 16. -/
def vLanes (h : Bool) : Nat := if h then 64 else 32
def vLane (h : Bool) (v : Vector Word 32) (i : Nat) : Nat :=
  if h then bits (vecGet v 0 (i / 2)).toNat (16 * (i % 2)) 16 else (vecGet v 0 i).toNat
/-- A register from its lanes. -/
def vMake (h : Bool) (f : Nat → Nat) : Vector Word 32 :=
  Vector.ofFn fun i : Fin 32 =>
    if h then BitVec.ofNat 32 (f (2 * i) % 65536 + 65536 * (f (2 * i + 1) % 65536)) else BitVec.ofNat 32 (f i)
/-- Lanes under a mask from `f`, the others as they were (R317). -/
def vUnder (h : Bool) (m : DWord) (old : Vector Word 32) (f : Nat → Nat) : Vector Word 32 :=
  vMake h fun i => if m.getLsbD i then f i else vLane h old i

/-! ### What a cave access reaches (R314, R315) -/

/-- The code bounds of a tenant (03 R72). -/
def codeBounds (s : State) (launch t : Nat) : Nat × Nat :=
  match findLaunch s launch with
  | some l => (l.lr.clo, l.lr.chi)
  | none => (tenantField s t 0x08 8, tenantField s t 0x10 8)

/-- `n` bytes at `a` lie within a range of virtual addresses. -/
def inRange (r : Nat × Nat) (a n : Nat) : Bool := (a + 2 ^ 64 - r.1) % 2 ^ 64 + n ≤ r.2

/-- R315: where an access of a program on stack `n` lies. -/
def caveXlate (s : State) (n : Nat) (x : CaveCtx) (va len : Nat) (acc : Acc) : Option Nat × State :=
  if !inRange x.range va len then (none, s)
  else
    match xlate s x.tenant (rootOf s x.launch x.tenant) va acc with
    | (.error _, s) => (none, s)
    | (.ok t, s) =>
      match t.loc with
      | .gm pa => (if pteCave t.pte && pteHome t.pte == n then some pa else none, s)
      | _ => (none, s)

/-- R314: does an access to local memory stay in the area of the program, or of the handler? -/
def lmOk (hand : Bool) (a n : Nat) : Bool := if hand then 0xC000 ≤ a && a + n ≤ 0x10000 else a + n ≤ 0xC000
def lmGet (s : State) (u : CurCave) (x : CaveCtx) : Memory := if u.hand then (skGet s u.stack u.skc).hm else x.lm
/-- Local memory after a write: the program's in its context, the handler's in the stack core. -/
def lmPut (s : State) (u : CurCave) (x : CaveCtx) (m : Memory) : State × CaveCtx :=
  if u.hand then (skUpd s u.stack u.skc fun k => { k with hm := m }, x) else (s, { x with lm := m })

/-- A declared range (R315): its stack and where it lies, if every page of it qualifies and names one stack. -/
def rangeQualifies (s : State) (launch t base len : Nat) : Option (Nat × List (Nat × Nat)) × State :=
  match xlateRange t (rootOf s launch t) .read (len / 4096 + 2) base len s with
  | (.error _, s) => (none, s)
  | (.ok ps, s) =>
    match ps with
    | [] => (none, s)
    | p :: _ =>
      let n := pteHome p.1.pte
      (if n < nStacks && ps.all (fun q => pteCave q.1.pte && pteHome q.1.pte == n && q.1.loc.isGm) then
        some (n, ps.map fun q => (q.1.loc.addr, q.2)) else none, s)

/-! ### Cave accesses to HBM (R226, R316) -/

/-- Bytes of M(h) and whether a word of them is poisoned. -/
def caveRead (s : State) (n pa len : Nat) : List Byte × Bool :=
  (viewBytes s (dieOfStack n) pa len, anyViewPsn s (dieOfStack n) pa len)

def noteCaveBytes (pa : Nat) : List Byte → RangeFly → RangeFly
  | [], f => f
  | b :: bs, f =>
    let f := if f.ranges.any fun r => r.1 ≤ pa && pa < r.1 + r.2 then { f with cave := kvPut 0 pa (b.toNat + 1) f.cave } else f
    noteCaveBytes (pa + 1) bs f

/-- A cave write: to M(h) and to the banks, with no stamp. -/
def caveStore (s : State) (n pa : Nat) (bs : List Byte) : State :=
  if unitFailed s (unitBit s pa) then s
  else
    let s := storeView (touchMem s pa) (dieOfStack n) pa bs none (s.mem.clk + 1) false
    { s with mem := { s.mem with
      home := memStore s.mem.home pa bs none
      fly := s.mem.fly.map (noteCaveBytes pa bs) } }

/-- The runs of masked-in bytes of a vector store: offset and bytes, each within one 8-byte unit. -/
def storeRuns (m : Nat → Bool) (f : Nat → Byte) : List (Nat × List Byte) :=
  (List.range 16).flatMap fun u =>
    if (List.range 8).all fun i => m (8 * u + i) then [(8 * u, (List.range 8).map fun i => f (8 * u + i))]
    else ((List.range 8).filter fun i => m (8 * u + i)).map fun i => (8 * u + i, [f (8 * u + i)])

/-- The byte of a `v` register, and the mask bit over it. -/
def vByte (v : Vector Word 32) (i : Nat) : Byte := BitVec.ofNat 8 (bits (vecGet v 0 (i / 4)).toNat (8 * (i % 4)) 8)
def byteMask (h : Bool) (m : DWord) (i : Nat) : Bool := m.getLsbD (if h then i / 2 else i / 4)

/-- A `v` register from 128 bytes under a mask; a lane that covers a poisoned word receives the pattern of its width (R324). -/
def vLoaded (h : Bool) (m : DWord) (old : Vector Word 32) (bs : List Byte) (psn : Nat → Bool) : Vector Word 32 :=
  let w := if h then 2 else 4
  vUnder h m old fun i => if psn (w * i / 8) then poisonOf w else leNat ((bs.drop (w * i)).take w)

/-! ### Near-bank micro-instructions (R329 to R332) -/

/-- The `v` register that a micro-instruction writes. -/
def microDest : Instr → Option VReg
  | .caveVld o => some o.v
  | .caveVfma _ o => some o.d
  | .caveVred o => some o.d
  | _ => none

/-- Does a micro-instruction in flight still give this register (R316)? -/
def vPending (x : CaveCtx) (r : VReg) : Bool := x.micro.any fun k => k.live && microDest k.instr == some r

/-- A later instruction writes a register: what earlier micro-instructions give it is seen only by those after them. -/
def supersede (x : CaveCtx) (r : Option VReg) : CaveCtx :=
  match r with
  | none => x
  | some r => { x with micro := x.micro.map fun k => if microDest k.instr == some r then { k with live := false } else k }

/-- An operand as a micro-instruction takes it at issue. -/
def microSrc (x : CaveCtx) (r : VReg) : MSrc :=
  match x.micro.reverse.find? fun k => k.live && microDest k.instr == some r with
  | some k => .of k.idx
  | none => .val (vGet x r)

/-- The 8-byte units of a vector access to HBM, each a move of its own (R316). -/
def vUnits (i : Instr) (m : DWord) : List Nat :=
  match i with
  | .caveVld _ => List.range 16
  | .caveVst o => (List.range 16).filter fun u => (List.range 8).any fun j => byteMask o.h m (8 * u + j)
  | _ => []

/-- A plain vector access to HBM begins: its operand is taken, and its units follow before the next instruction. -/
def beginPart (x : CaveCtx) (i : Instr) (va pa : Nat) (m : MReg) (v : VReg) : CaveCtx :=
  let k : Micro := ⟨0, i, va, pa, mGet x m, .val (vGet x v), .val (vGet x v), .val (vGet x v), true, vUnits i (mGet x m), []⟩
  if k.left.isEmpty then x else { x with part := some k }

/-- A BANK-form instruction enters the stream (R329). -/
def pushMicro (x : CaveCtx) (i : Instr) (va pa : Nat) (m : MReg) (a b d : VReg) : CaveCtx :=
  let k : Micro := ⟨x.midx, i, va, pa, mGet x m, microSrc x a, microSrc x b, microSrc x d, true, vUnits i (mGet x m), []⟩
  let x := supersede x (microDest i)
  { x with
    micro := x.micro ++ [k]
    midx := x.midx + 1
    groups := if x.midx.toNat % 4 = 0 then x.groups ++ [(x.midx, false)] else x.groups }

def srcVal : MSrc → Vector Word 32
  | .val v => v
  | .of _ => zeroV

def feed (idx : Word) (v : Vector Word 32) (q : MSrc) : MSrc := if q = .of idx then .val v else q
def feedMicro (idx : Word) (v : Vector Word 32) (k : Micro) : Micro :=
  { k with a := feed idx v k.a, b := feed idx v k.b, d := feed idx v k.d }

/-- The floating type of a lane type; `i32` has none. -/
def vFlt : VTy → Option FTy5 | .f32 => some .f32 | .f16 => some .f16 | .bf16 => some .bf16 | .i32 => none
def vTy : VTy → Ty | .f32 => .f32 | .f16 => .f16 | .bf16 => .bf16 | .i32 => .s32
def vNarrow : VTy → Bool | .f16 | .bf16 => true | _ => false

/-- `vfma` (R323). -/
def vfmaV (t : VTy) (a b d : Nat) : Nat :=
  match vFlt t with
  | none => wrapI 32 (sx 32 a * sx 32 b + sx 32 d)
  | some f => ffmaV f .rne a b d

/-- `vred`: lane 0 of the destination (R323). -/
def vredV (o : VRedOp) (m : DWord) (a d : Vector Word 32) : Vector Word 32 :=
  let h := vNarrow o.ty
  let ts := ((List.range (vLanes h)).filter fun i => m.getLsbD i).map (vLane h a)
  let k : RedKind := match o.op with | .add => .add | .max => .max | .min => .min
  let r := match vFlt o.ty with
    | none => redInt k .s32 ts
    | some f => redFlt k f .rne ts
  vMake h fun i => if i = 0 then r else vLane h d i

def bankKey (n pa : Nat) : Nat := n * 2048 + Config.bankOfLine n (pa / 256) % 2048
def bankErr0 : BankErr := ⟨0, 0, 0, 0, false, false, 0⟩
def berrGet (s : State) (k : Nat) : BankErr := kvGet bankErr0 k s.cave.berr
def berrPut (s : State) (k : Nat) (e : BankErr) : State := { s with cave := { s.cave with berr := kvPut bankErr0 k e s.cave.berr } }

/-- R331: F for a window. -/
def bankF (n : Word) (w : Nat) : Word := BitVec.ofNat 32 (n.toNat - n.toNat % (w + 1))

/-- R331: the window width: 3 while nothing else has reached the banks since micro-instruction F issued, else a free choice. -/
def bankW (x : CaveCtx) (n : Word) (s : State) : Nat × State :=
  if x.groups.any fun g => g.1 == bankF n 3 && !g.2 then (3, s)
  else let c := choose 2 s; (if c.1 = 0 then 3 else 7, c.2)

/-- R330: a near-bank read met an uncorrectable word. -/
def bankError (s : State) (u : CurCave) (x : CaveCtx) (n : Word) (va pa : Nat) : State × CaveCtx :=
  let w := bankW x n s
  let k := bankKey u.stack pa
  let e := berrGet w.2 k
  let s := berrPut w.2 k (if e.valid then { e with ovf := true } else ⟨BitVec.ofNat 64 pa, bankF n w.1, u.skc, w.1, false, true, x.started⟩)
  (setLaunchFlag s x.launch 4,
    { x with report := match x.report with | some r => some r | none => some ⟨bankF n w.1, w.1, u.skc, BitVec.ofNat 64 va⟩ })

/-- One unit of a vector access to HBM (R316): read with its ECC checked, whatever the mask (R329, R330), or its masked-in bytes stored. -/
def vUnit (s : State) (u : CurCave) (x : CaveCtx) (k : Micro) (i : Nat) : State × CaveCtx × Micro :=
  let k := { k with left := k.left.filter (· != i) }
  match k.instr with
  | .caveVld o =>
    let r := caveRead s u.stack (k.pa + 8 * i) 8
    let s := touchMem s (k.pa + 8 * i)
    let y := if !r.2 then (s, x) else if o.bank then bankError s u x k.idx (k.va + 8 * i) (k.pa + 8 * i) else (setMemPsn s x.launch true, x)
    (y.1, y.2, { k with got := k.got ++ [(i, if r.2 then none else some r.1)] })
  | .caveVst o =>
    let rs := (storeRuns (byteMask o.h k.mask) (vByte (srcVal k.b))).filter fun r => r.1 / 8 == i
    (rs.foldl (fun s r => caveStore s u.stack (k.pa + r.1) r.2) s, x, k)
  | _ => (s, x, k)

/-- The order of an access's units is free (R214). -/
def vNext (s : State) (u : CurCave) (x : CaveCtx) (k : Micro) : State × CaveCtx × Micro :=
  let c := choose k.left.length s
  vUnit c.2 u x k (k.left.getD c.1 0)

/-- What a micro-instruction whose units are performed gives its destination. -/
def microVal (k : Micro) (old : Vector Word 32) : Option (Vector Word 32) :=
  match k.instr with
  | .caveVld o =>
    let bs := (List.range 16).flatMap fun i => match k.got.find? (·.1 == i) with | some (_, some b) => b | _ => List.replicate 8 0
    some (vLoaded o.h k.mask old bs fun i => k.got.any fun g => g.1 == i && g.2.isNone)
  | .caveVfma _ o =>
    let h := vNarrow o.ty
    some (vUnder h k.mask (srcVal k.d) fun i => vfmaV o.ty (vLane h (srcVal k.a) i) (vLane h (srcVal k.b) i) (vLane h (srcVal k.d) i))
  | .caveVred o => some (vredV o k.mask (srcVal k.a) (srcVal k.d))
  | _ => none

/-- The oldest micro-instruction of a stream completes: its result goes to those after it that take it, and to its register. -/
def microDone (x : CaveCtx) (k : Micro) : CaveCtx :=
  let x := match microVal k (srcVal k.d), microDest k.instr with
    | some v, some d =>
      let x := { x with micro := x.micro.map (feedMicro k.idx v) }
      if k.live then vSet x d v else x
    | _, _ => x
  if k.idx.toNat % 4 = 3 then { x with groups := x.groups.filter fun g => g.1 != bankF k.idx 3 } else x

/-- The oldest micro-instruction of a context executes, one unit of its access at a time. -/
def microStep (s : State) (u : CurCave) : Option State :=
  (ctxGet s u).bind fun x =>
    match x.micro with
    | [] => none
    | k :: r =>
      if k.left.isEmpty then some (ctxPut s u (some (microDone { x with micro := r } k)))
      else
        let y := vNext s u { x with micro := r } k
        some (ctxPut y.1 u (some
          (if y.2.2.left.isEmpty then microDone y.2.1 y.2.2 else { y.2.1 with micro := y.2.2 :: y.2.1.micro })))

/-- A plain vector access goes on: one unit, and with the last its register result. -/
def partStep (s : State) (u : CurCave) (x : CaveCtx) (k : Micro) : State :=
  let y := vNext s u x k
  let x := y.2.1
  let x := if !y.2.2.left.isEmpty then { x with part := some y.2.2 }
    else match y.2.2.instr with
      | .caveVld o => { (match microVal y.2.2 (vGet x o.v) with | some v => vSet x o.v v | none => x) with part := none }
      | _ => { x with part := none }
  ctxPut y.1 u (some x)

def skUp (s : State) (n : Nat) : Bool := unitUp s (9 + n)

def microPending (s : State) (u : CurCave) : Bool := match ctxGet s u with | some x => !x.micro.isEmpty | none => false

/-- Either context's stream may go on. -/
def microS (s : State) (n c : Nat) : Option State :=
  if !skUp s n then none
  else if microPending s ⟨n, c, true⟩ && microPending s ⟨n, c, false⟩ then
    let r := choose 2 s
    microStep r.2 ⟨n, c, r.1 == 0⟩
  else (microStep s ⟨n, c, true⟩).orElse fun _ => microStep s ⟨n, c, false⟩

def execMicroInstructionExecute (stack skc : Nat) (s : State) : Out := move s (microS s stack skc)

/-- R331: a window of width 3 that starts at `f` becomes the one of width 7, in the program's report and in the errors that it latched. -/
def widenBank (x : CaveCtx) (n : Nat) (f : Word) (s : State) : CaveCtx × State :=
  let g := bankF f 7
  let fix := fun (e : BankErr) => if e.valid && e.w == 3 && e.f == f && e.prog == x.started then { e with w := 7, f := g } else e
  ({ x with report := x.report.map fun r => if r.w == 3 && r.f == f then { r with w := 7, f := g } else r },
    { s with cave := { s.cave with berr := s.cave.berr.map fun e => if e.1 / 2048 == n then (e.1, fix e.2) else e } })

/-- R331: another access has reached the banks of stack `n`, or may have: groups under way are no longer alone, and the window of each that was may
now be either. -/
def mixCtx (x : CaveCtx) (n : Nat) (s : State) : CaveCtx × State :=
  let r := x.groups.foldl (fun y g =>
    if g.2 then y else let c := choose 2 y.2; if c.1 = 0 then (y.1, c.2) else widenBank y.1 n g.1 c.2) (x, s)
  ({ r.1 with groups := x.groups.map fun g => (g.1, true) }, r.2)

def mixOne (own : CurCave → Bool) (ns : List Nat) (u : CurCave) (s : State) : State :=
  match ctxGet s u with
  | some x => if own u || x.groups.isEmpty || !ns.contains u.stack then s else let r := mixCtx x u.stack s; ctxPut r.2 u (some r.1)
  | none => s

def mixAside (ns : List Nat) : List (Nat × CaveCtx) → State → List (Nat × CaveCtx) × State
  | [], s => ([], s)
  | p :: r, s =>
    let a := if ns.contains p.1 then mixCtx p.2 p.1 s else (p.2, s)
    let b := mixAside ns r a.2
    ((p.1, a.1) :: b.1, b.2)

/-- R331: the accesses of a move, but those of a program itself, are other traffic at the banks of the stacks they may have reached. -/
def noteTraffic (own : CurCave → Bool) (ns : List Nat) (s : State) : State :=
  let s := (s.cave.cores.map Prod.fst).foldl (fun s k =>
    mixOne own ns ⟨k / skPerStack, k % skPerStack, true⟩ (mixOne own ns ⟨k / skPerStack, k % skPerStack, false⟩ s)) s
  let r := mixAside ns s.cave.preempted s
  { r.2 with cave := { r.2.cave with preempted := r.1 } }

/-! ### The dispatch and completion moves (R226, R338) -/

/-- The dirty sectors of physical ranges are written back, and every L1 and L2 copy of the ranges is discarded. -/
def cleanRanges (s : State) (rs : List (Nat × Nat)) : State :=
  let s := (s.mem.dirty.filter fun k => inRanges rs (64 * k) 64).foldl writeBack s
  rs.foldl (fun s r => dropL2 (dropL1 s r.1 r.2) none r.1 r.2) s

def openRange (s : State) (work : Nat) (rs : List (Nat × Nat)) : State :=
  let s := cleanRanges s rs
  { s with mem := { s.mem with fly := s.mem.fly ++ [⟨work, rs, s.mem.clk, [], []⟩] } }

/-- R226: a byte that front writes reached during the work holds one of them, or the last cave write. -/
def settleByte (f : RangeFly) (h pa : Nat) (s : State) : State :=
  let ws := (f.front.filter fun k => k / 256 == pa).map fun k => BitVec.ofNat 8 k
  let c := kvGet 0 pa f.cave
  let vs := (if c = 0 then ws else BitVec.ofNat 8 (c - 1) :: ws).eraseDups
  let r := choose vs.length s
  let b := vs.getD r.1 0
  if viewByte r.2 h pa == b then r.2
  else
    storeView (dirtySectors r.2 h pa 1) h pa [b] none (r.2.mem.clk + 1) false

/-- M(e) := M(h) over a physical range; a region still to be cleared (09 R211) reads 0 in every view. -/
def copyView (h e : Nat) (s : State) (r : Nat × Nat) : State :=
  let inside := fun a => r.1 ≤ a && a < r.1 + r.2 && regionClearedQ s a
  let addrs := (((viewOf s h).cells ++ (viewOf s e).cells).map Prod.fst).filter inside
  let seqs := ((vecGet s.mem.vseq [] h).map Prod.fst).filter inside
  let m := addrs.foldl (fun m a => putViewByte e (viewSeq s h a) m a (memByte (viewOf s h) a)) s.mem
  let v := vecGet m.view .empty e
  let new := { v with psn := ((viewOf s h).psn.filter fun k => inside (8 * k)).foldl (fun l k => insNat k l) (v.psn.filter fun k => !inside (8 * k)) }
  let words := (((viewOf s h).psn ++ (viewOf s e).psn).flatMap fun k => (List.range 8).map (8 * k + ·)).filter inside
  { s with mem := { m with
    vseq := vecUpd m.vseq [] e fun k => seqs.foldl (fun k a => kvPut 0 a (viewSeq s h a) k) k
    view := vecUpd m.view .empty e fun _ => new
    wlog := logOf e m.clk (bytePsn (viewOf s e)) (bytePsn new) (addrs ++ words).eraseDups ++ m.wlog
    clk := m.clk + 1 } }

/-- The completion move of a range. -/
def closeRange (s : State) (work h : Nat) : State :=
  match s.mem.fly.find? (·.work == work) with
  | none => s
  | some f =>
    let s := ((f.front.map (· / 256)).eraseDups).foldl (fun s pa => settleByte f h pa s) s
    let s := cleanRanges s f.ranges
    let s := ((List.range 4).filter (· != h)).foldl (fun s e => f.ranges.foldl (copyView h e) s) s
    { s with mem := { s.mem with fly := s.mem.fly.filter (·.work != work) } }

/-! ### Tickets and status (R333 to R335) -/

def CaveStatus.zero (skc stack : Nat) : CaveStatus := ⟨0, false, 0, skc, stack, 0, 0⟩

/-- The status of a program that ends with a code, given its report (R333, R335). -/
def endStatus (u : CurCave) (x : CaveCtx) (code addr : Nat) : CaveStatus :=
  match x.report with
  | none => ⟨code, false, 0, u.skc, u.stack, 0, BitVec.ofNat 64 addr⟩
  | some r =>
    if code = 0 then ⟨4, true, r.w, r.skc, u.stack, r.f, r.addr⟩
    else ⟨code, true, r.w, u.skc, u.stack, r.f, BitVec.ofNat 64 addr⟩

/-- R334: the status of a record, from those of its instances. -/
def workStatus (w : Work) : CaveStatus :=
  let es := w.ended.map Prod.snd
  match (es.find? (·.code != 0)).orElse fun _ => es.head? with
  | none => .zero 0 w.stack
  | some c =>
    match es.find? (·.bankErr) with
    | none => c
    | some b => { c with bankErr := true, w := b.w, f := b.f }

/-- The four words of R335. -/
def statusWords (c : CaveStatus) : List Word :=
  [BitVec.ofNat 32 (c.code + 256 * c.bankErr.toNat + 512 * c.w + 4096 * c.skc + 65536 * c.stack), c.f, lo32 c.addr, hi32 c.addr]

/-- The record of a piece of work completes, in its wave or in the wave as saved. -/
def setTicket (work : Nat) (c : CaveStatus) (w : Wave) : Wave :=
  { w with tickets := w.tickets.map fun t => if t.work == work then { t with done := some c } else t }

def completeTicket (s : State) (w : Work) (c : CaveStatus) : State :=
  if s.waves.any (·.uid == w.wave) then updWave s w.wave (setTicket w.id c)
  else if s.saved.any fun v => v.waves.any (·.uid == w.wave) then
    { s with saved := s.saved.map fun v => { v with waves := v.waves.map fun x => if x.uid == w.wave then setTicket w.id c x else x } }
  else if w.wave ≠ 0 && c.code ≠ 0 && w.kind != .mig && !w.seen then setCaveErr s w.launch c.code
  else s

/-- Does a wave still wait for a region's return? -/
def awaited (s : State) (w : Work) : Bool := w.kind == .mig && match findWave s w.wave with | some v => v.exited != allLanes | none => false

/-- A program ends: its stack core is free, and its status stands in its work. -/
def endProgram (s : State) (u : CurCave) (x : CaveCtx) (code addr : Nat) : State :=
  let c := endStatus u x code addr
  let s := { ctxPut s u none with curCave := none }
  match x.kind with
  | .inst w i => updWork s w fun k => { k with ended := kvIns i c k.ended }
  | .region w => updWork s w fun k => { k with ended := [(0, c)], ship := (List.range k.ship.length).map fun j => vecGet x.v zeroV j }
  | .handler w _ =>
    let sent := match findWork s w with | some k => k.wave == 0 | none => false
    let s := if sent && c.code ≠ 0 && c.code ≠ 4 then addCtr s (stackReg u.stack 0x18) 32 1 else s
    updWork s w fun k => { k with ended := [(0, c)] }

/-- Work completes once all its instances have ended: completion move, then the ticket. -/
def completionMoveS (s : State) (work : Nat) : Option State :=
  (findWork s work).bind fun w =>
    if w.fin || !w.dispatched || w.ended.length < w.nskc then none
    else
      let s := closeRange s work (dieOfStack w.stack)
      let s := completeTicket s w (workStatus w)
      some (if awaited s w then updWork s work fun k => { k with fin := true } else delWork s work)

def execCaveCompletionMove (work : Nat) (s : State) : Out := move s (completionMoveS s work)

/-- The dispatch move (R226): once M(h) covers what the release did. -/
def dispatchMoveS (s : State) (work : Nat) : Option State :=
  (findWork s work).bind fun w =>
    if w.dispatched || w.kind == .msg || !skUp s w.stack || !ctlRuns s (5 + w.stack) || !vLe w.vec (vecOf s (dieOfStack w.stack)) then none
    else some (updWork (openRange s work w.phys) work fun k => { k with dispatched := true })

def execCaveDispatchMove (work : Nat) (s : State) : Out := move s (dispatchMoveS s work)

/-! ### Placement and pre-emption (R345, R346, R349) -/

/-- The first region that waits for a stack core of a stack; regions and records are served in their order of arrival, whether or not
their dispatch move has been taken (14 R298, log 99). -/
def waitingRegion (s : State) (n : Nat) : Option Work :=
  s.cave.works.find? fun w => w.kind == .mig && w.stack == n && w.placed == 0 && w.ended.isEmpty

/-- Of two records, the one served first: higher priority, then earlier. -/
def firstWork : Option Work → Work → Option Work
  | none, w => some w
  | some a, w => if a.prio < w.prio then some w else some a

/-- The record whose instance starts next on a stack. -/
def waitingInst (s : State) (n : Nat) : Option Work :=
  (s.cave.works.filter fun w => w.kind == .cdisp && w.stack == n && w.placed < w.nskc).foldl firstWork none

/-- The stack cores of a stack that hold no program. -/
def freeCores (s : State) (n : Nat) : List Nat := (List.range skPerStack).filter fun c => (skGet s n c).prog.isNone

/-- The free stack core that was made free for a record (R345). -/
def reservedFor (s : State) (n : Nat) (w : Work) : Option Nat := (freeCores s n).find? fun c => (skGet s n c).resv == some w.id

/-- The first record for whose instances a stack core was made free (R345, log 60). -/
def reservedWork (s : State) (n : Nat) : Option Work :=
  (s.cave.works.filter fun w => w.kind == .cdisp && w.placed < w.nskc && (reservedFor s n w).isSome).foldl firstWork none

/-- Entries of a stack's dispatch queue (14 R298). -/
def queued (s : State) (n : Nat) : Nat :=
  (s.cave.works.filter fun w => w.kind == .cdisp && w.stack == n && w.placed < w.nskc).length

def cavePrio (s : State) (x : CaveCtx) : Nat := match findWork s x.kind.work with | some w => w.prio | none => 0

def setProg (s : State) (n c : Nat) (x : CaveCtx) : State := skUpd s n c fun k => { k with prog := some x, resv := none }

/-- A region starts (R94, R340). -/
def startRegion (s : State) (n c : Nat) (w : Work) (tenant : Nat) : State :=
  let x := newCtx s (.region w.id) w.launch tenant w.entry w.arg 0 w.range
  let x := { x with
    v := (w.ship.zipIdx).foldl (fun v e => vecSet v e.2 e.1) x.v
    m := vecSet x.m 0 (w.em.setWidth 64) }
  setProg { updWork s w.id (fun k => { k with placed := 1 }) with nid := s.nid + 1 } n c x

def startInst (s : State) (n c : Nat) (w : Work) (tenant : Nat) : State :=
  let x := newCtx s (.inst w.id w.placed) w.launch tenant w.entry w.arg (BitVec.ofNat 64 w.placed) w.range
  setProg { updWork s w.id (fun k => { k with placed := k.placed + 1 }) with nid := s.nid + 1 } n c x

def tenantOf (s : State) (launch : Nat) : Nat := match findLaunch s launch with | some l => l.lr.tenant | none => 0

/-- Take the `i`-th of the pre-empted programs of a stack. -/
def takePreempted (n i : Nat) : List (Nat × CaveCtx) → Option (CaveCtx × List (Nat × CaveCtx))
  | [] => none
  | p :: r =>
    if p.1 == n then
      if i = 0 then some (p.2, r) else (takePreempted n (i - 1) r).map fun y => (y.1, p :: y.2)
    else (takePreempted n i r).map fun y => (y.1, p :: y.2)

/-- Does a stack core take no program or handler, since it makes a boundary, or is at one that its held writes wait for (R347, 04 R96)? -/
def skHeld (s : State) (n c : Nat) : Bool :=
  atLimit s (uSk n c) || (heldDue s (uSk n c) && (skGet s n c).prog.isNone && (skGet s n c).hand.isNone)

/-- A core that was made free for a record takes the reservation of the core where the record's instance starts (R349). -/
def moveResv (s : State) (n c : Nat) (w : Work) : State :=
  match reservedFor s n w with
  | some k => skUpd s n k fun x => { x with resv := (skGet s n c).resv }
  | none => s

/-- R345, R349: an instance that has not started takes the lowest-numbered free stack core, those of a record for which a core was made free
(R345) before the others; a region, or a pre-empted instance, takes any. -/
def instanceStartS (s : State) (n c : Nat) : Option State :=
  if nStacks ≤ n || !skUp s n || !ctlRuns s (5 + n) || skHeld s n c || !(freeCores s n).contains c then none
  else
    match waitingRegion s n, reservedWork s n with
    | some w, _ => if w.dispatched then some (startRegion s n c w (tenantOf s w.launch)) else none
    | none, some w =>
      if w.dispatched && (freeCores s n).head? == some c then some (startInst (moveResv s n c w) n c w (tenantOf s w.launch)) else none
    | none, none =>
      let k := (s.cave.preempted.filter (·.1 == n)).length
      if 0 < k then
        -- which of them resumes first is open
        let r := choose k s
        (takePreempted n r.1 r.2.cave.preempted).map fun y =>
          setProg { r.2 with cave := { r.2.cave with preempted := y.2 } } n c y.1
      else
        match waitingInst s n with
        | some w => if w.dispatched && (freeCores s n).head? == some c then some (startInst s n c w (tenantOf s w.launch)) else none
        | none => none

def execCaveInstanceStart (stack skc : Nat) (s : State) : Out := move s (instanceStartS s stack skc)

/-- The instances on a stack: stack core, priority, order of start. -/
def instsOn (s : State) (n : Nat) : List (Nat × Nat × Nat) :=
  (List.range skPerStack).filterMap fun c => match (skGet s n c).prog with
    | some x => if x.kind.isInst then some (c, cavePrio s x, x.started) else none
    | none => none

def worse : Option (Nat × Nat × Nat) → Nat × Nat × Nat → Option (Nat × Nat × Nat)
  | none, x => some x
  | some a, x => if x.2.1 < a.2.1 || (x.2.1 == a.2.1 && a.2.2 < x.2.2) then some x else some a

/-- The first record above a priority whose instances are not all placed and, with `long`, have waited 65,536 cycles: in the order of
arrival, whether or not its dispatch move has been taken (14 R298). -/
def waitsAbove (s : State) (n prio : Nat) (long : Bool) : Option Work :=
  (s.cave.works.filter fun w => w.kind == .cdisp && w.stack == n && w.placed < w.nskc && prio < w.prio &&
    (!long || 65536 ≤ w.waited)).foldl firstWork none

/-- R345: the instance of lowest priority that started last, where one must make room: its core, and the record that its core is then
for, if that is no region. -/
def preemptVictim (s : State) (n : Nat) : Option (Nat × Option Nat) :=
  if (freeCores s n).isEmpty then
    match (instsOn s n).foldl worse none with
    | none => none
    | some v =>
      if (waitingRegion s n).isSome then some (v.1, none)
      else (waitsAbove s n v.2.1 true).map fun w => (v.1, some w.id)
  else none

/-- R346: a program's context moves whole to the stack controller. -/
def putAside (s : State) (n c : Nat) (x : CaveCtx) (resv : Option Nat) : State :=
  let s := skUpd s n c fun k => { k with prog := none, resv := resv }
  { s with cave := { s.cave with preempted := s.cave.preempted ++ [(n, x)] } }

def cavePreemptS (s : State) (n c : Nat) : Option State :=
  match (skGet s n c).prog, (skGet s n c).hand with
  | some x, none =>
    match preemptVictim s n with
    | some (v, w) => if v == c && x.micro.isEmpty && x.part.isNone && ctlRuns s (5 + n) then some (putAside s n c x w) else none
    | none => none
  | _, _ => none

def execCavePreempt (stack skc : Nat) (s : State) : Out := move s (cavePreemptS s stack skc)

/-- R345: not-started instances wait one stack-core cycle more. -/
def countWaits (s : State) (n : Nat) : State :=
  { s with cave := { s.cave with works := s.cave.works.map fun w =>
      if w.kind == .cdisp && w.stack == n && w.placed < w.nskc then { w with waited := min 65536 (w.waited + 1) } else w } }

/-! ### Handlers (R342 to R344) -/

/-- An entry of a bank of a handler table (R343). -/
structure HandEnt where
  entry : Nat
  base : Nat
  len : Nat
  tenant : Nat
  flags : Nat
  deriving DecidableEq, Repr, Inhabited

def readHand (m : Memory) (at_ : Nat) : HandEnt :=
  let f := fun o n => leNat (memBytes m (at_ + o) n)
  ⟨f 0 8, f 8 8, f 16 8, f 24 4, f 28 4⟩
def HandEnt.on (e : HandEnt) : Bool := e.flags.testBit 0

/-- Where the shadow bank of a stack core lies (23 R391). -/
def shadowAt (n c : Nat) : Nat := stackReg n (0x2000 + 512 * c)

/-- The tenant of a bank's enabled entries. -/
def bankTenant (m : Memory) (at_ : Nat) : Option Nat :=
  (((List.range 16).map fun h => readHand m (at_ + 32 * h)).find? (·.on)).map HandEnt.tenant

/-- R344: an armed swap is taken first: the committed bank becomes active, and the shadow bank starts as a copy of it; one that changes the
tenant clears the handler area. -/
def takeSwap (s : State) (n c : Nat) : State :=
  match (skGet s n c).armed with
  | none => s
  | some m =>
    let s := { s with pf := memPutBytes s.pf (shadowAt n c) (memBytes m 0 512) }
    skUpd s n c fun k => { k with table := m, armed := none, hm := if bankTenant m 0 == bankTenant k.table 0 then k.hm else .empty }

/-- The work of a message that came by `send` holds no ticket (R328). -/
def sentWork (id launch n : Nat) (m : CaveMsg) : Work where
  id := id
  kind := .msg
  wave := 0
  num := 0
  launch := launch
  prio := 0
  stack := n
  entry := 0
  arg := m.word
  range := (0, 0)
  phys := []
  vec := m.vec
  nskc := 1
  placed := 1
  dispatched := true
  fin := false
  seen := false
  waited := 0
  ended := []
  ship := []
  em := 0

/-- Is the program in the middle of an instruction (R313)? -/
def midAccess (s : State) (n c : Nat) : Bool := match (skGet s n c).prog with | some x => x.part.isSome | none => false

def handlerDispatchS (s : State) (n c : Nat) : Option State :=
  if nStacks ≤ n || skPerStack ≤ c || !skUp s n || !ctlRuns s (5 + n) || skHeld s n c || midAccess s n c then none
  else
    match (skGet s n c).hand, (skGet s n c).msgs with
    | none, m :: r =>
      if !vLe m.vec (vecOf s (dieOfStack n)) then none
      else
        let s := takeSwap s n c
        let s := skUpd s n c fun k => { k with msgs := r }
        let e := readHand (skGet s n c).table (32 * m.h)
        if !e.on || e.tenant != m.tenant then
          match m.work.bind (findWork s) with
          | none => some s
          | some w => some (delWork (completeTicket s w ⟨6, false, 0, c, n, 0, 0⟩) w.id)
        else
          let id := match m.work with | some w => w | none => s.nid
          let s := match m.work with
            | some w => updWork s w fun k => { k with dispatched := true, placed := 1 }
            | none => { s with nid := s.nid + 1, cave := { s.cave with works := s.cave.works ++ [sentWork s.nid m.launch n m] } }
          -- the range was checked when the bank was committed; pages that no longer qualify stop the accesses to them
          let q := if e.len = 0 then (none, s) else rangeQualifies s m.launch m.tenant e.base e.len
          let s := openRange q.2 id (match q.1 with | some p => if p.1 == n then p.2 else [] | none => [])
          let x := newCtx s (.handler id m.h) m.launch m.tenant (pcOf (BitVec.ofNat 64 e.entry)) m.word (BitVec.ofNat 64 m.h) (e.base, e.len)
          some (skUpd { s with nid := s.nid + 1 } n c fun k => { k with hand := some x })
    | _, _ => none

def execCaveHandlerDispatch (stack skc : Nat) (s : State) : Out := move s (handlerDispatchS s stack skc)

end Sys2Proof.Machine
end

