-- ==== Sys2Proof/Machine/CaveFront.lean ====
section
/-! DEFINITION. Class 13, the front's calls to the cave level (16 R334 to R342). -/

namespace Sys2Proof.Machine

/-! ### What the four share (R334, R336) -/

/-- A pair: from uniform registers, or from the lowest lane with `em` 1, or lane 0. -/
def cavePair (x : Ctx) (b : SrcC) : DWord := srcC x.w true b ((lowLane x.em).getD 0)

/-- The cave entry of a displacement. -/
def caveEntry (x : Ctx) (disp : Word) : VAddr := pcOf (BitVec.ofNat 64 (pcVa (lineOf x.p.pc)) + 8 * disp.signExtend 64)

def ticketsFull (w : Wave) : Bool := 16 ≤ w.tickets.length

/-- R334: a ticket and its record. -/
def takeTicket (s : State) (x : Ctx) (work : Nat) (done : Option CaveStatus) (mig : Bool) : State :=
  updWave s x.c.wave fun w => { w with tickets := w.tickets ++ [⟨w.ticketCtr, work, done, mig, false⟩], ticketCtr := w.ticketCtr + 1 }

/-- The ticket number, as the register D receives it. -/
def ticketNum (x : Ctx) : Word := x.w.ticketCtr.setWidth 32

def putTicket (s : State) (x : Ctx) (la : BitVec 4) (d : Reg) : State := openDone s x.c la { sd := some (d.toNat, 1) } [] [ticketNum x]

def freeTicket (s : State) (x : Ctx) (n : BitVec 16) : State :=
  updWave s x.c.wave fun w => { w with tickets := w.tickets.filter (·.num != n) }

/-- R335: a declared range failed, and nothing ran; which stack core and stack the status names is open. -/
def rangeFailed (s : State) (addr : DWord) : CaveStatus × State :=
  let c := draw s
  let n := draw c.2
  (⟨7, false, 0, c.1 % 16, n.1 % 16, 0, addr⟩, n.2)

def newWork (s : State) (x : Ctx) (k : WorkKind) (stack entry : Nat) (arg : DWord) (range : Nat × Nat) (phys : List (Nat × Nat))
    (nskc : Nat) : Work where
  id := s.nid
  kind := k
  wave := x.c.wave
  num := x.w.ticketCtr
  launch := x.l.uid
  prio := x.l.lr.prio
  stack := stack
  entry := entry
  arg := arg
  range := range
  phys := phys
  vec := vecOf s (waveDie x.w)
  nskc := nskc
  placed := 0
  dispatched := false
  fin := false
  seen := false
  waited := 0
  ended := []
  ship := []
  em := 0

def addWork (s : State) (w : Work) : State := { s with nid := s.nid + 1, cave := { s.cave with works := s.cave.works ++ [w] } }

/-! ### `cdisp` (R337) -/

/-- The 8-byte units of a dispatch record, each read whole (10 R214): nothing where one has no source yet. -/
def recordUnits (r : Reader) (launch : Nat) (l : Loc) : List Nat → State → Option (List Byte × State)
  | [], s => some ([], s)
  | i :: is, s =>
    match readRun r s (l.off (8 * i)) 8 with
    | none => none
    | some (bs, p, s) =>
      (recordUnits r launch l is (setMemPsn s launch p)).map fun y => ((if p then leBytes (poisonOf 8) 8 else bs) ++ y.1, y.2)

/-- The dispatch record, a plain read of the lane that gives the address, under R216 and R217 (log 55): RBASE, RLEN, NSKC, and whether the other
limits of R337 hold; nothing where the read has to wait. -/
def readRecord (s : State) (x : Ctx) (l : Loc) : Option ((Nat × Nat × Nat × Bool) × State) :=
  let q := fresh s
  let k : LaneKey := ⟨x.c.wave, (lowLane x.em).getD 0⟩
  if acqBlocked s k q.1 || readBefore s k q.1 l 32 then none
  else (recordUnits ⟨some k, some ⟨k, q.1, true⟩, x.w.core, true, []⟩ x.l.uid l (List.range 4) q.2).map fun y =>
    let n := leNat y.1
    ((bits n 0 64, bits n 64 64, bits n 128 8, bits n 136 56 == 0), y.2)

def recordOk (base len nskc : Nat) (zero : Bool) : Bool :=
  base % 256 == 0 && len % 256 == 0 && 0 < len && len ≤ 2 ^ 36 && 1 ≤ nskc && nskc ≤ 16 && zero

def cdispRun (x : Ctx) (s : State) (la : BitVec 4) (d : Reg) (b : SrcC) (disp : Word) : Res :=
  let a := cavePair x b
  -- R298: it issues again, whole, once an entry of the queue it waits for has left
  if (match x.p.wait with | .queue n none => decide (64 ≤ queued s n) | _ => false) then .wait s x.p.wait
  else if a.toNat % 32 ≠ 0 then trapAll s x .align a
  else
    match xlate s x.l.lr.tenant x.l.lr.root a.toNat .read with
    | (.error k, s) => trapAll s x k a
    | (.ok t, s) =>
      if ticketsFull x.w then illop s x
      else if !splitReleased s x .device then .wait s .order
      else
        match readRecord s x t.loc with
        | none => .wait s .order
        | some r =>
        let q := if recordOk r.1.1 r.1.2.1 r.1.2.2.1 r.1.2.2.2 then rangeQualifies r.2 x.l.uid x.l.lr.tenant r.1.1 r.1.2.1 else (none, r.2)
        match q.1 with
        | none =>
          let f := rangeFailed q.2 a
          .done (putTicket (takeTicket f.2 x 0 (some f.1) false) x la d)
        | some p =>
          if 64 ≤ queued s p.1 then .wait s (.queue p.1 none)
          else
            let s := q.2
            let w := newWork s x .cdisp p.1 (caveEntry x disp) a (r.1.1, r.1.2.1) p.2 r.1.2.2.1
            .done (putTicket (takeTicket (addWork s w) x w.id none false) x la d)

def execCdisp (g : Guard) (la : BitVec 4) (d : Reg) (b : SrcC) (disp : Word) (s : State) : Out :=
  runUni false g s fun x s => cdispRun x s la d b disp

/-! ### `cwait` (R339) -/

def putGroup (s : State) (x : Ctx) (st : Option Reg) (ws : List Word) : State :=
  match st with
  | some d => updWave s x.c.wave fun w => setSs w d.toNat ws
  | none => s

/-- R348: the wave has waited on a ticket. -/
def waitedOn (s : State) (x : Ctx) (t : Ticket) : State :=
  updWork (updWave s x.c.wave fun w => { w with tickets := updFirst (·.num == t.num) (fun k => { k with seen := true }) w.tickets }) t.work
    fun k => { k with seen := true }

def cwaitRun (x : Ctx) (s : State) (st : Option Reg) (a : Reg) : Res :=
  let n : BitVec 16 := (sWord x.w a.toNat).setWidth 16
  match x.w.tickets.find? (·.num == n) with
  | none => .done (discardFor (putGroup s x st [0, 0, 0, 0]) x.w.core .device)
  | some t =>
    let s := waitedOn s x t
    match t.done with
    | none => .wait s .ticket
    | some c =>
      if st.isNone && c.code ≠ 0 then trapAll s x .caveerr c.addr
      else .done (discardFor (freeTicket (putGroup s x st (statusWords c)) x n) x.w.core .device)

def execCwait (g : Guard) (st : Option Reg) (a : Reg) (s : State) : Out := runUni true g s fun x s => cwaitRun x s st a

/-! ### `mig` (R340, R341) -/

/-- Does the split hold every lane of its wave (06 R144)? -/
def wholeSplit (x : Ctx) : Bool := ~~~x.w.exited &&& ~~~x.p.members == 0

/-- The range of a region: every line from `a` to `a + max(C, 1) − 1`. -/
def migRange (a c : Nat) : Nat × Nat := (a / 256 * 256, ((a + max c 1 - 1) / 256 + 1) * 256 - a / 256 * 256)

/-- The region is over: its registers return in all 32 lanes, and a failure stands pending. -/
def migReturn (x : Ctx) (s : State) (la : BitVec 4) (o : MigOp) (num : BitVec 16) (ship : List (Lanes Word)) (c : CaveStatus) : Res :=
  let k := o.k.toNat
  let got := if k = 0 then [] else (List.range 32).map fun l => LaneRes.mk l (ship.map fun v => laneGet v 0 l) none none
  let s := openDone s x.c la { gd := if k = 0 then none else some (o.a.toNat, k) } got []
  let s := openDone s x.c la { sd := some (o.d.toNat, 1) } [] [num.setWidth 32]
  let s := discardFor s x.w.core .device
  .done (if c.code = 0 then freeTicket s x num else updSplit s x.c fun p => { p with caveErr := some c.addr })

def migRun (x : Ctx) (s : State) (la : BitVec 4) (o : MigOp) : Res :=
  let ship := (List.range o.k.toNat).map fun j => x.w.g.getD (o.a.toNat + j) zeroLanes
  match x.p.wait with
  | .mig t =>
    let num := BitVec.ofNat 16 t
    match x.w.tickets.find? (·.num == num) with
    | none => .wait s (.mig t)
    | some r =>
      match r.done, findWork s r.work with
      | some c, some w => migReturn x (delWork s w.id) la o num w.ship c
      | _, _ => .wait s (.mig t)
  | _ =>
    let a := cavePair x o.b
    if !wholeSplit x then illop s x
    else
      match xlate s x.l.lr.tenant x.l.lr.root a.toNat .read with
      | (.error k, s) => trapAll s x k a
      | (.ok _, s) =>
        if ticketsFull x.w then illop s x
        else if !splitReleased s x .device then .wait s .order
        else
          let r := migRange a.toNat (sWord x.w o.c.toNat).toNat
          let q := rangeQualifies s x.l.uid x.l.lr.tenant r.1 r.2
          match q.1 with
          | none =>
            let f := rangeFailed q.2 a
            migReturn x (takeTicket f.2 x 0 (some f.1) true) la o x.w.ticketCtr ship f.1
          | some p =>
            let w := { newWork q.2 x .mig p.1 (caveEntry x o.disp) a r p.2 1 with ship := ship, em := x.w.em }
            .wait (takeTicket (addWork q.2 w) x w.id none true) (.mig x.w.ticketCtr.toNat)

def execMig (g : Guard) (la : BitVec 4) (o : MigOp) (s : State) : Out := runUni true g s fun x s => migRun x s la o

/-! ### `cmsg` (R342) -/

def cmsgRun (x : Ctx) (s : State) (la : BitVec 4) (o : CmsgOp) : Res :=
  let n := o.stack.toNat
  let c := o.skc.toNat
  if 32 ≤ (skGet s n c).msgs.length then .wait s (.queue n (some c))
  else if ticketsFull x.w then illop s x
  else if !splitReleased s x .device then .wait s .order
  else
    let w := newWork s x .msg n 0 (cavePair x o.b) (0, 0) [] 1
    let s := takeTicket (addWork s w) x w.id none false
    let m : CaveMsg := ⟨s.nid, o.h.toNat, w.arg, w.launch, x.l.lr.tenant, w.vec, some w.id⟩
    let s := skUpd { s with nid := s.nid + 1 } n c fun k => { k with msgs := k.msgs ++ [m] }
    .done (putTicket s x la o.d)

def execCmsg (g : Guard) (la : BitVec 4) (o : CmsgOp) (s : State) : Out := runUni false g s fun x s => cmsgRun x s la o

end Sys2Proof.Machine
end

