-- ==== Sys2Proof/Machine/Int.lean ====
section
/-! DEFINITION. The integer instructions (06 R130 to R132). -/

namespace Sys2Proof.Machine

/-- Wrap an exact result, or clamp it with `.sat` (R130). -/
def intRes (t : IntTy) (sat : Bool) (v : Int) : DWord :=
  BitVec.ofNat 64 (wrapI (intBits t) (if sat then clampI (intMin t) (intMax t) v else v))

/-- A two-operand form on the values of its type. -/
def intBinX (o : IntBin) (f : Int → Int → DWord) (x : Ctx) (s : State) : (Nat → DWord) × State :=
  let b := srcBInt x s o.ty o.b
  (fun l => f (intVal o.ty (aVal x.w o.u o.ty.wide o.a l)) (intVal o.ty (b.1 l).toNat), b.2)

/-- A two-operand form on patterns. -/
def bitBinX (o : IntBin) (f : Nat → Nat → Nat) (x : Ctx) (s : State) : (Nat → DWord) × State :=
  let b := srcBInt x s o.ty o.b
  (fun l => BitVec.ofNat 64 (f (aVal x.w o.u o.ty.wide o.a l) (b.1 l).toNat), b.2)

/-- A form whose B is one 32-bit register whatever the type. -/
def cntBinX (o : IntBin) (f : Nat → Nat → Nat) (x : Ctx) (s : State) : (Nat → DWord) × State :=
  let b := srcBInt x s .z32 o.b
  (fun l => BitVec.ofNat 64 (f (aVal x.w o.u o.ty.wide o.a l) (b.1 l).toNat), b.2)

def intUnX (o : IntUn) (f : Nat → DWord) (x : Ctx) (s : State) : (Nat → DWord) × State :=
  (fun l => f (aVal x.w o.u o.ty.wide o.a l), s)

/-- The number whose bit `i` is `f i`, for `n` bits. -/
def ofBits (n : Nat) (f : Nat → Bool) : Nat :=
  (List.range n).foldl (fun a i => if f i then a + 2 ^ i else a) 0

def execIadd (g : Guard) (sat : Bool) (o : IntBin) (s : State) : Out :=
  execAlu g o.u o.ty.wide o.d s (intBinX o fun a b => intRes o.ty sat (a + b))

def execIsub (g : Guard) (sat : Bool) (o : IntBin) (s : State) : Out :=
  execAlu g o.u o.ty.wide o.d s (intBinX o fun a b => intRes o.ty sat (a - b))

def execImul (g : Guard) (sat : Bool) (o : IntBin) (s : State) : Out :=
  execAlu g o.u o.ty.wide o.d s (intBinX o fun a b => intRes o.ty sat (a * b))

/-- The high half of the exact product. -/
def execImulh (g : Guard) (o : IntBin) (s : State) : Out :=
  execAlu g o.u o.ty.wide o.d s (intBinX o fun a b => intRes o.ty false ((a * b).fdiv (2 ^ intBits o.ty)))

def execImad (g : Guard) (sat : Bool) (o : IntBin) (c : SrcC) (s : State) : Out :=
  execAlu g o.u o.ty.wide o.d s fun x s =>
    let b := srcBInt x s o.ty o.b
    (fun l => intRes o.ty sat
      (intVal o.ty (aVal x.w o.u o.ty.wide o.a l) * intVal o.ty (b.1 l).toNat + intVal o.ty (srcC x.w o.ty.wide c l).toNat), b.2)

/-- R130: division by zero gives all ones. -/
def idivV (t : IntTy) (a b : Int) : DWord := intRes t false (if b = 0 then -1 else a.tdiv b)
/-- R130: remainder by zero gives a. -/
def iremV (t : IntTy) (a b : Int) : DWord := intRes t false (if b = 0 then a else a.tmod b)

def execIdiv (g : Guard) (la : BitVec 4) (o : IntBin) (s : State) : Out :=
  execLong g la o.u o.ty.wide o.d s (intBinX o (idivV o.ty))

def execIrem (g : Guard) (la : BitVec 4) (o : IntBin) (s : State) : Out :=
  execLong g la o.u o.ty.wide o.d s (intBinX o (iremV o.ty))

def execImin (g : Guard) (o : IntBin) (s : State) : Out :=
  execAlu g o.u o.ty.wide o.d s (intBinX o fun a b => intRes o.ty false (min a b))

def execImax (g : Guard) (o : IntBin) (s : State) : Out :=
  execAlu g o.u o.ty.wide o.d s (intBinX o fun a b => intRes o.ty false (max a b))

def execIabs (g : Guard) (sat : Bool) (o : IntUn) (s : State) : Out :=
  execAlu g o.u o.ty.wide o.d s (intUnX o fun a => intRes o.ty sat (intVal o.ty a).natAbs)

def execIneg (g : Guard) (sat : Bool) (o : IntUn) (s : State) : Out :=
  execAlu g o.u o.ty.wide o.d s (intUnX o fun a => intRes o.ty sat (-(intVal o.ty a)))

def execAnd (g : Guard) (o : IntBin) (s : State) : Out := execAlu g o.u o.ty.wide o.d s (bitBinX o Nat.land)

def execOr (g : Guard) (o : IntBin) (s : State) : Out := execAlu g o.u o.ty.wide o.d s (bitBinX o Nat.lor)

def execXor (g : Guard) (o : IntBin) (s : State) : Out := execAlu g o.u o.ty.wide o.d s (bitBinX o Nat.xor)

def execNot (g : Guard) (o : IntUn) (s : State) : Out :=
  execAlu g o.u o.ty.wide o.d s (intUnX o fun a => BitVec.ofNat 64 (2 ^ intBits o.ty - 1 - a % 2 ^ intBits o.ty))

/-- Shifts by a count at or past the width give 0 (R130). -/
def shlV (w a n : Nat) : Nat := if w ≤ n then 0 else a * 2 ^ n % 2 ^ w
def shrV (w a n : Nat) : Nat := if w ≤ n then 0 else a % 2 ^ w / 2 ^ n
/-- An arithmetic shift: a count at or past the width gives copies of the sign bit. -/
def sraV (w a n : Nat) : Nat := wrapI w ((sx w a).fdiv (2 ^ min n w))
def rotV (w a n : Nat) : Nat := a % 2 ^ w * 2 ^ (n % w) % 2 ^ w + a % 2 ^ w / 2 ^ (w - n % w)

def execShl (g : Guard) (o : IntBin) (s : State) : Out :=
  execAlu g o.u o.ty.wide o.d s (cntBinX o (shlV (intBits o.ty)))

def execShr (g : Guard) (o : IntBin) (s : State) : Out :=
  execAlu g o.u o.ty.wide o.d s (cntBinX o (shrV (intBits o.ty)))

def execSra (g : Guard) (o : IntBin) (s : State) : Out :=
  execAlu g o.u o.ty.wide o.d s (cntBinX o (sraV (intBits o.ty)))

def execRot (g : Guard) (o : IntBin) (s : State) : Out :=
  execAlu g o.u o.ty.wide o.d s (cntBinX o (rotV (intBits o.ty)))

def fieldPos (b : Nat) : Nat := bits b 0 8
def fieldLen (w b : Nat) : Nat := min (bits b 8 8) w

/-- R131. -/
def bfeV (t : IntTy) (a b : Nat) : Nat :=
  let w := intBits t
  let pos := fieldPos b
  let len := fieldLen w b
  let src := fun i => if pos + i < w then a.testBit (pos + i) else t.signed && a.testBit (w - 1)
  ofBits w fun i => if i < len then src i else t.signed && decide (0 < len) && src (len - 1)

def bfiV (t : IntTy) (a b c : Nat) : Nat :=
  let w := intBits t
  let pos := fieldPos b
  let len := fieldLen w b
  ofBits w fun i => if pos ≤ i && i < pos + len then a.testBit (i - pos) else c.testBit i

def execBfe (g : Guard) (o : IntBin) (s : State) : Out := execAlu g o.u o.ty.wide o.d s (cntBinX o (bfeV o.ty))

/-- R130 does not name `bfi` among the forms with a 32-bit B: its B has the type's width, and R131 reads the low bits (log 23). -/
def execBfi (g : Guard) (o : IntBin) (c : SrcC) (s : State) : Out :=
  execAlu g o.u o.ty.wide o.d s fun x s =>
    let b := srcBInt x s o.ty o.b
    (fun l => BitVec.ofNat 64
      (bfiV o.ty (aVal x.w o.u o.ty.wide o.a l) (b.1 l).toNat (srcC x.w o.ty.wide c l).toNat), b.2)

def popcV (w a : Nat) : Nat := ((List.range w).filter a.testBit).length
def clzV (w a : Nat) : Nat := ((List.range w).takeWhile fun i => !a.testBit (w - 1 - i)).length
def ctzV (w a : Nat) : Nat := ((List.range w).takeWhile fun i => !a.testBit i).length

def execPopc (g : Guard) (o : IntUn) (s : State) : Out :=
  execAlu g o.u false o.d s (intUnX o fun a => BitVec.ofNat 64 (popcV (intBits o.ty) a))

def execClz (g : Guard) (o : IntUn) (s : State) : Out :=
  execAlu g o.u false o.d s (intUnX o fun a => BitVec.ofNat 64 (clzV (intBits o.ty) a))

def execCtz (g : Guard) (o : IntUn) (s : State) : Out :=
  execAlu g o.u false o.d s (intUnX o fun a => BitVec.ofNat 64 (ctzV (intBits o.ty) a))

def execBrev (g : Guard) (o : IntUn) (s : State) : Out :=
  execAlu g o.u o.ty.wide o.d s
    (intUnX o fun a => BitVec.ofNat 64 (ofBits (intBits o.ty) fun i => a.testBit (intBits o.ty - 1 - i)))

/-- R132: base pair plus a shifted 32-bit index. -/
def leaV (sgn : Bool) (sh : Nat) (a b : Nat) : Nat :=
  wrapI 64 (a + (intVal (if sgn then .s32 else .z32) b) * 2 ^ sh)

def execLea (g : Guard) (o : LeaOp) (s : State) : Out :=
  execAlu g o.u true o.d s fun x s =>
    let b := srcBInt x s .z32 o.b
    (fun l => BitVec.ofNat 64 (leaV o.sx o.sh.toNat (aVal x.w o.u true o.a l) (b.1 l).toNat), b.2)

/-- R132: add with the carry predicate in and out. -/
def execIaddc (g : Guard) (d a : Reg) (b : SrcB) (c : PReg) (s : State) : Out :=
  runLane false g s fun x s =>
    let v := srcBInt x s .z32 b
    let sum := fun l => (gGet x.w false a l).toNat + (v.1 l).toNat % 2 ^ 32 + (pBit x.w c l).toNat
    let s := updWave v.2 x.c.wave fun w => setGd w false d x.act fun l => BitVec.ofNat 64 (sum l % 2 ^ 32)
    .done (updWave s x.c.wave fun w =>
      setPm w c x.act (maskOf fun l => carryOut (gGet x.w false a l).toNat (v.1 l).toNat (pBit x.w c l)))

def execSel (g : Guard) (o : IntBin) (c : PReg) (s : State) : Out :=
  execAlu g o.u o.ty.wide o.d s fun x s =>
    let b := srcBInt x s o.ty o.b
    (fun l => if pBit x.w c l then BitVec.ofNat 64 (aVal x.w o.u o.ty.wide o.a l) else b.1 l, b.2)

def execMov (g : Guard) (ty : IntTy) (u : Bool) (d : Reg) (b : SrcB) (s : State) : Out :=
  execAlu g u ty.wide d s fun x s => srcBInt x s ty b

def execMovi (g : Guard) (ty : IntTy) (u : Bool) (d : Reg) (v : Word) (s : State) : Out :=
  execAlu g u ty.wide d s fun _ s => (fun _ => immInt ty v, s)

end Sys2Proof.Machine
end

