-- ==== Sys2Proof/Machine/CaveIsa.lean ====
section
/-! DEFINITION. The instructions of a stack core (16 R317 to R328) and the issue of one of them. -/

namespace Sys2Proof.Machine

/-! ### Issue -/

/-- The codes of R333 at which a program stops. -/
def cIll : Nat := 1
def cProt : Nat := 2
def cAlign : Nat := 3
def cLimit : Nat := 5

/-- What a cave instruction does. -/
inductive CRes
  /-- its effect; the program goes on at the next word -/
  | done (s : State) (x : CaveCtx)
  | jump (s : State) (x : CaveCtx) (pc : VAddr)
  /-- the program stops, with no effect of the instruction (R318) -/
  | stop (s : State) (code addr : Nat)
  /-- the instruction waits -/
  | wait (s : State)
  /-- the program has left the stack core -/
  | gone (s : State)

def nextCave (pc : VAddr) : VAddr := (pc + 8) % 2 ^ 57

def caveGoes (s : State) (u : CurCave) (x : CaveCtx) (pc : VAddr) : State :=
  { ctxPut s u (some { x with pc := pc, count := x.count + 1 }) with curCave := none }

/-- R318: a program ends at a stop once its micro-instructions have completed. -/
def caveStops (s : State) (u : CurCave) (x : CaveCtx) (code addr : Nat) : State :=
  if x.micro.isEmpty then endProgram s u x code addr else { s with curCave := none }

def finishCave (u : CurCave) (x0 : CaveCtx) (wr : Option VReg) (r : CRes) : State :=
  match r with
  | .done s x => caveGoes s u (supersede x wr) (nextCave x0.pc)
  | .jump s x pc => caveGoes s u x pc
  | .stop s code addr => caveStops s u x0 code addr
  | .wait s => { s with curCave := none }
  | .gone s => { s with curCave := none }

/-- One instruction of the context that executes; it reads the `v` registers `rd`, waiting for those that micro-instructions still
give (R316), and writes `wr`. -/
def runCave (rd : List VReg) (wr : Option VReg) (s : State) (k : CurCave → CaveCtx → State → CRes) : Out :=
  match s.curCave with
  | none => .refused .noIssuer
  | some u =>
    match ctxGet s u with
    | none => .refused .noIssuer
    | some x => .next (if rd.any (vPending x) then { s with curCave := none } else finishCave u x wr (k u x s))

/-- The word at a PC, through the translation of R315; none where the fetch fails. -/
def caveFetch (s : State) (u : CurCave) (x : CaveCtx) (pc : VAddr) : Option DWord × State :=
  let va := pcVa pc
  let cb := codeBounds s x.launch x.tenant
  if va < cb.1 || cb.2 ≤ va then (none, s)
  else
    match xlate s x.tenant (rootOf s x.launch x.tenant) va .fetch with
    | (.error _, s) => (none, s)
    | (.ok t, s) =>
      let d := dieOfStack u.stack
      let t0 := match findLaunch s x.launch with | some l => l.admT | none => s.mem.clk
      let word := fun (r : List (Byte × Bool) × State) (pa : Nat) => (some (BitVec.ofNat 64 (leNat (poisonLine pa r.1))), r.2)
      match t.loc with
      | .gm pa => word (histRead s d pa 8 t0) pa
      | .remote dev pa => word (histRemote s (d * coresPerDie) dev pa 8 t0) pa
      | _ => (none, s)

/-- What an attempt of a stack core to execute an instruction comes to. -/
inductive CavePrep
  | idle
  | taken (s : State)
  | run (i : Instr) (s : State)

/-- The context that has the core (R313): the handler's where one runs. -/
def caveTurn (s : State) (n c : Nat) : CurCave := ⟨n, c, (skGet s n c).hand.isSome⟩

/-- R313: a message takes a core at the next boundary of its program, unless the stack's controller holds dispatches (23 R403). -/
def msgTakes (s : State) (n c : Nat) : Bool :=
  (skGet s n c).hand.isNone && !(skGet s n c).msgs.isEmpty && ctlRuns s (5 + n) && !skHeld s n c

def prepOf (o : Option State) : CavePrep := match o with | some s => .taken s | none => .idle

def cavePrepare (s : State) (n c : Nat) : CavePrep :=
  let u := caveTurn s n c
  match ctxGet s u with
  | none => prepOf (handlerDispatchS s n c)
  | some x =>
    if !skUp s n then .idle
    else if x.part.isSome then prepOf (x.part.map (partStep s u x))
    else if msgTakes s n c then prepOf (handlerDispatchS s n c)
    else if !u.hand && atLimit s (uSk n c) then .idle
    else if u.hand && 256 ≤ x.count then .taken (caveStops s u x cLimit (pcVa x.pc))
    else
      match caveFetch s u x x.pc with
      | (none, s) => .taken (caveStops s u x cProt (pcVa x.pc))
      | (some w, s) =>
        match decodeCave w with
        | .error _ => .taken (caveStops s u x cIll (pcVa x.pc))
        | .ok i => .run i { s with curCave := some u }

/-! ### Scalar instructions (R319 to R321) -/

def xSrc (x : CaveCtx) : XSrc → DWord
  | .x r => xGet x r
  | .imm v => v.signExtend 64

/-- A scalar result. -/
def execX (d : XReg) (s : State) (f : CaveCtx → DWord) : Out :=
  runCave [] none s fun _ x s => .done s (xSet x d (f x))

def execXBin (d a : XReg) (b : XSrc) (s : State) (f : DWord → DWord → DWord) : Out :=
  execX d s fun x => f (xGet x a) (xSrc x b)

def execCaveAdd (d a : XReg) (b : XSrc) (s : State) : Out := execXBin d a b s (· + ·)

def execCaveSub (d a : XReg) (b : XSrc) (s : State) : Out := execXBin d a b s (· - ·)

def execCaveMul (d a : XReg) (b : XSrc) (s : State) : Out := execXBin d a b s (· * ·)

def execCaveAnd (d a : XReg) (b : XSrc) (s : State) : Out := execXBin d a b s (· &&& ·)

def execCaveOr (d a : XReg) (b : XSrc) (s : State) : Out := execXBin d a b s (· ||| ·)

def execCaveXor (d a : XReg) (b : XSrc) (s : State) : Out := execXBin d a b s (· ^^^ ·)

/-- R320: shifts by the whole of b, unsigned. -/
def execCaveShl (d a : XReg) (b : XSrc) (s : State) : Out :=
  execXBin d a b s fun p q => BitVec.ofNat 64 (shlV 64 p.toNat q.toNat)

def execCaveShr (d a : XReg) (b : XSrc) (s : State) : Out :=
  execXBin d a b s fun p q => BitVec.ofNat 64 (shrV 64 p.toNat q.toNat)

def execCaveSra (d a : XReg) (b : XSrc) (s : State) : Out :=
  execXBin d a b s fun p q => BitVec.ofNat 64 (sraV 64 p.toNat q.toNat)

def execCaveLi (hi : Bool) (d : XReg) (v : Word) (s : State) : Out :=
  execX d s fun x => if hi then word64 (lo32 (xGet x d)) v else v.signExtend 64

/-- a < b, signed or unsigned. -/
def xLess (u : Bool) (a b : DWord) : Bool := if u then a.ult b else a.slt b

def execCaveSlt (u : Bool) (d a : XReg) (b : XSrc) (s : State) : Out :=
  execXBin d a b s fun p q => if xLess u p q then 1 else 0

def xszBytes : XSz → Nat | .b8 => 1 | .b16 => 2 | .b32 => 4 | .b64 => 8

/-- xA + sext(IMM, 64). -/
def xAddr (x : CaveCtx) (a : XReg) (off : Word) : Nat := (xGet x a + off.signExtend 64).toNat

/-- R318: the checks of an access, alignment first, then R314 or R315; where it lies. -/
def caveCheck (s : State) (u : CurCave) (x : CaveCtx) (lm : Bool) (al a n : Nat) (acc : Acc) : Except Nat Nat × State :=
  if a % al ≠ 0 then (.error cAlign, s)
  else if lm then (if lmOk u.hand a n then .ok a else .error cProt, s)
  else
    match caveXlate s u.stack x a n acc with
    | (none, s) => (.error cProt, s)
    | (some pa, s) => (.ok pa, s)

/-- R320: the value of a load of `n` bytes. -/
def xLoaded (sgn : Bool) (n v : Nat) : DWord := BitVec.ofNat 64 (if sgn then wrapI 64 (sx (8 * n) v) else v)

def execCaveLd (o : XLdOp) (s : State) : Out :=
  runCave [] none s fun u x s =>
    let n := xszBytes o.sz
    let a := xAddr x o.a o.off
    match caveCheck s u x o.lm n a n .read with
    | (.error c, s) => .stop s c a
    | (.ok pa, s) =>
      let r := if o.lm then (memBytes (lmGet s u x) a n, false) else caveRead s u.stack pa n
      let s := if o.lm then s else touchMem s pa
      .done (setMemPsn s x.launch r.2) (xSet x o.d (xLoaded o.s n (readPattern r.1 r.2)))

def execCaveSt (o : XStOp) (s : State) : Out :=
  runCave [] none s fun u x s =>
    let n := xszBytes o.sz
    let a := xAddr x o.a o.off
    match caveCheck s u x o.lm n a n .write with
    | (.error c, s) => .stop s c a
    | (.ok pa, s) =>
      let bs := leBytes (xGet x o.b).toNat n
      if o.lm then let r := lmPut s u x (memPutBytes (lmGet s u x) a bs); .done r.1 r.2
      else .done (caveStore s u.stack pa bs) x

/-- R321: a transfer to a 64-bit address. -/
def caveTransfer (s : State) (u : CurCave) (x x' : CaveCtx) (t : DWord) : CRes :=
  if t.toNat % 8 ≠ 0 then .stop s cAlign t.toNat
  else
    match caveFetch s u x (pcOf t) with
    | (none, s) => .stop s cProt t.toNat
    | (some _, s) => .jump s x' (pcOf t)

def caveDisp (x : CaveCtx) (v : Word) : DWord := BitVec.ofNat 64 (pcVa x.pc) + 8 * v.signExtend 64

def execXBr (a b : XReg) (disp : Word) (s : State) (f : DWord → DWord → Bool) : Out :=
  runCave [] none s fun u x s =>
    if f (xGet x a) (xGet x b) then caveTransfer s u x x (caveDisp x disp) else .done s x

def execCaveBeq (a b : XReg) (disp : Word) (s : State) : Out := execXBr a b disp s (· == ·)

def execCaveBne (a b : XReg) (disp : Word) (s : State) : Out := execXBr a b disp s (· != ·)

def execCaveBlt (u : Bool) (a b : XReg) (disp : Word) (s : State) : Out := execXBr a b disp s (xLess u)

def execCaveBge (u : Bool) (a b : XReg) (disp : Word) (s : State) : Out := execXBr a b disp s fun p q => !xLess u p q

def xTgt (x : CaveCtx) : XTgt → DWord
  | .disp v => caveDisp x v
  | .reg r => xGet x r

def execCaveJmp (t : XTgt) (s : State) : Out :=
  runCave [] none s fun u x s => caveTransfer s u x x (xTgt x t)

/-- The link is written after the target is read. -/
def execCaveJal (d : XReg) (t : XTgt) (s : State) : Out :=
  runCave [] none s fun u x s =>
    caveTransfer s u x (xSet x d (BitVec.ofNat 64 (pcVa (nextCave x.pc)))) (xTgt x t)

/-! ### Vector instructions (R322 to R327) -/

/-- R324: the alignment of a vector access. -/
def vAlign (lm : Bool) : Nat := if lm then 4 else 128

def execCaveVld (o : VMemOp) (s : State) : Out :=
  runCave (if o.bank then [] else [o.v]) (if o.bank then none else some o.v) s fun u x s =>
    let a := xAddr x o.a o.off
    match caveCheck s u x o.lm (vAlign o.lm) a 128 .read with
    | (.error c, s) => .stop s c a
    | (.ok pa, s) =>
      if o.bank then .done s (pushMicro x (.caveVld o) a pa o.m o.v o.v o.v)
      else if o.lm then .done s (vSet x o.v (vLoaded o.h (mGet x o.m) (vGet x o.v) (memBytes (lmGet s u x) a 128) fun _ => false))
      else
        .done s (beginPart x (.caveVld o) a pa o.m o.v)

def execCaveVst (o : VMemOp) (s : State) : Out :=
  runCave (if o.bank then [] else [o.v]) none s fun u x s =>
    let a := xAddr x o.a o.off
    match caveCheck s u x o.lm (vAlign o.lm) a 128 .write with
    | (.error c, s) => .stop s c a
    | (.ok pa, s) =>
      if o.bank then .done s (pushMicro x (.caveVst o) a pa o.m o.v o.v o.v)
      else if o.lm then
        let rs := storeRuns (byteMask o.h (mGet x o.m)) (vByte (vGet x o.v))
        let r := lmPut s u x (rs.foldl (fun m r => memPutBytes m (a + r.1) r.2) (lmGet s u x))
        .done r.1 r.2
      else .done s (beginPart x (.caveVst o) a pa o.m o.v)

/-- A lane-for-lane operation on two registers (R323). -/
def execVBin (o : VBinOp) (s : State) (f : Nat → Nat → Nat) : Out :=
  runCave [o.a, o.b, o.d] (some o.d) s fun _ x s =>
    let h := vNarrow o.ty
    .done s (vSet x o.d (vUnder h (mGet x o.m) (vGet x o.d) fun i => f (vLane h (vGet x o.a) i) (vLane h (vGet x o.b) i)))

/-- By the lane type: a floating operation, or an integer one wrapped to 32 bits. -/
def vArith (t : VTy) (f : FTy5 → Nat → Nat → Nat) (g : Int → Int → Int) (a b : Nat) : Nat :=
  match vFlt t with
  | some k => f k a b
  | none => wrapI 32 (g (sx 32 a) (sx 32 b))

def execCaveVadd (o : VBinOp) (s : State) : Out := execVBin o s (vArith o.ty (faddV · .rne) (· + ·))

def execCaveVsub (o : VBinOp) (s : State) : Out := execVBin o s (vArith o.ty (fsubV · .rne) (· - ·))

def execCaveVmul (o : VBinOp) (s : State) : Out := execVBin o s (vArith o.ty (fmulV · .rne) (· * ·))

def execCaveVmax (o : VBinOp) (s : State) : Out := execVBin o s (vArith o.ty (fminmax · true) max)

def execCaveVmin (o : VBinOp) (s : State) : Out := execVBin o s (vArith o.ty (fminmax · false) min)

def execCaveVfma (bank : Bool) (o : VBinOp) (s : State) : Out :=
  runCave (if bank then [] else [o.a, o.b, o.d]) (if bank then none else some o.d) s fun _ x s =>
    if bank then .done s (pushMicro x (.caveVfma bank o) 0 0 o.m o.a o.b o.d)
    else
      let h := vNarrow o.ty
      .done s (vSet x o.d (vUnder h (mGet x o.m) (vGet x o.d) fun i =>
        vfmaV o.ty (vLane h (vGet x o.a) i) (vLane h (vGet x o.b) i) (vLane h (vGet x o.d) i)))

def execCaveVred (o : VRedOp) (s : State) : Out :=
  runCave (if o.bank then [] else [o.a, o.d]) (if o.bank then none else some o.d) s fun _ x s =>
    if o.bank then .done s (pushMicro x (.caveVred o) 0 0 o.m o.a o.a o.d)
    else .done s (vSet x o.d (vredV o (mGet x o.m) (vGet x o.a) (vGet x o.d)))

/-- R325. -/
def vcvtV (o : VCvtOp) (m : DWord) (a d : Vector Word 32) : Vector Word 32 :=
  let f := convert (vTy o.td) (vTy o.ts) .rne
  let k := o.hi.toNat
  match vNarrow o.td, vNarrow o.ts with
  | false, true => vUnder false m d fun i => f (vLane true a (2 * i + k))
  | true, false => vMake true fun i => if i % 2 == k && m.getLsbD i then f (vLane false a (i / 2)) else vLane true d i
  | h, _ => vUnder h m d fun i => f (vLane h a i)

def execCaveVcvt (o : VCvtOp) (s : State) : Out :=
  runCave [o.a, o.d] (some o.d) s fun _ x s => .done s (vSet x o.d (vcvtV o (mGet x o.m) (vGet x o.a) (vGet x o.d)))

def vHolds (t : VTy) (cc : Cc) (a b : Nat) : Bool :=
  match vFlt t with
  | some f => fcmpHolds cc f a b
  | none => icmpHolds cc .s32 a b

/-- A 64-bit mask from its bits. -/
def bits64 (f : Nat → Bool) : DWord := BitVec.ofNat 64 (ofBits 64 f)

def execCaveVcmp (o : VCmpOp) (s : State) : Out :=
  runCave [o.a, o.b] none s fun _ x s =>
    let h := vNarrow o.ty
    let m := mGet x o.m
    .done s (mSet x o.d (bits64 fun i =>
      if i < vLanes h && m.getLsbD i then vHolds o.ty o.cc (vLane h (vGet x o.a) i) (vLane h (vGet x o.b) i)
      else (mGet x o.d).getLsbD i))

def execCaveVsel (o : VSelOp) (s : State) : Out :=
  runCave [o.a, o.b] (some o.d) s fun _ x s =>
    .done s (vSet x o.d (vUnder o.h (mGet x o.m) (vGet x o.b) (vLane o.h (vGet x o.a))))

def execCaveVbrd (o : VBrdOp) (s : State) : Out :=
  runCave [o.d] (some o.d) s fun _ x s =>
    let v := (match o.src with | .x r => lo32 (xGet x r) | .imm v => v).toNat
    .done s (vSet x o.d (vUnder o.h (mGet x o.m) (vGet x o.d) fun _ => v))

/-- R327. -/
def execCaveVmov (o : VMovOp) (s : State) : Out :=
  match o with
  | .vv m h d a => runCave [a, d] (some d) s fun _ x s =>
      .done s (vSet x d (vUnder h (mGet x m) (vGet x d) (vLane h (vGet x a))))
  | .mm d a => runCave [] none s fun _ x s => .done s (mSet x d (mGet x a))
  | .xv h d a lane => runCave [a] none s fun _ x s => .done s (xSet x d (BitVec.ofNat 64 (vLane h (vGet x a) lane.toNat)))
  | .vx m h d a lane => runCave [d] (some d) s fun _ x s =>
      .done s (vSet x d (vMake h fun i =>
        if i == lane.toNat && (mGet x m).getLsbD i then (lo32 (xGet x a)).toNat else vLane h (vGet x d) i))
  | .mx d a => runCave [] none s fun _ x s => .done s (mSet x d (xGet x a))
  | .xm d a => runCave [] none s fun _ x s => .done s (xSet x d (mGet x a))

/-! ### Control (R328) -/

/-- An instruction that takes effect only after every earlier micro-instruction has completed. -/
def runDrained (s : State) (k : CurCave → CaveCtx → State → CRes) : Out :=
  runCave [] none s fun u x s => if x.micro.isEmpty then k u x s else .wait s

def postMsg (s : State) (n c : Nat) (m : CaveMsg) : State := skUpd s n c fun k => { k with msgs := k.msgs ++ [m] }
/-- 14 R298: a stack core's queue holds 32 messages. -/
def msgsFull (s : State) (n c : Nat) : Bool := 32 ≤ (skGet s n c).msgs.length

def execCaveSend (o : SendOp) (s : State) : Out :=
  runDrained s fun u x s =>
    let n := o.stack.toNat
    let c := o.skc.toNat
    if msgsFull s n c then .done s (xSet x o.d 1)
    else
      let m : CaveMsg := ⟨s.nid, o.h.toNat, xGet x o.a, x.launch, x.tenant, vecOf s (dieOfStack u.stack), none⟩
      .done (postMsg { s with nid := s.nid + 1 } n c m) (xSet x o.d 0)

def execCaveHret (s : State) : Out :=
  runDrained s fun u x s =>
    match x.kind with
    | .region _ => .stop s cIll (pcVa x.pc)
    | _ => .gone (endProgram s u x 0 0)

def execCaveMret (s : State) : Out :=
  runDrained s fun u x s =>
    match x.kind with
    | .region _ => .gone (endProgram s u x 0 0)
    | _ => .stop s cIll (pcVa x.pc)

/-- What waits for a stack that an instance yields to: a region or a pre-empted instance, or the record of instances not started. The stack's
controller holds pre-emption while its image is replaced (23 R403). -/
def yieldsTo (s : State) (n : Nat) (x : CaveCtx) : Option (Option Nat) :=
  let p := cavePrio s x
  if !x.kind.isInst || !ctlRuns s (5 + n) then none
  else if (waitingRegion s n).isSome || (s.cave.preempted.any fun q => q.1 == n && p < cavePrio s q.2) then some none
  else (waitsAbove s n p false).map fun w => some w.id

def execCaveYld (s : State) : Out :=
  runCave [] none s fun u x s =>
    match yieldsTo s u.stack x with
    | none => .done s x
    | some w =>
      if x.micro.isEmpty then .gone (putAside s u.stack u.skc { x with pc := nextCave x.pc, count := x.count + 1 } w)
      else .wait s

def execCaveFence (s : State) : Out := runDrained s fun _ x s => .done s x

end Sys2Proof.Machine
end

