-- ==== Sys2Proof/Machine/Control.lean ====
section
/-! DEFINITION. The control instructions (06 R126 to R129). -/

namespace Sys2Proof.Machine

/-- A transfer to `pc`, checked under R68 and R71; `k` is the effect that comes with it. -/
def transfer (x : Ctx) (s : State) (pc : VAddr) (k : State → State) : Res :=
  let r := targetOk s x.l x.w.core (fetchFrom x.l x.p) pc
  if r.1 then .jump (k r.2) pc else badTarget r.2 x (BitVec.ofNat 64 (pcVa pc))

def execNop (s : State) : Out := runLane false .always s fun _ s => .done s

def execBra (g : Guard) (t : BrImm) (s : State) : Out :=
  runUni false g s fun x s => transfer x s (branchTarget x.p.pc t) id

def execCall (g : Guard) (t : BrImm) (s : State) : Out :=
  runUni true g s fun x s =>
    transfer x s (branchTarget x.p.pc t) fun s =>
      updWave s x.c.wave fun w => setSd w true 62 (BitVec.ofNat 64 (pcVa (nextPc x.p.pc)))

def execRet (g : Guard) (s : State) : Out :=
  runUni true g s fun x s => transfer x s (pcOf (sDWord x.w 62)) id

def execJmpi (g : Guard) (a : Reg) (s : State) : Out :=
  runUni true g s fun x s => transfer x s (pcOf (sDWord x.w a.toNat)) id

/-- R127. -/
def execExit (g : Guard) (s : State) : Out :=
  runLane true g s fun x s => .done (exitLanes s x.c.wave x.act)

def execYield (g : Guard) (s : State) : Out := runUni true g s fun _ s => .done s

/-- Is a divergence open in some split of the wave (R128)? -/
def divergenceOpen (w : Wave) : Bool := w.splits.any fun q => !q.stack.isEmpty || !q.recStack.isEmpty

/-- Does the wave hold splits of the other arm, whose places a new arm split would take (R31, R170)? -/
def armTaken (w : Wave) (p : Split) : Bool := w.splits.any fun q => q.arm != p.arm

/-- R128, past its checks: E and J are the else entry and the join. With two arms already there is no third (R31; log 86), and the
divergence is serialised. The new arm takes the parts of closed windows whose results are still to come for its lanes (03 R64). The new
arm split fetches with no `icinv` point of its own (DESIGN CHOICE, log 95). -/
def diverge (x : Ctx) (s : State) (k : PReg) (e j : VAddr) : State :=
  let live := liveOf x.w x.p
  let t := live &&& pMask x.w k
  let f := live &&& ~~~t
  if !divergenceOpen x.w && !armTaken x.w x.p && x.p.kind == .arm && t != 0 && f != 0 then
    let en : StkEntry := ⟨j, e, t, f, false, true⟩
    let q := { newSplit s.nid (1 - x.p.arm) .arm e f (mkAge s x.w) with stack := x.p.stack ++ [en], wins := winsOut f x.p.wins }
    updWave { s with nid := s.nid + 1 } x.c.wave fun w =>
      let w := updSplitW w x.c.sid fun p => { p with
        members := t, pc := nextPc x.p.pc, stack := p.stack ++ [en], wins := winsStay f p.wins }
      { w with splits := w.splits ++ [q] }
  else if t != 0 then
    updSplit s x.c fun p => { p with members := t, pc := nextPc x.p.pc, stack := p.stack ++ [⟨j, e, t, f, false, false⟩] }
  else
    updSplit s x.c fun p => { p with members := f, pc := e, stack := p.stack ++ [⟨j, e, t, f, true, false⟩] }

/-- R128. DESIGN CHOICE (log 93): with both TMASK bits clear, E is the target reported. -/
def execBdiv (g : Guard) (k : PReg) (els : Option ElseRef) (j : BrImm) (s : State) : Out :=
  runUni true g s fun x s =>
    let t := bdivTargets x.p.pc els j
    let a := targetOk s x.l x.w.core (fetchFrom x.l x.p) t.1
    let b := targetOk a.2 x.l x.w.core (fetchFrom x.l x.p) t.2
    if !a.1 then badTarget b.2 x (BitVec.ofNat 64 (pcVa t.1))
    else if !b.1 then badTarget b.2 x (BitVec.ofNat 64 (pcVa t.2))
    else if 16 ≤ x.p.stack.length then illop b.2 x
    else .gone (diverge x b.2 k t.1 t.2)

/-- R129: do lanes of an entry stand in a handler or resumed split other than the issuing one, or does the arm split of a
resumed one hold the same entry, so that the two merge first (R177)? -/
def rjoinHeld (x : Ctx) (e : StkEntry) (tf : Mask) : Bool :=
  (x.w.splits.any fun q =>
    q.sid != x.p.sid && q.kind != .arm && (q.members ||| q.parked) &&& tf &&& ~~~x.w.exited != 0) ||
  (x.p.kind == .resumed && match armOf x.w x.p with | some a => a.stack.contains e | none => false)

/-- The other arm of an outermost divergence (R129). -/
def partner (x : Ctx) (e : StkEntry) : Option Split :=
  x.w.splits.find? fun q => q.sid != x.p.sid && q.kind == .arm && q.stack.contains e

/-- R129: an outermost divergence closes; its two splits become one, with the older age and the arm number of the older one, whose
companion stays its own (R31). -/
def joinOuter (x : Ctx) (s : State) (tf : Mask) (pc : VAddr) : State :=
  let e := x.p.stack.getLast?.getD default
  let q := partner x e
  let s := match q with
    | none => s
    | some _ => addPerf (updBlock s x.w.blk fun b => { b with ret := b.ret + 1 }) x.w.core 1 1
  updWave s x.c.wave fun w =>
    let w := updSplitW w x.c.sid fun p => { p with
      members := tf
      pc := pc
      stack := p.stack.dropLast
      arm := match q with | some q => if q.age < p.age then q.arm else p.arm | none => p.arm
      age := match q with | some q => min p.age q.age | none => p.age
      icFrom := match q with | some q => laterFrom p.icFrom q.icFrom | none => p.icFrom
      wins := p.wins ++ (match q with | some q => closeWins (fun _ => true) q.wins | none => []) }
    match q with
    | some q => { w with splits := w.splits.filter (·.sid != q.sid) }
    | none => w

def execRjoin (g : Guard) (s : State) : Out :=
  runUni true g s fun x s =>
    match x.p.stack.getLast? with
    | none => illop s x
    | some e =>
      if e.j != x.p.pc then illop s x
      else
        let tf := (e.t ||| e.f) &&& ~~~x.w.exited
        let rest := e.f &&& ~~~x.w.exited
        if rjoinHeld x e tf then .wait s .join
        else if e.outer then
          match partner x e with
          | some q => if q.wait == .join && q.pc == x.p.pc && q.stack.getLast? == some e then .gone (joinOuter x s tf (nextPc e.j)) else .wait s .join
          | none => .gone (joinOuter x s tf (nextPc e.j))
        else if !e.els && rest != 0 then
          .gone (updSplit s x.c fun p => { p with
            members := rest, pc := e.e, stack := p.stack.dropLast ++ [{ e with els := true }] })
        else
          .gone (updSplit s x.c fun p => { p with members := tf, pc := nextPc e.j, stack := p.stack.dropLast })

end Sys2Proof.Machine
end

