-- ==== Sys2Proof/Machine/Convert.lean ====
section
/-! DEFINITION. Conversions and narrow packing in registers (06 R135 to R137). -/

namespace Sys2Proof.Machine

def execCvt (g : Guard) (o : CvtOp) (s : State) : Out :=
  execAlu g o.u o.td.wide o.d s fun x s =>
    (fun l => BitVec.ofNat 64 (convert o.td o.ts o.rm (aVal x.w o.u o.ts.wide o.a l)), s)

/-- A scale that makes every packed element 0 (R136). -/
def packZero (b : Nat) : Bool :=
  match fval .f32 b with | .num _ m _ => m == 0 | _ => true

/-- One packed element: a quotient rounded to an integer and clamped (R136). -/
def packEl (rm : Rm) (n : Nat) (lo hi : Int) (a b : Nat) : Nat :=
  wrapI n (xToInt rm lo hi (divX (fval .f32 a) (fval .f32 b)))

/-- The elements of `k` registers packed into one, `n` bits each. -/
def packV (rm : Rm) (n : Nat) (lo hi : Int) (b : Nat) : List Nat → Nat
  | [] => 0
  | a :: r => packEl rm n lo hi a b + 2 ^ n * packV rm n lo hi b r

def execPack (k n : Nat) (lo hi : Int) (g : Guard) (o : PackOp) (s : State) : Out :=
  execAlu g false false o.d s fun x s =>
    let b := srcBFlt x s .f32 o.b
    (fun l =>
      let sc := (b.1 l).toNat % 2 ^ 32
      BitVec.ofNat 64 (if packZero sc then 0
        else packV o.rm n lo hi sc ((List.range k).map fun j => (gWord x.w (o.a.toNat + j) l).toNat)), b.2)

/-- An element of a packed register, times the scale, rounded (R136). -/
def unpackV (rm : Rm) (n : Nat) (a j b : Nat) : Nat :=
  let p := bits a (n * j) n
  let i : Int := if n = 4 && p = 8 then 0 else sx n p
  roundX .f32 rm (.ofFV (mulV (evVal (.int i)) (fval .f32 b)))

def execUnpack (k n : Nat) (g : Guard) (o : PackOp) (s : State) : Out :=
  runLane false g s fun x s =>
    let b := srcBFlt x s .f32 o.b
    .done (updWave b.2 x.c.wave fun w => (List.range k).foldl (fun w j =>
      setGm w (o.d.toNat + j) x.act fun l =>
        BitVec.ofNat 32 (unpackV o.rm n (gWord x.w o.a.toNat l).toNat j ((b.1 l).toNat % 2 ^ 32))) w)

def execPk4x (g : Guard) (o : PackOp) (s : State) : Out := execPack 8 4 (-7) 7 g o s
def execUpk4x (g : Guard) (o : PackOp) (s : State) : Out := execUnpack 8 4 g o s
def execPk6 (g : Guard) (o : PackOp) (s : State) : Out := execPack 4 6 (-32) 31 g o s
def execUpk6 (g : Guard) (o : PackOp) (s : State) : Out := execUnpack 4 6 g o s

def execFclass (g : Guard) (ty : FTy5) (u : Bool) (d a : Reg) (s : State) : Out :=
  execAlu g u false d s fun x s =>
    (fun l => BitVec.ofNat 64 (2 ^ fclassBit ty (aVal x.w u ty.wide a l)), s)

end Sys2Proof.Machine
end

