-- ==== Sys2Proof/Machine/Service.lean ====
section
/-! DEFINITION. Configuration writes and their boundaries (04 R95, R96), the memory controller's service (09 R209 to R211), the
service counters (21 R376, 23 R407), bank errors and handler tables (16 R332, R344), and the controllers' clocks. -/

namespace Sys2Proof.Machine

/-! ### Units and held writes (R95, R96) -/

/-- The unit whose configuration block holds `n` writable bytes of the physical function's window at an offset (23 R391). -/
def pfUnit (off n : Nat) : Option Nat :=
  let within := fun a len => a ≤ off && off + n ≤ a + len
  if n = 0 then none
  else if within 0x1000 8192 then some uDispatch
  else if within 0x90100 10 || within 0x90120 32 then some uMemory
  else
    let st := (off - 0x1000000) / 131072
    let o := (off - 0x1000000) % 131072
    let c := (o - 0x2000) / 512
    if 0x1000000 ≤ off && st < nStacks && 0x2000 ≤ o && c < 16 && o + n ≤ 0x2000 + 512 * (c + 1) then some (uSk st c) else none

/-- The window as the held writes of a unit would leave it. -/
def pfAfter (s : State) (u : Nat) : Memory :=
  (s.held.filter (·.unit == u)).foldl (fun m h => memPutBytes m h.off h.bytes) s.pf

/-- Does a write reach a tenant's TOKLO (19 R363)? -/
def hitsToklo (t : Nat) (h : HeldW) : Bool := h.off < tenantEnt t + 0x58 && tenantEnt t + 0x50 < h.off + h.bytes.length

def dropSeen (s : State) (t : Nat) : State := { s with fabric := { s.fabric with seen := kvDel t s.fabric.seen } }

/-- Where a counter of R376 that software may clear stands in the window. -/
def isCounter (off : Nat) : Bool :=
  let d := (off - 0x40000) % 65536
  let n := (off - 0x1000000) % 131072
  (0x40000 ≤ off && off < 0x80000 && (d == 0x08 || d == 0x10 || d == 0x18 || (0x100 ≤ d && d < 0x118 && d % 4 == 0) || (0x120 ≤ d && d < 0x138 && d % 4 == 0))) ||
  (0x90200 ≤ off && off < 0x90280 && off % 8 == 0) || (0xA0100 ≤ off && off < 0xA0240 && off % 8 == 0) ||
  (0x1000000 ≤ off && off < 0x1000000 + 16 * 131072 && (n == 0x08 || n == 0x10 || n == 0x18))

/-- The unit whose block holds a counter (23 R391). -/
def counterUnit (off : Nat) : Option Nat :=
  if !isCounter off then none
  else if off < 0x80000 then some (uDie ((off - 0x40000) / 65536))
  else if off < 0xA0000 then some uMemory
  else if off < 0x1000000 then some uFabric
  else some (uGraph ((off - 0x1000000) / 131072))

/-- The counters that held writes of 0 clear; what was added in the same cycle counts after the clear (R407). -/
def clearCtrs (hs : List HeldW) (now c : Kv Nat) : Kv Nat :=
  hs.foldl (fun c h => if isCounter h.off then kvPut 0 h.off (kvGet 0 h.off now) c else c) c

/-- Every write held for a unit takes effect, in one step. -/
def applyHeld (s : State) (u : Nat) : State :=
  let hs := s.held.filter (·.unit == u)
  let s := (List.range 64).foldl (fun s t => if hs.any (hitsToklo t) then dropSeen s t else s) s
  { s with pf := pfAfter s u, held := s.held.filter (·.unit != u), heldFor := kvDel u s.heldFor, ctrs := clearCtrs hs s.ctrNow s.ctrs }

/-- R387: what a function's queue registers hold takes effect. -/
def applyFn (s : State) (t : Nat) : State := vfPut s t takeQueue

def gmAt (us : List (Loc × Nat)) : List Nat := us.filterMap fun u => match u.1 with | .gm pa => some pa | _ => none

/-- What a running copy that has begun to read has still to read. -/
def copyFlight (s : State) : List Nat :=
  s.blocks.flatMap fun b => match findLaunch s b.launch with
    | none => []
    | some l => (b.copies.filter fun c => c.running && !c.wrote && !c.got.isEmpty).flatMap fun c =>
      let e : Eng := ⟨l, b, b.core⟩
      let ix := idxUnits e c
      gmAt ix ++ match (copySrc e c (idxWords c (readUnits (copyReader e c) (copyFree s c) c.got 0 ix s).1) s).1 with
        | .ok k => gmAt k.runs
        | .error _ => []

/-- The rows of engine operations that have been checked and not yet read. -/
def rowFlight (s : State) : List Nat :=
  s.waves.flatMap fun w => w.mxOps.flatMap fun o => match o.chk with
    | some r => if o.st == .done || o.st == .aborted then [] else (r.1 ++ r.2).flatMap fun k => gmAt k.runs
    | none => []

/-- The units of vector accesses of stack cores that are under way (16 R316). -/
def vectorFlight (s : State) : List Nat :=
  ((s.cave.cores.flatMap fun e => [e.2.prog, e.2.hand].filterMap id) ++ s.cave.preempted.map Prod.snd).flatMap fun x =>
    (x.micro ++ x.part.toList).flatMap fun k => k.left.map fun i => k.pa + 8 * i

/-- The units of a graph's descriptor that its `gnew` has still to read (12 R272). -/
def descFlight (s : State) : List Nat :=
  s.graph.ops.flatMap fun o => match o.kind with
    | .gnew (.gm pa) got => ((List.range 4).filter fun i => !got.any (·.1 == i)).map fun i => pa + 8 * i
    | _ => []

/-- The physical addresses of accesses in flight. -/
def inFlight (s : State) : List Nat :=
  (s.mem.wb.filterMap fun w => match w.loc with | .gm pa => some pa | _ => none) ++ s.mem.chan.map Msg.pa ++ s.mem.apply.map Msg.pa ++
  (s.mem.acts.flatMap fun a => a.units.filterMap fun u => match u.loc, u.got with | .gm pa, none => some pa | _, _ => none) ++
  copyFlight s ++ rowFlight s ++ vectorFlight s ++ descFlight s

/-- R390: does some access in flight lie in a granule whose bit would change? -/
def granuleBusy (s : State) : Bool :=
  let t := { s with pf := pfAfter s uMemory }
  (inFlight s).any fun pa => interleaved s pa != interleaved t pa

/-- Is a die in the cycle of its quota boundary, which has been taken? -/
def inQuota (s : State) (d : Nat) : Bool := (vecGet s.dcyc 0 d).toNat % 1024 == 0 && vecGet s.dcyc 0 d == vecGet s.quotaAt 0 d

/-- Is a unit at its idle boundary (R96, 16 R347)? -/
def atBoundary (s : State) (u : Nat) : Bool :=
  if u = uMemory then ctlRuns s 3 && !granuleBusy s
  else if 1 ≤ u && u ≤ 4 then inQuota s (u - 1)
  else if u < 24 then true
  else
    let k := skGet s ((u - 24) / 16) ((u - 24) % 16)
    k.prog.isNone && k.hand.isNone

/-- Is the boundary that follows the acceptance of a unit's held writes here? Its clock does not go on before they take effect. -/
def applyDue (s : State) (u : Nat) : Bool := heldDue s u && atBoundary s u

def configApplyS (s : State) (u : Nat) : Option State :=
  if 512 ≤ u then
    let v := vfGet s (u - 512)
    if (v.heldBase.isSome || v.heldLen.isSome) && v.qhead == v.qtail then some (applyFn s (u - 512)) else none
  else if applyDue s u then some (applyHeld s u) else none

/-- A write to a unit's block is held; those held before that are due take effect first. -/
def holdWrite (s : State) (u off : Nat) (bs : List Byte) : State :=
  let s := if applyDue s u then applyHeld s u else s
  { s with held := (s.held.filter fun h => !(h.unit == u && h.off == off && h.bytes.length == bs.length)) ++ [⟨u, off, bs⟩] }

def execConfigApply (unit : Nat) (s : State) : Out := move s (configApplyS s unit)

/-- R96, R347: a die's units complete the accesses, the copies and the engine operations under way; a stack core that makes a boundary finishes its instruction and its
micro-instructions, with no handler running. -/
def canForce (s : State) (u : Nat) : Bool :=
  if 1 ≤ u && u ≤ 4 then
    !(s.mem.acts.any fun a => dieOfCore a.core == u - 1) && !(s.blocks.any fun b => dieOfCore b.core == u - 1 && b.copies.any (·.running)) &&
    !(s.waves.any fun w => dieOfCore w.core == u - 1 && w.mxOps.any fun o => o.st == .queued && o.chk.isSome)
  else if u < 24 then atBoundary s u
  else
    let k := skGet s ((u - 24) / 16) ((u - 24) % 16)
    k.hand.isNone && match k.prog with | some x => x.micro.isEmpty && x.part.isNone | none => true

/-- Is the boundary that a unit makes due? -/
def forceDue (s : State) (u : Nat) : Bool := atLimit s u && canForce s u

def forcedS (s : State) (u : Nat) : Option State :=
  if u < 512 && forceDue s u then some (applyHeld s u) else none

def execConfigForcedBoundary (unit : Nat) (s : State) : Out := move s (forcedS s unit)

/-- A controller's register that takes a write at once (23 R392). -/
def ctlWrite (c : Ctl) (off : Nat) (bs : List Byte) : Ctl :=
  let v := leNat bs
  if off = 0 && bs.length = 4 then
    { c with rolled := c.rolled && !v.testBit 2, restart := c.restart && !v.testBit 3, refused := c.refused && !v.testBit 4 }
  else if off = 8 && bs.length = 8 then { c with updaddr := BitVec.ofNat 64 v }
  else if off = 16 && bs.length = 8 then { c with updlen := BitVec.ofNat 64 v }
  else c

/-- The lengths that QLEN takes (R386). -/
def qlenOk (n : Nat) : Bool := n == 0 || (List.range 13).any fun i => n == 2 ^ (4 + i)

/-- DESIGN CHOICE (log 98): a write of a QBASE or QLEN that R386 does not allow is discarded. -/
def vfWrite (v : VfRegs) (off : Nat) (bs : List Byte) : VfRegs :=
  let n := leNat bs
  if off = 0x00 && bs.length = 8 then (if n % 256 = 0 then takeQueue { v with heldBase := some (BitVec.ofNat 64 n) } else v)
  else if off = 0x08 && bs.length = 4 then (if qlenOk n then takeQueue { v with heldLen := some (BitVec.ofNat 32 n) } else v)
  else if off = 0x18 && bs.length = 8 then { v with invaddr := BitVec.ofNat 64 n }
  else if off = 0x20 && bs.length = 8 then { v with invlen := BitVec.ofNat 64 n }
  else if off = 0x30 && bs.length = 4 then { v with msien := BitVec.ofNat 32 (n % 2) }
  else v

/-- A write to a register of a window; one to a read-only register or an offset with none is discarded. -/
def execConfigWrite (a : CfgAddr) (bytes : List Byte) (s : State) : Out :=
  .next (match a with
    | .pf off =>
      match pfUnit off bytes.length with
      | some u => holdWrite s u off bytes
      | none =>
        if 0x10000 ≤ off && off < 0x10000 + 21 * 4096 then
          { s with ctls := vecUpd s.ctls .reset ((off - 0x10000) / 4096) fun c => ctlWrite c ((off - 0x10000) % 4096) bytes }
        else s
    | .vf fn off => if fn < 64 then vfPut s fn fun v => vfWrite v off bytes else s)

/-- R363: a management write of a tenant's TOKLO; the dispatcher holds it until its next boundary, where the seen bits fall. -/
def execTokloWrite (tenant : Nat) (v : DWord) (s : State) : Out :=
  .next (if tenant < 64 then holdWrite s uDispatch (tenantEnt tenant + 0x50) (leBytes v.toNat 8) else s)

/-! ### The memory controller (R209, R211) -/

def hotRows (s : State) (n : Nat) : List HotRow := kvGet [] n s.mem.hot
def setHot (s : State) (n : Nat) (l : List HotRow) : State := { s with mem := { s.mem with hot := kvPut [] n l s.mem.hot } }

/-- The hot list holds 4,096 rows; when it is full, the one with the fewest errors leaves. DESIGN CHOICE (log 63): of several with equally
few, the one listed first. -/
def addHot (l : List HotRow) (h : HotRow) : List HotRow :=
  if l.length < 4096 then l ++ [h]
  else
    let m := l.foldl (fun a r => min a r.errors) (match l.head? with | some r => r.errors | none => 0)
    (l.eraseIdx (l.findIdx (·.errors == m))) ++ [h]

def setRow (l : List HotRow) (h : HotRow) : List HotRow := updFirst (·.row == h.row) (fun _ => h) l

/-- A row whose score has reached 8 is remapped to a spare. -/
def retireRow (s : State) (n row : Nat) : State :=
  let s := setHot s n ((hotRows s n).filter (·.row != row))
  addCtr { s with mem := { s.mem with retired := s.mem.retired ++ [n * 2 ^ 32 + row] } } (stackReg n 0x10) 32 1

/-- SPARES of a stack (21 R376): the rows fitted, less those taken. -/
def sparesLeft (s : State) (n : Nat) : Nat := Config.sparesFitted n - (s.mem.retired.filter (· / 2 ^ 32 == n)).length

/-- `k` corrected errors in a row of a stack: they are counted, the row enters the hot list with score 0 at the first and each further one
raises its score there, and at 8 it is retired. `scrub`: a scrub found them. -/
def rowErrors (s : State) (n row k : Nat) (scrub : Bool) : State :=
  let s := addCtr s (stackReg n 0x08) 64 k
  match (hotRows s n).find? (·.row == row) with
  | none => if 8 ≤ k - 1 then retireRow s n row else setHot s n (addHot (hotRows s n) ⟨row, k - 1, 0, k⟩)
  | some h =>
    if 8 ≤ h.score + k then retireRow s n row
    else setHot s n (setRow (hotRows s n) { h with score := h.score + k, clean := if scrub then 0 else h.clean, errors := h.errors + k })

/-- A scrub of a row, which finds `errs` corrected errors; `hot`: one of the frequent scrubs of a row on the hot list. -/
def scrubS (s : State) (n row errs : Nat) (hot : Bool) : Option State :=
  if nStacks ≤ n || 2 ^ 32 ≤ row || !skUp s n || unitFailed s (9 + n) || !ctlRuns s 3 then none
  else
    match (hotRows s n).find? (·.row == row) with
    | none => if hot then none else some (if 0 < errs then rowErrors s n row errs true else s)
    | some h =>
      if 0 < errs then some (rowErrors s n row errs true)
      else
        let c := if hot then h.clean + 1 else h.clean
        if 16 ≤ c then some (setHot s n ((hotRows s n).filter (·.row != row)))
        else some (setHot s n (setRow (hotRows s n) { h with score := h.score / 2, clean := c }))

def execScrubRow (stack row errs : Nat) (s : State) : Out := move s (scrubS s stack row errs false)

def execHotScrub (stack row errs : Nat) (s : State) : Out := move s (scrubS s stack row errs true)

/-! ### Errors that the codes of R207 meet -/

/-- The bytes of a block's scratchpad, and of its lane-private slices. -/
def spadSize (s : State) (b : Nat) : Nat :=
  match (findBlock s b).bind fun k => findLaunch s k.launch with | some l => l.lr.spad | none => 0
def lpSize (s : State) (b : Nat) : Nat :=
  match findBlock s b with
  | some k => (match findLaunch s k.launch with | some l => k.nwaves * 32 * l.lr.lpriv | none => 0)
  | none => 0

/-- An L1 sector with bad parity is fetched again from its die's L2. -/
def refetchL1 (s : State) (core sector : Nat) : State :=
  { s with mem := { s.mem with l1 := s.mem.l1.map fun e =>
      let pa := e.1 % 2 ^ 57
      if e.1 / 2 ^ 57 == core && pa / 32 == sector then
        (e.1, ⟨viewByte s (dieOfCore core) pa, viewSeq s (dieOfCore core) pa, viewPsn s (dieOfCore core) pa⟩)
      else e } }

/-- Does a copy lie in an X sector of a die? -/
def inX (die dev sector : Nat) (e : Nat × CopyB) : Bool :=
  e.1 / 2 ^ 57 / 2 ^ 22 == die && e.1 / 2 ^ 57 % 2 ^ 22 == dev && e.1 % 2 ^ 57 / 64 == sector

/-- An X sector with bad parity is fetched again from its device. -/
def refetchX (s : State) (die dev sector : Nat) : State :=
  { s with mem := { s.mem with xc := s.mem.xc.map fun e => if inX die dev sector e then (e.1, remByte s dev (e.1 % 2 ^ 57)) else e } }

/-- R406: a lasting error of HBM, one that the reread of its word meets again, sets its row's score to 8, and the row is retired. -/
def lastingHbm (n row : Nat) (hbm : Bool) (s : State) : State := if hbm && row < 2 ^ 32 then retireRow s n row else s

/-- A single-bit error is corrected and counted, a clean copy is fetched again, and a worse error elsewhere poisons its word. -/
def eccS (s : State) (e : Ecc) : State :=
  match e with
  | .sram d => if d < nDies then addCtr s (dieReg d 0x08) 64 1 else s
  | .hbm n row => if n < nStacks && row < 2 ^ 32 then rowErrors s n row 1 false else s
  | .tier c => if c < 16 then addCtr s (0x90200 + 8 * c) 64 1 else s
  | .parity d k => if sectorState s d k == .c || sectorState s d k == .g then addCtr s (dieReg d 0x10) 64 1 else s
  | .parityX d dev k => if s.mem.xc.any (inX d dev k) then addCtr (refetchX s d dev k) (dieReg d 0x10) 64 1 else s
  | .parityCc c k => if (kvGet [] c s.mem.cc).contains k then addCtr s (dieReg (dieOfCore c) 0x10) 64 1 else s
  | .parityL1 c k => if c < nCores then addCtr (refetchL1 s c k) (dieReg (dieOfCore c) 0x10) 64 1 else s
  | .badView d w => if sectorState s d (w / 8) == .d && inStorage (8 * w) && regionClearedQ s (8 * w) then markView s d (8 * w) 8 else s
  | .badHome w row =>
    if inStorage (8 * w) && regionClearedQ s (8 * w) then
      lastingHbm (stackOf s (8 * w)) row (inHbm (8 * w)) <| countPsn { s with mem := { s.mem with home := markPsn s.mem.home (8 * w) 8 } } (homeDie s (8 * w)) s.mem.home (markPsn s.mem.home (8 * w) 8)
    else s
  | .badSpad b w => if 8 * w < spadSize s b then markChip s (.spad b (8 * w)) 8 true else s
  | .badLpriv b w => if 8 * w < lpSize s b then markChip s (.lpriv b (8 * w)) 8 true else s
  | .badDspad u d w =>
    match findLaunch s u with
    | some l => if d < nDies && 8 * w < l.lr.dspad then markChip s (.dspad u d (8 * w)) 8 true else s
    | none => s

def execRegionClear (region : Nat) (s : State) : Out :=
  move s (if s.mem.uncleared.contains region then some (clearRegion s region) else none)

/-- R407, R391: a write of 0 to a counter, held as the other writes to its block are. -/
def execCounterClear (off : Nat) (s : State) : Out :=
  .next (match counterUnit off with | some u => holdWrite s u off [] | none => s)

/-! ### Bank errors and handler tables (R332, R344) -/

def execBerrClear (stack bank : Nat) (s : State) : Out :=
  move s (if stack < nStacks && bank < 2048 && ctlRuns s (5 + stack) then
    some { s with cave := { s.cave with berr := kvDel (stack * 2048 + bank) s.cave.berr } } else none)

/-- The limits of an enabled entry (R343). -/
def handOk (s : State) (n : Nat) (e : HandEnt) : Bool × State :=
  if e.entry % 8 == 0 && e.base % 256 == 0 && e.len % 256 == 0 && e.tenant < 64 && e.flags == 1 then
    if e.len = 0 then (true, s)
    else
      let q := rangeQualifies s 0 e.tenant e.base e.len
      (match q.1 with | some p => p.1 == n | none => false, q.2)
  else (false, s)

def handsOk (n : Nat) : List HandEnt → State → Bool × State
  | [], s => (true, s)
  | e :: r, s => let a := handOk s n e; if a.1 then handsOk n r a.2 else (false, a.2)

/-- R344: the commit takes the shadow bank as the writes before it leave it, those still held too, so that no dispatch after it runs an old
entry (DESIGN CHOICE, log 99); a refused one leaves an earlier one armed. -/
def htcommitS (s : State) (n c : Nat) : Option State :=
  if nStacks ≤ n || skPerStack ≤ c then none
  else
    let m := pfAfter s (uSk n c)
    let es := ((List.range 16).map fun h => readHand m (shadowAt n c + 32 * h)).filter (·.on)
    let one := match es with | [] => true | e :: r => r.all (·.tenant == e.tenant)
    let k := handsOk n es s
    if one && k.1 then some (skUpd k.2 n c fun x => { x with armed := some (memPutBytes .empty 0 (memBytes m (shadowAt n c) 512)) })
    else some { k.2 with out := k.2.out ++ [.refusedCommit n c] }

def execHtcommit (stack skc : Nat) (s : State) : Out := move s (htcommitS s stack skc)

/-! ### Clocks of stack cores and controllers -/

/-- A unit's next cycle: what its counters added before counts as of an earlier one, and one cycle more has passed for the writes it
holds. -/
def countHeld (s : State) (u : Nat) : State :=
  let s := { s with ctrNow := s.ctrNow.filter fun c => counterUnit c.1 != some u }
  if s.held.any (·.unit == u) then { s with heldFor := kvPut 0 u (min (2 ^ 20) (kvGet 0 u s.heldFor + 1)) s.heldFor } else s

def tickStackS (n : Nat) (s : State) : State :=
  if nStacks ≤ n || applyDue s (uGraph n) || ((List.range 16).any fun c => forceDue s (uSk n c) || applyDue s (uSk n c)) then s
  else (uGraph n :: (List.range 16).map (uSk n)).foldl countHeld (countWaits s n)

end Sys2Proof.Machine
end

