-- ==== Sys2Proof/Machine/Record.lean ====
section
/-! DEFINITION. The hand-over records that the dispatcher and the fabric controller keep in retained memory (23 R401, R404, R405). -/

namespace Sys2Proof.Machine

/-! ### CRC-32C -/

/-- PRESUMED (log 101): CRC-32C is the Castagnoli code of general use, reflected, begun and ended with a complement. -/
def crc32cByte (c : Word) (b : Byte) : Word :=
  (List.range 8).foldl (fun c _ => if c.getLsbD 0 then (c >>> 1) ^^^ 0x82F63B78 else c >>> 1) (c ^^^ b.setWidth 32)

def crc32c (bs : List Byte) : Word := ~~~(bs.foldl crc32cByte (BitVec.allOnes 32))

/-- FORMAT, LENGTH and CHECK before the rest of a record. -/
def sealRecord (kind version : Nat) (body : List Byte) : List Byte :=
  leBytes (kind * 2 ^ 24 + version % 65536) 4 ++ leBytes (12 + body.length) 4 ++ leBytes (crc32c body).toNat 4 ++ body

/-! ### The dispatcher's record (R404) -/

/-- STATE of a launch: 0 admitted, 1 running, 2 completing. -/
def launchState (s : State) (l : Launch) : Nat :=
  let live := s.blocks.any (·.launch == l.uid) || s.saved.any (·.blk.launch == l.uid)
  if l.todo.isEmpty then (if live then 1 else 2) else if live || 0 < l.ended then 1 else 0

def launchEntry (s : State) (l : Launch) : List Byte :=
  leBytes l.recAddr 8 ++ leBytes l.adm 8 ++ leBytes l.lr.tenant 2 ++ leBytes l.lr.prio 1 ++ leBytes (launchState s l) 1 ++
    leBytes l.flags.toNat 4 ++ leBytes l.nextTab.toNat 8 ++ leBytes l.ended 8 ++ leBytes l.saveList.toNat 8 ++ leBytes 0 16

def dispBody (s : State) : List Byte :=
  leBytes s.launches.length 4 ++ leBytes s.admSeq 8 ++ leBytes s.rrpos 4 ++ leBytes 0 4 ++
    leBytes (s.vacated.foldl (fun n c => n ||| 2 ^ c) 0) 96 ++ ((List.range 4).flatMap fun d => leBytes (vecGet s.quotaAt 0 d).toNat 8) ++
    s.launches.flatMap (launchEntry s)

/-! ### The fabric controller's record (R405) -/

def portStateNum : PortState → Nat | .down => 0 | .training => 1 | .up => 2

def linkEntry (p : Port) : List Byte :=
  leBytes p.txseq 2 ++ leBytes p.rxseq 2 ++ leBytes p.ackseq 2 ++ leBytes (portStateNum p.st) 1 ++ leBytes p.width 1 ++
    leBytes p.replays 4 ++ leBytes p.downs 4

def etherEntry (p : Port) : List Byte :=
  leBytes (portStateNum p.st) 1 ++ leBytes 0 3 ++ leBytes p.nconn 4 ++ leBytes p.connAddr.toNat 8

def fabBody (s : State) : List Byte :=
  let port := fun p => kvGet .reset p s.fabric.ports
  leBytes (s.devno % 2 ^ 22) 4 ++ leBytes (s.fabric.domain % 2 ^ 12) 4 ++ leBytes s.fabric.routes.length 4 ++
    leBytes s.fabric.routeAddr.toNat 8 ++ ((List.range 32).flatMap fun p => linkEntry (port p)) ++
    ((List.range 8).flatMap fun p => etherEntry (port (32 + p)))

/-- The record that a controller's image keeps, in a version; the spec lays out none for the others. -/
def recordOf (s : State) (k version : Nat) : List Byte :=
  match k with
  | 1 => sealRecord 1 version (dispBody s)
  | 2 => sealRecord 2 version (fabBody s)
  | _ => []

end Sys2Proof.Machine
end

