-- ==== Sys2Proof/Machine/Firmware.lean ====
section
/-! DEFINITION. Embedded controllers (23 R392 to R394, R399 to R404, R408): images, live replacement, watchdogs, attestation, reset. -/

namespace Sys2Proof.Machine

def ctlGet (s : State) (k : Nat) : Ctl := vecGet s.ctls .reset k
def ctlUpd (s : State) (k : Nat) (f : Ctl → Ctl) : State := { s with ctls := vecUpd s.ctls .reset k f }

/-- The FREADY and FFAIL bit of a controller (R393). -/
def ctlBit (k : Nat) : Nat := match k with | 2 => 3 | 3 => 2 | k => if k < 5 then k else 4 + k
def setFail (s : State) (bit : Nat) : State := { s with ffail := s.ffail ||| (1#32 <<< bit) }

/-! ### Images (R399, R400) -/

/-- TARGET of a controller. -/
def ctlTarget (k : Nat) : Nat := if k < 5 then k else 5 + 256 * (k - 5)

/-- An image that the controller accepts. -/
def acceptImage (k : Nat) (bs : List Byte) : Option Image :=
  let n := leNat (bs.take 0x70)
  let len := bits n 128 64
  let body := (bs.drop 0x4200).take len
  let i : Image := ⟨BitVec.ofNat 32 (bits n 64 32), BitVec.ofNat 32 (bits n 96 32), bits n 192 16, bits n 208 16, (bs.drop 0x40).take 48, bs⟩
  if 0x4200 + len ≤ bs.length && bits n 0 32 == 1 && bits n 32 32 == ctlTarget k && Config.fusedSvn k ≤ i.svn.toNat &&
    sha384 body == i.digest && Config.signaturesVerify (bs.take 0x4200) then some i else none

/-- The image in the inactive bank is replaced; the other bank stands. -/
def putImage (c : Ctl) (i : Image) : Ctl := if c.active then { c with bankA := some i } else { c with bankB := some i }

/-- A staged image is read from where UPDADDR and UPDLEN say, once the stacks there can serve (R394). -/
def stagedImage (s : State) (c : Ctl) : Option (List Byte) × State :=
  let a := c.updaddr.toNat
  let n := c.updlen.toNat
  if a % 4096 = 0 && 0 < n && a + n ≤ hbmSize then
    (some (unitRead s (unitsOf (.gm a) n)).1, touchUnits (unitsOf (.gm a) n) s)
  else (none, s)

def updctlS (s : State) (k : Nat) (v : Word) : Option State :=
  if 21 ≤ k || v ≠ 1 then none
  else
    let c := ctlGet s k
    if c.busy then some (ctlUpd s k fun c => { c with refused := true })
    else
      let r := stagedImage s c
      match r.1.bind (acceptImage k) with
      | none => some (ctlUpd r.2 k fun c => { c with refused := true })
      | some i => some (ctlUpd r.2 k fun c => { putImage c i with busy := true, refused := false, rolled := false })

def execUpdctl (ctl : Nat) (v : Word) (s : State) : Out := move s (updctlS s ctl v)

/-! ### Live replacement (R401, R402) -/

/-- The image of the active bank. -/
def activeImage (c : Ctl) : Option Image := if c.active then c.bankB else c.bankA

/-- The old image stops at its hand-over point; its record stays as it stands. -/
def handoverS (s : State) (k : Nat) : Option State :=
  let c := ctlGet s k
  if 21 ≤ k || !c.busy || c.phase != .armed then none
  else some (ctlUpd s k fun c => { c with phase := .stopping, record := recordOf s k c.recVersion })

/-- The new image starts from the record: its own record writes go to a copy, and its outputs to the commit buffer. -/
def imageStartS (s : State) (k : Nat) : Option State :=
  let c := ctlGet s k
  if 21 ≤ k || c.phase != .stopping then none
  else some (ctlUpd s k fun c => { c with
    active := !c.active, armed := false, phase := .starting, fed := 0, misses := 0, copy := some c.record, commit := [] })

/-- An output of an image that has not armed is held. -/
def holdOutput (s : State) (k : Nat) (i : Instr) : State :=
  ctlUpd s k fun c => { c with commit := c.commit ++ [i], copy := some (recordOf s k c.recVersion) }

/-- The image arms: the copy becomes the record, in the version it keeps, and the held outputs reach the units. -/
def armS (s : State) (k version : Nat) : State :=
  let held := (ctlGet s k).commit
  let s := ctlUpd s k fun c => { c with
    armed := true, busy := false, phase := .armed, wdog := 0, fed := 0, misses := 0, recVersion := version
    record := recordOf s k version, copy := none, commit := [] }
  { s with agenda := held.map .ev ++ s.agenda }

def execHandoverStop (ctl : Nat) (s : State) : Out := move s (handoverS s ctl)

/-- Can the running image read the hand-over record? -/
def readsRecord (c : Ctl) : Bool :=
  match activeImage c with | some i => i.holo ≤ c.recVersion && c.recVersion ≤ i.hohi | none => true

/-- The image writes its WDOG: the first write arms it, if it can read the record; the record is then kept in a version of its own
choice among those it reads. -/
def wdogS (s : State) (k : Nat) : Option State :=
  let c := ctlGet s k
  if 21 ≤ k || c.phase == .stopping then none
  else if c.armed then some (ctlUpd s k fun c => { c with wdog := 0, fed := 0, misses := 0 })
  else if !readsRecord c then none
  else
    match activeImage c with
    | none => some (armS s k c.recVersion)
    | some i =>
      let r := choose (i.hohi + 1 - i.holo) s
      some (armS r.2 k (i.holo + r.1))

def execWdogWrite (ctl : Nat) (s : State) : Out := move s (wdogS s ctl)

/-- Has a controller's deadline come? A controller that has failed is not watched further. -/
def wdogDue (s : State) (k : Nat) : Bool :=
  (ctlGet s k).fed == 2 ^ 28 && (ctlGet s k).phase != .stopping && !unitFailed s (ctlBit k)

def expiryS (s : State) (k : Nat) : Option State :=
  let c := ctlGet s k
  if 21 ≤ k || !wdogDue s k then none
  else if !c.armed then
    some (ctlUpd s k fun c => { c with
      active := !c.active, armed := true, busy := false, rolled := true, phase := .armed, fed := 0, misses := 0
      copy := none, commit := [] })
  else if c.misses = 0 then some (ctlUpd s k fun c => { c with restart := true, misses := 1, fed := 0 })
  else some (setFail (ctlUpd s k fun c => { c with misses := 2 }) (ctlBit k))

def execWatchdogExpiry (ctl : Nat) (s : State) : Out := move s (expiryS s ctl)

/-- The unit whose writes wait on a controller's clock. -/
def ctlUnit (k : Nat) : Option Nat := match k with | 1 => some uDispatch | 2 => some uFabric | 3 => some uMemory | _ => none

/-- R401: the image that runs keeps its record as the state stands, one that has not armed in its copy. -/
def keepRecord (s : State) (k : Nat) (c : Ctl) : Ctl :=
  match c.phase with
  | .armed => { c with record := recordOf s k c.recVersion }
  | .starting => { c with copy := some (recordOf s k c.recVersion) }
  | .stopping => c

/-- One cycle of a controller's clock, which waits for what its unit owes in it; the writes that its unit holds wait one cycle more
(04 R95, R96). -/
def tickCtlS (k : Nat) (s : State) : State :=
  if 21 ≤ k || wdogDue s k || (ctlUnit k).any (fun u => forceDue s u || applyDue s u) then s
  else
    let s := ctlUpd s k fun c => keepRecord s k { c with wdog := min (c.wdog + 1) (2 ^ 32 - 1), fed := min (c.fed + 1) (2 ^ 28) }
    match ctlUnit k with | some u => countHeld s u | none => s

/-! ### Attestation (R400) -/

def reportOf (c : Ctl) : List Byte :=
  match activeImage c with
  | some i => i.digest ++ leBytes i.version.toNat 4 ++ leBytes i.svn.toNat 4
  | none => []

/-- The nonce, then each controller's digest, version and SVN, then the signatures. -/
def attestS (s : State) (nonce : List Byte) : Option State :=
  if !s.fready.getLsbD 0 || s.ffail.getLsbD 0 then none
  else
    let b := nonce ++ (List.range 21).flatMap fun k => reportOf (ctlGet s k)
    some { s with out := s.out ++ [.report (b ++ Config.reportSignatures b)] }

def execAttestationRequest (nonce : List Byte) (s : State) : Out := move s (attestS s nonce)

/-! ### Path monitors (R408) -/

def pathS (s : State) (d : Nat) (low : Bool) : Option State :=
  if nDies ≤ d || !low || !ctlRuns s 4 || unitFailed s 4 then none
  else if vecGet s.supply 0 d < 10 then some { s with supply := vecUpd s.supply 0 d (· + 1) }
  else if 2000 < vecGet s.clock 0 d then
    some { s with clock := vecUpd s.clock 0 d fun f => max 2000 (f - 50), out := s.out ++ [.slowStep d] }
  else none

def execPathMonitorRead (die : Nat) (low : Bool) (s : State) : Out := move s (pathS s die low)

/-! ### Readiness and device reset (R393) -/

/-- R393: does the image that a controller starts from verify? DESIGN CHOICE (log 100): the image that a bank was shipped with, which
holds nothing here, does. -/
def imageVerifies (s : State) (k : Nat) : Bool :=
  match activeImage (ctlGet s k) with | some i => (acceptImage k i.bytes).isSome | none => true

/-- The controller that a bit of FREADY stands for, alone or with its unit. -/
def bitCtl (bit : Nat) : Option Nat := (List.range 21).find? fun k => ctlBit k == bit

/-- R393: the boot ROM verifies the security controller's image, and that controller every other's; a unit then serves, whatever the bits
of the others. -/
def readyOk (s : State) (bit : Nat) : Bool :=
  match bitCtl bit with | some k => imageVerifies s 0 && imageVerifies s k | none => bit < 27

def execUnitReady (bit : Nat) (s : State) : Out :=
  .next (if readyOk s bit then { s with fready := s.fready ||| (1#32 <<< bit) } else s)

/-- Device reset: everything as `State.reset` has it, but for the image banks, the device number and the model's own counters. -/
def execDeviceReset (s : State) : Out :=
  .next { State.reset with
    agenda := s.agenda
    moveCtr := s.moveCtr
    rnd := s.rnd
    nid := s.nid
    devno := s.devno
    ctls := s.ctls.map fun c => { Ctl.reset with bankA := c.bankA, bankB := c.bankB, active := c.active } }

end Sys2Proof.Machine
end

