-- ==== Sys2Proof/Machine/Fabric.lean ====
section
/-! DEFINITION. Links, packets and launch tokens (23 R396 to R398, 19 R363). -/

namespace Sys2Proof.Machine

/-! ### Flits (R396) -/

/-- One step of the CRC of ECMA-182 over a bit. -/
def crcBit (c : DWord) (b : Bool) : DWord :=
  let t := c.getLsbD 63 != b
  if t then (c <<< 1) ^^^ 0x42F0E1EBA9EA3693 else c <<< 1

def crcByte (c : DWord) (b : Byte) : DWord := (List.range 8).foldl (fun c i => crcBit c (b.getLsbD (7 - i))) c
def crc64 (bs : List Byte) : DWord := bs.foldl crcByte 0

def flitSeq (f : Flit) : Nat := bits f.ctl.toNat 0 12
def flitAck (f : Flit) : Nat := bits f.ctl.toNat 12 12
def flitType (f : Flit) : Nat := bits f.ctl.toNat 24 4
def flitCredit (f : Flit) : Nat := bits f.ctl.toNat 28 8

/-- Does a flit pass its checks? -/
def flitOk (f : Flit) : Bool :=
  f.crc == crc64 (f.payload ++ leBytes f.ctl.toNat 8) && flitType f < 4 && bits f.ctl.toNat 36 28 == 0

def mkFlit (payload : List Byte) (seq ack ty credit : Nat) : Flit :=
  let c := BitVec.ofNat 64 (seq + ack * 2 ^ 12 + ty * 2 ^ 24 + credit * 2 ^ 28)
  ⟨payload, c, crc64 (payload ++ leBytes c.toNat 8)⟩

/-- The link ports are 0 to 31; the Ethernet ports 32 to 39. -/
def nLinks : Nat := 32
def nPorts : Nat := 40

def portGet (s : State) (p : Nat) : Port := kvGet .reset p s.fabric.ports
def portPut (s : State) (p : Nat) (x : Port) : State :=
  { s with fabric := { s.fabric with ports := kvPut .reset p x s.fabric.ports } }

/-- An ACK frees every data flit before the number it names; NAKs for a flit that is freed count no more. -/
def freeAcked (x : Port) (ack : Nat) : Port :=
  let left := x.replay.filter fun f => let d := (ack + 4096 - flitSeq f) % 4096; d = 0 || 2048 < d
  { x with ackseq := ack, replay := left, naks := if left.any (flitSeq · == x.nakFor) then x.naks else 0 }

/-- A flit of the replay buffer as it goes out again: with the number that the port expects now. -/
def resend (x : Port) (f : Flit) : Flit := mkFlit f.payload (flitSeq f) x.rxseq (flitType f) (flitCredit f)

/-- The NAK that names the number expected; the credits it returns are the port's own affair. -/
def sendNak (s : State) (x : Port) : Port × State :=
  let c := choose 256 s
  ({ x with sent := mkFlit (List.replicate 240 0) 0 x.rxseq 1 c.1 :: x.sent }, c.2)

/-- A received flit, once its checks have passed: ACK and CREDIT first. -/
def flitBase (x : Port) (f : Flit) : Port := let x := freeAcked x (flitAck f); { x with credits := x.credits + flitCredit f }

/-- A flit that fails its checks is dropped, counted, and answered. -/
def badFlit (s : State) (x : Port) : Port × State := sendNak s { x with crcFails := x.crcFails + 1 }

/-- R396: a flit of the type an event names arrives at a link port. -/
def receiveS (s : State) (p ty : Nat) (f : Flit) (k : Port → State → Port × State) : Option State :=
  let x := portGet s p
  if nLinks ≤ p || x.st != .up || f.payload.length ≠ 240 then none
  else if !flitOk f then let y := badFlit s x; some (portPut y.2 p y.1)
  else if flitType f ≠ ty then none
  else let y := k (flitBase x f) s; some (portPut y.2 p y.1)

/-- A data flit is delivered in sequence, answered when it is newer than the next expected, or dropped as a duplicate. -/
def takeData (f : Flit) (x : Port) (s : State) : Port × State :=
  let d := (flitSeq f + 4096 - x.rxseq) % 4096
  if d = 0 then ({ x with rxseq := (x.rxseq + 1) % 4096, got := f.payload :: x.got }, s)
  else if d < 2048 then sendNak s x
  else (x, s)

/-- On a NAK the sender resends from the flit it names; after eight in a row for one flit the port retrains. -/
def takeNak (f : Flit) (x : Port) (s : State) : Port × State :=
  let n := if flitAck f = x.nakFor then x.naks + 1 else 1
  let x := { x with sent := (x.replay.map (resend x)).reverse ++ x.sent, replays := x.replays + 1, naks := n, nakFor := flitAck f }
  (if 8 ≤ n then { x with st := .training, naks := 0 } else x, s)

def execDataFlit (port : Nat) (f : Flit) (s : State) : Out := move s (receiveS s port 0 f (takeData f))

def execNakFlit (port : Nat) (f : Flit) (s : State) : Out := move s (receiveS s port 1 f (takeNak f))

def execIdleFlit (port : Nat) (f : Flit) (s : State) : Out := move s (receiveS s port 2 f fun x s => (x, s))

def execRetrainRequest (port : Nat) (f : Flit) (s : State) : Out :=
  move s (receiveS s port 3 f fun x s => ({ x with st := .training }, s))

/-! What a port sends (R396). -/

/-- A payload for a partner: 15 packet units of 16 bytes, which go out by this port. -/
def offerS (s : State) (p : Nat) (b : List Byte) : State :=
  if nLinks ≤ p || b.length ≠ 240 then s else portPut s p { portGet s p with outq := (portGet s p).outq ++ [b] }

/-- A data flit goes out while the port holds a credit and fewer than 2,048 flits are unacknowledged, else an idle one; the credits that a
flit returns are the port's own affair. -/
def linkSendS (s : State) (p : Nat) : Option State :=
  let x := portGet s p
  if nLinks ≤ p || x.st != .up then none
  else
    let c := choose 256 s
    match (if 2048 ≤ x.replay.length || x.credits = 0 then [] else x.outq) with
    | b :: r =>
      let f := mkFlit b x.txseq x.rxseq 0 c.1
      some (portPut c.2 p { x with
        txseq := (x.txseq + 1) % 4096, credits := x.credits - 1, replay := x.replay ++ [f], sent := f :: x.sent, outq := r })
    | [] => some (portPut c.2 p { x with sent := mkFlit (List.replicate 240 0) 0 x.rxseq 2 c.1 :: x.sent })

/-- The link ports that are up. -/
def upLinks (s : State) : List Nat := (List.range nLinks).filter fun p => (portGet s p).st == .up

/-- A port goes down: what it has not been acknowledged, and what it has still to send, goes out by another port; by which is open. While no
port is up it waits here. -/
def portDown (s : State) (p : Nat) : State :=
  let x := portGet s p
  let left := x.replay.map Flit.payload ++ x.outq
  let s := portPut s p { x with st := .down, downs := x.downs + 1, replay := [], outq := left }
  match upLinks s with
  | [] => s
  | ps =>
    let c := choose ps.length s
    let q := ps.getD c.1 0
    let s := portPut c.2 p { portGet c.2 p with outq := [] }
    portPut s q { portGet s q with outq := (portGet s q).outq ++ left }

/-- A route that the fabric controller adds; it holds its route changes while its image is replaced (R403). -/
def routeS (s : State) (e : List Byte) : State :=
  if ctlRuns s 2 then { s with fabric := { s.fabric with routes := s.fabric.routes ++ [e] } } else s

/-- A port comes up from the down state, or its retraining succeeds or fails. Bring-up waits while the fabric image is replaced
(R403). -/
def bringUpS (s : State) (p : Nat) : Option State :=
  let x := portGet s p
  if nPorts ≤ p || !ctlRuns s 2 then none
  else
    match x.st with
    | .up => none
    | .down => some (portPut s p { x with st := .up, txseq := 0, rxseq := 0, ackseq := 0, replay := [], credits := 0, naks := 0 })
    | .training =>
      let c := choose 2 s
      some (if c.1 = 0 then portPut c.2 p { x with st := .up } else portDown c.2 p)

def execPortBringUp (port : Nat) (s : State) : Out := move s (bringUpS s port)

/-! ### Packets (R397, R398, 19 R363) -/

/-- A packet for this device is taken once. -/
def packetS (s : State) (src dst num : Nat) (bs : List Byte) : Option State :=
  if dst ≠ s.devno || s.fabric.taken.contains (src, dst, num) then none
  else some { s with fabric := { s.fabric with taken := (src, dst, num) :: s.fabric.taken, delivered := bs :: s.fabric.delivered } }

def execFabricPacket (src dst num : Nat) (bytes : List Byte) (s : State) : Out := move s (packetS s src dst num bytes)

def tokLo (s : State) (t : Nat) : Nat := tenantField s t 0x50 8
def tokWin (s : State) (t : Nat) : Nat := tenantField s t 0x58 4
def seenOf (s : State) (t : Nat) : List Nat := kvGet [] t s.fabric.seen

/-- The window moves up to a token beyond it; the seen bits it leaves behind are discarded. -/
def slideWindow (s : State) (t tok : Nat) : State :=
  if tokLo s t + tokWin s t ≤ tok then
    let lo := tok + 1 - tokWin s t
    { s with
      pf := memPutBytes s.pf (tenantEnt t + 0x50) (leBytes lo 8)
      fabric := { s.fabric with seen := kvPut [] t ((seenOf s t).filter (lo ≤ ·)) s.fabric.seen } }
  else s

def sendAck (s : State) (tok : DWord) (k : AckKind) : State := { s with out := s.out ++ [.ack tok k] }

/-- A dropped launch packet counts at the port it came by, which the rule does not name. -/
def dropPacket (s : State) (tok : DWord) (k : AckKind) : State :=
  let c := choose nPorts s
  sendAck (addCtr c.2 (0xA0100 + 8 * c.1) 64 1) tok k

def acceptPacket (s : State) (tok : DWord) (bs : List Byte) : State :=
  sendAck { s with fabric := { s.fabric with queue := s.fabric.queue ++ [⟨tok, bs⟩] } } tok .acc

/-- R278: the fabric launch queue holds 1,024 records. DESIGN CHOICE (log 98): a packet that it has no room for arrives there later. -/
def fabricRoom (s : State) : Bool := s.fabric.queue.length < 1024

/-- R363: the token check. A record whose TENANT names no tenant has no token state; its admission rejects it. -/
def launchPacketS (s : State) (tok : DWord) (bs : List Byte) : Option State :=
  if !s.fready.getLsbD 3 || bs.length ≠ 256 || !fabricRoom s then none
  else
    let t := leNat ((bs.drop 4).take 2)
    if 64 ≤ t then some (acceptPacket s tok bs)
    else if tok.toNat < tokLo s t then some (dropPacket s tok .stale)
    else
      let s := slideWindow s t tok.toNat
      if (seenOf s t).contains tok.toNat then some (dropPacket s tok .dup)
      else
        let s := { s with fabric := { s.fabric with seen := kvPut [] t (tok.toNat :: seenOf s t) s.fabric.seen } }
        some (acceptPacket s tok bs)

def execLaunchPacket (tok : DWord) (bytes : List Byte) (s : State) : Out := move s (launchPacketS s tok bytes)

end Sys2Proof.Machine
end

