-- ==== Sys2Proof/Machine/Graph.lean ====
section
/-! DEFINITION. Graph space (12 R252 to R273, 13 R274 to R277, 10 R227, 19 R368): the instructions of class 9, and the moves of the graph
controllers. -/

namespace Sys2Proof.Machine

/-! ### Graph objects -/

/-- Statuses (R257). -/
inductive GStat | ok | fin | dup | absent | badv | badg | nospace | lfull | closed | badreg | nograph | baddesc
  deriving DecidableEq, Repr

def GStat.code : GStat → Nat
  | .ok => 0 | .fin => 1 | .dup => 2 | .absent => 3 | .badv => 4 | .badg => 5 | .nospace => 6 | .lfull => 7 | .closed => 8
  | .badreg => 9 | .nograph => 10 | .baddesc => 11

def updGraphSys (s : State) (f : GraphSys → GraphSys) : State := { s with graph := f s.graph }

/-- The live graph of a tenant that a handle names (R253). -/
def findGraph (s : State) (tenant : Nat) (h : Word) : Option Graph :=
  s.graph.graphs.find? fun g => g.live && g.tenant == tenant && g.idx == h.toNat % 65536 && g.gen == h.toNat / 65536

def graphIs (idx gen : Nat) (g : Graph) : Bool := g.idx == idx && g.gen == gen

def updGraph (s : State) (idx gen : Nat) (f : Graph → Graph) : State :=
  updGraphSys s fun x => { x with graphs := updFirst (graphIs idx gen) f x.graphs }

/-- Lists are numbered 2 × vertex, and one more for the in-list. -/
def listKey (v : Nat) (inl : Bool) : Nat := 2 * v + inl.toNat
def list0 : GList := ⟨[], 0, 0⟩
def gList (g : Graph) (k : Nat) : GList := kvGet list0 k g.lists

/-- The home stack of a vertex (R255). -/
def graphHome (g : Graph) (v : Nat) : Nat :=
  let n := ((v % 16) ^^^ (v / 2 ^ 8 % 16)) ^^^ ((v / 2 ^ 16 % 16) ^^^ (v / 2 ^ 24 % 16)) ^^^ (v / 2 ^ 32 % 16)
  match g.hpol with
  | 0 => n
  | 1 => g.harg
  | _ => 4 * g.harg + n % 4

def rankOf (l : GList) (v : Nat) : Option Nat := l.ents.findIdx? (·.v == v)

def edgeKey (u v : Nat) : Nat := u * 2 ^ 40 + v

/-- A weight as the graph's payload keeps it (R260). -/
def payWeight (pay : Nat) (w : DWord) : DWord :=
  match pay with | 0 => 0 | 1 => (lo32 w).setWidth 64 | _ => w

/-! ### Storage (R263, R272, R277) -/

/-- A page of a region, or a part of one: where it lies, if it qualifies for a graph, and its bytes. -/
structure GPage where
  at_ : Option (Nat × Nat)
  n : Nat
  deriving DecidableEq, Repr, Inhabited

/-- The pages of a region: the home stack and the physical address of each that qualifies, and its bytes. -/
def regionPages (tenant root : Nat) : Nat → Nat → Nat → State → List GPage × State
  | 0, _, _, s => ([], s)
  | f + 1, va, n, s =>
    if n = 0 then ([], s)
    else
      match xlate s tenant root va .graph with
      | (.error _, s) =>
        let k := min n (4096 - va % 4096)
        let r := regionPages tenant root f (va + k) (n - k) s
        (⟨none, k⟩ :: r.1, r.2)
      | (.ok x, s) =>
        let k := min n (x.base + x.size - va % 2 ^ 57)
        let ok := pteW x.pte && !pteTier x.pte && pteHome x.pte < 16 && x.loc.isGm
        let r := regionPages tenant root f (va + k) (n - k) s
        (⟨if ok then some (pteHome x.pte, x.loc.addr) else none, k⟩ :: r.1, r.2)

/-- The bytes of pages on a stack. -/
def homeBytes (ps : List GPage) (st : Nat) : Nat :=
  ps.foldl (fun a p => if p.at_.any (·.1 == st) then a + p.n else a) 0

/-- R277: what of a graph's region still qualifies, each part with the home that it had when the graph was made. -/
def usablePages (tenant root : Nat) : Nat → List (Nat × Nat × Nat) → State → List GPage × State
  | _, [], s => ([], s)
  | va, (st, _, n) :: r, s =>
    let x := regionPages tenant root (n / 4096 + 1) va n s
    let y := usablePages tenant root (va + n) r x.2
    ((x.1.filter fun p => p.at_.any (·.1 == st)) ++ y.1, y.2)

/-- Old segments that pins on a list keep: one for each commit since the oldest pin. -/
def keptSegments (s : State) (g : Graph) (k : Nat) : Nat :=
  let cs := (s.graph.pins.filter fun p => p.graph == g.idx && p.gen == g.gen && listKey p.v p.inl == k).map Pin.commits
  match cs with
  | [] => 0
  | c :: r => (gList g k).commits - r.foldl min c

/-- The count of R263 at a stack, a reserved entry counted with its list's header. -/
def homeCount (s : State) (g : Graph) (st : Nat) : Nat :=
  let keys := (g.lists.map (·.1) ++ g.resv.map (·.1)).eraseDups.filter fun k => graphHome g (k / 2) == st
  keys.foldl (fun a k =>
    let n := (gList g k).ents.length + kvGet 0 k g.resv
    a + n * (if g.pay = 2 then 24 else 16) + (if n = 0 then 0 else 64) + 4096 * keptSegments s g k) 0

/-- Does a home's storage hold what is counted there? -/
def homeFits (s : State) (g : Graph) (ps : List GPage) (st : Nat) : Bool :=
  homeCount s g st + 65536 ≤ homeBytes ps st

/-! ### Handles (R253, R273) -/

def takeIndex (x : GraphSys) : Option (Nat × Nat × GraphSys) :=
  if x.fresh ≤ 65535 then some (x.fresh, 0, { x with fresh := x.fresh + 1 })
  else
    match x.freed with
    | [] => none
    | i :: r =>
      let g := (kvGet 0 i x.gens + 1) % 65536
      some (i, g, { x with freed := r, gens := kvPut 0 i g x.gens })

/-- A freed graph's storage is released, and its index joins the free list, once no pin is held on it. -/
def dropGraph (s : State) (idx gen : Nat) : State :=
  if (s.graph.graphs.any fun g => graphIs idx gen g && !g.live) && !(s.graph.pins.any fun p => p.graph == idx && p.gen == gen) then
    updGraphSys s fun x => { x with graphs := x.graphs.filter fun g => !graphIs idx gen g, freed := x.freed ++ [idx] }
  else s

def freeGraph (s : State) (idx gen : Nat) : State :=
  dropGraph (updGraph s idx gen fun g => { g with live := false }) idx gen

/-! ### Pins (R265, R268, R270, R275, R368) -/

def findPin (s : State) (c : Cursor) : Option Pin := s.graph.pins.find? (·.id == c.pin.toNat)

/-- Release a pin; the record it was spilled to becomes free. -/
def releasePin (s : State) (n : Nat) : State :=
  match s.graph.pins.find? (·.id == n) with
  | none => s
  | some p =>
    let s := updGraphSys s fun x => { x with pins := x.pins.filter (·.id != n) }
    let s := match p.spill with
      | some (a, _) => (unitStore s p.tenant p.root (a + 0x18) (leBytes 0 4)).2
      | none => s
    dropGraph s p.graph p.gen

/-- Has another writer altered the record of a spilled pin? -/
def pinAltered (s : State) (p : Pin) : Bool × State :=
  match p.spill with
  | none => (false, s)
  | some (a, bs) =>
    match unitLoad s p.tenant p.root a 32 with
    | (.ok r, s) => (r.1 != bs || r.2, s)
    | (.error _, s) => (true, s)

/-- Where the next pin of a stack is kept for a launch: nothing where its records and the launch's region are all full; `some none` in the
controller. -/
def pinPlace (s : State) (l : LaunchRec) (st : Nat) : Option (Option Nat) :=
  if (s.graph.pins.filter fun p => p.stack == st && p.spill.isNone).length < 4096 then some none
  else
    let used := s.graph.pins.filterMap fun p => if p.tenant == l.tenant then p.spill.map (·.1) else none
    ((List.range (l.pinLen / 32)).map fun i => l.pinBase + 32 * i).find? (fun a => !used.contains a) |>.map some

/-- The number of the next pin: one that no held pin has. -/
def freshPin (s : State) : Nat :=
  ((List.range (s.graph.pins.length + 1)).map fun i => (s.nid + i) % 2 ^ 32).find? (fun n => !s.graph.pins.any (·.id == n)) |>.getD 0

/-- The 32 bytes of a spilled pin; the opaque ones are free. -/
def pinRecord (s : State) (h : Word) (p : Pin) : List Byte × State :=
  let a := draw s
  let b := draw a.2
  (leBytes h.toNat 4 ++ leBytes p.ring.toNat 4 ++ leBytes (p.v + p.inl.toNat * 2 ^ 40 + p.stack * 2 ^ 44) 8 ++
    leBytes a.1 8 ++ leBytes 1 4 ++ leBytes b.1 4, b.2)

/-! ### Results -/

/-- The quad of R258. -/
def entryQuad (nbr : Nat) (st : GStat) (w : DWord) : List Word :=
  [BitVec.ofNat 32 nbr, BitVec.ofNat 32 (nbr / 2 ^ 32 + st.code * 256), lo32 w, hi32 w]
def noEntry (st : GStat) : List Word := entryQuad (2 ^ 40 - 1) st 0

/-- An operation leaves its lane's stream with its result. -/
def gopDone (s : State) (o : GOp) (ws : List Word) (ok : Bool) (q : Option Cursor) : State :=
  let s := updGraphSys s fun x => { x with ops := x.ops.filter (·.id != o.id) }
  deliver s o.lane.wave o.win ⟨o.lane.lane, ws, some ok, if o.dead then q.map fun _ => .closed else q⟩

/-- R394: reads of a failed stack return poison, and its writes are discarded. -/
def stackFailed (s : State) (st : Nat) : Bool := unitFailed s (9 + st)

/-- What a read at a list of a failed stack gives: the pattern of 64 bits in each pair of words. DESIGN CHOICE, log 113. -/
def failedWords (n : Nat) : List Word := (List.replicate (n / 2) (wordsOf true (BitVec.ofNat 64 (poisonOf 8)))).flatten

/-- A read at a list of a failed stack leaves its lane's stream (23 R394, 09 R208). DESIGN CHOICE (log 113): its predicate is written as 1, and a cursor
stays as it is. -/
def gopPoison (s : State) (o : GOp) (n : Nat) : State := gopDone (setLaunchFlag s o.launch 4) o (failedWords n) true none

/-- The status of a mutation, in [7:0]. -/
def mutDone (s : State) (o : GOp) (st : GStat) : State := gopDone s o [BitVec.ofNat 32 st.code] (st == .ok) none

def updGop (s : State) (o : GOp) (f : GOp → GOp) : State :=
  updGraphSys s fun x => { x with ops := updFirst (·.id == o.id) f x.ops }

/-- R227: the lane has seen an entry's stamp. -/
def noteStamp (s : State) (o : GOp) (k : Nat) : State :=
  updGraphSys s fun x =>
    let i := laneNum o.lane
    let l := (kvGet [] i x.seen).filter x.openStamps.contains
    { x with seen := kvPut [] i (if x.openStamps.contains k && !l.contains k then k :: l else l) x.seen }

/-! ### The order of service (R227, R262, R218 to R221, 23 R394) -/

def laneStampsDone (s : State) (o : GOp) : Bool :=
  (kvGet [] (laneNum o.lane) s.graph.seen).all fun k => !s.graph.openStamps.contains k

/-- R262: the lower lanes of an operation's instruction have begun before it begins, and at a list that both reach they have moved
before it moves. -/
def laneTurn (s : State) (o : GOp) : Bool :=
  (s.graph.ops.takeWhile (·.id != o.id)).all fun p =>
    p.lane.wave != o.lane.wave || p.isq != o.isq ||
    match o.phase, p.phase with
    | .start, .start => false
    | .start, .inCommit | .start, .outCommit | .outCommit, .inCommit | .outCommit, .outCommit => p.u != o.u
    | .inCommit, .inCommit => p.v != o.v
    | _, _ => true

/-- May the first move of an operation be taken? Earlier operations of its lane have left, and it is the lane's turn; a read also
waits for the stamps its lane has seen. -/
def gopReady (s : State) (o : GOp) : Bool :=
  ((s.graph.ops.takeWhile (·.id != o.id)).all fun p => p.lane != o.lane) && laneTurn s o &&
  !acqBlocked s o.lane o.isq && (gopRead o.kind || !relBlocked s o.lane o.isq) && (!gopRead o.kind || laneStampsDone s o)

def findGop (s : State) (n : Nat) : Option GOp := s.graph.ops.find? (·.id == n)

def stackUp (s : State) (st : Nat) : Bool := unitUp s (9 + st)

/-- A vertex operand names a vertex of the graph (R254). -/
def vertexIn (g : Graph) (v : Option Nat) : Option Nat :=
  match v with | some v => if v < g.cap then some v else none | none => none

/-! ### Mutations (R260, R261) -/

/-- The storage a reserve sees: does what is counted at both homes fit, once its entries are reserved? Not where a home has no page left
(R277); open beyond the count (R263). -/
def reserveFits (s : State) (o : GOp) (g : Graph) (u v : Nat) : Option Bool × State :=
  let ps := usablePages g.tenant (rootOf s o.launch g.tenant) g.base g.pages s
  let hs := [graphHome g u, graphHome g v]
  (if hs.all (homeFits ps.2 g ps.1) then some true else if hs.any fun h => homeBytes ps.1 h == 0 then some false else none, ps.2)

/-- The edge is marked pending, and the operation goes on. -/
def reserved (s : State) (o : GOp) (g : Graph) (u v : Nat) : State :=
  updGop (updGraph s g.idx g.gen fun x => { x with pending := edgeKey u v :: x.pending, resv := g.resv }) o
    fun o => { o with phase := .inCommit }

def reserveS (s : State) (n : Nat) : Option State :=
  match findGop s n with
  | none => none
  | some o =>
    let mutates := match o.kind with | .gadd | .gdel | .gwt => true | _ => false
    if !mutates || o.phase != .start || !gopReady s o then none
    else
      match findGraph s o.tenant o.handle with
      | none => some (mutDone s o .badg)
      | some g =>
        match vertexIn g o.u, vertexIn g o.v with
        | some u, some v =>
          if !(stackUp s (graphHome g u) && stackUp s (graphHome g v)) then none
          else
            let live := (rankOf (gList g (listKey u false)) v).isSome
            if o.kind == .gadd && live then some (mutDone s o .dup)
            else if o.kind == .gadd then
              if g.pending.contains (edgeKey u v) then none
              else
              let ku := listKey u false
              let kv := listKey v true
              let full := fun k => 2 ^ 32 - 1 ≤ (gList g k).ents.length + kvGet 0 k g.resv
              if full ku || full kv then some (mutDone s o .lfull)
              else
                let r1 := kvPut 0 ku (kvGet 0 ku g.resv + 1) g.resv
                let g' := { g with resv := kvPut 0 kv (kvGet 0 kv r1 + 1) r1 }
                let f := reserveFits s o g' u v
                let c := match f.1 with | some true => (0, f.2) | some false => (1, f.2) | none => choose 2 f.2
                some (if c.1 = 0 then reserved c.2 o g' u v else mutDone c.2 o .nospace)
            else if !live || g.pending.contains (edgeKey u v) then some (mutDone s o .absent)
            else if o.kind == .gwt && g.pay = 0 then some (mutDone s o .ok)
            else some (reserved s o g u v)
        | _, _ => some (mutDone s o .badv)

def execGraphReserve (op : Nat) (s : State) : Out := move s (reserveS s op)

/-- A commit to one list (R259): appended, removed, or reweighted in place; its ring moves on. -/
def commitList (g : Graph) (o : GOp) (k nbr stamp : Nat) : Graph :=
  let l := gList g k
  let w := payWeight g.pay o.w
  let ents := match o.kind with
    | .gadd => l.ents ++ [⟨nbr, w, stamp⟩]
    | .gdel => l.ents.filter (·.v != nbr)
    | _ => updFirst (·.v == nbr) (fun e => { e with w := w, k := stamp }) l.ents
  { g with
    lists := kvPut list0 k ⟨ents, l.ring + 1, l.commits + 1⟩ g.lists
    resv := if o.kind == .gadd then kvPut 0 k (kvGet 0 k g.resv - 1) g.resv else g.resv }

/-- A commit at the list's home: one that has failed discards it (23 R394), and only the reservation ends. DESIGN CHOICE (log 113): the other home's
commit takes effect. -/
def commitOn (s : State) (g : Graph) (o : GOp) (k nbr stamp : Nat) : Graph :=
  let h := commitList g o k nbr stamp
  if stackFailed s (graphHome g (k / 2)) then { h with lists := g.lists } else h

/-- A graph that an operation has reserved is live until it completes. -/
def commitAt (s : State) (o : GOp) (ph : GPhase) (k : Graph → Nat → Nat → State) : Option State :=
  if o.phase != ph || !laneTurn s o then none
  else
    match findGraph s o.tenant o.handle, o.u, o.v with
    | some g, some u, some v => some (k g u v)
    | _, _, _ => none

/-- The live edge count at an operation's completion. DESIGN CHOICE (log 113): it counts the edges of the out-lists, so that a failed home of `u`
leaves it. -/
def countEdge (s : State) (o : GOp) (u : Nat) (g : Graph) : Graph :=
  if stackFailed s (graphHome g u) then g
  else { g with count := match o.kind with | .gadd => g.count + 1 | .gdel => g.count - 1 | _ => g.count }

def inCommitS (s : State) (n : Nat) : Option State :=
  (findGop s n).bind fun o => commitAt s o .inCommit fun g u v =>
    let k := s.graph.nextStamp
    let s := updGraphSys s fun x => { x with nextStamp := k + 1, openStamps := k :: x.openStamps }
    updGop (updGraph s g.idx g.gen fun g => commitOn s g o (listKey v true) u k) o
      fun o => { o with phase := .outCommit, stamp := k }

def execInListCommit (op : Nat) (s : State) : Out := move s (inCommitS s op)

def outCommitS (s : State) (n : Nat) : Option State :=
  (findGop s n).bind fun o =>
    if o.phase == .finish then
      commitAt s o .finish fun g u _ =>
        mutDone (updGraph s g.idx g.gen (countEdge s o u)) o .ok
    else commitAt s o .outCommit fun g u v =>
      let s := updGraphSys s fun x => { x with openStamps := x.openStamps.filter (· != o.stamp) }
      updGop (updGraph s g.idx g.gen fun g =>
        { commitOn s g o (listKey u false) v o.stamp with pending := g.pending.filter (· != edgeKey u v) }) o
        fun o => { o with phase := .finish }

/-- The out-list commit, and then the completion of the operation. -/
def execOutListCommit (op : Nat) (s : State) : Out := move s (outCommitS s op)

/-! ### Reads (R264 to R269) -/

/-- One read in the queue of a vertex's list. -/
def listRead (s : State) (o : GOp) (v : Option Nat) (inl : Bool) (bad : GStat → State) (k : Graph → Nat → GList → Option State) :
    Option State :=
  match findGraph s o.tenant o.handle with
  | none => some (bad .badg)
  | some g =>
    match vertexIn g v with
    | none => some (bad .badv)
    | some v => if stackUp s (graphHome g v) then k g v (gList g (listKey v inl)) else none

def gdegRead (s : State) (o : GOp) : Option State :=
  listRead s o o.u o.inl (fun _ => gopDone s o [0, 0] false none) fun g v l =>
    some (if stackFailed s (graphHome g v) then gopPoison s o 2 else gopDone s o [BitVec.ofNat 32 l.ents.length, l.ring] true none)

def gldRead (s : State) (o : GOp) : Option State :=
  listRead s o o.u o.inl (fun st => gopDone s o (noEntry st) false none) fun g v l =>
    some (if stackFailed s (graphHome g v) then gopPoison s o 4
      else match l.ents[o.rank]? with
      | some e => gopDone (noteStamp s o e.k) o (entryQuad e.v .ok e.w) true none
      | none => gopDone s o (noEntry .fin) false none)

def gfindRead (s : State) (o : GOp) : Option State :=
  let bad := fun st : GStat => gopDone s o [0xFFFFFFFF, BitVec.ofNat 32 (st.code * 256), 0, 0] false none
  match findGraph s o.tenant o.handle with
  | none => some (bad .badg)
  | some g =>
    match vertexIn g o.u, vertexIn g o.v with
    | some u, some v =>
      let at_ := if o.inl then v else u
      let for_ := if o.inl then u else v
      if !stackUp s (graphHome g at_) then none
      else if stackFailed s (graphHome g at_) then some (gopPoison s o 4)
      else
        let l := gList g (listKey at_ o.inl)
        some (match rankOf l for_ with
          | none => bad .absent
          | some r =>
            let e := l.ents.getD r ⟨0, 0, 0⟩
            gopDone (noteStamp s o e.k) o [BitVec.ofNat 32 r, 0, lo32 e.w, hi32 e.w] true none)
    | _, _ => some (bad .badv)

def gverRead (s : State) (o : GOp) : State :=
  match findGraph s o.tenant o.handle with
  | none => gopDone s o [0, 0, 0, 0] false none
  | some g =>
    let c := g.count
    gopDone s o [BitVec.ofNat 32 g.cap, BitVec.ofNat 32 (g.cap / 2 ^ 32 + g.pay * 2 ^ 16 + g.hpol * 2 ^ 18 + g.harg * 2 ^ 20), lo32 c, hi32 c]
      true none

/-- R265: the list's current version is pinned. -/
def gopenRead (s : State) (o : GOp) : Option State :=
  listRead s o o.u o.inl (fun _ => gopDone s o [] false (some { Cursor.closed with st := 3 })) fun g v l =>
    if o.dead then some (gopDone s o [] true (some .closed))
    else
      let st := graphHome g v
      match findLaunch s o.launch with
      | none => none
      | some k =>
      match pinPlace s k.lr st with
      | none => none
      | some a =>
        let id := freshPin s
        let p : Pin := ⟨id, g.idx, g.gen, o.inl, v, l.ring, l.commits, l.ents, st, o.tenant, k.lr.root, none, o.lane⟩
        let s := { s with nid := s.nid + 1 }
        let r := pinRecord s o.handle p
        let s := match a with
          | some a => (unitStore r.2 o.tenant k.lr.root a r.1).2
          | none => s
        let s := updGraphSys s fun x => { x with pins := x.pins ++ [{ p with spill := a.map fun a => (a, r.1) }] }
        -- the ring of a failed home reads as poison; DESIGN CHOICE (log 113): the pin, which its controller holds, is taken
        let bad := stackFailed s st
        some (gopDone (setMemPsn s o.launch bad) o [] true (some ⟨if bad then BitVec.ofNat 32 (poisonOf 4) else l.ring, 0, BitVec.ofNat 32 id, BitVec.ofNat 4 st, o.inl, 1⟩))

/-- The pin of an open cursor on a live graph, its record unaltered. DESIGN CHOICE (log 119): a cursor that shows an open list after its own pin was
released has none, so that a read by it gives BADG. -/
def livePin (s : State) (c : Cursor) : Option (Pin × Graph) × State :=
  match findPin s c with
  | none => (none, s)
  | some p =>
    let r := pinAltered s p
    (if r.1 then none else (s.graph.graphs.find? fun g => g.live && graphIs p.graph p.gen g).map fun g => (p, g), r.2)

def gnextRead (s : State) (o : GOp) (c : Cursor) : Option State :=
  if !cursorOpen c then some (gopDone s o (noEntry .closed) false none)
  else if !stackUp s c.home.toNat then none
  else if stackFailed s c.home.toNat then some (gopPoison s o 4)
  else
    let r := livePin s c
    let s := r.2
    match r.1 with
    | none => some (gopDone s o (noEntry .badg) false none)
    | some (p, _) =>
      if c.st == 2 then some (gopDone s o (noEntry .fin) false none)
      else
        some (match p.ents[c.rank.toNat]? with
          | some e => gopDone (noteStamp s o e.k) o (entryQuad e.v .ok e.w) true (some { c with rank := c.rank + 1 })
          | none => gopDone s o (noEntry .fin) false (some { c with st := 2 }))

/-- The words of `gcst` (R269). -/
def gcstWords (c : Cursor) (stale : Bool) (st : GStat) (deg : Nat) : List Word :=
  [c.rank, c.ring, BitVec.ofNat 32 (stale.toNat + c.st.toNat * 2 + c.inl.toNat * 8 + c.home.toNat * 16 + st.code * 256),
    BitVec.ofNat 32 deg]

def gcstRead (s : State) (o : GOp) (c : Cursor) : Option State :=
  if !cursorOpen c then some (gopDone s o (gcstWords { Cursor.closed with st := c.st } false .closed 0) false none)
  else if !stackUp s c.home.toNat then none
  else if stackFailed s c.home.toNat then some (gopPoison s o 4)
  else
    let r := livePin s c
    let s := r.2
    some (match r.1 with
      | none => gopDone s o (gcstWords c false .badg 0) false none
      | some (p, g) =>
        gopDone s o (gcstWords c (p.commits < (gList g (listKey p.v p.inl)).commits) .ok p.ents.length) true none)

/-! ### Creating a graph (R272, R277) -/

structure GDesc where
  cap : Nat
  pay : Nat
  hpol : Nat
  harg : Nat
  base : Nat
  len : Nat
  deriving DecidableEq, Repr, Inhabited

/-- A descriptor's fields; none where one is out of its limits. -/
def graphDesc (n : Nat) : Option GDesc :=
  let d : GDesc := ⟨bits n 0 64, bits n 64 8, bits n 72 8, bits n 80 8, bits n 128 64, bits n 192 64⟩
  let harg := match d.hpol with | 0 => 0 | 1 => 15 | _ => 3
  if 1 ≤ d.cap && d.cap ≤ 2 ^ 40 && d.pay ≤ 2 && d.hpol ≤ 2 && d.harg ≤ harg && bits n 88 40 == 0 &&
    d.base % 2 ^ 21 == 0 && d.len != 0 && d.len % 2 ^ 21 == 0 then some d else none

/-- The stacks a policy can name. -/
def policyStacks (hpol harg : Nat) : List Nat :=
  match hpol with
  | 0 => List.range 16
  | 1 => [harg]
  | _ => (List.range 4).map (4 * harg + ·)

/-- The pages of a region that qualifies for a graph: nothing where one does not, where a stack holds too little, or where a part of it
belongs to a graph already, by its address or by its storage. -/
def regionOk (s : State) (tenant root : Nat) (d : GDesc) : Option (List (Nat × Nat × Nat)) × State :=
  let ps := regionPages tenant root (d.len / 4096 + 1) d.base d.len s
  let pages := ps.1.filterMap fun p => p.at_.map fun q => (q.1, q.2, p.n)
  let ok := pages.length == ps.1.length && (policyStacks d.hpol d.harg).all (fun st => 2 ^ 21 ≤ homeBytes ps.1 st) &&
    !(s.graph.graphs.any fun g => (g.tenant == tenant && g.base < d.base + d.len && d.base < g.base + g.len) ||
      g.pages.any fun p => pages.any fun q => p.2.1 < q.2.1 + q.2.2 && q.2.1 < p.2.1 + p.2.2)
  (if ok then some pages else none, ps.2)

def newGraph (tenant idx gen : Nat) (d : GDesc) (pages : List (Nat × Nat × Nat)) : Graph :=
  ⟨idx, gen, tenant, d.cap, d.pay, d.hpol, d.harg, d.base, d.len, pages, 0, true, [], [], []⟩

/-- A graph takes the index at the head of the free list: its handle, or NOGRAPH. -/
def createGraph (s : State) (tenant : Nat) (d : GDesc) (pages : List (Nat × Nat × Nat)) : Option (Word × State) :=
  match takeIndex s.graph with
  | none => none
  | some (i, gen, x) =>
    some (BitVec.ofNat 32 (i + 65536 * gen), { s with graph := { x with graphs := x.graphs ++ [newGraph tenant i gen d pages] } })

/-- The descriptor has been read: the graph is made, or the status says why not. DEDUCED (log 41): a poisoned descriptor gives BADDESC. DESIGN CHOICE
(log 119): of BADDESC, BADREG and NOGRAPH the first that holds. -/
def gnewMake (s : State) (o : GOp) (bs : List Byte) (p : Bool) : State :=
  let s := updGraphSys s fun x => { x with ops := x.ops.filter (·.id != o.id) }
  let bad := fun (s : State) (st : GStat) => deliverS s o.lane.wave o.win [0, BitVec.ofNat 32 st.code]
  match if p then none else graphDesc (leNat bs) with
  | none => bad s .baddesc
  | some d =>
    let r := regionOk s o.tenant (rootOf s o.launch o.tenant) d
    match r.1 with
    | none => bad r.2 .badreg
    | some pages =>
      match createGraph r.2 o.tenant d pages with
      | none => bad r.2 .nograph
      | some (h, s) => deliverS s o.lane.wave o.win [h, 0]

/-- `gnew` reads a unit of its descriptor, any of those left, as a plain read of its lane under R217, whatever graph operations and
releases come before it; with all four it makes the graph in its turn. -/
def gnewMove (s : State) (o : GOp) (desc : Loc) (got : Kv (List Byte × Bool)) : Option State :=
  match (List.range 4).filter fun i => !got.any (·.1 == i) with
  | [] => if gopReady s o then some (gnewMake s o (got.flatMap (·.2.1)) (got.any (·.2.2))) else none
  | k :: ks =>
    let c := choose (ks.length + 1) s
    let i := (k :: ks).getD c.1 k
    if acqBlocked s o.lane o.isq || readBefore s o.lane o.isq (desc.off (8 * i)) 8 then none
    else match readRun ⟨some o.lane, some ⟨o.lane, o.isq, true⟩, o.core, true, []⟩ c.2 (desc.off (8 * i)) 8 with
    | none => none
    | some (bs, p, s) => some (updGop (setMemPsn s o.launch p) o fun o => { o with kind := .gnew desc (kvIns i (bs, p) got) })

def graphReadS (s : State) (n : Nat) : Option State :=
  match findGop s n with
  | none => none
  | some o =>
    match o.kind with
    | .gnew desc got => if locUp s desc then gnewMove s o desc got else none
    | k =>
    if !gopReady s o then none
    else
      match k with
      | .gdeg => gdegRead s o
      | .gld => gldRead s o
      | .gfind => gfindRead s o
      | .gver => some (gverRead s o)
      | .gopen => gopenRead s o
      | .gnext c => gnextRead s o c
      | .gcst c => gcstRead s o c
      | .gclose c => some (releasePin (updGraphSys s fun x => { x with ops := x.ops.filter (·.id != o.id) }) c.pin.toNat)
      | .gnew _ _ | .gfree | .gadd | .gdel | .gwt => none

def execGraphReadMove (op : Nat) (s : State) : Out := move s (graphReadS s op)

/-- R273: operations that the graph's queues have reserved complete first. -/
def gfreeS (s : State) (n : Nat) : Option State :=
  match findGop s n with
  | none => none
  | some o =>
    if o.kind != .gfree || !gopReady s o then none
    else
      let s' := updGraphSys s fun x => { x with ops := x.ops.filter (·.id != o.id) }
      match findGraph s o.tenant o.handle with
      | none => some s'
      | some g =>
        if s.graph.ops.any fun p => p.phase != .start && p.tenant == o.tenant && p.handle == o.handle then none
        else some (freeGraph s' g.idx g.gen)

def execGfreeTakeEffect (op : Nat) (s : State) : Out := move s (gfreeS s op)

/-! ### The instructions (R256) -/

/-- A vertex operand (R254). -/
def vertexOf (v : DWord) : Option Nat := if v.toNat < 2 ^ 40 then some v.toNat else none

/-- An operation as an instruction issues it. -/
def mkGop (x : Ctx) (isq win : Nat) (k : GKind) : GOp :=
  { id := 0, lane := ⟨x.c.wave, 0⟩, core := x.w.core, isq := isq, win := win, tenant := x.l.lr.tenant, launch := x.l.uid
    kind := k, handle := 0, inl := false, u := none, v := none, w := 0, rank := 0, phase := .start, stamp := 0, dead := false }

def addGop (s : State) (o : GOp) : State :=
  { s with nid := s.nid + 1, graph := { s.graph with ops := s.graph.ops ++ [{ o with id := s.nid }] } }

/-- The lanes' operations join their streams in lane order. -/
def issueGops (f : Nat → List GOp) : List Nat → State → State
  | [], s => s
  | l :: r, s => issueGops f r ((f l).foldl (fun s o => addGop s { o with lane := { o.lane with lane := l } }) s)

def prDest (p : PReg) : Option PReg := if p = 7 then none else some p

/-- A per-lane graph instruction with its destinations. -/
def graphLanes (x : Ctx) (s : State) (la : BitVec 4) (d : Dest) (f : GOp → Nat → List GOp) : Res :=
  let q := isqOf s
  let o := openWin q.2 x.c la d x.act false
  .done (issueGops (fun l => f (mkGop x q.1 o.1 .gver) l) (lanesOf x.act) o.2)

def execGadd (g : Guard) (la : BitVec 4) (o : GmutOp) (s : State) : Out :=
  runLane false g s fun x s =>
    graphLanes x s la { gd := some (o.d.toNat, 1), pd := prDest o.pr } fun m l =>
      [{ m with kind := .gadd, handle := sWord x.w o.h.toNat, u := vertexOf (srcC x.w true o.u l)
                v := vertexOf (srcC x.w true o.v l), w := gDWord x.w o.w.toNat l }]

def execGdel (g : Guard) (la : BitVec 4) (o : GdelOp) (s : State) : Out :=
  runLane false g s fun x s =>
    graphLanes x s la { gd := some (o.d.toNat, 1), pd := prDest o.pr } fun m l =>
      [{ m with kind := .gdel, handle := sWord x.w o.h.toNat, u := vertexOf (srcC x.w true o.u l)
                v := vertexOf (srcC x.w true o.v l) }]

def execGwt (g : Guard) (la : BitVec 4) (o : GmutOp) (s : State) : Out :=
  runLane false g s fun x s =>
    graphLanes x s la { gd := some (o.d.toNat, 1), pd := prDest o.pr } fun m l =>
      [{ m with kind := .gwt, handle := sWord x.w o.h.toNat, u := vertexOf (srcC x.w true o.u l)
                v := vertexOf (srcC x.w true o.v l), w := gDWord x.w o.w.toNat l }]

def execGdeg (g : Guard) (la : BitVec 4) (o : GdegOp) (s : State) : Out :=
  runLane false g s fun x s =>
    graphLanes x s la { gd := some (o.d.toNat, 2), pd := prDest o.pr } fun m l =>
      [{ m with kind := .gdeg, handle := sWord x.w o.h.toNat, inl := o.inl, u := vertexOf (srcV x.w o.u l) }]

def execGld (g : Guard) (la : BitVec 4) (o : GldOp) (s : State) : Out :=
  runLane false g s fun x s =>
    graphLanes x s la { gd := some (o.d.toNat, 4), pd := prDest o.pr } fun m l =>
      [{ m with kind := .gld, handle := sWord x.w o.h.toNat, inl := o.inl, u := vertexOf (srcV x.w o.u l)
                rank := (srcC x.w false o.rank l).toNat }]

def execGfind (g : Guard) (la : BitVec 4) (o : GfindOp) (s : State) : Out :=
  runLane false g s fun x s =>
    graphLanes x s la { gd := some (o.d.toNat, 4), pd := prDest o.pr } fun m l =>
      [{ m with kind := .gfind, handle := sWord x.w o.h.toNat, inl := o.inl, u := vertexOf (srcC x.w true o.u l)
                v := vertexOf (srcC x.w true o.v l) }]

def execGver (g : Guard) (la : BitVec 4) (o : GverOp) (s : State) : Out :=
  runLane false g s fun x s =>
    graphLanes x s la { gd := some (o.d.toNat, 4), pd := prDest o.pr } fun m _ =>
      [{ m with kind := .gver, handle := sWord x.w o.h.toNat }]

/-- A cursor register of a lane. -/
def qGet (w : Wave) (q : BitVec 4) (l : Nat) : Cursor := laneGet (vecGet w.q (.replicate 32 .closed) q.toNat) .closed l

/-- R265: an open cursor's pin is released first. -/
def execGopen (g : Guard) (la : BitVec 4) (o : GopenOp) (s : State) : Out :=
  runLane false g s fun x s =>
    graphLanes x s la { qd := some o.q.toNat, pd := prDest o.pr } fun m l =>
      let c := qGet x.w o.q l
      (if cursorOpen c then [{ m with kind := .gclose c, win := 0 }] else []) ++
        [{ m with kind := .gopen, handle := sWord x.w o.h.toNat, inl := o.inl, u := vertexOf (srcV x.w o.u l) }]

def execGnext (g : Guard) (la : BitVec 4) (o : GcurOp) (s : State) : Out :=
  runLane false g s fun x s =>
    graphLanes x s la { gd := some (o.d.toNat, 4), qd := some o.q.toNat, pd := prDest o.pr } fun m l =>
      [{ m with kind := .gnext (qGet x.w o.q l) }]

def execGcst (g : Guard) (la : BitVec 4) (o : GcurOp) (s : State) : Out :=
  runLane false g s fun x s =>
    graphLanes x s la { gd := some (o.d.toNat, 4), pd := prDest o.pr } fun m l => [{ m with kind := .gcst (qGet x.w o.q l) }]

/-- R268. -/
def execGclose (g : Guard) (q : BitVec 4) (s : State) : Out :=
  runLane false g s fun x s =>
    let ls := (lanesOf x.act).filter fun l => cursorOpen (qGet x.w q l)
    let i := isqOf s
    let s := issueGops (fun l => [{ mkGop x i.1 0 (.gclose (qGet x.w q l)) with dead := true }]) ls i.2
    .done (updWave s x.c.wave fun w => ls.foldl (fun w l => setQ1 w q.toNat l .closed) w)

/-- R272: one operation, in the stream of the lowest lane with `em` 1. -/
def execGnew (g : Guard) (la : BitVec 4) (d a : Reg) (s : State) : Out :=
  runUni false g s fun x s =>
    let va := sDWord x.w a.toNat
    if va.toNat % 32 ≠ 0 then trapAll s x .align va
    else
      match xlate s x.l.lr.tenant x.l.lr.root va.toNat .read with
      | (.error k, s) => trapAll s x k va
      | (.ok t, s) =>
        let q := isqOf s
        let o := openWin q.2 x.c la { sd := some (d.toNat, 2) } 0 true
        .done (addGop o.2 { mkGop x q.1 o.1 (.gnew t.loc []) with lane := ⟨x.c.wave, (lowLane x.em).getD 0⟩ })

/-- R273. -/
def execGfree (g : Guard) (_la : BitVec 4) (a : Reg) (s : State) : Out :=
  runUni false g s fun x s =>
    let q := isqOf s
    .done (addGop q.2 { mkGop x q.1 0 .gfree with lane := ⟨x.c.wave, (lowLane x.em).getD 0⟩, handle := sWord x.w a.toNat })

end Sys2Proof.Machine
end

