-- ==== Sys2Proof/Machine/HostIf.lean ====
section
/-! DEFINITION. What the host does to the device (23 R385 to R390, R395, 14 R278, 13 R274): queue tails, invalidations, function-level
reset, stores, and the graphs of an image. -/

namespace Sys2Proof.Machine

/-! ### Queue registers (R386, R387) -/

def qtailV (v : VfRegs) (t : Word) : VfRegs :=
  if v.qlen.toNat < (t - v.qhead).toNat then { v with qerr := v.qerr ||| 1 }
  else if (t - v.qhead).toNat < (v.qtail - v.qhead).toNat then { v with qerr := v.qerr ||| 2 }
  else { v with qtail := t }

def execQtail (fn : Nat) (v : Word) (s : State) : Out := .next (if fn < 64 then vfPut s fn fun r => qtailV r v else s)

def execQerrClear (fn : Nat) (mask : Word) (s : State) : Out :=
  .next (if fn < 64 then vfPut s fn fun r => { r with qerr := r.qerr &&& ~~~mask } else s)

/-! ### Invalidations (R389, 09 R205) -/

def invOk (a n : Nat) : Bool := a % 4096 == 0 && n % 4096 == 0 && 0 < n && canonical a && canonical (a + n - 1)

/-- A request sees every store made before it. -/
def invreqV (s : State) (v : VfRegs) (n : Word) : VfRegs :=
  if invOk v.invaddr.toNat v.invlen.toNat then { v with invq := v.invq ++ [(n, v.invaddr.toNat, v.invlen.toNat, s.mem.clk)] }
  else { v with qerr := v.qerr ||| 8 }

def execInvreq (fn : Nat) (n : Word) (s : State) : Out := .next (if fn < 64 then vfPut s fn fun v => invreqV s v n else s)

def invDoneS (s : State) (fn : Nat) : Option State :=
  match (vfGet s fn).invq with
  | [] => none
  | (n, a, len, t) :: r =>
    if 64 ≤ fn || !ctlRuns s 3 then none
    else
      let s := vfPut s fn fun v => { v with invdone := n, invq := r }
      some { s with mem := { s.mem with invs := s.mem.invs ++ [⟨fn, a % 2 ^ 57, len, t⟩] } }

def execInvalidationComplete (fn : Nat) (s : State) : Out := move s (invDoneS s fn)

/-! ### Stores to device memory (R278, R389) -/

/-- The host's writes so far: what the admission of a launch submitted after them covers (14 R279). -/
def noteHost (pa n : Nat) (s : State) : State :=
  let hs := ((List.range n).map fun i => homeDie s (pa + i)).eraseDups
  { s with mem := { s.mem with hostVec := hs.foldl (fun v h => vecSet v h (vecGet (vecOf s h) 0 h)) s.mem.hostVec } }

def execHostStore (pa : Nat) (bytes : List Byte) (s : State) : Out :=
  match (List.range bytes.length).find? fun i => !inStorage (pa + i) with
  | some i => .fault (.noStorage (pa + i))
  | none => .next (noteHost pa bytes.length (unitWrite (unitsOf (.gm pa) bytes.length) bytes s))

/-! ### Function-level reset (R395, 09 R211) -/

/-- The storage that the leaves below a table map, and the tables read. -/
def leavesAt (s : State) : Nat → Nat → List (Nat × Nat) × List Nat
  | 0, tbl =>
    ((List.range 512).flatMap fun i =>
      let a := tbl + 16 * i
      let e := if anyViewPsn s (homeDie s a) a 16 then 0 else leNat (viewBytes s (homeDie s a) a 16)
      if leafOk s e 0 && !pteRmt e then [(pteFrame e, leafSize e 0)] else [], [tbl])
  | l + 1, tbl =>
    let rs := (List.range 512).map fun i =>
      let a := tbl + 16 * i
      let e := if anyViewPsn s (homeDie s a) a 16 then 0 else leNat (viewBytes s (homeDie s a) a 16)
      if pteV e && pteLeaf e then (if leafOk s e (l + 1) && !pteRmt e then [(pteFrame e, leafSize e (l + 1))] else [], [])
      else if ptrOk e then leavesAt s l (pteFrame e) else ([], [])
    (rs.flatMap (·.1), tbl :: rs.flatMap (·.2))

/-- The 2 MiB regions of a function's HBM and tier memory; the tables that name them are read where they stand (R394). -/
def fnRegions (s : State) (t : Nat) : List Nat × State :=
  if bit (tenantField s t 0 8) 0 then
    let r := leavesAt s 4 (tenantRoot s t)
    (r.1.flatMap fun p => (List.range ((p.2 + 2 ^ 21 - 1) / 2 ^ 21)).map fun i => regionOf p.1 + i,
      r.2.foldl (fun s a => (List.range 512).foldl (fun s i => touchMem s (a + 16 * i)) s) s)
  else ([], s)

/-- R211: the bits of regions are cleared, and what caches held of them is discarded. -/
def unclear (s : State) (rs : List Nat) : State :=
  { s with mem := { s.mem with
    uncleared := rs.foldl (fun l r => insNat r l) s.mem.uncleared
    wlog := s.mem.wlog.filter fun e => !rs.contains (regionOf e.pa)
    dirty := s.mem.dirty.filter fun k => !rs.contains (regionOf (64 * k))
    l2 := s.mem.l2.filter fun k => !rs.contains (regionOf (32 * k % 2 ^ 57))
    l1 := s.mem.l1.filter fun e => !rs.contains (regionOf (e.1 % 2 ^ 57)) } }

/-- Accesses in flight of waves, and writes on their way into regions, change nothing more. -/
def dropTraffic (s : State) (ws rs : List Nat) : State :=
  let mine := fun (k : LaneKey) => ws.contains k.wave
  let m := s.mem
  { s with mem := { m with
    acts := m.acts.filter fun a => !mine a.lane
    wb := m.wb.filter fun w => !mine w.lane
    chan := m.chan.filter fun x => !mine x.lane
    apply := updAll (fun x : Msg => mine x.lane || rs.contains (regionOf x.pa)) (fun x => { x with bytes := [], mask := none, psn := false }) m.apply
    remoteW := m.remoteW.filter fun x => !mine x.lane } }

def ctxOfTenant (t : Nat) (x : Option CaveCtx) : Bool := match x with | some c => c.tenant == t | none => false

/-- A tenant's cave work stops. -/
def dropCave (s : State) (t : Nat) (us : List Nat) : State :=
  let ctxs := s.cave.cores.flatMap (fun e => [e.2.prog, e.2.hand].filterMap id) ++ s.cave.preempted.map (·.2)
  let ids := (ctxs.filter (·.tenant == t)).map (·.kind.work) ++ (s.cave.works.filter fun w => us.contains w.launch).map (·.id)
  let clean := fun (k : SkCore) => { k with
    prog := if ctxOfTenant t k.prog then none else k.prog
    hand := if ctxOfTenant t k.hand then none else k.hand
    msgs := k.msgs.filter (·.tenant != t) }
  let s := (s.cave.cores.map Prod.fst).foldl (fun s k => skUpd s (k / skPerStack) (k % skPerStack) clean) s
  { s with
    cave := { s.cave with
      works := s.cave.works.filter fun w => !ids.contains w.id
      preempted := s.cave.preempted.filter fun p => p.2.tenant != t }
    mem := { s.mem with fly := s.mem.fly.filter fun f => !ids.contains f.work } }

/-- A tenant's graph operations leave their queues, its pins are released, and its graphs are freed. DESIGN CHOICE (log 120): their indices join the
free list in the order in which the graphs were made. -/
def dropGraphs (s : State) (t : Nat) : State :=
  let gone := (s.graph.ops.filter (·.tenant == t)).map (·.stamp)
  let s := { s with graph := { s.graph with
    ops := s.graph.ops.filter (·.tenant != t)
    ran := s.graph.ran.filter (·.1 != t)
    openStamps := s.graph.openStamps.filter fun k => !gone.contains k
    pins := s.graph.pins.filter (·.tenant != t) } }
  (s.graph.graphs.filter (·.tenant == t)).foldl (fun s g => freeGraph s g.idx g.gen) s

def flrS (s : State) (t : Nat) : Option State :=
  if 64 ≤ t then none
  else
    let us := (s.launches.filter (·.lr.tenant == t)).map (·.uid)
    let ws := ((s.waves ++ s.saved.flatMap (·.waves)).filter fun w => us.contains w.launch).map (·.uid)
    let slots := (s.launches.filter (·.lr.tenant == t)).filterMap (·.lr.search)
    let rs := fnRegions s t
    let s := dropGraphs (dropCave (unclear (dropTraffic rs.2 ws rs.1) rs.1) t us) t
    let s := { s with
      waves := s.waves.filter fun w => !us.contains w.launch
      blocks := s.blocks.filter fun b => !us.contains b.launch
      saved := s.saved.filter fun v => !us.contains v.blk.launch
      launches := s.launches.filter (·.lr.tenant != t)
      tasks := { s.tasks with recs := s.tasks.recs.filter (·.tenant != t) }
      search := { s.search with ops := s.search.ops.filter fun o => !ws.contains o.lane.wave }
      sems := s.sems.filter fun e => e.2.tag != some t
      vf := kvDel t s.vf }
    some (slots.foldl (fun s k => releaseSlot s (some k)) s)

def execFunctionLevelReset (fn : Nat) (s : State) : Out := move s (flrS s fn)

/-! ### Graphs of an image (13 R274, 01 R22) -/

def pushEnt (g : Graph) (k : Nat) (e : GEnt) : Graph :=
  let l := gList g k
  { g with lists := kvPut list0 k ⟨l.ents ++ [e], l.ring + 1, l.commits + 1⟩ g.lists }

/-- An edge of an image joins both lists; a repeated one is dropped. DESIGN CHOICE (log 43): the loader adds every edge, with no check of the
homes' storage (12 R263) or of a full list. -/
def addEdge (s : State) (g : Graph) (e : Nat × Nat × Nat) : Graph :=
  let (u, v, w) := e
  if (rankOf (gList g (listKey u false)) v).isSome then g
  else
    let x := payWeight g.pay (BitVec.ofNat 64 w)
    -- a failed home discards its part (23 R394)
    let h := if stackFailed s (graphHome g v) then g else pushEnt g (listKey v true) ⟨u, x, 0⟩
    if stackFailed s (graphHome g u) then h else { pushEnt h (listKey u false) ⟨v, x, 0⟩ with count := g.count + 1 }

/-- Has a launch been admitted whose code lies in an image, with no store since to the line of its entry? It ran the image that stands
there, whose graphs come before it (R274). -/
def imageRan (s : State) (t root : Nat) (code : VAddr × Nat) : Bool :=
  s.graph.ran.any fun r => r.1 == t && pcVa code.1 ≤ r.2.1 && r.2.1 < pcVa code.1 + code.2 &&
    match (xlate s t root r.2.1 .fetch).1 with
    | .ok x => match x.loc with
      | .gm pa => (List.range 64).all fun i => viewSeq s (homeDie s pa) (pa / 64 * 64 + i) ≤ r.2.2
      | _ => true
    | .error _ => false

/-- The writes of a unit's parts count as the host's (14 R279): a launch admitted after them starts once every die has applied them. -/
def noteUnits (us : List (Loc × Nat)) (s : State) : State :=
  us.foldl (fun s u => match u.1 with | .gm pa => noteHost pa u.2 s | _ => s) s

/-- The loader's move for one graph of an image, before any launch of the image is admitted: later it makes none. DESIGN CHOICE (log 43): no
graph is made, and no handle written, where an edge names a vertex at or above the capacity. -/
def loaderS (s : State) (m : GraphImg) : Option State :=
  let d : GDesc := ⟨m.cap, m.pay, 0, 0, pcVa m.base, 2 ^ 25⟩
  if m.cap = 0 || 2 ^ 40 < m.cap || 2 < m.pay || m.base % 2 ^ 21 ≠ 0 || m.handleVa % 4 ≠ 0 ||
    m.edges.any (fun e => m.cap ≤ e.1 || m.cap ≤ e.2.1) ||
    (s.launches.any fun l => l.lr.tenant == m.tenant && pcVa m.code.1 ≤ l.lr.code && l.lr.code < pcVa m.code.1 + m.code.2) ||
    imageRan s m.tenant (tenantRoot s m.tenant) m.code ||
    -- it waits for the stacks of its lists (23 R394)
    (m.edges.any fun e => !((stackUp s (graphHome (newGraph m.tenant 0 0 d []) e.1)) && stackUp s (graphHome (newGraph m.tenant 0 0 d []) e.2.1))) then none
  else
    let root := tenantRoot s m.tenant
    let r := regionOk s m.tenant root d
    match r.1 with
    | none => none
    | some pages =>
      match unitRange r.2 m.tenant root .read (pcVa m.handleVa) 4 with
      | (.error _, _) => none
      | (.ok us, s) =>
        (createGraph s m.tenant d pages).map fun y =>
          let h := y.1.toNat
          let s := updGraph y.2 (h % 65536) (h / 65536) fun g => m.edges.foldl (addEdge s) g
          noteUnits us (unitWrite us (leBytes h 4) s)

def execLoaderGraphCreation (img : GraphImg) (s : State) : Out := move s (loaderS s img)

end Sys2Proof.Machine
end

