-- ==== Sys2Proof/Machine/Preempt.lean ====
section
/-! DEFINITION. Pre-emption (08 R181 to R189, 14 R281, 19 R362, 23 R403): the decision, saves with their context records, flush-and-restart
and restore. -/

namespace Sys2Proof.Machine

/-- The progress estimate (R181). -/
def estimate (e ret : Nat) : Nat := if e = 0 then 0 else min (65536 * ret / e) 0xFFFFFFFF

/-! ### Why a block is pre-empted (R281, R403) -/

/-- A block's room on a core is taken. -/
def occupy (s : State) (l : Launch) (core bid : Nat) (hoop : Bool) (stage : Nat) : State :=
  { s with blocks := s.blocks ++ [⟨0, l.uid, core, bid, hoop, stage, 0, wavesOf l.lr hoop, .empty, .empty, 0, [], [], [], .run, []⟩] }

/-- Do the blocks of an instance fit with its first block on `c`? -/
def gangFit (l : Launch) (c : Nat) : List Nat → State → Bool
  | [], _ => true
  | j :: r, s =>
    let core := coreInGang l.lr c j
    let W := wavesOf l.lr false
    coreOpen s core && fitsOn s core (need l.lr W W) && gangFit l c r (occupy s l core 0 false 0)

def fitsSomewhere (s : State) (l : Launch) : Bool := (coresOf l.lr).any fun c => gangFit l c (List.range (gang l.lr)) s

/-! The blocks that a restore brings back together (R36, R47, 09 R194, 21 R379). -/

/-- The blocks of a level instance come back together; a hoop-formed one comes back alone. -/
def savedMates (s : State) (l : Launch) (v : Saved) : List Saved :=
  if v.blk.hoop then [v]
  else s.saved.filter fun x => x.blk.launch == l.uid && x.restart == v.restart && !x.blk.hoop && x.blk.bid / gang l.lr == v.blk.bid / gang l.lr

/-- The cores on which a saved block may come back: its own, or, with `steal` or hoop-formed, any that the launch may use (R47). -/
def backCores (l : Launch) (v : Saved) : List Nat := if v.blk.hoop || l.lr.steal then coresOf l.lr else [v.blk.core]

/-- R36: do the resident blocks of each level instance of block `bid` share its domain with `core`? -/
def coResident (s : State) (l : Launch) (bid core : Nat) : Bool :=
  (l.lr.levels.zipIdx).all fun e =>
    let n := levelBlocks l.lr (e.2 + 3)
    s.blocks.all fun b => b.launch != l.uid || b.hoop || !holdsCore b || b.bid / n != bid / n || domOf e.1.dom b.core == domOf e.1.dom core

/-- Does a saved block fit on a core beside the blocks of a state, its level instances co-resident (R36)? -/
def fitsBack (l : Launch) (v : Saved) (core : Nat) (t : State) : Bool :=
  coreOpen t core && mayUse l.lr core && fitsOn t core (need l.lr v.blk.nwaves v.blk.nwaves) && (v.blk.hoop || coResident t l v.blk.bid core)

/-- May it come back there now? No launch above its own priority has a start to make there (R53), and what its restore acquires is there
(10 R225). -/
def mayBack (s : State) (l : Launch) (v : Saved) (core : Nat) (t : State) : Bool :=
  fitsBack l v core t && vLe v.vec (vecOf s (dieOfCore core)) && !(s.launches.any fun k => l.lr.prio < k.lr.prio && (startOn s k core).isSome)

/-- `t` with a saved block's room on a core taken. -/
def placed (l : Launch) (v : Saved) (core : Nat) (t : State) : State := occupy t l core v.blk.bid v.blk.hoop v.blk.stage

/-- Is there a place that passes `ok` for each of them, beside the blocks of `t`? -/
def canPlace (l : Launch) (ok : Saved → Nat → State → Bool) : List Saved → State → Bool
  | [], _ => true
  | v :: r, t => (backCores l v).any fun c => ok v c t && canPlace l ok r (placed l v c t)

/-- A place for each of them: any that leaves places for those after it (R47). `u` draws the choices. -/
def pickPlaces (l : Launch) (ok : Saved → Nat → State → Bool) : List Saved → State → State → List (Saved × Nat) × State
  | [], _, u => ([], u)
  | v :: r, t, u =>
    let cs := (backCores l v).filter fun c => ok v c t && canPlace l ok r (placed l v c t)
    let k := choose cs.length u
    let c := cs.getD k.1 v.blk.core
    let y := pickPlaces l ok r (placed l v c t) k.2
    ((v, c) :: y.1, y.2)

/-- The blocks that come back with a saved one. -/
def otherMates (s : State) (l : Launch) (v : Saved) : List Saved := (savedMates s l v).filter (·.blk.uid != v.blk.uid)

/-- Is there a place for a saved block on `core`, and for those that come back with it? -/
def placesFor (s : State) (l : Launch) (ok : Saved → Nat → State → Bool) (v : Saved) (core : Nat) : Bool :=
  (backCores l v).contains core && ok v core s && canPlace l ok (otherMates s l v) (placed l v core s)

/-- Where a saved block and those that come back with it come back, the block itself on `core`, at the start of a cycle of its die. -/
def backPlaces (s : State) (l : Launch) (v : Saved) (core : Nat) : Option (List (Saved × Nat) × State) :=
  if vecGet s.begun true (dieOfCore core) || !placesFor s l (mayBack s l) v core then none
  else let y := pickPlaces l (mayBack s l) (otherMates s l v) (placed l v core s) s; some ((v, core) :: y.1, y.2)

/-- R281: the blocks and level instances of a launch that fit nowhere they may be, each as the test of whether a state has room for it. -/
def unfit (s : State) (l : Launch) : List (State → Bool) :=
  ((if l.todo.isEmpty then [] else [fun t => fitsSomewhere t l]) ++
    (s.saved.filter (·.blk.launch == l.uid)).map fun v t => (coresOf l.lr).any (placesFor t l (fitsBack l) v)).filter fun f => !f s

def prioOf (s : State) (b : Block) : Nat := match findLaunch s b.launch with | some l => l.lr.prio | none => 0

/-- The block that gives way to what fits nowhere: of lowest priority, then started last, among those whose end would let it fit. A block
that drains without limit is passed over (R362); while another is under way, none is chosen. -/
def victimOf (s : State) (l : Launch) (fits : State → Bool) : Option Block :=
  let would := fun b : Block => fits (removeBlock s b.uid)
  let bs := s.blocks.filter fun b => holdsCore b && mayUse l.lr b.core && prioOf s b < l.lr.prio && b.mode != .drainFree
  if bs.any fun b => b.mode != .run && would b then none
  else
    match bs.filter would with
    | [] => none
    | b :: r => some (r.foldl (fun a x =>
        if prioOf s x < prioOf s a || (prioOf s x == prioOf s a && a.started < x.started) then x else a) b)

def victimFor (s : State) (l : Launch) : List Block := (unfit s l).filterMap (victimOf s l)

/-- Is there a reason to pre-empt a block? -/
def mustGo (s : State) (b : Block) : Bool :=
  s.vacated.contains b.core || s.launches.any fun l => (victimFor s l).any (·.uid == b.uid)

/-! ### Context records (R186) -/

def afNum : Af → Nat | .f32 => 0 | .s32 => 1 | .f16 => 2

def cursorNat (c : Cursor) : Nat :=
  c.st.toNat + c.inl.toNat * 2 ^ 4 + c.home.toNat * 2 ^ 5 + c.pin.toNat * 2 ^ 32 + c.rank.toNat * 2 ^ 64 + c.ring.toNat * 2 ^ 96
def cursorOf (n : Nat) : Cursor :=
  ⟨BitVec.ofNat 32 (n / 2 ^ 96), BitVec.ofNat 32 (n / 2 ^ 64), BitVec.ofNat 32 (n / 2 ^ 32), BitVec.ofNat 4 (n / 2 ^ 5), n.testBit 4,
    BitVec.ofNat 2 n⟩

def kindNum : SplitKind → Nat | .arm => 0 | .handler => 1 | .resumed => 2

def insSplit (p : Split) : List Split → List Split
  | [] => [p]
  | q :: r => if p.age < q.age then p :: q :: r else q :: insSplit p r
def splitsByAge (l : List Split) : List Split := l.foldr insSplit []

/-- Is a split stalled in the sense of the record: at a `qpush`, a `bar` or a `barw` (R186, 21 R379, R381)? -/
def isStalled (w : Wait) : Bool :=
  match w with
  | .qpush _ _ _ | .bar _ | .barGo | .barw _ _ | .barwAgain _ _ | .barwGo _ => true
  | _ => false

/-- A split record: 64 bytes. -/
def splitRec (p : Split) : List Byte :=
  let t := p.trap.getD ⟨0, 0, 0, .replicate 32 0⟩
  leBytes (pcVa p.pc) 8 ++ leBytes (kindNum p.kind) 1 ++ leBytes p.arm 1 ++ leBytes (isStalled p.wait).toNat 1 ++ leBytes p.held.toNat 1 ++
    leBytes p.members.toNat 4 ++ leBytes p.parked.toNat 4 ++ leBytes t.cause.toNat 4 ++ leBytes t.fpc.toNat 8 ++ leBytes t.em.toNat 4 ++
    leBytes (p.skip ||| p.qdone).toNat 4 ++ leBytes 0 24

def noSplitRec : List Byte := leBytes (0xFF * 2 ^ 64) 64

def laneBytes (v : Lanes DWord) : List Byte := v.toList.flatMap fun x => leBytes x.toNat 8

/-- `TADDR` of the handler split of an arm. -/
def taddrBytes (w : Wave) (arm : Nat) : List Byte :=
  match w.splits.find? fun p => p.kind == .handler && p.arm == arm with
  | some p => laneBytes ((p.trap.map (·.addr)).getD (.replicate 32 0))
  | none => leBytes 0 256

/-- A window's records: up to four registers each, with the results held for them. DESIGN CHOICE (log 117): one for each destination and each four
registers of it. -/
def winRecs (k : Nat) (x : Win) : List (Nat × Nat × Nat × (Nat → Nat)) :=
  let words := fun (l i : Nat) => match x.got.find? (·.lane == l) with | some r => ((r.ws.drop i).take 4).map BitVec.toNat | none => []
  let num := fun ws : List Nat => ws.foldr (fun a n => a + 2 ^ 32 * n) 0
  let g := match x.gd with
    | some (d, n) => (List.range ((n + 3) / 4)).map fun i => (k, d + 4 * i, min 4 (n - 4 * i), fun l => num (words l (4 * i)))
    | none => []
  let s := match x.sd with
    | some (d, n) => [(k, d, n, fun l => if l = 0 then num (x.sgot.map BitVec.toNat) else 0)]
    | none => []
  let q := match x.qd with
    | some d => [(k, d, 1, fun l => match (x.got.find? (·.lane == l)).bind (·.q) with | some c => cursorNat c | none => 0)]
    | none => []
  let p := match x.pd with
    | some d => [(k, d, 1, fun l => match (x.got.find? (·.lane == l)).bind (·.p) with | some b => b.toNat | none => 0)]
    | none => []
  g ++ s ++ q ++ p

/-- The window records of a wave; how the kind of a destination is coded the spec does not say (log 2). -/
def ctxWins (w : Wave) (s : State) : Nat × List Byte × State :=
  let rs := ((splitsByAge w.splits).zipIdx.flatMap fun e => e.1.wins.flatMap fun x =>
    (winRecs e.2 x).map fun r => (r, if x.closed then 0 else x.rem)).take 64
  let y := rs.foldl (fun (a : List Byte × State) r =>
    let k := draw a.2
    (a.1 ++ leBytes r.1.1 1 ++ leBytes r.2 1 ++ leBytes k.1 1 ++ leBytes r.1.2.1 1 ++ leBytes r.1.2.2.1 1 ++ leBytes 0 11 ++
      ((List.range 32).flatMap fun l => leBytes (r.1.2.2.2 l) 16), k.2)) ([], s)
  (rs.length, y.1, y.2)

def tileBytes (t : Tile) : List Byte := (List.range 1024).flatMap fun i => leBytes (kvGet (0 : Word) i t.cells).toNat 4

/-- The engine record's length: it carries every lane's TBND, even for a wave with no tiles (15 R308); the rest of it is opaque. -/
def engineLen (w : Wave) : Nat := 256 + Config.engineBytes w.ntiles

/-- A wave's context record, with the offsets and lengths of its opaque parts. DESIGN CHOICE (log 108): a wave that has fully exited (R188)
has 0 splits in the record's byte. -/
def waveRecord (w : Wave) (s : State) : List Byte × List (Nat × Nat) × State :=
  let wb := ctxWins w s
  let recon := drawBytes 64 wb.2.2
  let n := engineLen w
  let eng := drawBytes n recon.2
  let ss := splitsByAge w.splits
  let body := 0x24A0 + 128 * w.nregs + 4096 * w.ntiles + 528 * wb.1
  let af := (w.tiles.zipIdx).foldl (fun a e => a + afNum e.1.af * 4 ^ e.2) 0
  let fl := w.accInf.toNat + w.accSat.toNat * 2 + w.fmtErr.toNat * 4 + w.timer.toNat * 8 + w.mxCtr.toNat * 256
  let head := leBytes 1 4 ++ leBytes (body + n) 4 ++ leBytes w.nregs 2 ++ leBytes w.ntiles 1 ++ leBytes ss.length 1 ++ leBytes wb.1 1 ++
    leBytes 0 1 ++ leBytes af 2 ++ leBytes w.wcyc.toNat 8 ++ leBytes w.wtdl.toNat 8 ++ leBytes w.thb.toNat 8 ++ leBytes w.em.toNat 4 ++
    leBytes w.exited.toNat 4 ++ leBytes fl 4 ++ leBytes n 4 ++ leBytes 0 8
  (head ++ recon.1 ++ (ss.take 4).flatMap splitRec ++ (List.replicate (4 - ss.length) noSplitRec).flatten ++
    ((List.range 64).flatMap fun i => leBytes (sWord w i).toNat 4) ++
    ((List.range 8).flatMap fun i => leBytes (if i = 7 then 0 else (vecGet w.p 0 i).toNat) 4) ++
    taddrBytes w 0 ++ taddrBytes w 1 ++
    (w.q.toList.flatMap fun v => v.toList.flatMap fun c => leBytes (cursorNat c) 16) ++
    (w.g.flatMap fun v => v.toList.flatMap fun x => leBytes x.toNat 4) ++ w.tiles.flatMap tileBytes ++ wb.2.1 ++ eng.1,
    [(0x40, 64), (body, n)], eng.2)

/-! Reading a record back. -/

def recNat (bs : List Byte) (off n : Nat) : Nat := leNat ((bs.drop off).take n)

def kindOf (n : Nat) : SplitKind := match n with | 0 => .arm | 1 => .handler | _ => .resumed

/-- What a split waits at when it comes back: a stalled one at its barrier, where a `barw` is issued again with its token (21 R381); a
cross-lane instruction that has been done for it is not issued again. -/
def readWait (stalled : Bool) (w : Wait) : Wait :=
  if !stalled then (if w == .xlaneGo then .xlaneGo else .none)
  else
    match w with
    | .barw a t => .barwAgain a t
    | .bar k => .bar k
    | .barGo => .barGo
    | .barwAgain a t => .barwAgain a t
    | .barwGo p => .barwGo p
    | _ => .none

def readSplit (bs : List Byte) (p : Split) (i : Nat) : Split :=
  let o := 0x80 + 64 * i
  let arm := recNat bs (o + 9) 1
  let members := BitVec.ofNat 32 (recNat bs (o + 12) 4)
  let left := BitVec.ofNat 32 (recNat bs (o + 36) 4)
  let atPush := match p.wait with | .qpush _ _ _ => true | _ => p.qdone != 0
  { p with
    pc := pcOf (BitVec.ofNat 64 (recNat bs o 8))
    kind := kindOf (recNat bs (o + 8) 1)
    arm := arm
    wait := readWait (recNat bs (o + 10) 1 != 0) p.wait
    under := none
    held := recNat bs (o + 11) 1 != 0
    members := members
    parked := BitVec.ofNat 32 (recNat bs (o + 16) 4)
    trap := p.trap.map fun t => { t with
      cause := BitVec.ofNat 32 (recNat bs (o + 20) 4), fpc := BitVec.ofNat 64 (recNat bs (o + 24) 8)
      em := BitVec.ofNat 32 (recNat bs (o + 32) 4)
      addr := Vector.ofFn fun l : Fin 32 => BitVec.ofNat 64 (recNat bs (0x2A0 + 256 * arm + 8 * l) 8) }
    -- 14 R289: its own lanes that a `qpush` has enqueued take no part in the rest of it
    skip := if atPush then left &&& ~~~members else left
    qdone := if atPush then left &&& members else 0 }

/-- A window as its records, from number `k` on, hold it: what remains of it, its first register and the results held. -/
def readWin (bs : List Byte) (base k : Nat) (x : Win) : Win :=
  let at0 := base + 528 * k
  let g := match x.gd with | some (_, n) => (n + 3) / 4 | none => 0
  let word := fun (l i : Nat) => BitVec.ofNat 32 (recNat bs (at0 + 528 * (i / 4) + 16 + 16 * l + 4 * (i % 4)) 4)
  let s0 := at0 + 528 * g
  let q0 := s0 + (if x.sd.isSome then 528 else 0)
  let p0 := q0 + (if x.qd.isSome then 528 else 0)
  if bs.length < p0 + (if x.pd.isSome then 528 else 0) then x
  else { x with
    rem := if x.closed then x.rem else recNat bs (at0 + 1) 1
    gd := x.gd.map fun d => (recNat bs (at0 + 3) 1, d.2)
    sd := x.sd.map fun d => (recNat bs (s0 + 3) 1, d.2)
    qd := x.qd.map fun _ => recNat bs (q0 + 3) 1
    pd := x.pd.map fun _ => recNat bs (p0 + 3) 1
    got := x.got.map fun r => { r with
      ws := if x.gd.isSome then (List.range r.ws.length).map (word r.lane) else r.ws
      q := r.q.map fun _ => cursorOf (recNat bs (q0 + 16 + 16 * r.lane) 16)
      p := r.p.map fun _ => recNat bs (p0 + 16 + 16 * r.lane) 1 % 2 == 1 }
    sgot := (List.range x.sgot.length).map fun i => BitVec.ofNat 32 (recNat bs (s0 + 16 + 4 * i) 4) }

def readWins (bs : List Byte) (base : Nat) : List Win → Nat → List Win × Nat
  | [], k => ([], k)
  | x :: r, k =>
    let y := readWins bs base r (k + (winRecs 0 x).length)
    ((if 64 < k + (winRecs 0 x).length then x else readWin bs base k x) :: y.1, y.2)

/-- The splits of a wave, oldest first, with what their records hold. -/
def readSplits (bs : List Byte) (base : Nat) : List Split → Nat → Nat → List Split
  | [], _, _ => []
  | p :: r, i, k =>
    let y := readWins bs base p.wins k
    { readSplit bs p i with wins := y.1 } :: readSplits bs base r (i + 1) y.2

def afOf (n : Nat) : Af := match n with | 0 => .f32 | 1 => .s32 | _ => .f16

def readTile (bs : List Byte) (off i : Nat) : Tile :=
  ⟨afOf (recNat bs 0x0E 2 / 4 ^ i % 4), (List.range 1024).foldl (fun m i => kvPut 0 i (BitVec.ofNat 32 (recNat bs (off + 4 * i) 4)) m) []⟩

/-- R187: a wave as its record holds it; what lies in the opaque parts is what the save kept. -/
def readWave (w : Wave) (bs : List Byte) : Wave :=
  let fl := recNat bs 0x30 4
  { w with
    wcyc := BitVec.ofNat 64 (recNat bs 0x10 8)
    wtdl := BitVec.ofNat 64 (recNat bs 0x18 8)
    thb := BitVec.ofNat 64 (recNat bs 0x20 8)
    em := BitVec.ofNat 32 (recNat bs 0x28 4)
    exited := BitVec.ofNat 32 (recNat bs 0x2C 4)
    accInf := fl.testBit 0
    accSat := fl.testBit 1
    fmtErr := fl.testBit 2
    timer := fl.testBit 3
    mxCtr := BitVec.ofNat 8 (fl / 256)
    s := Vector.ofFn fun i : Fin 64 => if i.val = 0 then 0 else BitVec.ofNat 32 (recNat bs (0x180 + 4 * i) 4)
    p := Vector.ofFn fun i : Fin 8 => if i.val = 7 then allLanes else BitVec.ofNat 32 (recNat bs (0x280 + 4 * i) 4)
    q := Vector.ofFn fun n : Fin 16 => Vector.ofFn fun l : Fin 32 => cursorOf (recNat bs (0x4A0 + 512 * n + 16 * l) 16)
    g := (List.range w.nregs).map fun r => Vector.ofFn fun l : Fin 32 => BitVec.ofNat 32 (recNat bs (0x24A0 + 128 * r + 4 * l) 4)
    tiles := (List.range w.ntiles).map fun i => readTile bs (0x24A0 + 128 * w.nregs + 4096 * i) i
    splits := readSplits bs (0x24A0 + 128 * w.nregs + 4096 * w.ntiles) (splitsByAge w.splits) 0 0 }

/-! The block record: the scratchpad, the lane-private slices, then the barrier's state, of which the spec lays out nothing (log 22). -/

/-- Bytes of an on-chip memory, each with whether it lies in a poisoned word. -/
def memPart (m : Memory) (n : Nat) : List (Byte × Bool) := (List.range n).map fun i => (memByte m i, memPsn m i)

def blockRecord (lr : LaunchRec) (b : Block) (s : State) : List (Byte × Bool) × State :=
  let y := drawBytes Config.blockBytes s
  (memPart b.spad lr.spad ++ memPart b.lp (b.nwaves * 32 * lr.lpriv) ++ y.1.map fun x => (x, false), y.2)

/-- An on-chip memory from the bytes of a record. -/
def partMem (bs : List (Byte × Bool)) : Memory :=
  ⟨(memPutBytes .empty 0 (bs.map Prod.fst)).cells,
    (List.range ((bs.length + 7) / 8)).filter fun k => ((bs.drop (8 * k)).take 8).any Prod.snd⟩

def readBlock (lr : LaunchRec) (b : Block) (bs : List (Byte × Bool)) : Block :=
  { b with spad := partMem (bs.take lr.spad), lp := partMem ((bs.drop lr.spad).take (b.nwaves * 32 * lr.lpriv)) }

/-! ### The context region -/

def blockRecLen (lr : LaunchRec) (W : Nat) : Nat := lr.spad + W * 32 * lr.lpriv + Config.blockBytes
def waveRecLen (w : Wave) : Nat :=
  let k := ((w.splits.flatMap (·.wins)).flatMap (winRecs 0)).length
  0x24A0 + 128 * w.nregs + 4096 * w.ntiles + 528 * min 64 k + engineLen w

def alignUp (n : Nat) : Nat := (n + 63) / 64 * 64

/-- The first gap of the region for a record. -/
def firstGap (base len n : Nat) (used : List (Nat × Nat)) : Option Nat :=
  let starts := base :: used.map fun u => alignUp (u.1 + u.2)
  (starts.filter fun a => base ≤ a && a + n ≤ base + len && !(used.any fun u => u.1 < a + n && a < u.1 + u.2)).min?

def placeRecs (base len : Nat) : List Nat → List (Nat × Nat) → Option (List (Nat × Nat))
  | [], _ => some []
  | n :: r, used => (firstGap base len n used).bind fun a => (placeRecs base len r ((a, n) :: used)).map ((a, n) :: ·)

/-- The records of a tenant's saved blocks, and the room held for saves under way. -/
def usedRecs (s : State) (tenant : Nat) : List (Nat × Nat) :=
  let mine := fun u : Nat => match findLaunch s u with | some l => l.lr.tenant == tenant | none => false
  (s.saved.filter fun v => mine v.blk.launch).flatMap (·.recs) ++ (s.blocks.filter fun b => mine b.launch).flatMap (·.ctx)

/-- The lengths of the records of a block. -/
def recLens (s : State) (b : Block) (l : Launch) : List Nat :=
  blockRecLen l.lr b.nwaves :: (s.waves.filter (·.blk == b.uid)).map waveRecLen

/-- Places for the records of blocks, one after the other; nothing where the region lacks room. -/
def recPlaces (s : State) (l : Launch) : List Block → List (Nat × Nat) → Option (List (Nat × List (Nat × Nat)))
  | [], _ => some []
  | b :: r, used => (placeRecs l.lr.ctxBase l.lr.ctxLen (recLens s b l) used).bind fun ps =>
      (recPlaces s l r (ps ++ used)).map ((b.uid, ps) :: ·)

/-! ### The decision (R182, R183, R362) -/

def allExited (s : State) (u : Nat) : Bool := (s.waves.filter (·.blk == u)).all (·.exited == allLanes)

/-- The blocks that a save or a flush moves together: the resident ones of the block's level instance that have not ended (02 R36, 09 R194,
21 R379) but those that drain without limit (R362). -/
def saveMates (s : State) (l : Launch) (b : Block) : List Block :=
  if b.hoop then [b]
  else s.blocks.filter fun x => x.uid == b.uid || (x.launch == b.launch && !x.hoop && x.bid / gang l.lr == b.bid / gang l.lr &&
    !allExited s x.uid && (match x.mode with | .run | .drain _ => true | _ => false))

/-- A flush-and-restart begins (R184), of the block's level instance as a whole (02 R36). -/
def beginFlush (s : State) (b : Block) (l : Launch) : State := (saveMates s l b).foldl (fun s x => setMode s x.uid .flushing) s

/-- A save begins, or what R362 puts in its place. -/
def beginSave (s : State) (b : Block) (l : Launch) : State :=
  match recPlaces s l (saveMates s l b) (usedRecs s l.lr.tenant) with
  | some ps => ps.foldl (fun s p => updBlock s p.1 fun b => { b with mode := .saving, ctx := p.2 }) s
  | none => if l.lr.idemp && !b.hoop then beginFlush s b l else setMode s b.uid .drainFree

def holdsRegion (s : State) (b : Block) : Bool :=
  s.cave.works.any fun k => k.kind == .mig && s.waves.any fun w => w.uid == k.wave && w.blk == b.uid

/-- R52: does some block that a save would move hold a migrated wave? -/
def matesHold (s : State) (b : Block) (l : Launch) : Bool := (saveMates s l b).any (holdsRegion s)

def decideS (s : State) (u : Nat) : Option State :=
  (findBlock s u).bind fun b => (findLaunch s b.launch).bind fun l =>
    if b.mode != .run || vecGet s.begun true (dieOfCore b.core) || (vecGet s.ctls .reset 1).phase != .armed || allExited s u ||
      holdsRegion s b || !mustGo s b then none
    else
      let e := estimate l.lr.e b.ret
      if s.pdrain.toNat ≤ e then some (setMode s u (.drain (vecGet s.dcyc 0 (dieOfCore b.core)).toNat))
      else if matesHold s b l then none
      else if l.lr.idemp && e ≤ s.pflush.toNat && !b.hoop then some (beginFlush s b l)
      else some (beginSave s b l)

def execPreemptionDecision (blk : Nat) (s : State) : Out := move s (decideS s blk)

def drainTimeoutS (s : State) (u : Nat) : Option State :=
  (findBlock s u).bind fun b => (findLaunch s b.launch).bind fun l =>
    match b.mode with
    | .drain since =>
      if (vecGet s.dcyc 0 (dieOfCore b.core)).toNat < since + 1048576 || vecGet s.begun true (dieOfCore b.core) || allExited s u ||
        matesHold s b l then none
      else some (beginSave s b l)
    | _ => none

/-- Is there a drained block on a die whose time is over (R183)? -/
def drainDue (s : State) (d : Nat) : Bool :=
  s.blocks.any fun b => dieOfCore b.core == d && (match b.mode with | .drain _ => true | _ => false) && (drainTimeoutS s b.uid).isSome

def execDrainTimeout (blk : Nat) (s : State) : Out := move s (drainTimeoutS s blk)

/-! ### Save, flush and restart (R184, R185) -/

/-- R185, step 2: the work in flight is complete, and every result has arrived. -/
def blockQuiet (s : State) (b : Block) : Bool :=
  b.copies.isEmpty && (s.waves.filter (·.blk == b.uid)).all fun w =>
    waveQuiet s w && mxSettled w && w.orph.all winFull && (w.splits.flatMap (·.wins)).all winFull

/-- The opaque bytes of a record at an address. -/
def opaqueOf (a : Nat) (bs : List Byte) (parts : List (Nat × Nat)) : List (Nat × Byte) :=
  parts.flatMap fun p => ((bs.drop p.1).take p.2).zipIdx.map fun e => (a + p.1 + e.2, e.1)

def writeWaves (l : Launch) : List Wave → List (Nat × Nat) → State → List (Nat × Byte) × State
  | w :: ws, (a, _) :: rs, s =>
    let r := waveRecord w s
    let s := (unitStore r.2.2 l.lr.tenant l.lr.root a r.1).2
    let y := writeWaves l ws rs s
    (opaqueOf a r.1 r.2.1 ++ y.1, y.2)
  | _, _, s => ([], s)

/-- One block's records are written and its resources freed. -/
def saveOne (l : Launch) (s : State) (b : Block) : State :=
  let ws := s.waves.filter (·.blk == b.uid)
  let br := blockRecord l.lr b s
  let s := unitStoreP br.2 l.lr.tenant l.lr.root (b.ctx.headD (0, 0)).1 br.1
  let y := writeWaves l ws b.ctx.tail s
  let v : Saved := ⟨{ b with ctx := [] }, ws, b.ctx, y.1, s.nid, vecOf s (dieOfCore b.core), false⟩
  addPerf { carveFor (removeBlock y.2 b.uid) b with nid := y.2.nid + 1, saved := y.2.saved ++ [v] } b.core 9 1

/-- The blocks that are saved, or flushed, with a block: those of its level instance in the same mode. -/
def modeMates (s : State) (l : Launch) (b : Block) : List Block :=
  if b.hoop then [b]
  else s.blocks.filter fun x =>
    x.launch == b.launch && !x.hoop && x.bid / gang l.lr == b.bid / gang l.lr && x.mode == b.mode && !allExited s x.uid

def saveS (s : State) (u : Nat) : Option State :=
  (findBlock s u).bind fun b => (findLaunch s b.launch).bind fun l =>
    if b.mode != .saving || allExited s u || !(modeMates s l b).all (blockQuiet s) then none
    else some ((modeMates s l b).foldl (saveOne l) s)

def execBlockSave (blk : Nat) (s : State) : Out := move s (saveS s blk)

/-- One block is discarded, to start again. -/
def flushOne (s : State) (b : Block) : State :=
  let ws := s.waves.filter (·.blk == b.uid)
  let s := ws.foldl (fun s w => releaseCursors (discardOps s w.uid) w allLanes) s
  let v : Saved := ⟨{ b with ret := 0, copies := [], chutes := [], bars := [], ctx := [] }, [], [], [], s.nid, vecOf s (dieOfCore b.core), true⟩
  let t := carveFor (dropBlock s b.uid) b
  { t with nid := t.nid + 1, saved := t.saved ++ [v] }

/-- R184, 02 R52: the blocks of a level instance are flushed together, once no migrated region of theirs is out. -/
def flushS (s : State) (u : Nat) : Option State :=
  (findBlock s u).bind fun b => (findLaunch s b.launch).bind fun l =>
    if b.mode != .flushing || allExited s u || !(modeMates s l b).all (fun x => blockQuiet s x && !holdsRegion s x) then none
    else some ((modeMates s l b).foldl flushOne s)

def execFlushAndRestart (blk : Nat) (s : State) : Out := move s (flushS s blk)

/-! ### Restore and restart (R47, R53, R187) -/

/-- Are the opaque parts of the records as the save wrote them? -/
def opaqueIntact (s : State) (l : Launch) : List (Nat × Byte) → Bool × State
  | [] => (true, s)
  | (a, b) :: r =>
    match unitLoad s l.lr.tenant l.lr.root a 1 with
    | (.ok x, s) => if x.1 == [b] && !x.2 then opaqueIntact s l r else (false, s)
    | (.error _, s) => (false, s)

/-- The rank of a restored split: after every split resident in the cycle, in the saved order (02 R48). -/
def restoredAge (s : State) (core n0 : Nat) (old : List Nat) (a : Nat) : Nat :=
  ((vecGet s.dcyc 0 (dieOfCore core)).toNat * 2 + 1) * 64 * 2 ^ 64 + n0 + (old.filter (· < a)).length

/-- A unit's read of a record: its bytes, none where a page of it cannot be read. -/
def loadRec (s : State) (l : Launch) (a n : Nat) : Option (List (Byte × Bool)) × State :=
  match unitLoadP s l.lr.tenant l.lr.root a n with
  | (.ok x, s) => (some x, if x.any Prod.snd then setLaunchFlag s l.uid 4 else s)
  | (.error _, s) => (none, s)

/-- The waves come back in free slots. `old` are the ages of every split that comes back now. -/
def restoreWaves (l : Launch) (core n0 : Nat) (old : List Nat) : List Wave → List (Nat × Nat) → List Nat → State → State
  | w :: ws, (a, n) :: rs, k :: ks, s =>
    let y := loadRec s l a n
    let v := match y.1 with | some bs => readWave w (bs.map Prod.fst) | none => w
    let v := { v with core := core, slot := k, splits := v.splits.map fun p => { p with age := restoredAge y.2 core n0 old p.age } }
    restoreWaves l core n0 old ws rs ks { y.2 with waves := y.2.waves ++ [v] }
  | _, _, _, s => s

/-- One saved block comes back on a core, or never runs again. -/
def restoreOne (l : Launch) (n0 : Nat) (old : List Nat) (s : State) (p : Saved × Nat) : State :=
  let v := p.1
  let core := p.2
  if v.restart then startBlock s l core v.blk.bid v.blk.stage false []
  else
    let c := opaqueIntact s l v.opq
    if !c.1 then v.waves.foldl (fun s w => reportTickets (releaseCursors s w allLanes) w) (setLaunchFlag c.2 l.uid 7)
    else
      let y := loadRec c.2 l (v.recs.headD (0, 0)).1 (v.recs.headD (0, 0)).2
      let b := match y.1 with | some bs => readBlock l.lr v.blk bs | none => v.blk
      let slots := freeSlots y.2 core
      let s := { y.2 with blocks := y.2.blocks ++ [{ b with core := core, mode := .run }] }
      let s := carve (restoreWaves l core n0 old v.waves v.recs.tail slots s) core l.lr.lpriv
      if core = v.blk.core then s else discardFor s core .device

def restoreS (s : State) (u core : Nat) : Option State :=
  (s.saved.find? (·.blk.uid == u)).bind fun v => (findLaunch s v.blk.launch).bind fun l => (backPlaces s l v core).map fun q =>
    let old := q.1.flatMap fun p => p.1.waves.flatMap fun w => w.splits.map Split.age
    let n0 := s.nid
    q.1.foldl (restoreOne l n0 old)
      { q.2 with nid := n0 + old.length, saved := s.saved.filter fun x => !(q.1.any fun p => p.1.blk.uid == x.blk.uid) }

def execBlockRestore (blk core : Nat) (s : State) : Out := move s (restoreS s blk core)

/-! ### Cores vacated on request (23 R403) -/

def coreRange (first count : Nat) : List Nat := ((List.range count).map (first + ·)).filter (· < nCores)

def execVacateRequest (first count : Nat) (s : State) : Out :=
  .next { s with vacated := (coreRange first count).foldl (fun l c => insNat c l) s.vacated }

def execVacatedCoresRelease (first count : Nat) (s : State) : Out :=
  .next { s with vacated := s.vacated.filter fun c => !(coreRange first count).contains c }

end Sys2Proof.Machine
end

