-- ==== Sys2Proof/Machine/System.lean ====
section
/-! DEFINITION. The system instructions (08 R172 to R180) and the expiry of a deadline (21 R373). -/

namespace Sys2Proof.Machine

/-! ### Special registers (04 R87 to R90) -/

/-- The value of a special register as a lane reads it (R87, R173); a trap register reads 0 outside a handler split (R89). -/
def sregVal (s : State) (x : Ctx) (sel : SSel) (lane : Nat) : DWord :=
  let t := (if x.p.kind == .handler then x.p.trap else none).getD ⟨0, 0, 0, .replicate 32 0⟩
  match sel with
  | .laneid => BitVec.ofNat 64 lane
  | .waveid => x.w.waveid.setWidth 64
  | .blockid => x.w.blockid.setWidth 64
  | .lvl k => (vecGet x.w.lvls 0 (k.toNat - 2)).setWidth 64
  | .core => BitVec.ofNat 64 x.w.core
  | .cluster => BitVec.ofNat 64 (clusterOfCore x.w.core)
  | .die => BitVec.ofNat 64 (waveDie x.w)
  | .wcyc => x.w.wcyc
  | .dcyc => vecGet s.dcyc 0 (waveDie x.w)
  | .wtdl => x.w.wtdl
  | .tcause => t.cause.setWidth 64
  | .tfpc => t.fpc
  | .tem => t.em.setWidth 64
  | .taddr => laneGet t.addr 0 lane
  | .thb => x.w.thb
  | .pdrain => s.pdrain.setWidth 64
  | .pflush => s.pflush.setWidth 64

def execSreg (g : Guard) (u : Bool) (d : Reg) (sel : SSel) (s : State) : Out :=
  runLane false g s fun x s => .done (putResult s x u sel.wide d (sregVal s x sel))

/-- The value `wsreg THB` writes (R174). -/
def thbVal (x : Ctx) (b : SrcU) : DWord :=
  match b with
  | .s r => word64 (sWord x.w r.toNat) (sWord x.w (r.toNat + 1))
  | .imm v => BitVec.ofNat 64 (pcVa (branchTarget x.p.pc ⟨v.extractLsb' 0 3, v.extractLsb' 3 29⟩))

def execWsreg (g : Guard) (sel : WSel) (b : SrcU) (s : State) : Out :=
  runUni false g s fun x s =>
    match sel with
    | .thb =>
      let v := thbVal x b
      if (slotOf (v.toNat % 64)).isSome then .done (updWave s x.c.wave fun w => { w with thb := v }) else badTarget s x v
    | .pdrain => if x.l.lr.priv then .done { s with pdrain := srcU x.w b } else illop s x
    | .pflush => if x.l.lr.priv then .done { s with pflush := srcU x.w b } else illop s x

/-! ### Traps by instruction, and returns (R175, R176) -/

def execTrap (g : Guard) (code : Word) (s : State) : Out :=
  runLane false g s fun x s => laneEnd s ((lanesOf x.act).map fun l => ⟨l, .swtrap, code.setWidth 64⟩)

def execBrk (g : Guard) (code : Word) (s : State) : Out :=
  runUni false g s fun x s => trapAll s x .brk (code.setWidth 64)

/-- R176: is a return legal here? -/
def tretOk (x : Ctx) : Bool := x.p.kind == .handler && x.p.stack.isEmpty

def tretRun (x : Ctx) (s : State) (retry : Bool) : Res := if tretOk x then .resume s retry else illop s x

def execTretRetry (g : Guard) (s : State) : Out := runUni true g s fun x s => tretRun x s true

def execTretSkip (g : Guard) (s : State) : Out := runUni true g s fun x s => tretRun x s false

def execTretEnd (g : Guard) (s : State) : Out :=
  runUni true g s fun x s =>
    if tretOk x then
      .resume (exitLanes s x.c.wave (match x.p.trap with | some t => t.em &&& ~~~x.w.exited | none => 0)) false
    else illop s x

/-! ### Counters and the instruction cache (R179, R180) -/

/-- A performance counter of the issuing core (21 R374): the core cycles are the die's. Those of a search slot are read at the search unit, in one
move (R375), which waits while the unit is not ready and gives poison once it has failed (23 R394). -/
def perfVal (s : State) (x : Ctx) (n : Nat) : DWord × State :=
  match n with
  | 0x00 => (vecGet s.dcyc 0 (waveDie x.w), s)
  | 0xF0 | 0xF1 =>
    match x.l.lr.search with
    | none => (0, s)
    | some k =>
      let slot := vecGet s.search.slots .reset k
      if !searchUp s then (0, holdMove s)
      else if searchFailed s then (poisonKey, setLaunchFlag s x.l.uid 4)
      else (BitVec.ofNat 64 (if n = 0xF0 then slot.spawned else slot.felled), s)
  | _ => (BitVec.ofNat 64 (kvGet 0 (x.w.core * 256 + n) s.perf), s)

def execPerfrd (g : Guard) (d : Reg) (n : Byte) (s : State) : Out :=
  runUni false g s fun x s =>
    let v := perfVal s x n.toNat
    .done (updWave v.2 x.c.wave fun w => setSd w true d v.1)

/-- Has a store that a load on the core can observe still to reach the die's view, or the other device that it goes to? -/
def codeStores (s : State) (core : Nat) : Bool :=
  (s.mem.wb.any fun e => e.core == core && !e.loc.onChip) || s.mem.remoteW.any (·.core == core)

/-- R180: later fetches of the split read a line as it stands once every store that a load on the core can observe has reached it. -/
def execIcinv (g : Guard) (s : State) : Out :=
  runUni false g s fun x s =>
    if codeStores s x.w.core then .wait s .order
    else .done (updSplit s x.c fun p => { p with icFrom := some s.mem.clk })

/-! ### Deadlines (21 R373) -/

/-- Is a resident wave's deadline due, its TIMER not yet pending and the deadline not set in this very cycle (R373, R383)? -/
def timerDue (s : State) (w : Wave) : Bool :=
  w.wtdl != 0 && w.wtdl.toNat ≤ w.wcyc.toNat && !w.timer && !w.wnew && resident s w

def execTimerExpiry (wave : Nat) (s : State) : Out :=
  move s (match findWave s wave with
    | some w => if timerDue s w then some (updWave s wave fun w => { w with timer := true }) else none
    | none => none)

end Sys2Proof.Machine
end

