-- ==== Sys2Proof/Machine/Dispatch.lean ====
section
/-! DEFINITION. The machine's step on one instruction: an arm for each row of the opcode table. -/

namespace Sys2Proof.Machine

def exec (i : Instr) (s : State) : Host.Outcome State Fault Refusal :=
  match i with
  | .nop => Sys2Proof.Machine.execNop s
  | .bra g t => Sys2Proof.Machine.execBra g t s
  | .bdiv g k els j => Sys2Proof.Machine.execBdiv g k els j s
  | .rjoin g => Sys2Proof.Machine.execRjoin g s
  | .call g t => Sys2Proof.Machine.execCall g t s
  | .ret g => Sys2Proof.Machine.execRet g s
  | .jmpi g a => Sys2Proof.Machine.execJmpi g a s
  | .exit g => Sys2Proof.Machine.execExit g s
  | .yield g => Sys2Proof.Machine.execYield g s
  | .iadd g sat o => Sys2Proof.Machine.execIadd g sat o s
  | .isub g sat o => Sys2Proof.Machine.execIsub g sat o s
  | .imul g sat o => Sys2Proof.Machine.execImul g sat o s
  | .imulh g o => Sys2Proof.Machine.execImulh g o s
  | .imad g sat o c => Sys2Proof.Machine.execImad g sat o c s
  | .idiv g la o => Sys2Proof.Machine.execIdiv g la o s
  | .irem g la o => Sys2Proof.Machine.execIrem g la o s
  | .imin g o => Sys2Proof.Machine.execImin g o s
  | .imax g o => Sys2Proof.Machine.execImax g o s
  | .iabs g sat o => Sys2Proof.Machine.execIabs g sat o s
  | .ineg g sat o => Sys2Proof.Machine.execIneg g sat o s
  | .and g o => Sys2Proof.Machine.execAnd g o s
  | .or g o => Sys2Proof.Machine.execOr g o s
  | .xor g o => Sys2Proof.Machine.execXor g o s
  | .not g o => Sys2Proof.Machine.execNot g o s
  | .shl g o => Sys2Proof.Machine.execShl g o s
  | .shr g o => Sys2Proof.Machine.execShr g o s
  | .sra g o => Sys2Proof.Machine.execSra g o s
  | .rot g o => Sys2Proof.Machine.execRot g o s
  | .bfe g o => Sys2Proof.Machine.execBfe g o s
  | .bfi g o c => Sys2Proof.Machine.execBfi g o c s
  | .popc g o => Sys2Proof.Machine.execPopc g o s
  | .clz g o => Sys2Proof.Machine.execClz g o s
  | .ctz g o => Sys2Proof.Machine.execCtz g o s
  | .brev g o => Sys2Proof.Machine.execBrev g o s
  | .lea g o => Sys2Proof.Machine.execLea g o s
  | .iaddc g d a b c => Sys2Proof.Machine.execIaddc g d a b c s
  | .sel g o c => Sys2Proof.Machine.execSel g o c s
  | .mov g ty u d b => Sys2Proof.Machine.execMov g ty u d b s
  | .movi g ty u d v => Sys2Proof.Machine.execMovi g ty u d v s
  | .fadd g rm o => Sys2Proof.Machine.execFadd g rm o s
  | .fsub g rm o => Sys2Proof.Machine.execFsub g rm o s
  | .fmul g rm o => Sys2Proof.Machine.execFmul g rm o s
  | .ffma g rm o c => Sys2Proof.Machine.execFfma g rm o c s
  | .fdiv g la rm o => Sys2Proof.Machine.execFdiv g la rm o s
  | .fmin g o => Sys2Proof.Machine.execFmin g o s
  | .fmax g o => Sys2Proof.Machine.execFmax g o s
  | .fabs g o => Sys2Proof.Machine.execFabs g o s
  | .fneg g o => Sys2Proof.Machine.execFneg g o s
  | .frcp g la rm o => Sys2Proof.Machine.execFrcp g la rm o s
  | .frsq g la rm o => Sys2Proof.Machine.execFrsq g la rm o s
  | .fsqrt g la rm o => Sys2Proof.Machine.execFsqrt g la rm o s
  | .fex2 g la rm o => Sys2Proof.Machine.execFex2 g la rm o s
  | .flg2 g la rm o => Sys2Proof.Machine.execFlg2 g la rm o s
  | .fsin g la rm o => Sys2Proof.Machine.execFsin g la rm o s
  | .fcos g la rm o => Sys2Proof.Machine.execFcos g la rm o s
  | .cvt g o => Sys2Proof.Machine.execCvt g o s
  | .pk4x g o => Sys2Proof.Machine.execPk4x g o s
  | .upk4x g o => Sys2Proof.Machine.execUpk4x g o s
  | .pk6 g o => Sys2Proof.Machine.execPk6 g o s
  | .upk6 g o => Sys2Proof.Machine.execUpk6 g o s
  | .fclass g ty u d a => Sys2Proof.Machine.execFclass g ty u d a s
  | .icmp g o => Sys2Proof.Machine.execIcmp g o s
  | .fcmp g o => Sys2Proof.Machine.execFcmp g o s
  | .plog g d a b c lut => Sys2Proof.Machine.execPlog g d a b c lut s
  | .pmov g o => Sys2Proof.Machine.execPmov g o s
  | .ballot g part u d a => Sys2Proof.Machine.execBallot g part u d a s
  | .vote g part k d a => Sys2Proof.Machine.execVote g part k d a s
  | .shfl g part o => Sys2Proof.Machine.execShfl g part o s
  | .lred g part u o => Sys2Proof.Machine.execLred g part u o s
  | .lscan g part excl o => Sys2Proof.Machine.execLscan g part excl o s
  | .emrd g u d => Sys2Proof.Machine.execEmrd g u d s
  | .emwr b => Sys2Proof.Machine.execEmwr b s
  | .ld g la o => Sys2Proof.Machine.execLd g la o s
  | .st g o => Sys2Proof.Machine.execSt g o s
  | .ldq g la o => Sys2Proof.Machine.execLdq g la o s
  | .stq g o => Sys2Proof.Machine.execStq g o s
  | .ldf g la o => Sys2Proof.Machine.execLdf g la o s
  | .stf g o => Sys2Proof.Machine.execStf g o s
  | .atom g la o => Sys2Proof.Machine.execAtom g la o s
  | .cas g la o => Sys2Proof.Machine.execCas g la o s
  | .fence g k sc => Sys2Proof.Machine.execFence g k sc s
  | .cwb g o => Sys2Proof.Machine.execCwb g o s
  | .cinv g d o => Sys2Proof.Machine.execCinv g d o s
  | .cflush g o => Sys2Proof.Machine.execCflush g o s
  | .pref g l1 a off => Sys2Proof.Machine.execPref g l1 a off s
  | .cpy g o => Sys2Proof.Machine.execCpy g o s
  | .cpyw g o => Sys2Proof.Machine.execCpyw g o s
  | .gath g o => Sys2Proof.Machine.execGath g o s
  | .scat g o => Sys2Proof.Machine.execScat g o s
  | .chini g a b c => Sys2Proof.Machine.execChini g a b c s
  | .chwait g d a b => Sys2Proof.Machine.execChwait g d a b s
  | .chrel g a b => Sys2Proof.Machine.execChrel g a b s
  | .mma g la o => Sys2Proof.Machine.execMma g la o s
  | .mlut g la o => Sys2Proof.Machine.execMlut g la o s
  | .mzero g la t af => Sys2Proof.Machine.execMzero g la t af s
  | .mld g la o => Sys2Proof.Machine.execMld g la o s
  | .mst g la o => Sys2Proof.Machine.execMst g la o s
  | .mfence g la d => Sys2Proof.Machine.execMfence g la d s
  | .mwait g st a => Sys2Proof.Machine.execMwait g st a s
  | .mrep g drop a => Sys2Proof.Machine.execMrep g drop a s
  | .mflg g d => Sys2Proof.Machine.execMflg g d s
  | .gnew g la d a => Sys2Proof.Machine.execGnew g la d a s
  | .gfree g la a => Sys2Proof.Machine.execGfree g la a s
  | .gadd g la o => Sys2Proof.Machine.execGadd g la o s
  | .gdel g la o => Sys2Proof.Machine.execGdel g la o s
  | .gdeg g la o => Sys2Proof.Machine.execGdeg g la o s
  | .gld g la o => Sys2Proof.Machine.execGld g la o s
  | .gwt g la o => Sys2Proof.Machine.execGwt g la o s
  | .gfind g la o => Sys2Proof.Machine.execGfind g la o s
  | .gopen g la o => Sys2Proof.Machine.execGopen g la o s
  | .gnext g la o => Sys2Proof.Machine.execGnext g la o s
  | .gclose g q => Sys2Proof.Machine.execGclose g q s
  | .gcst g la o => Sys2Proof.Machine.execGcst g la o s
  | .gver g la o => Sys2Proof.Machine.execGver g la o s
  | .tspawn g o => Sys2Proof.Machine.execTspawn g o s
  | .tdone g => Sys2Proof.Machine.execTdone g s
  | .qpush g stage a => Sys2Proof.Machine.execQpush g stage a s
  | .qpop g la o => Sys2Proof.Machine.execQpop g la o s
  | .qstat g la d stage => Sys2Proof.Machine.execQstat g la d stage s
  | .tbound g b => Sys2Proof.Machine.execTbound g b s
  | .fchk g => Sys2Proof.Machine.execFchk g s
  | .incld g la acq d => Sys2Proof.Machine.execIncld g la acq d s
  | .incmin g la o => Sys2Proof.Machine.execIncmin g la o s
  | .bar g lvl => Sys2Proof.Machine.execBar g lvl s
  | .bini g a b => Sys2Proof.Machine.execBini g a b s
  | .binv g a => Sys2Proof.Machine.execBinv g a s
  | .barar g d a pr => Sys2Proof.Machine.execBarar g d a pr s
  | .barw g a b pr => Sys2Proof.Machine.execBarw g a b pr s
  | .sinc g n b => Sys2Proof.Machine.execSinc g n b s
  | .swait g dec n b => Sys2Proof.Machine.execSwait g dec n b s
  | .sset g n b => Sys2Proof.Machine.execSset g n b s
  | .tmset g rel b => Sys2Proof.Machine.execTmset g rel b s
  | .sreg g u d sel => Sys2Proof.Machine.execSreg g u d sel s
  | .wsreg g sel b => Sys2Proof.Machine.execWsreg g sel b s
  | .trap g code => Sys2Proof.Machine.execTrap g code s
  | .tretRetry g => Sys2Proof.Machine.execTretRetry g s
  | .tretSkip g => Sys2Proof.Machine.execTretSkip g s
  | .tretEnd g => Sys2Proof.Machine.execTretEnd g s
  | .brk g code => Sys2Proof.Machine.execBrk g code s
  | .perfrd g d n => Sys2Proof.Machine.execPerfrd g d n s
  | .icinv g => Sys2Proof.Machine.execIcinv g s
  | .cdisp g la d b disp => Sys2Proof.Machine.execCdisp g la d b disp s
  | .cwait g st a => Sys2Proof.Machine.execCwait g st a s
  | .mig g la o => Sys2Proof.Machine.execMig g la o s
  | .cmsg g la o => Sys2Proof.Machine.execCmsg g la o s
  | .caveAdd d a b => Sys2Proof.Machine.execCaveAdd d a b s
  | .caveSub d a b => Sys2Proof.Machine.execCaveSub d a b s
  | .caveMul d a b => Sys2Proof.Machine.execCaveMul d a b s
  | .caveAnd d a b => Sys2Proof.Machine.execCaveAnd d a b s
  | .caveOr d a b => Sys2Proof.Machine.execCaveOr d a b s
  | .caveXor d a b => Sys2Proof.Machine.execCaveXor d a b s
  | .caveShl d a b => Sys2Proof.Machine.execCaveShl d a b s
  | .caveShr d a b => Sys2Proof.Machine.execCaveShr d a b s
  | .caveSra d a b => Sys2Proof.Machine.execCaveSra d a b s
  | .caveLi hi d v => Sys2Proof.Machine.execCaveLi hi d v s
  | .caveSlt u d a b => Sys2Proof.Machine.execCaveSlt u d a b s
  | .caveLd o => Sys2Proof.Machine.execCaveLd o s
  | .caveSt o => Sys2Proof.Machine.execCaveSt o s
  | .caveBeq a b disp => Sys2Proof.Machine.execCaveBeq a b disp s
  | .caveBne a b disp => Sys2Proof.Machine.execCaveBne a b disp s
  | .caveBlt u a b disp => Sys2Proof.Machine.execCaveBlt u a b disp s
  | .caveBge u a b disp => Sys2Proof.Machine.execCaveBge u a b disp s
  | .caveJmp t => Sys2Proof.Machine.execCaveJmp t s
  | .caveJal d t => Sys2Proof.Machine.execCaveJal d t s
  | .caveVld o => Sys2Proof.Machine.execCaveVld o s
  | .caveVst o => Sys2Proof.Machine.execCaveVst o s
  | .caveVadd o => Sys2Proof.Machine.execCaveVadd o s
  | .caveVsub o => Sys2Proof.Machine.execCaveVsub o s
  | .caveVmul o => Sys2Proof.Machine.execCaveVmul o s
  | .caveVfma bank o => Sys2Proof.Machine.execCaveVfma bank o s
  | .caveVmax o => Sys2Proof.Machine.execCaveVmax o s
  | .caveVmin o => Sys2Proof.Machine.execCaveVmin o s
  | .caveVred o => Sys2Proof.Machine.execCaveVred o s
  | .caveVcvt o => Sys2Proof.Machine.execCaveVcvt o s
  | .caveVcmp o => Sys2Proof.Machine.execCaveVcmp o s
  | .caveVsel o => Sys2Proof.Machine.execCaveVsel o s
  | .caveVbrd o => Sys2Proof.Machine.execCaveVbrd o s
  | .caveVmov o => Sys2Proof.Machine.execCaveVmov o s
  | .caveSend o => Sys2Proof.Machine.execCaveSend o s
  | .caveHret => Sys2Proof.Machine.execCaveHret s
  | .caveMret => Sys2Proof.Machine.execCaveMret s
  | .caveYld => Sys2Proof.Machine.execCaveYld s
  | .caveFence => Sys2Proof.Machine.execCaveFence s
  | .readMove acc unit => Sys2Proof.Machine.execReadMove acc unit s
  | .drain w => Sys2Proof.Machine.execDrain w s
  | .stamp d h => Sys2Proof.Machine.execStamp d h s
  | .apply e s0 => Sys2Proof.Machine.execApply e s0 s
  | .completeMove p => Sys2Proof.Machine.execCompleteMove p s
  | .evict sector => Sys2Proof.Machine.execEvict sector s
  | .matrixOpExecute wave op => Sys2Proof.Machine.execMatrixOpExecute wave op s
  | .copyStart blk => Sys2Proof.Machine.execCopyStart blk s
  | .copyComplete blk copy => Sys2Proof.Machine.execCopyComplete blk copy s
  | .qpushEnqueue wave split lane => Sys2Proof.Machine.execQpushEnqueue wave split lane s
  | .graphReserve op => Sys2Proof.Machine.execGraphReserve op s
  | .inListCommit op => Sys2Proof.Machine.execInListCommit op s
  | .outListCommit op => Sys2Proof.Machine.execOutListCommit op s
  | .graphReadMove op => Sys2Proof.Machine.execGraphReadMove op s
  | .gfreeTakeEffect op => Sys2Proof.Machine.execGfreeTakeEffect op s
  | .incminCommit op => Sys2Proof.Machine.execIncminCommit op s
  | .incldRead op => Sys2Proof.Machine.execIncldRead op s
  | .broadcastArrival b => Sys2Proof.Machine.execBroadcastArrival b s
  | .hoopFormation die launch stage core => Sys2Proof.Machine.execHoopFormation die launch stage core s
  | .vatReload die => Sys2Proof.Machine.execVatReload die s
  | .quotaBoundary die => Sys2Proof.Machine.execQuotaBoundary die s
  | .launchAdmission => Sys2Proof.Machine.execLaunchAdmission s
  | .blockStart launch core => Sys2Proof.Machine.execBlockStart launch core s
  | .blockSteal launch core => Sys2Proof.Machine.execBlockSteal launch core s
  | .blockEnd blk => Sys2Proof.Machine.execBlockEnd blk s
  | .launchCompletion launch => Sys2Proof.Machine.execLaunchCompletion launch s
  | .preemptionDecision blk => Sys2Proof.Machine.execPreemptionDecision blk s
  | .drainTimeout blk => Sys2Proof.Machine.execDrainTimeout blk s
  | .blockSave blk => Sys2Proof.Machine.execBlockSave blk s
  | .flushAndRestart blk => Sys2Proof.Machine.execFlushAndRestart blk s
  | .blockRestore blk core => Sys2Proof.Machine.execBlockRestore blk core s
  | .vacateRequest first count => Sys2Proof.Machine.execVacateRequest first count s
  | .timerExpiry wave => Sys2Proof.Machine.execTimerExpiry wave s
  | .caveDispatchMove work => Sys2Proof.Machine.execCaveDispatchMove work s
  | .caveInstanceStart stack skc => Sys2Proof.Machine.execCaveInstanceStart stack skc s
  | .cavePreempt stack skc => Sys2Proof.Machine.execCavePreempt stack skc s
  | .caveCompletionMove work => Sys2Proof.Machine.execCaveCompletionMove work s
  | .caveHandlerDispatch stack skc => Sys2Proof.Machine.execCaveHandlerDispatch stack skc s
  | .microInstructionExecute stack skc => Sys2Proof.Machine.execMicroInstructionExecute stack skc s
  | .scrubRow stack row errs => Sys2Proof.Machine.execScrubRow stack row errs s
  | .hotScrub stack row errs => Sys2Proof.Machine.execHotScrub stack row errs s
  | .regionClear region => Sys2Proof.Machine.execRegionClear region s
  | .qtail fn v => Sys2Proof.Machine.execQtail fn v s
  | .qerrClear fn mask => Sys2Proof.Machine.execQerrClear fn mask s
  | .invreq fn n => Sys2Proof.Machine.execInvreq fn n s
  | .invalidationComplete fn => Sys2Proof.Machine.execInvalidationComplete fn s
  | .updctl ctl v => Sys2Proof.Machine.execUpdctl ctl v s
  | .counterClear off => Sys2Proof.Machine.execCounterClear off s
  | .berrClear stack bank => Sys2Proof.Machine.execBerrClear stack bank s
  | .htcommit stack skc => Sys2Proof.Machine.execHtcommit stack skc s
  | .tokloWrite tenant v => Sys2Proof.Machine.execTokloWrite tenant v s
  | .configWrite a bytes => Sys2Proof.Machine.execConfigWrite a bytes s
  | .configApply unit => Sys2Proof.Machine.execConfigApply unit s
  | .configForcedBoundary unit => Sys2Proof.Machine.execConfigForcedBoundary unit s
  | .deviceReset => Sys2Proof.Machine.execDeviceReset s
  | .unitReady bit => Sys2Proof.Machine.execUnitReady bit s
  | .functionLevelReset fn => Sys2Proof.Machine.execFunctionLevelReset fn s
  | .dataFlit port f => Sys2Proof.Machine.execDataFlit port f s
  | .nakFlit port f => Sys2Proof.Machine.execNakFlit port f s
  | .idleFlit port f => Sys2Proof.Machine.execIdleFlit port f s
  | .retrainRequest port f => Sys2Proof.Machine.execRetrainRequest port f s
  | .fabricPacket src dst num bytes => Sys2Proof.Machine.execFabricPacket src dst num bytes s
  | .launchPacket tok bytes => Sys2Proof.Machine.execLaunchPacket tok bytes s
  | .handoverStop ctl => Sys2Proof.Machine.execHandoverStop ctl s
  | .wdogWrite ctl => Sys2Proof.Machine.execWdogWrite ctl s
  | .watchdogExpiry ctl => Sys2Proof.Machine.execWatchdogExpiry ctl s
  | .attestationRequest nonce => Sys2Proof.Machine.execAttestationRequest nonce s
  | .pathMonitorRead die low => Sys2Proof.Machine.execPathMonitorRead die low s
  | .hostStore pa bytes => Sys2Proof.Machine.execHostStore pa bytes s
  | .loaderGraphCreation img => Sys2Proof.Machine.execLoaderGraphCreation img s
  | .vacatedCoresRelease first count => Sys2Proof.Machine.execVacatedCoresRelease first count s
  | .portBringUp port => Sys2Proof.Machine.execPortBringUp port s

end Sys2Proof.Machine
end

