-- ==== Sys2Proof/Machine/Issue.lean ====
section
/-! DEFINITION. The issue of front instructions: which splits a scheduler considers (02 R48, R49), the merge of a resumed split
(08 R177), the fetch and its checks (03 R68 to R75), pending traps (08 R170, R178, 16 R341) and pairs (03 R69). -/

namespace Sys2Proof.Machine

/-! ### Classes of instructions -/

/-- The wave-uniform instructions (R62). -/
def wordUniform : Instr → Bool
  | .bra _ _ | .bdiv _ _ _ _ | .rjoin _ | .call _ _ | .ret _ | .jmpi _ _ | .yield _
  | .cpy _ _ | .cpyw _ _ | .gath _ _ | .scat _ _ | .chini _ _ _ _ | .chwait _ _ _ _ | .chrel _ _ _
  | .mma _ _ _ | .mlut _ _ _ | .mzero _ _ _ _ | .mld _ _ _ | .mst _ _ _ | .mfence _ _ _ | .mwait _ _ _
  | .mrep _ _ _ | .mflg _ _ | .gnew _ _ _ _ | .gfree _ _ _
  | .bar _ _ | .bini _ _ _ | .binv _ _ | .barar _ _ _ _ | .barw _ _ _ _ | .sinc _ _ _ | .swait _ _ _ _
  | .sset _ _ _ | .tmset _ _ _
  | .wsreg _ _ _ | .tretRetry _ | .tretSkip _ | .tretEnd _ | .brk _ _ | .perfrd _ _ _ | .icinv _
  | .cdisp _ _ _ _ _ | .cwait _ _ _ | .mig _ _ _ | .cmsg _ _ _ => true
  | _ => false

/-- Instructions that take part of their effect when they begin to wait. -/
def beginsWait : Instr → Bool
  | .bar _ _ | .barw _ _ _ _ | .mig _ _ _ | .qpush _ _ _ => true
  | _ => false

/-- Instructions that touch memory, for R69, which does not list them. DESIGN CHOICE (log 88): those that name a memory address or a graph;
not those on queues, chutes, tickets, cursors already open and the incumbent. -/
def touchesMem : Instr → Bool
  | .ld _ _ _ | .st _ _ | .ldq _ _ _ | .stq _ _ | .ldf _ _ _ | .stf _ _ | .atom _ _ _ | .cas _ _ _ | .fence _ _ _
  | .cwb _ _ | .cinv _ _ _ | .cflush _ _ | .pref _ _ _ _ | .cpy _ _ | .cpyw _ _ | .gath _ _ | .scat _ _
  | .mma _ _ _ | .mlut _ _ _ | .mld _ _ _ | .mst _ _ _ | .bini _ _ _ | .binv _ _ | .barar _ _ _ _ | .barw _ _ _ _
  | .gnew _ _ _ _ | .gadd _ _ _ | .gdel _ _ _ | .gdeg _ _ _ | .gld _ _ _ | .gwt _ _ _ | .gfind _ _ _ | .gopen _ _ _
  | .gnext _ _ _ | .gver _ _ _ | .gfree _ _ _ | .cdisp _ _ _ _ _ | .mig _ _ _ => true
  | _ => false

/-- Instructions that transfer control (R69). -/
def transfers : Instr → Bool
  | .bra _ _ | .bdiv _ _ _ _ | .rjoin _ | .call _ _ | .ret _ | .jmpi _ _ | .exit _ | .tretRetry _ | .tretSkip _
  | .tretEnd _ => true
  | _ => false

/-- The steps that are moves of the device, its controllers and its host. -/
def isMove : Instr → Bool
  | .readMove _ _ | .drain _ | .stamp _ _ | .apply _ _ | .completeMove _ | .evict _ | .matrixOpExecute _ _ | .copyStart _
  | .copyComplete _ _ | .qpushEnqueue _ _ _ | .graphReserve _ | .inListCommit _ | .outListCommit _ | .graphReadMove _
  | .gfreeTakeEffect _ | .incminCommit _ | .incldRead _ | .broadcastArrival _ | .hoopFormation _ _ _ _ | .vatReload _
  | .quotaBoundary _ | .launchAdmission | .blockStart _ _ | .blockSteal _ _ | .blockEnd _ | .launchCompletion _
  | .preemptionDecision _ | .drainTimeout _ | .blockSave _ | .flushAndRestart _ | .blockRestore _ _ | .vacateRequest _ _
  | .timerExpiry _ | .caveDispatchMove _ | .caveInstanceStart _ _ | .cavePreempt _ _ | .caveCompletionMove _
  | .caveHandlerDispatch _ _ | .microInstructionExecute _ _ | .scrubRow _ _ _ | .hotScrub _ _ _ | .regionClear _
  | .qtail _ _ | .qerrClear _ _ | .invreq _ _ | .invalidationComplete _ | .updctl _ _ | .counterClear _ | .berrClear _ _
  | .htcommit _ _ | .tokloWrite _ _ | .configWrite _ _ | .configApply _ | .configForcedBoundary _ | .deviceReset
  | .unitReady _ | .functionLevelReset _ | .dataFlit _ _ | .nakFlit _ _ | .idleFlit _ _ | .retrainRequest _ _
  | .fabricPacket _ _ _ _ | .launchPacket _ _ | .handoverStop _ | .wdogWrite _ | .watchdogExpiry _
  | .attestationRequest _ | .pathMonitorRead _ _ | .hostStore _ _ | .loaderGraphCreation _ | .vacatedCoresRelease _ _
  | .portBringUp _ => true
  | _ => false

/-! ### Candidates (R48) -/

def insAge (x : Nat × Cur) : List (Nat × Cur) → List (Nat × Cur)
  | [] => [x]
  | y :: r => if x.1 < y.1 then x :: y :: r else y :: insAge x r

/-- The splits of a scheduler, oldest first. -/
def ranked (s : State) (core sched : Nat) : List (Nat × Cur) :=
  ((s.waves.filter fun w => w.core == core && w.slot % 4 == sched).flatMap fun w =>
    w.splits.map fun p => (p.age, (⟨w.uid, p.sid⟩ : Cur))).foldr insAge []

/-- R69: does a split that its scheduler issued from last stand at the second word of a pair? -/
def pairDue (s : State) (e : Nat × Cur) (a : Nat) : Bool :=
  e.1 == a && match findWave s e.2.wave with
    | some w => (match findSplit w e.2.sid with | some p => p.second | none => false)
    | none => false

/-- The splits in the order the scheduler tries them: the one whose pair is half issued, then those that follow the one it issued from last,
then the others. -/
def candidates (s : State) (core sched : Nat) : List Cur :=
  let l := ranked s core sched
  let a := kvGet 0 (core * 4 + sched) s.last
  ((l.filter fun e => pairDue s e a) ++ (l.filter fun e => a < e.1) ++ l.filter fun e => e.1 ≤ a).map Prod.snd

/-! ### Merging (R177) -/

def Wait.goes : Wait → Bool
  | .barGo | .barwGo _ | .xlaneGo => true
  | _ => false

/-- The arm split that a resumed split merges into before it issues. -/
def mergeInto (w : Wave) (p : Split) : Option Split :=
  if p.kind == .resumed && !p.wait.goes then
    match armOf w p with
    | some a => if a.pc == p.pc && a.stack == p.stack && !a.wait.goes then some a else none
    | none => none
  else none

/-- The split that issues for `c`, once the merge that comes first has been made. -/
def mergeFirst (s : State) (c : Cur) : Cur × State :=
  match findWave s c.wave with
  | none => (c, s)
  | some w =>
    match findSplit w c.sid with
    | none => (c, s)
    | some p =>
      match mergeInto w p with
      | none => (c, s)
      | some a => (⟨c.wave, a.sid⟩, updWave s c.wave fun w => mergeSplits w p a)

/-! ### Fetch (R67 to R75) -/

/-- PARRF of a die counts one refetch (21 R376). -/
def countRefetch (s : State) (core : Nat) : State := addCtr s (dieReg (dieOfCore core) 0x10) 64 1

/-- What a fetch for a split gives. -/
inductive Fetched
  /-- a cause that takes the lanes before the instruction, with its address -/
  | bad (k : Cause) (addr : Nat)
  /-- a legal word, and whether it heads a pair with the next word -/
  | ok (i : Instr) (pair : Bool)
  | illegal
  deriving DecidableEq, Repr, Inhabited

def pairable (i j : Instr) : Bool :=
  !transfers i && !(touchesMem i && touchesMem j) &&
  !(i.uses.any fun a => a.wr && j.uses.any fun b => a.file == b.file && runsMeet (some (a.first, a.count)) (some (b.first, b.count)))

/-- The word in slot `k` of a line, and whether it and the next may issue together. -/
def lineInstr (x : Ctx) (bs : List Byte) (k : Nat) : Fetched :=
  match decodeSlot (bs.drop (slotOff k)) with
  | .error _ => .illegal
  | .ok i =>
    if !fitsAt i x.w.nregs x.w.ntiles x.p.pc then .illegal
    else .ok i (linePair bs k && match decodeSlot (bs.drop (slotOff (k + 1))) with
      | .ok j => pairable i j
      | .error _ => false)

/-- The fetch and the checks before an instruction executes (R75). -/
def fetchWord (s : State) (x : Ctx) : Fetched × State :=
  let line := lineOf x.p.pc
  match fetchParity s x.l x.w.core (fetchFrom x.l x.p) line with
  | (.error k, s) => (.bad k (pcVa x.p.pc), s)
  | (.ok (none, again), s) => (.bad .ifpar (pcVa line), (List.range again).foldl (fun s _ => countRefetch s x.w.core) s)
  | (.ok (some bs, again), s) =>
    let s := (List.range again).foldl (fun s _ => countRefetch s x.w.core) s
    match slotOf (x.p.pc % 64) with
    | none => (.illegal, s)
    | some k => (if lineWordOk bs then lineInstr x bs k else .illegal, s)

/-- What a split is about to issue: one that waits at an instruction has fetched it (log 111). -/
def fetchFor (s : State) (x : Ctx) : Fetched × State :=
  match x.p.under with
  | some u => (.ok u.1 u.2, s)
  | none => fetchWord s x

/-! ### The attempt to issue -/

/-- What an attempt to issue from a split comes to. -/
inductive Prep
  /-- not eligible -/
  | skip (s : State)
  /-- a trap was taken, or the instruction is held -/
  | taken (s : State)
  /-- the instruction executes in `s`; `tm`: it would issue, but TIMER is taken instead -/
  | run (c : Cur) (i : Instr) (pair : Bool) (s : State) (tm : Option State)

/-- A trap taken before the instruction at PC executes: the other lanes of the split stay at it. DESIGN CHOICE (log 94): it does not count
in RET (08 R181). -/
def preTrap (s : State) (x : Ctx) (k : Cause) (addr : DWord) : State :=
  if x.p.kind == .arm && (companion x.w x.p).isSome then { holdSplit s x.c with issued := false }
  else takeTrap (updSplit { s with issued := true } x.c fun p => { p with wait := .none, held := false, under := none, second := false }) x.c
    ((lanesOf x.em).map fun l => ⟨l, k, addr⟩) k x.p.pc

/-- Does the split issue at all (R49, R170, R177)? -/
def canIssue (s : State) (x : Ctx) : Bool :=
  liveOf x.w x.p != 0 && blkIssues s x.w.blk && !x.p.stopped && !(x.p.held && (companion x.w x.p).isSome)

/-- Is TIMER taken at this instruction, if it issues (R178)? -/
def timerHere (x : Ctx) : Bool := x.w.timer && x.p.kind == .arm && (companion x.w x.p).isNone && !x.p.wait.goes

/-- An instruction under way has issued already: TIMER waits for the next. -/
def underWay (i : Instr) (p : Split) : Bool := beginsWait i && ((p.wait != .none && p.wait != .order) || p.qdone != 0)

def takeTimer (s : State) (x : Ctx) : State :=
  preTrap (updWave s x.c.wave fun w => { w with wtdl := 0, timer := false }) x .timer 0

/-- Does the guard of a wave-uniform instruction agree (R62)? -/
def guardOk (x : Ctx) (i : Instr) : Bool :=
  !wordUniform i || match i.guard? with | some g => (guardAgree x g).isSome | none => true

def prepare (c0 : Cur) (s0 : State) : Prep :=
  let m := mergeFirst s0 c0
  match ctxOf { m.2 with cur := some m.1 } with
  | none => .skip s0
  | some x =>
    let s := { m.2 with cur := none, issued := false }
    if !canIssue s x then .skip s
    else
      match fetchFor s x with
      | (.bad k a, s) => .taken (preTrap s x k (BitVec.ofNat 64 a))
      | (.illegal, s) => .taken (finish s x (illop s x))
      | (.ok i pair, s) =>
        if scoreboardBusy x.w x.p i then .skip s
        else if !guardOk x i then .run m.1 i pair { s with cur := some m.1 } none
        else if timerHere x && !underWay i x.p then
          if beginsWait i || x.p.caveErr.isSome then .taken (takeTimer s x)
          else .run m.1 i pair { s with cur := some m.1 } (some (takeTimer s x))
        else
          match x.p.caveErr with
          | some a => .taken (preTrap (updSplit s x.c fun p => { p with caveErr := none }) x .caveerr a)
          | none => .run m.1 i pair { s with cur := some m.1 } none

/-- R69: count a pair where the instruction at `pc0` headed one and its split goes on at the next slot. -/
def notePair (c : Cur) (pc0 : VAddr) (pair : Bool) (s : State) : State :=
  match findWave s c.wave with
  | none => s
  | some w =>
    match findSplit w c.sid with
    | none => s
    | some p =>
      let go := pair && !p.second && p.pc == nextPc pc0
      let s := updSplit s c fun p => { p with second := go }
      if go then addPerf s w.core 2 1 else s

/-- The PC of a split. -/
def pcOfSplit (s : State) (c : Cur) : VAddr :=
  match findWave s c.wave with
  | none => 0
  | some w => match findSplit w c.sid with | some p => p.pc | none => 0

end Sys2Proof.Machine
end

