-- ==== Sys2Proof/Machine/Clock.lean ====
section
/-! DEFINITION. The front clocks of the dies (00 R3, R5, 21 R371 to R373). -/

namespace Sys2Proof.Machine

/-- Is the quota boundary of a die's present cycle still to be taken (14 R286)? The dispatcher holds it while its image is
replaced (23 R403). -/
def quotaDue (s : State) (d : Nat) : Bool :=
  let c := vecGet s.dcyc 0 d
  c.toNat % 1024 == 0 && c != vecGet s.quotaAt 0 d && (vecGet s.ctls .reset 1).phase == .armed

/-- Does a die's present cycle wait for something that falls in it: a quota boundary, a broadcast, a deadline, the end of a drain's time,
held writes that take effect, or, at its start, blocks and waves that start? -/
def cycleHeld (s : State) (d : Nat) : Bool :=
  quotaDue s d || bcastDue s d || s.waves.any (fun w => waveDie w == d && timerDue s w) || drainDue s d || startDue s d || hoopDue s d ||
  applyDue s (uDie d) || forceDue s (uDie d)

/-- One cycle of a die's front clock: it ends once what falls due in it has been done. -/
def tickS (d : Nat) (s : State) : State :=
  if nDies ≤ d || cycleHeld s d then s
  else
    let s := countHeld (retireBlocks s d) (uDie d)
    { s with
      dcyc := vecUpd s.dcyc 0 d (· + 1)
      begun := vecSet s.begun d false
      tasks := { s.tasks with reloads := vecSet s.tasks.reloads d 0 }
      waves := s.waves.map fun w =>
        if waveDie w != d then w
        else { w with wnew := false, wcyc := if resident s w then w.wcyc + 1 else w.wcyc } }

/-- The start of a die's cycle is over at its first instruction, which waits for what the start does (02 R42, 08 R183, 20 R370). -/
def beginCycle (d : Nat) (s : State) : Option State :=
  if vecGet s.begun true d then some s
  else if startDue s d || hoopDue s d || drainDue s d then none
  else some { s with begun := vecSet s.begun d true }

end Sys2Proof.Machine
end

