-- ==== Sys2Proof/Machine/Window.lean ====
section
/-! DEFINITION. What reads of the register windows return (23 R386, R391 to R393, 04 R95, 09 R209, 16 R332): every read gives the value in
effect, and an offset with no register reads 0. -/

namespace Sys2Proof.Machine

/-- CFGSTAT of a unit: CFGPEND is 1 while a held write waits (04 R95). -/
def cfgStat (s : State) (u : Nat) : Nat := (s.held.any (·.unit == u)).toNat

/-- CTLSTAT of a controller (R392). -/
def ctlStat (c : Ctl) : Nat :=
  c.active.toNat + 2 * c.armed.toNat + 4 * c.rolled.toNat + 8 * c.restart.toNat + 16 * c.refused.toNat + 32 * c.busy.toNat

/-- VERSION of the active image; DESIGN CHOICE (log 100): 0 for the image that a bank was shipped with. -/
def ctlVersion (c : Ctl) : Nat := match activeImage c with | some i => i.version.toNat | none => 0

/-- BERR of a bank as its 128 bits (16 R332). -/
def berrBits (e : BankErr) : Nat :=
  e.valid.toNat + 2 * e.ovf.toNat + 2 ^ 9 * (e.w % 8) + 2 ^ 16 * (e.skc % 16) + 2 ^ 32 * e.f.toNat + 2 ^ 64 * e.paddr.toNat

/-- An entry of a stack's hot list (09 R209). -/
def hotBits (s : State) (n i : Nat) : Nat :=
  match (hotRows s n)[i]? with | some h => h.row % 2 ^ 32 + 2 ^ 32 * (h.score % 256) + 2 ^ 40 | none => 0

/-- A register that covers a byte of a block: its offset, its length and its value. -/
abbrev Reg3 := Option (Nat × Nat × Nat)

def within (off base n : Nat) : Bool := base ≤ off && off < base + n
/-- One register of `k` of `n` bytes that stand one after the other. -/
def regOf (off base n k : Nat) (f : Nat → Nat) : Reg3 :=
  if within off base (n * k) then let i := (off - base) / n; some (base + n * i, n, f i) else none

def regIn : List Reg3 → Reg3
  | [] => none
  | x :: r => match x with | some y => some y | none => regIn r

def pfBytes (s : State) (off base n : Nat) : Reg3 := if within off base n then some (off, 1, (memByte s.pf off).toNat) else none

/-- A controller's block (R392): UPDCTL is only written. -/
def ctlReg (c : Ctl) (o : Nat) : Reg3 :=
  regIn [regOf o 0 4 1 fun _ => ctlStat c, regOf o 8 8 1 fun _ => c.updaddr.toNat, regOf o 16 8 1 fun _ => c.updlen.toNat,
    regOf o 0x1C 4 1 fun _ => ctlVersion c, regOf o 0x20 4 1 fun _ => c.wdog]

/-- A counter that stands at an offset of the window (21 R376). -/
def ctrAt (s : State) (off : Nat) : Nat := kvGet 0 off s.ctrs

def dieBlock (s : State) (base o : Nat) : Reg3 :=
  regIn [regOf o 0 4 1 fun _ => cfgStat s (uDie ((base - 0x40000) / 65536)), regOf o 0x08 8 3 fun i => ctrAt s (base + 8 + 8 * i), regOf o 0x100 4 6 fun i => ctrAt s (base + 0x100 + 4 * i),
    regOf o 0x120 4 6 fun i => ctrAt s (base + 0x120 + 4 * i)]

def stackBlock (s : State) (n base o : Nat) : Reg3 :=
  regIn [regOf o 0 4 1 fun _ => cfgStat s (uGraph n), regOf o 0x08 8 1 fun _ => ctrAt s (base + 8),
    regOf o 0x10 4 1 fun _ => ctrAt s (base + 0x10), regOf o 0x14 4 1 fun _ => sparesLeft s n,
    regOf o 0x18 4 1 fun _ => ctrAt s (base + 0x18), regOf o 0x1040 4 16 fun i => cfgStat s (uSk n i),
    if within o 0x2000 8192 then some (o, 1, (memByte s.pf (base + o)).toNat) else none,
    regOf o 0x4000 8 4096 fun i => hotBits s n i, regOf o 0x10000 16 2048 fun i => berrBits (berrGet s (n * 2048 + i))]

/-- A register of the physical function's window, with its offset there. -/
def pfReg (s : State) (off : Nat) : Reg3 :=
  let at0 := fun base (r : Reg3) => r.map fun x => (base + x.1, x.2)
  if within off 0x10000 (21 * 4096) then
    let base := 0x10000 + 4096 * ((off - 0x10000) / 4096)
    at0 base (ctlReg (ctlGet s ((off - 0x10000) / 4096)) (off - base))
  else if within off 0x40000 (4 * 65536) then
    let base := 0x40000 + 65536 * ((off - 0x40000) / 65536)
    at0 base (dieBlock s base (off - base))
  else if within off 0x1000000 (16 * 131072) then
    let n := (off - 0x1000000) / 131072
    let base := 0x1000000 + 131072 * n
    at0 base (stackBlock s n base (off - base))
  else
    regIn [regOf off 0 4 1 fun _ => s.fready.toNat, regOf off 4 4 1 fun _ => s.ffail.toNat, regOf off 8 4 1 fun _ => s.devno % 2 ^ 22,
      regOf off 0x10 4 1 fun _ => cfgStat s uDispatch, pfBytes s off 0x1000 8192, regOf off 0x90000 4 1 fun _ => cfgStat s uMemory,
      pfBytes s off 0x90100 10, pfBytes s off 0x90120 32, regOf off 0x90200 8 16 fun i => ctrAt s (0x90200 + 8 * i),
      regOf off 0xA0000 4 1 fun _ => cfgStat s uFabric, regOf off 0xA0100 8 40 fun i => ctrAt s (0xA0100 + 8 * i)]

/-- A register of a virtual function's window (R386): INVREQ is only written. -/
def vfReg (v : VfRegs) (off : Nat) : Reg3 :=
  regIn [regOf off 0x00 8 1 fun _ => v.qbase.toNat, regOf off 0x08 4 1 fun _ => v.qlen.toNat, regOf off 0x0C 4 1 fun _ => v.qtail.toNat,
    regOf off 0x10 4 1 fun _ => v.qhead.toNat, regOf off 0x14 4 1 fun _ => v.qerr.toNat, regOf off 0x18 8 1 fun _ => v.invaddr.toNat,
    regOf off 0x20 8 1 fun _ => v.invlen.toNat, regOf off 0x2C 4 1 fun _ => v.invdone.toNat, regOf off 0x30 4 1 fun _ => v.msien.toNat]

/-- The byte that a register gives at an offset. -/
def regByte (r : Reg3) (off : Nat) : Byte :=
  match r with | some (b, _, v) => BitVec.ofNat 8 (v / 256 ^ (off - b)) | none => 0

/-- A read of `n` bytes of a window. -/
def windowRead (s : State) (a : CfgAddr) (n : Nat) : List Byte :=
  (List.range n).map fun i =>
    match a with
    | .pf off => regByte (pfReg s (off + i)) (off + i)
    | .vf fn off => if fn < 64 then regByte (vfReg (vfGet s fn) (off + i)) (off + i) else 0

end Sys2Proof.Machine
end

