-- ==== Sys2Proof/Machine/Sched.lean ====
section
/-! DEFINITION. One move of the package (10 R213, 02 R48), over the meanings of the instructions, and where a program's instruction is
placed so that the next move runs it. -/

namespace Sys2Proof.Machine

/-! ### A scheduler's turn (R48, R49) -/

/-- A split that waits at an instruction keeps it (log 111). -/
def holdInstr (c : Cur) (i : Instr) (pair : Bool) (s : State) : State :=
  updSplit s c fun p => if p.wait == .none then p else { p with under := some (i, pair) }

/-- The scheduler tries its splits in order: the first that issues, or that takes a trap, ends its turn. A split whose instruction
turns out to wait, or that would reach a unit not yet ready (23 R394), leaves the turn to the next. -/
def tryIssue (ex : Instr → State → Out) : List Cur → State → Out
  | [], s => .next s
  | c :: r, s =>
    match prepare c s with
    | .skip t => tryIssue ex r (if waitsUnit t then s else t)
    | .taken t => if waitsUnit t then tryIssue ex r s else .next t
    | .run c i pair t tm =>
      match ex i t with
      | .next v =>
        if waitsUnit v then tryIssue ex r s
        else if v.issued then
          match tm with
          | some w => .next w
          | none => .next (notePair c (pcOfSplit t c) pair v)
        else tryIssue ex r (holdInstr c i pair v)
      | .fault f => .fault f
      | .refused f => .refused f

/-- R96: the memory controller, or a die's units, that make a boundary take no new work. -/
def frontHeld (s : State) (core : Nat) : Bool := atLimit s uMemory || atLimit s (uDie (dieOfCore core))

def frontMove (ex : Instr → State → Out) (core sched : Nat) (s : State) : Out :=
  match if frontHeld s core then none else beginCycle (dieOfCore core) s with
  | none => .next s
  | some s => tryIssue ex (candidates s core sched) s

/-- A stack core's turn (16 R313). -/
def caveMove (ex : Instr → State → Out) (n c : Nat) (s : State) : Out :=
  match cavePrepare s n c with
  | .idle => .next s
  | .taken t => .next t
  | .run i t => ex i t

/-- The stacks whose banks a graph operation's move reaches (12 R255). -/
def gopStacks (s : State) (n : Nat) : List Nat :=
  match findGop s n with
  | none => []
  | some o =>
    match findGraph s o.tenant o.handle with
    | none => []
    | some g => (o.u.toList ++ o.v.toList).map (graphHome g)

/-- The stacks whose banks a move of the device reaches otherwise than by an access to a byte. -/
def stacksOf (i : Instr) (s : State) : List Nat :=
  match i with
  | .graphReserve n | .inListCommit n | .outListCommit n | .graphReadMove n | .gfreeTakeEffect n => gopStacks s n
  | .scrubRow n _ _ | .hotScrub n _ _ => [n]
  | _ => []

/-- The program on whose behalf a move acts (16 R331): of the two streams of a core, the one that the move has changed. -/
def ownOf (m : Move) (s t : State) (u : CurCave) : Bool :=
  match m with
  | .cave n c => u == caveTurn s n c
  | .ev (.microInstructionExecute n c) => u.stack == n && u.skc == c && ctxGet s u != ctxGet t u
  | _ => false

/-- R96: does a move, from `s` to `t`, begin new work on a die: a wave or a block, a copy, an engine operation, or a reload? -/
def beginsWork (m : Move) (s t : State) (d : Nat) : Bool :=
  match m with
  | .mxRead w o _ | .ev (.matrixOpExecute w o) =>
    (findWave s w).any fun v => waveDie v == d && !(v.mxOps.any fun k => k.id == o && k.chk.isSome)
  | .ev (.copyStart b) => (findBlock s b).any fun b => dieOfCore b.core == d
  | .ev (.vatReload e) | .ev (.hoopFormation e _ _ _) => e == d
  | .ev (.blockStart _ _) | .ev (.blockSteal _ _) | .ev (.blockRestore _ _) =>
    t.blocks.any fun b => dieOfCore b.core == d && (findBlock s b.uid).isNone
  | _ => false

/-- R96: a move that begins new work on a die whose units make a boundary waits. -/
def workHeld (m : Move) (s t : State) : Bool := (List.range nDies).any fun d => atLimit s (uDie d) && beginsWork m s t d

/-- A move that reaches a unit not yet ready waits (23 R394); its accesses are other programs' traffic at the stacks they reach. -/
def afterMove (m : Move) (s : State) (o : Out) : Out :=
  match o with
  | .next t =>
    if waitsUnit t || workHeld m s t then .next s
    else .next (noteTraffic (ownOf m s t) ((match m with | .ev i => stacksOf i s | _ => []) ++
      (t.mem.touch.filter fun k => 9 ≤ k && k < 25).map (· - 9)) t)
  | o => o

/-- The controller whose image puts a move out to its units (23 R401, R403). -/
def outputOf (i : Instr) (s : State) : Option Nat :=
  match i with
  | .launchAdmission | .blockStart _ _ | .blockSteal _ _ | .preemptionDecision _ | .quotaBoundary _ => some 1
  | .portBringUp _ => some 2
  | .scrubRow _ _ _ | .hotScrub _ _ _ | .invalidationComplete _ => some 3
  | .pathMonitorRead _ _ => some 4
  | .caveInstanceStart n _ | .cavePreempt n _ | .caveHandlerDispatch n _ => if n < nStacks then some (5 + n) else none
  | .caveDispatchMove w => (findWork s w).bind fun w => if w.stack < nStacks then some (5 + w.stack) else none
  | _ => none

/-- Moves of the device that begin accesses: they wait while the memory controller makes a boundary (R96). A copy that has begun to read, and
an engine operation whose rows have been checked, are under way already. -/
def beginsAccess (i : Instr) (s : State) : Bool :=
  match i with
  | .matrixOpExecute w o => !((findWave s w).any fun v => v.mxOps.any fun k => k.id == o && k.chk.isSome)
  | .copyComplete b c => !((findBlock s b).any fun v => v.copies.any fun k => k.id == c && (k.wrote || !k.got.isEmpty))
  | .graphReserve _ | .inListCommit _ | .outListCommit _ | .graphReadMove _ | .gfreeTakeEffect _ | .vatReload _ | .hoopFormation _ _ _ _
  | .launchAdmission | .blockStart _ _ | .blockSteal _ _ | .blockEnd _ | .launchCompletion _ | .blockSave _ | .flushAndRestart _
  | .blockRestore _ _ | .caveDispatchMove _ | .caveHandlerDispatch _ _ | .caveCompletionMove _ | .updctl _ _ | .functionLevelReset _
  | .hostStore _ _ | .loaderGraphCreation _ => true
  | _ => false

/-- What a move does. An instruction of a program is no move of the device: it executes only in a split or a stack core. -/
def runMove (ex : Instr → State → Out) (m : Move) (s : State) : Out :=
  match m with
  | .front c k => frontMove ex c k s
  | .cave n c =>
    if atLimit s uMemory && !((ctxGet s (caveTurn s n c)).any fun x => x.part.isSome) then .next s else caveMove ex n c s
  | .tick d => .next (tickS d s)
  | .tickStack n => .next (tickStackS n s)
  | .tickCtl k => .next (tickCtlS k s)
  | .mxRead w o k => .next (if atLimit s uMemory && beginsAccess (.matrixOpExecute w o) s then s else (mxReadS s w o k).getD s)
  | .copyRead b c k => .next (if atLimit s uMemory && beginsAccess (.copyComplete b c) s then s else (copyReadS s b c k).getD s)
  | .evictX d dev k => .next (evictX s d dev k)
  | .evictClean d k => .next (evictClean s d k)
  | .tlbMiss c => .next (if c < nCores then addPerf s c 10 1 else s)
  | .ecc e => .next (eccS s e)
  | .offer p b => .next (offerS s p b)
  | .linkSend p => .next ((linkSendS s p).getD s)
  | .route b => .next (routeS s b)
  | .imageStart k => .next ((imageStartS s k).getD s)
  | .ev i =>
    if !isMove i || (atLimit s uMemory && beginsAccess i s) then .next s
    else match outputOf i s with
      | some k => if (ctlGet s k).phase == .starting then .next (holdOutput s k i) else ex i s
      | none => ex i s

/-- One move. -/
def moveWith (ex : Instr → State → Out) (m : Move) (s : State) : Out :=
  let s := { s with mem := { s.mem with touch := [] } }
  afterMove m s (runMove ex m s)

/-- The next move: the first of the agenda, or, when that is empty, one of the free schedule (log 1). -/
def takeMove (s : State) : Move × State :=
  match s.agenda with
  | m :: r => (m, { s with agenda := r })
  | [] => (Config.freeMove s.moveCtr, { s with moveCtr := s.moveCtr + 1 })

/-! ### Placing one instruction (log 5) -/

def codeVa : Nat := 0x1000
def tableAt : Nat := 0x10000

/-- Bytes in every die's view, put there from outside. -/
def pokeBytes (m : MemSys) (pa : Nat) (bs : List Byte) : MemSys :=
  { m with
    view := m.view.map fun v => { memPutBytes v pa bs with psn := v.psn.filter fun k => !(pa ≤ 8 * k + 7 && 8 * k < pa + bs.length) }
    wlog := m.wlog.filter fun e => !(pa ≤ e.pa && e.pa < pa + bs.length)
    uncleared := delNat (regionOf pa) m.uncleared }

/-- An entry of a page table. -/
def pokeEntry (m : MemSys) (tbl : Nat) (e : Pte) : MemSys := pokeBytes m tbl (leBytes e 16)

/-- The stacks that hold the placed bytes serve (23 R394). -/
def readyFor (s : State) : State :=
  { s with fready := [codeVa, tableAt, tableAt + 0x2000, tableAt + 0x4000].foldl (fun f a => f ||| (1#32 <<< unitBit s a)) s.fready }

/-- Three tables that map the first GiB of virtual addresses to the first GiB of HBM, readable, writable, executable and reachable
from the cave level, and the code bytes. -/
def pokeCode (s : State) (code : List Byte) : State :=
  let home := if interleaved s 0 then 0x1F else 0
  let leaf := 1 + 2 + 4 + 8 + 16 + 64 + home * 2 ^ 64
  let m := pokeEntry s.mem tableAt (1 + (tableAt + 0x2000))
  let m := pokeEntry m (tableAt + 0x2000) (1 + (tableAt + 0x4000))
  let m := pokeEntry m (tableAt + 0x4000) leaf
  readyFor { s with mem := pokeBytes m codeVa code }

/-- A launch record with those tables, with everything a single block may use. -/
def hostRec : LaunchRec where
  tenant := 0
  prio := 0
  idemp := false
  steal := false
  code := codeVa
  grid := 1
  block := 32
  search := none
  levels := []
  regs := 256
  tiles := 8
  producer := 0xFF
  spad := 65536
  lpriv := 1024
  dspad := 65536
  core0 := 0
  ncores := 768
  e := 0
  bitmap := 0
  depBitmap := 0
  map := []
  redBase := 0
  redLen := 0
  status := 0
  wins := []
  stages := []
  root := tableAt
  clo := 0
  chi := 2 ^ 30
  priv := false
  spillBase := 0
  spillLen := 0
  pinBase := 0
  pinLen := 0
  ctxBase := 0
  ctxLen := 0

def hostLaunch (s : State) (u : Nat) : Launch where
  uid := u
  adm := s.admSeq
  lr := hostRec
  recAddr := 0
  from64 := 64
  admT := s.mem.clk
  vec := .replicate 4 0
  flags := 0
  tcode := 0
  ccode := 0
  sreason := 0
  saddr := 0
  ended := 0
  todo := []
  quota := []
  admCyc := s.dcyc
  winAt := []
  ds := .replicate 4 .empty
  rel := none
  nextTab := 0
  saveList := 0

def hostBlock (s : State) (u launch : Nat) : Block where
  uid := u
  launch := launch
  core := 0
  bid := 0
  hoop := false
  stage := 0
  started := s.nid
  nwaves := 1
  spad := .empty
  lp := .empty
  ret := 0
  chutes := []
  bars := []
  copies := []
  mode := .run
  ctx := []

/-- A wave as a block starts it, with every lane active, in slot 0 of core 0. -/
def hostWave (u launch blk : Nat) (p : Split) : Wave where
  uid := u
  launch := launch
  blk := blk
  core := 0
  slot := 0
  hoop := false
  stage := 0
  waveid := 0
  blockid := 0
  lvls := .replicate 6 0
  nregs := 256
  ntiles := 8
  g := List.replicate 256 zeroLanes
  s := .replicate 64 0
  p := .replicate 8 0
  em := allLanes
  exited := 0
  q := .replicate 16 (.replicate 32 .closed)
  tiles := List.replicate 8 ⟨.f32, []⟩
  accInf := false
  accSat := false
  fmtErr := false
  mxOps := []
  mxBatches := []
  mxCtr := 0
  mxSerial := 0
  wcyc := 0
  wtdl := 0
  timer := false
  wnew := false
  thb := 0
  tbnd := .replicate 32 0
  task := 0
  ticketCtr := 0
  tickets := []
  splits := [p]
  orph := []

/-- A rank above every split's and every scheduler's last. -/
def topAge (s : State) : Nat :=
  (s.waves.flatMap fun w => w.splits.map Split.age).foldl max (s.last.foldl (fun a e => max a e.2) 0) + 1

/-- A front word where scheduler 0 of core 0 fetches next. -/
def placeFront (s : State) (w : BitVec 96) : State :=
  let n := s.nid
  let a := topAge s
  let s := pokeCode s (makeLine [w] 31 0)
  { s with
    nid := n + 4
    launches := s.launches ++ [hostLaunch s n]
    blocks := s.blocks ++ [hostBlock s (n + 1) n]
    waves := s.waves ++ [hostWave (n + 2) n (n + 1) (newSplit (n + 3) (n + 3) .arm codeVa allLanes a)]
    last := kvPut 0 0 (a - 1) s.last
    begun := vecSet s.begun 0 true
    agenda := .front 0 0 :: s.agenda }

/-- A cave word where stack core 0 of stack 0 fetches next. -/
def placeCave (s : State) (w : DWord) : State :=
  let n := s.nid
  let s := pokeCode s (leBytes w.toNat 8)
  let k := { sentWork (n + 1) n 0 ⟨0, 0, 0, n, 0, .replicate 4 0, none⟩ with kind := .cdisp }
  let x := newCtx s (.inst (n + 1) 0) n 0 codeVa 0 0 (0, 2 ^ 20)
  { skUpd s 0 0 (fun c => { c with prog := some x, hand := none }) with
    nid := n + 2
    launches := s.launches ++ [hostLaunch s n]
    cave := { (skUpd s 0 0 fun c => { c with prog := some x, hand := none }).cave with works := s.cave.works ++ [k] }
    fready := s.fready ||| (1#32 <<< 9)
    agenda := .cave 0 0 :: s.agenda }

end Sys2Proof.Machine
end

