-- ==== Sys2Proof/Machine/Step.lean ====
section
/-! DEFINITION. One step of the package. -/

namespace Sys2Proof.Machine

/-- One step: the next move (`takeMove`), made over the meanings of the instructions (`exec`). -/
def step (s : State) : Host.Outcome State Fault Refusal := moveWith exec (takeMove s).1 (takeMove s).2

/-- An instruction placed where the next step runs it (log 5): a word of 64 bits in a stack core, any other in a front core. -/
def State.withFetchWord (s : State) (nbits w : Nat) : State :=
  if nbits == 64 then placeCave s (BitVec.ofNat 64 w) else placeFront s (BitVec.ofNat 96 w)

end Sys2Proof.Machine
end

