-- ==== Sys2Proof/Safety.lean ====
section
/-! DEFINITION. The terms in which statements speak of a safe run: a split that issues, a quiet wave, what one issued instruction
leaves, and what of memory and registers it leaves alone. -/

namespace Sys2Proof.Machine

/-! ### A split that issues -/

/-- No result of a long-latency instruction is outstanding in the wave (R64). -/
def Wave.quiet (w : Wave) : Prop := (∀ p ∈ w.splits, p.wins = []) ∧ w.orph = []

/-- `x` is the split that issues in `s`: its wave is quiet, and some of its lanes have not exited. -/
structure Issuing (s : State) (x : Ctx) : Prop where
  ctx : ctxOf s = some x
  quiet : x.w.quiet
  live : liveOf x.w x.p ≠ 0

/-- The context with the active lanes of a guard (R61). -/
def Ctx.guarded (x : Ctx) (g : Guard) : Ctx := { x with act := x.em &&& guardMask x.w g }

/-- A guard true at the split, as a wave-uniform instruction needs it (R62). -/
def Ctx.agrees (x : Ctx) (g : Guard) : Prop := guardAgree x g = some true

/-! ### What an issued instruction leaves -/

/-- The issuing split once its instruction has completed: at `pc`, waiting for nothing, with the windows `ws` it opened. -/
def nextSplit (pc : VAddr) (ws : List Win) (p : Split) : Split :=
  { p with pc := pc, wins := ws, wait := .none, skip := if p.kind == .handler then p.skip else 0, qdone := 0, held := false, under := none }

/-- `s`, once the split of `x` has issued an instruction that did `f` to its wave, opened the windows `ws` and went on at `pc`:
one more instruction is counted for the block (08 R181) and the core (21 R374), and nothing else changes. -/
def issuedWith (s : State) (x : Ctx) (pc : VAddr) (ws : List Win) (f : Wave → Wave) : State :=
  { s with
    cur := none
    issued := true
    last := kvPut 0 (x.w.core * 4 + x.w.slot % 4) x.p.age s.last
    perf := (addPerf s x.w.core 1 1).perf
    blocks := updFirst (·.uid == x.w.blk) (fun b => { b with ret := b.ret + 1 }) s.blocks
    waves := updFirst (·.uid == x.c.wave) (fun w => updSplitW (f w) x.c.sid (nextSplit pc ws)) s.waves }

/-- The same, with no window opened. -/
def issuedAt (s : State) (x : Ctx) (pc : VAddr) (f : Wave → Wave) : State := issuedWith s x pc [] f

/-- The state after an instruction that has set its own PC, the splits being what its meaning made them. -/
def issuedHere (s : State) (x : Ctx) : State :=
  { s with
    cur := none
    issued := true
    last := kvPut 0 (x.w.core * 4 + x.w.slot % 4) x.p.age s.last
    perf := (addPerf s x.w.core 1 1).perf
    blocks := updFirst (·.uid == x.w.blk) (fun b => { b with ret := b.ret + 1 }) s.blocks
    waves := updFirst (·.uid == x.c.wave) (fun w => updSplitW w x.c.sid fun p => nextSplit p.pc [] p) s.waves }

/-- The split of `x` waits at its instruction, which has not issued. -/
def waitsAt (s : State) (x : Ctx) (k : Wait) : State := { waitAt s x k with issued := false, cur := none }

/-- The results of a register-computing instruction (R61, R83, R124): in each active lane, or once. -/
def resultW (x : Ctx) (u wide : Bool) (d : Reg) (f : Nat → DWord) (w : Wave) : Wave :=
  if u then match lowLane x.act with | none => w | some l => setSd w wide d (f l)
  else setGd w wide d x.act f

/-- Instruction `i`, issued by the split of `x`, completes: it goes on at next(PC) with the values `v` in D, its operands having
been read in `sb`. -/
def Computes (i : Instr) (g : Guard) (u wide : Bool) (d : Reg) (s : State) (x : Ctx) (sb : State) (v : Nat → DWord) : Prop :=
  exec i s = .next (issuedAt sb x (nextPc x.p.pc) (resultW (x.guarded g) u wide d v))

/-- The lane results of a window of a register result (R64). -/
def laneResults (m : Mask) (wide : Bool) (v : Nat → DWord) : List LaneRes :=
  (lanesOf m).map fun l => ⟨l, wordsOf wide (v l), none, none⟩

/-- The window in which a result stands until the split has issued `la` more instructions (R64). -/
def resultWin (n : Nat) (la : BitVec 4) (u wide : Bool) (d : Reg) (m : Mask) (v : Nat → DWord) : Win :=
  if u then ⟨n, la.toNat, false, 0, false, none, some (d.toNat, wid wide), none, none, [],
    match lowLane m with | some l => wordsOf wide (v l) | none => [], 0⟩
  else ⟨n, la.toNat, false, 0, false, some (d.toNat, wid wide), none, none, none, laneResults m wide v, [], 0⟩

/-- An instruction with lookahead `la` completes with the values `v` in D: with `la` 0 at once, otherwise in a window that it
opens (R64). With no active lane the window opens, and nothing is written (R61). -/
def ComputesLater (i : Instr) (g : Guard) (la : BitVec 4) (u wide : Bool) (d : Reg) (s : State) (x : Ctx) (sb : State)
    (v : Nat → DWord) : Prop :=
  let m := (x.guarded g).act
  let w := resultWin sb.nid la u wide d m v
  let sn := { sb with nid := sb.nid + 1 }
  exec i s = .next
    (if la = 0 then issuedAt sn x (nextPc x.p.pc) fun v => applyWin v w
     else issuedWith sn x (nextPc x.p.pc) [w] fun w => w)

/-- The split of `x` may use a named barrier at `a` (R380): its record lies in the scratchpad of the block `b`, aligned, and no
store of the split's lanes to it is on its way. -/
structure BarrierAt (s : State) (x : Ctx) (a : Nat) (b : Block) : Prop where
  aligned : a % 16 = 0
  inside : a + 16 ≤ x.l.lr.spad
  block : findBlock s x.w.blk = some b
  drained : (s.mem.wb.any fun w => w.lane.wave == x.w.uid && (liveOf x.w x.p).getLsbD w.lane.lane &&
    overlap w.loc w.bytes.length (.spad b.uid a) 16) = false

/-! ### Lookahead windows (03 R64, R65) -/

/-- The wave once an instruction of a split that closes every window has closed the split's: what has arrived takes effect. -/
def closedW (w : Wave) (sid : Nat) : Wave :=
  settleW (updSplitW w sid fun p => { p with wins := closeWins (fun _ => true) p.wins })

/-- The wave once a split has issued an instruction with no effect of its own, in a state whose next number is `n`, and goes on at `pc`: its
windows run down, and what has then closed takes effect. -/
def goesOnW (w : Wave) (sid n : Nat) (pc : VAddr) : Wave :=
  updSplitW (settleW (updSplitW w sid fun p => { p with
    wins := tickWins n p.wins, wait := .none, skip := if p.kind == .handler then p.skip else 0, qdone := 0, held := false, under := none }))
    sid fun p => { p with pc := pc }

/-! ### Accesses -/

/-- Every active lane of an access passes its checks (R231): `ks` says where each one's bytes lie, `sc` is the state after. -/
def Passes (s : State) (x : Ctx) (g : Guard) (sp : Space) (acc : Acc) (al n : Nat) (a : Reg) (off : Word) (ks : List LaneLoc)
    (sc : State) : Prop :=
  checkLanes (x.guarded g) sp acc al n (laneAddr x.w sp a off) (lanesOf (x.guarded g).act) s = (ks, [], sc)

/-- The window of a long-latency instruction that has just issued, for the lanes `need` (R64); with lookahead 0 it is closed at once, and
gone where no result is to come. -/
def issuedWin (n : Nat) (la : BitVec 4) (d : Dest) (need : Mask) (sneed : Bool) : List Win :=
  if la = 0 ∧ need = 0 ∧ sneed = false then []
  else [⟨n, la.toNat, la == 0, need, sneed, d.gd, d.sd, d.qd, d.pd.map BitVec.toNat, [], [], if la = 0 ∧ d.sd.isSome then 1 else 0⟩]

/-- A per-lane read issued by the split of `x`: the reads `rs` enter the lanes' issue streams, and a window is open for their
results. -/
def IssuesReads (i : Instr) (la : BitVec 4) (s : State) (x : Ctx) (sc : State) (gd : Nat × Nat) (need : Mask) (kind : ActKind)
    (rs : List (Nat × List (Loc × Nat) × Post)) : Prop :=
  let n := sc.nid
  exec i s = .next (issuedWith (issueReads { sc with nid := n + 2 } x.w n (n + 1) kind rs) x (nextPc x.p.pc)
    (issuedWin (n + 1) la { gd := some gd } need false) fun w => w)

/-- A per-lane write issued by the split of `x`: its bytes enter the write buffer of the core. -/
def IssuesWrites (i : Instr) (s : State) (x : Ctx) (sc : State) (rel : Option Scope) (ws : List LaneW) : Prop :=
  let n := sc.nid
  exec i s = .next (issuedAt (issueWrites { sc with nid := n + 1 } x.w n rel false (trimWrites ws)) x (nextPc x.p.pc) fun w => w)

/-- `s`, once the split of `x` has issued an instruction whose uniform results `vs` go to D by way of a window (R64): closed at once with
lookahead 0. -/
def issuedWords (s : State) (x : Ctx) (la : BitVec 4) (d : Reg) (vs : List Word) : State :=
  let win : Win := ⟨s.nid, la.toNat, false, 0, false, none, some (d.toNat, vs.length), none, none, [], vs, 0⟩
  let t := { s with nid := s.nid + 1 }
  if la = 0 then issuedAt t x (nextPc x.p.pc) fun w => applyWin w win else issuedWith t x (nextPc x.p.pc) [win] fun w => w

/-! ### Cave programs (16) -/

/-- `x` is the context, of the program or handler `u`, whose instruction executes in `s`. -/
structure CaveRuns (s : State) (u : CurCave) (x : CaveCtx) : Prop where
  cur : s.curCave = some u
  ctx : ctxGet s u = some x

/-- No micro-instruction still gives one of the registers (R316). -/
def CaveCtx.settled (x : CaveCtx) (rs : List VReg) : Prop := ∀ r ∈ rs, vPending x r = false

/-- The masked-in bytes of unit `i` of a vector store, stored at stack `n`. -/
def unitStores (s : State) (n : Nat) (o : VMemOp) (k : Micro) (i : Nat) : State :=
  ((storeRuns (byteMask o.h k.mask) (vByte (srcVal k.b))).filter fun r => r.1 / 8 == i).foldl
    (fun s r => caveStore s n (k.pa + r.1) r.2) s

/-- A vector access has read every unit but `i`, as stack `n` holds them, and unit `i` lies in no poisoned word. -/
def UnitsRead (s : State) (n : Nat) (k : Micro) (i : Nat) : Prop :=
  i < 16 ∧ (∀ g ∈ k.got, g.2 = some (viewBytes s (dieOfStack n) (k.pa + 8 * g.1) 8)) ∧
  (∀ j, j < 16 → j ≠ i → ∃ g ∈ k.got, g.1 = j) ∧ anyViewPsn s (dieOfStack n) (k.pa + 8 * i) 8 = false

/-! ### Traps (08 R165 to R171) -/

/-- In `t` the lanes `m` of the split of `x` have left it for a handler split (R166), with cause `k` and each lane's
address of `addr`; an arm split goes on without them, and a resumed split has become the handler split itself, its other lanes parked
(R176). -/
def Trapped (t : State) (x : Ctx) (m : Mask) (k : Cause) (addr : Nat → DWord) : Prop :=
  ∃ w h, findWave t x.c.wave = some w ∧ h ∈ w.splits ∧ h.kind = .handler ∧ h.arm = x.p.arm ∧ h.members = m ∧
    h.pc = pcOf x.w.thb ∧ h.stack = [] ∧ h.recStack = x.p.stack ∧
    h.trap = some ⟨BitVec.ofNat 32 k.code, BitVec.ofNat 64 (pcVa x.p.pc), m,
      Vector.ofFn fun i : Fin 32 => if m.getLsbD i then addr i else 0⟩ ∧
    w.g = x.w.g ∧ w.s = x.w.s ∧ w.p = x.w.p ∧ w.em = x.w.em ∧ w.exited = x.w.exited ∧
    (x.p.kind = .resumed → h.sid = x.c.sid ∧ h.parked = liveOf x.w x.p &&& ~~~m) ∧
    (x.p.kind = .arm → liveOf x.w x.p &&& ~~~m = 0 → findSplit w x.c.sid = none) ∧
    (x.p.kind = .arm → liveOf x.w x.p &&& ~~~m ≠ 0 → ∃ p, findSplit w x.c.sid = some p ∧ p.kind = .arm ∧
      p.members = x.p.members &&& ~~~m ∧ p.pc = nextPc x.p.pc ∧ p.stack = x.p.stack)

/-- In `t` the wave of `x` has ended by a trap (R168, R169): its lanes have exited, and its launch has status bit `bit` and the
cause, unless an earlier cause stands there (R367). -/
def Killed (t : State) (x : Ctx) (bit code : Nat) : Prop :=
  ∃ w l, findWave t x.c.wave = some w ∧ w.exited = allLanes ∧ w.splits = [] ∧ findLaunch t x.w.launch = some l ∧
    l.flags.getLsbD bit = true ∧ (bit ≠ 1 → x.l.tcode = 0 → l.tcode = BitVec.ofNat 8 code)

/-- Instruction `i` of the split of `x` traps in the lanes `m` (R166 to R171): an arm split whose companion slot is taken is held
with no effect; in a handler split it is a double fault; with no lane or no handler the wave ends TRAPPED, with a handler that is no
legal target BADHND; otherwise the lanes enter the handler. -/
def EntersTrap (i : Instr) (s : State) (x : Ctx) (m : Mask) (k : Cause) (addr : Nat → DWord) : Prop :=
  (x.p.kind = .arm ∧ companion x.w x.p ≠ none → exec i s = .next { holdSplit s x.c with issued := false, cur := none }) ∧
  (x.p.kind = .handler → ∃ t, exec i s = .next t ∧ Killed t x 2 k.code) ∧
  (x.p.kind = .resumed ∨ (x.p.kind = .arm ∧ companion x.w x.p = none) →
    (m = 0 ∨ x.w.thb = 0 → ∃ t, exec i s = .next t ∧ Killed t x 0 k.code) ∧
    (m ≠ 0 → x.w.thb ≠ 0 → (handlerOk s x.w x.p).1 = false → ∃ t, exec i s = .next t ∧ Killed t x 1 0) ∧
    (m ≠ 0 → x.w.thb ≠ 0 → (handlerOk s x.w x.p).1 = true → (∀ q ∈ x.w.splits, q.sid < s.nid) →
      ∃ t, exec i s = .next t ∧ Trapped t x m k addr))

/-! ### Device memory -/

/-- Device memory, as HBM and the tier hold it and as each die sees it, has its one form: addresses rise, and no byte is listed that
an unlisted address reads as. -/
def State.memWf (s : State) : Prop := s.mem.home.wf = true ∧ ∀ d, d < 4 → (viewOf s d).wf = true

end Sys2Proof.Machine
end

