-- ==== Sys2Proof/Certificates/Slice0/Obligations.lean ====
section
/-! DEFINITION. The statements for the provers. A meaning's statement is about a split that issues (`Issuing`): its conclusion is
the next state that the meaning answers. -/

open Sys2Proof Sys2Proof.Machine

/-! ### Integer instructions (06) -/

/-- Completion and result of the two-operand arithmetic instructions, with every operand form (R130). -/
def Obligations.IntegerArithmeticCompletes : Prop :=
  ∀ (s : State) (x : Ctx) (g : Guard) (sat : Bool) (o : IntBin) (c : SrcC), Issuing s x →
    let b := srcBInt x s o.ty o.b
    let A := fun l => intVal o.ty (aVal x.w o.u o.ty.wide o.a l)
    let B := fun l => intVal o.ty (b.1 l).toNat
    let C := fun l => intVal o.ty (srcC x.w o.ty.wide c l).toNat
    Computes (.iadd g sat o) g o.u o.ty.wide o.d s x b.2 (fun l => intRes o.ty sat (A l + B l)) ∧
    Computes (.isub g sat o) g o.u o.ty.wide o.d s x b.2 (fun l => intRes o.ty sat (A l - B l)) ∧
    Computes (.imul g sat o) g o.u o.ty.wide o.d s x b.2 (fun l => intRes o.ty sat (A l * B l)) ∧
    Computes (.imulh g o) g o.u o.ty.wide o.d s x b.2
      (fun l => intRes o.ty false ((A l * B l).fdiv (2 ^ intBits o.ty))) ∧
    Computes (.imad g sat o c) g o.u o.ty.wide o.d s x b.2 (fun l => intRes o.ty sat (A l * B l + C l)) ∧
    Computes (.imin g o) g o.u o.ty.wide o.d s x b.2 (fun l => intRes o.ty false (min (A l) (B l))) ∧
    Computes (.imax g o) g o.u o.ty.wide o.d s x b.2 (fun l => intRes o.ty false (max (A l) (B l)))

/-- Division and remainder, whose results come by way of a window: division by zero gives all ones, remainder by zero gives a
(R130). -/
def Obligations.IntegerDivisionCompletes : Prop :=
  ∀ (s : State) (x : Ctx) (g : Guard) (la : BitVec 4) (o : IntBin), Issuing s x →
    let b := srcBInt x s o.ty o.b
    let A := fun l => intVal o.ty (aVal x.w o.u o.ty.wide o.a l)
    let B := fun l => intVal o.ty (b.1 l).toNat
    ComputesLater (.idiv g la o) g la o.u o.ty.wide o.d s x b.2
      (fun l => intRes o.ty false (if B l = 0 then -1 else (A l).tdiv (B l))) ∧
    ComputesLater (.irem g la o) g la o.u o.ty.wide o.d s x b.2
      (fun l => intRes o.ty false (if B l = 0 then A l else (A l).tmod (B l)))

/-- Completion and result of the one-operand instructions and of those that work on patterns (R130, R131). -/
def Obligations.IntegerPatternCompletes : Prop :=
  ∀ (s : State) (x : Ctx) (g : Guard) (sat : Bool) (o : IntBin) (q : IntUn) (c : SrcC) (k : PReg), Issuing s x →
    let b := srcBInt x s o.ty o.b
    let n := srcBInt x s .z32 o.b
    let A := aVal x.w o.u o.ty.wide o.a
    let Q := aVal x.w q.u q.ty.wide q.a
    let C := fun l => (srcC x.w o.ty.wide c l).toNat
    let w := intBits o.ty
    let v := intBits q.ty
    Computes (.iabs g sat q) g q.u q.ty.wide q.d s x s (fun l => intRes q.ty sat (intVal q.ty (Q l)).natAbs) ∧
    Computes (.ineg g sat q) g q.u q.ty.wide q.d s x s (fun l => intRes q.ty sat (-(intVal q.ty (Q l)))) ∧
    Computes (.and g o) g o.u o.ty.wide o.d s x b.2 (fun l => BitVec.ofNat 64 ((A l).land (b.1 l).toNat)) ∧
    Computes (.or g o) g o.u o.ty.wide o.d s x b.2 (fun l => BitVec.ofNat 64 ((A l).lor (b.1 l).toNat)) ∧
    Computes (.xor g o) g o.u o.ty.wide o.d s x b.2 (fun l => BitVec.ofNat 64 ((A l).xor (b.1 l).toNat)) ∧
    Computes (.not g q) g q.u q.ty.wide q.d s x s (fun l => BitVec.ofNat 64 (2 ^ v - 1 - Q l % 2 ^ v)) ∧
    Computes (.shl g o) g o.u o.ty.wide o.d s x n.2 (fun l => BitVec.ofNat 64 (shlV w (A l) (n.1 l).toNat)) ∧
    Computes (.shr g o) g o.u o.ty.wide o.d s x n.2 (fun l => BitVec.ofNat 64 (shrV w (A l) (n.1 l).toNat)) ∧
    Computes (.sra g o) g o.u o.ty.wide o.d s x n.2 (fun l => BitVec.ofNat 64 (sraV w (A l) (n.1 l).toNat)) ∧
    Computes (.rot g o) g o.u o.ty.wide o.d s x n.2 (fun l => BitVec.ofNat 64 (rotV w (A l) (n.1 l).toNat)) ∧
    Computes (.bfe g o) g o.u o.ty.wide o.d s x n.2 (fun l => BitVec.ofNat 64 (bfeV o.ty (A l) (n.1 l).toNat)) ∧
    Computes (.bfi g o c) g o.u o.ty.wide o.d s x b.2 (fun l => BitVec.ofNat 64 (bfiV o.ty (A l) (b.1 l).toNat (C l))) ∧
    Computes (.popc g q) g q.u false q.d s x s (fun l => BitVec.ofNat 64 (popcV v (Q l))) ∧
    Computes (.clz g q) g q.u false q.d s x s (fun l => BitVec.ofNat 64 (clzV v (Q l))) ∧
    Computes (.ctz g q) g q.u false q.d s x s (fun l => BitVec.ofNat 64 (ctzV v (Q l))) ∧
    Computes (.brev g q) g q.u q.ty.wide q.d s x s
      (fun l => BitVec.ofNat 64 (ofBits v fun i => (Q l).testBit (v - 1 - i))) ∧
    Computes (.sel g o k) g o.u o.ty.wide o.d s x b.2 (fun l => if pBit x.w k l then BitVec.ofNat 64 (A l) else b.1 l)

/-- Completion and result of `lea`, `iaddc`, `mov` and `movi` (R132). -/
def Obligations.AddressAndMoveCompletes : Prop :=
  ∀ (s : State) (x : Ctx) (g : Guard) (o : LeaOp) (d a : Reg) (b : SrcB) (c : PReg) (ty : IntTy) (u : Bool) (v : Word),
    Issuing s x →
    let e := srcBInt x s .z32 o.b
    let f := srcBInt x s .z32 b
    let m := srcBInt x s ty b
    let sum := fun l => (gGet x.w false a l).toNat + (f.1 l).toNat % 2 ^ 32 + (pBit x.w c l).toNat
    Computes (.lea g o) g o.u true o.d s x e.2 (fun l =>
      BitVec.ofInt 64 ((aVal x.w o.u true o.a l : Int) +
        intVal (if o.sx then .s32 else .z32) (e.1 l).toNat * 2 ^ o.sh.toNat)) ∧
    exec (.iaddc g d a b c) s = .next (issuedAt f.2 x (nextPc x.p.pc) fun w =>
      setPm (setGd w false d (x.guarded g).act fun l => BitVec.ofNat 64 (sum l % 2 ^ 32)) c (x.guarded g).act
        (maskOf fun l => decide (2 ^ 32 ≤ sum l))) ∧
    Computes (.mov g ty u d b) g u ty.wide d s x m.2 m.1 ∧
    Computes (.movi g ty u d v) g u ty.wide d s x s (fun _ => if ty = .s64 then v.signExtend 64 else v.setWidth 64)

/-- The uniform registers (R82): 64 for each wave, apart from the general registers, in no granule; `s0` reads as zero and discards a write; a
64-bit value lies in an even-aligned pair, low word in the even register. -/
def Obligations.UniformRegisters : Prop :=
  (∀ (w : Wave) (n m : Nat) (v : Word), n < 64 → m < 64 →
    sWord w 0 = 0 ∧ setS1 w 0 v = w ∧ sWord (setS1 w n v) m = (if m = n ∧ n ≠ 0 then v else sWord w m)) ∧
  (∀ (w : Wave) (n r l : Nat) (v : Word) (ws : List Word),
    gWord (setS1 w n v) r l = gWord w r l ∧ sWord (setGs w r l ws) n = sWord w n) ∧
  (∀ (w : Wave) (r : Reg) (v : DWord), r.toNat % 2 = 0 → r.toNat < 64 → r ≠ 0 → sDWord (setSd w true r v) r.toNat = v ∧
    sWord (setSd w true r v) r.toNat = v.setWidth 32 ∧ sWord (setSd w true r v) (r.toNat + 1) = (v >>> 32).setWidth 32) ∧
  (∀ r : Reg, (Use.rdN .s r 2).check = none ∨ (Use.wrN .s r 2).check = none → r.toNat % 2 = 0 ∧ r.toNat < 64) ∧
  (∀ (lr : LaunchRec) (a b : Nat), (need lr a b).regs = b * lr.regs)

/-- What the integer value functions are, in terms of bit vectors (R56, R98, R130, R131): the value of a pattern, a result wrapped or
saturated, the shifts and the rotation by any count, and the bits of an extracted and of an inserted field. -/
def Obligations.IntegerValues : Prop :=
  (∀ (t : IntTy) (n : Nat) (v : Int),
     (t.signed = true → intVal t n = (BitVec.ofNat (intBits t) n).toInt) ∧
     (t.signed = false → intVal t n = (BitVec.ofNat (intBits t) n).toNat) ∧
     intRes t false v = (BitVec.ofInt (intBits t) v).setWidth 64 ∧
     (intMin t ≤ v → v ≤ intMax t → intVal t (intRes t true v).toNat = v) ∧
     (v < intMin t → intVal t (intRes t true v).toNat = intMin t) ∧
     (intMax t < v → intVal t (intRes t true v).toNat = intMax t)) ∧
  (∀ (t : IntTy) (a : BitVec (intBits t)) (n : Nat),
     shlV (intBits t) a.toNat n = (a <<< n).toNat ∧
     shrV (intBits t) a.toNat n = (a >>> n).toNat ∧
     sraV (intBits t) a.toNat n = (a.sshiftRight n).toNat ∧
     rotV (intBits t) a.toNat n = (a.rotateLeft n).toNat ∧
     (intBits t ≤ n → shlV (intBits t) a.toNat n = 0 ∧ shrV (intBits t) a.toNat n = 0)) ∧
  (∀ (t : IntTy) (a c p len i : Nat), p < 256 → len < 256 → i < intBits t →
     let w := intBits t
     let n := min len w
     let src := fun j => if p + j < w then a.testBit (p + j) else t.signed && a.testBit (w - 1)
     let b := p + 256 * len
     (bfeV t a b).testBit i = (if i < n then src i else t.signed && (decide (0 < n) && src (n - 1))) ∧
     (bfiV t a b c).testBit i = (if p ≤ i ∧ i < p + n then a.testBit (i - p) else c.testBit i))

/-! ### Floating instructions, conversions and packing (06) -/

/-- Completion and result of the floating instructions (R133, R134): the exact result, rounded once; those with lookahead give it by way of
a window. For `fex2`, `flg2`, `fsin` and `fcos` the value rounded is the lower end of an interval that holds the exact one (the model's
choice, log 6), so that their clauses do not say that it is correctly rounded. -/
def Obligations.FloatCompletes : Prop :=
  (∀ (s : State) (x : Ctx) (g : Guard) (rm : Rm) (o : FltBin) (q : FltUn) (c : SrcC), Issuing s x →
     let b := srcBFlt x s o.ty o.b
     let A := aVal x.w o.u o.ty.wide o.a
     let B := fun l => (b.1 l).toNat
     let Q := aVal x.w q.u q.ty.wide q.a
     let t := f5 o.ty
     Computes (.fadd g rm o) g o.u o.ty.wide o.d s x b.2
       (fun l => BitVec.ofNat 64 (roundX t rm (sumX rm [fval t (A l), fval t (B l)]))) ∧
     Computes (.fsub g rm o) g o.u o.ty.wide o.d s x b.2
       (fun l => BitVec.ofNat 64 (roundX t rm (sumX rm [fval t (A l), negV (fval t (B l))]))) ∧
     Computes (.fmul g rm o) g o.u o.ty.wide o.d s x b.2
       (fun l => BitVec.ofNat 64 (roundX t rm (.ofFV (mulV (fval t (A l)) (fval t (B l)))))) ∧
     Computes (.ffma g rm o c) g o.u o.ty.wide o.d s x b.2
       (fun l => BitVec.ofNat 64 (ffmaV t rm (A l) (B l) (srcC x.w o.ty.wide c l).toNat)) ∧
     Computes (.fmin g o) g o.u o.ty.wide o.d s x b.2 (fun l => BitVec.ofNat 64 (fminmax t false (A l) (B l))) ∧
     Computes (.fmax g o) g o.u o.ty.wide o.d s x b.2 (fun l => BitVec.ofNat 64 (fminmax t true (A l) (B l))) ∧
     Computes (.fabs g q) g q.u q.ty.wide q.d s x s (fun l => BitVec.ofNat 64 (fabsV (f5 q.ty) (Q l))) ∧
     Computes (.fneg g q) g q.u q.ty.wide q.d s x s (fun l => BitVec.ofNat 64 (fnegV (f5 q.ty) (Q l)))) ∧
  (∀ (s : State) (x : Ctx) (g : Guard) (la : BitVec 4) (rm : Rm) (o : FltBin) (q : FltUn), Issuing s x →
     let b := srcBFlt x s o.ty o.b
     let t := f5 q.ty
     let Q := fun l => fval t (aVal x.w q.u q.ty.wide q.a l)
     ComputesLater (.fdiv g la rm o) g la o.u o.ty.wide o.d s x b.2 (fun l => BitVec.ofNat 64
       (roundX (f5 o.ty) rm (divX (fval (f5 o.ty) (aVal x.w o.u o.ty.wide o.a l)) (fval (f5 o.ty) (b.1 l).toNat)))) ∧
     ComputesLater (.frcp g la rm q) g la q.u q.ty.wide q.d s x s
       (fun l => BitVec.ofNat 64 (roundX t rm (divX (.num false 1 0) (Q l)))) ∧
     ComputesLater (.frsq g la rm q) g la q.u q.ty.wide q.d s x s (fun l => BitVec.ofNat 64 (roundX t rm (rsqX (Q l)))) ∧
     ComputesLater (.fsqrt g la rm q) g la q.u q.ty.wide q.d s x s (fun l => BitVec.ofNat 64 (roundX t rm (sqrtX (Q l)))) ∧
     ComputesLater (.fex2 g la rm q) g la q.u q.ty.wide q.d s x s (fun l => BitVec.ofNat 64 (ex2 t rm (Q l))) ∧
     ComputesLater (.flg2 g la rm q) g la q.u q.ty.wide q.d s x s (fun l => BitVec.ofNat 64 (lg2 t rm (Q l))) ∧
     ComputesLater (.fsin g la rm q) g la q.u q.ty.wide q.d s x s (fun l => BitVec.ofNat 64 (trig t rm false (Q l))) ∧
     ComputesLater (.fcos g la rm q) g la q.u q.ty.wide q.d s x s (fun l => BitVec.ofNat 64 (trig t rm true (Q l))))

/-- Completion and result of conversions, packing and classification (R135 to R137). -/
def Obligations.ConversionCompletes : Prop :=
  ∀ (s : State) (x : Ctx) (g : Guard) (o : CvtOp) (q : PackOp) (ty : FTy5) (u : Bool) (d a : Reg), Issuing s x →
    let b := srcBFlt x s .f32 q.b
    let sc := fun l => (b.1 l).toNat % 2 ^ 32
    let el := fun j l => (gWord x.w (q.a.toNat + j) l).toNat
    let packed := fun (k n : Nat) (lo hi : Int) l => BitVec.ofNat 64
      (if packZero (sc l) then 0 else packV q.rm n lo hi (sc l) ((List.range k).map fun j => el j l))
    let spread := fun (k n : Nat) (w : Wave) => (List.range k).foldl (fun w j => setGm w (q.d.toNat + j) (x.guarded g).act
      fun l => BitVec.ofNat 32 (unpackV q.rm n (el 0 l) j (sc l))) w
    Computes (.cvt g o) g o.u o.td.wide o.d s x s
      (fun l => BitVec.ofNat 64 (convert o.td o.ts o.rm (aVal x.w o.u o.ts.wide o.a l))) ∧
    Computes (.pk4x g q) g false false q.d s x b.2 (packed 8 4 (-7) 7) ∧
    Computes (.pk6 g q) g false false q.d s x b.2 (packed 4 6 (-32) 31) ∧
    exec (.upk4x g q) s = .next (issuedAt b.2 x (nextPc x.p.pc) (spread 8 4)) ∧
    exec (.upk6 g q) s = .next (issuedAt b.2 x (nextPc x.p.pc) (spread 4 6)) ∧
    Computes (.fclass g ty u d a) g u false d s x s (fun l => BitVec.ofNat 64 (2 ^ fclassBit ty (aVal x.w u ty.wide a l)))

/-! ### Comparisons, predicates, the execution mask and the cross-lane instructions (06) -/

/-- Completion and result of the instructions that write predicates, and of `emrd` and `emwr` (R86, R138 to R141). -/
def Obligations.PredicateAndMaskCompletes : Prop :=
  ∀ (s : State) (x : Ctx) (g : Guard) (o : IcmpOp) (q : FcmpOp) (d a b c : PReg) (lut : Byte) (r : Reg) (u : Bool)
    (e : SrcU), Issuing s x →
    let act := (x.guarded g).act
    let ib := srcBInt x s o.ty o.b
    let fb := srcB x s q.ty.wide (immFty q.ty) q.b
    exec (.icmp g o) s = .next (issuedAt ib.2 x (nextPc x.p.pc) fun w => setPm w o.d act
      (maskOf fun l => icmpHolds o.cc o.ty (gGet x.w o.ty.wide o.a l).toNat (ib.1 l).toNat)) ∧
    exec (.fcmp g q) s = .next (issuedAt fb.2 x (nextPc x.p.pc) fun w => setPm w q.d act
      (maskOf fun l => fcmpHolds q.cc q.ty (gGet x.w q.ty.wide q.a l).toNat (fb.1 l).toNat)) ∧
    exec (.plog g d a b c lut) s = .next (issuedAt s x (nextPc x.p.pc) fun w => setPm w d act
      (maskOf fun l => lut.getLsbD (4 * (pBit x.w a l).toNat + 2 * (pBit x.w b l).toNat + (pBit x.w c l).toNat))) ∧
    exec (.pmov g (.toP d r)) s = .next (issuedAt s x (nextPc x.p.pc) fun w => setPm w d act
      (maskOf fun l => gWord x.w r.toNat l != 0)) ∧
    exec (.pmov g (.toG r a)) s = .next (issuedAt s x (nextPc x.p.pc) fun w => setGd w false r act
      fun l => if pBit x.w a l then 1 else 0) ∧
    Computes (.emrd g u r) g u false r s x s (fun _ => (x.w.em &&& x.p.members).setWidth 64) ∧
    exec (.emwr e) s = .next (issuedAt s x (nextPc x.p.pc) fun w =>
      { w with em := (w.em &&& ~~~x.p.members) ||| (srcU x.w e &&& x.p.members &&& ~~~w.exited) })

/-- Completion and result of a cross-lane instruction of a split that holds every live lane of its wave, or with `.part`
(R142 to R144): the participants are the active lanes, and a lane outside the split is absent. -/
def Obligations.CrossLaneCompletes : Prop :=
  ∀ (s : State) (x : Ctx) (g : Guard) (part u excl : Bool) (k : VoteKind) (d : Reg) (p a : PReg) (o : ShflOp) (q : RedOp),
    Issuing s x → x.p.wait ≠ .xlaneGo →
    (part = true ∨ (x.p.kind ≠ .handler ∧ liveOf x.w x.p = ~~~x.w.exited)) →
    let act := (x.guarded g).act
    let b := srcBInt x s .z32 o.b
    Computes (.ballot g part u d a) g u false d s x s (fun _ => (act &&& pMask x.w a).setWidth 64) ∧
    exec (.vote g part k p a) s = .next (issuedAt s x (nextPc x.p.pc) fun w => setPm w p act
      (if voteV k act (pMask x.w a) then allLanes else 0)) ∧
    Computes (.shfl g part o) g false o.wide o.d s x b.2 (fun l =>
      match shflSrc o.mode l ((b.1 l).toNat % 2 ^ 32) with
      | none => gGet x.w o.wide o.a l
      | some j => if (~~~x.w.exited &&& ~~~x.p.members).getLsbD j then 0 else gGet x.w o.wide o.a j) ∧
    Computes (.lred g part u q) g u q.ty.wide q.d s x s
      (fun _ => redV q ((lanesOf act).map (aVal x.w u q.ty.wide q.a))) ∧
    Computes (.lscan g part excl q) g false q.ty.wide q.d s x s
      (fun l => redV q (((lanesOf act).filter fun j => j < l || (!excl && j == l)).map (aVal x.w false q.ty.wide q.a)))

/-! ### Control (06 R126 to R129) -/

/-- Completion of `nop` and `yield`, and of the transfers to a legal target (R68, R71, R72, R126). The link's bits above 56, which no rule
states, are those of the address, and a branch target outside the 57-bit space wraps (the model's choices, log 90). -/
def Obligations.TransferCompletes : Prop :=
  ∀ (s : State) (x : Ctx) (g : Guard) (t : BrImm) (a : Reg), Issuing s x →
    let ok := targetOk s x.l x.w.core (fetchFrom x.l x.p)
    let br := branchTarget x.p.pc t
    let rt := pcOf (sDWord x.w 62)
    let rg := pcOf (sDWord x.w a.toNat)
    exec .nop s = .next (issuedAt s x (nextPc x.p.pc) fun w => w) ∧
    (x.agrees g →
      exec (.yield g) s = .next (issuedAt s x (nextPc x.p.pc) fun w => w) ∧
      ((ok br).1 = true →
        exec (.bra g t) s = .next (issuedAt (ok br).2 x br fun w => w) ∧
        exec (.call g t) s = .next (issuedAt (ok br).2 x br fun w => setSd w true 62 (BitVec.ofNat 64 (pcVa (nextPc x.p.pc))))) ∧
      ((ok rt).1 = true → exec (.ret g) s = .next (issuedAt (ok rt).2 x rt fun w => w)) ∧
      ((ok rg).1 = true → exec (.jmpi g a) s = .next (issuedAt (ok rg).2 x rg fun w => w)))

/-- A wave-uniform instruction whose guard is 0 in every lane of its split with `em` 1 goes on at next(PC) with no effect
(R62). -/
def Obligations.UniformGuardFalse : Prop :=
  ∀ (s : State) (x : Ctx) (i : Instr) (g : Guard), Issuing s x → wordUniform i = true → i.guard? = some g →
    guardAgree x g = some false → exec i s = .next (issuedAt s x (nextPc x.p.pc) fun w => w)

/-- Lookahead windows (R64, R65, R84), in whatever waves. `nop`, and a wave-uniform instruction whose guard is 0, run down by one the windows that
the split opened before, and close those that reach 0; where such a wave-uniform instruction is one of R65 it closes all of its split's windows
directly before it issues. The first clause is of no other instruction: neither `exit` nor an enabled instruction of R65 is among them. Of the
windows that have closed, those whose results have arrived take effect in the order of their closing, a later one waiting for an earlier one whose
destinations it meets, or that writes its uniform registers from another split. -/
def Obligations.LookaheadWindows : Prop :=
  (∀ (s : State) (x : Ctx) (i : Instr) (g : Guard), ctxOf s = some x → liveOf x.w x.p ≠ 0 →
     let w := if closesWins i then closedW x.w x.c.sid else x.w
     i = .nop ∨ (wordUniform i = true ∧ i.guard? = some g ∧ guardAgree { x with w := w } g = some false) →
     ∃ t, exec i s = .next t ∧ findWave t x.c.wave = some (goesOnW w x.c.sid s.nid (nextPc x.p.pc))) ∧
  (∀ (n : Nat) (l : List Win), ∀ y ∈ l,
     (y.closed = true ∨ (n ≤ y.id ∧ y.rem ≠ 0) → y ∈ tickWins n l) ∧
     (y.closed = false → y.id < n → 1 < y.rem → { y with rem := y.rem - 1 } ∈ tickWins n l) ∧
     (y.closed = false → y.id < n → y.rem ≤ 1 → { y with rem := 0, closed := true } ∈ tickWins n l) ∧
     (y.closed = false → y.rem = 0 → { y with closed := true } ∈ tickWins n l)) ∧
  (∀ (w : Wave) (p : Split) (y z : Win), w.splits = [p] → w.orph = [] → p.wins = [y, z] → y.closed = true →
     let ids := fun v : Wave => (allWins v).map Win.id
     let same := fun a b : Wave => a.g = b.g ∧ a.s = b.s ∧ a.p = b.p ∧ a.q = b.q
     (winFull y = true → winFull z = true → z.closed = true →
       same (settleW w) (applyWin (applyWin w y) z) ∧ ids (settleW w) = []) ∧
     (winFull y = true → z.closed = false → same (settleW w) (applyWin w y) ∧ ids (settleW w) = [z.id]) ∧
     (winFull y = false → winFull z = true → z.closed = true → winMeets z y = true →
       same (settleW w) w ∧ ids (settleW w) = [y.id, z.id]) ∧
     (winFull y = false → winFull z = true → z.closed = true → winMeets z y = false →
       same (settleW w) (applyWin w z) ∧ ids (settleW w) = [y.id])) ∧
  (∀ (w : Wave) (p q : Split) (y z : Win), w.splits = [p, q] → w.orph = [] → p.wins = [y] → q.wins = [z] → p.sid ≠ q.sid →
     y.closed = true → z.closed = true → winFull z = true → 0 < y.ord → y.ord < z.ord → runsMeet z.sd y.sd = true →
     let ids := fun v : Wave => (allWins v).map Win.id
     (winFull y = false → ids (settleW w) = [y.id, z.id] ∧ (settleW w).s = w.s) ∧
     (winFull y = true → ids (settleW w) = [] ∧ (settleW w).s = (applyWin (applyWin w y) z).s))

/-- Completion of `exit` (R86, R127): the active lanes become exited and lose `em`; no register and no byte of memory changes;
the split goes on at next(PC) with the lanes it has left, or ends. -/
def Obligations.ExitCompletes : Prop :=
  ∀ (s : State) (x : Ctx) (g : Guard), Issuing s x →
    let act := (x.guarded g).act
    ∃ t w, exec (.exit g) s = .next t ∧ findWave t x.c.wave = some w ∧ w.exited = x.w.exited ||| act ∧
      w.em = x.w.em &&& ~~~act ∧ w.g = x.w.g ∧ w.s = x.w.s ∧ w.p = x.w.p ∧ t.mem = s.mem ∧
      (liveOf x.w x.p &&& ~~~act ≠ 0 → ∃ p, findSplit w x.c.sid = some p ∧ p.pc = nextPc x.p.pc ∧ p.members = x.p.members) ∧
      (liveOf x.w x.p &&& ~~~act = 0 → x.p.kind ≠ .handler → findSplit w x.c.sid = none)

/-- Completion of `bdiv` with legal targets and room on the stack, and of `rjoin` (R128, R129): an outermost divergence makes two arms; any
other serialises the arm at the else entry, and so does an outermost one where the wave still holds splits of the other arm, a case that
R128 does not name (the model's choice, log 86); with no lane of the first arm the split goes straight there; a join gives the lanes back. A target outside the
57-bit space wraps (the model's choice, log 90). -/
def Obligations.DivergeJoinComplete : Prop :=
  (∀ (s : State) (x : Ctx) (g : Guard) (k : PReg) (els : Option ElseRef) (j : BrImm), Issuing s x → x.agrees g →
     let t := bdivTargets x.p.pc els j
     let a := targetOk s x.l x.w.core (fetchFrom x.l x.p) t.1
     let b := targetOk a.2 x.l x.w.core (fetchFrom x.l x.p) t.2
     let T := liveOf x.w x.p &&& pMask x.w k
     let F := liveOf x.w x.p &&& ~~~T
     a.1 = true → b.1 = true → x.p.stack.length < 16 →
     ∃ u w p, exec (.bdiv g k els j) s = .next u ∧ findWave u x.c.wave = some w ∧ findSplit w x.c.sid = some p ∧
       w.g = x.w.g ∧ w.s = x.w.s ∧ w.p = x.w.p ∧ w.em = x.w.em ∧ u.mem.view = s.mem.view ∧
       (T ≠ 0 → p.members = T ∧ p.pc = nextPc x.p.pc) ∧
       (T ≠ 0 → F ≠ 0 → divergenceOpen x.w = false → armTaken x.w x.p = false → x.p.kind = .arm →
         p.stack = x.p.stack ++ [⟨t.2, t.1, T, F, false, true⟩] ∧
         ∃ q ∈ w.splits, q.kind = .arm ∧ q.members = F ∧ q.pc = t.1 ∧ q.stack = p.stack) ∧
       (T ≠ 0 → (F = 0 ∨ divergenceOpen x.w = true ∨ armTaken x.w x.p = true ∨ x.p.kind ≠ .arm) →
         p.stack = x.p.stack ++ [⟨t.2, t.1, T, F, false, false⟩]) ∧
       (T = 0 → p.members = F ∧ p.pc = t.1 ∧ p.stack = x.p.stack ++ [⟨t.2, t.1, 0, F, true, false⟩])) ∧
  (∀ (s : State) (x : Ctx) (g : Guard) (e : StkEntry), Issuing s x → x.agrees g →
     let tf := (e.t ||| e.f) &&& ~~~x.w.exited
     let rest := e.f &&& ~~~x.w.exited
     x.p.stack.getLast? = some e → e.j = x.p.pc → rjoinHeld x e tf = false → tf ≠ 0 →
     (e.outer = true → ∀ q, partner x e = some q → q.wait = .join ∧ q.pc = x.p.pc ∧ q.stack.getLast? = some e) →
     ∃ u w p, exec (.rjoin g) s = .next u ∧ findWave u x.c.wave = some w ∧ findSplit w x.c.sid = some p ∧
       w.g = x.w.g ∧ w.s = x.w.s ∧ w.p = x.w.p ∧ w.em = x.w.em ∧ u.mem = s.mem ∧
       (e.outer = false → e.els = false → rest ≠ 0 →
         p.members = rest ∧ p.pc = e.e ∧ p.stack = x.p.stack.dropLast ++ [{ e with els := true }]) ∧
       (e.outer = true ∨ e.els = true ∨ rest = 0 →
         p.members = tf ∧ p.pc = nextPc e.j ∧ p.stack = x.p.stack.dropLast) ∧
       (∀ q, e.outer = true → partner x e = some q → ∀ z ∈ w.splits, z.sid ≠ q.sid))

/-! ### Barriers, semaphores and deadlines (21) -/

/-- Completion of `bar` at a declared level, outside a handler (R378, R379): a split that a complete phase lets go leaves; the last
member to arrive completes the phase, and every other split that waits at it may leave; any other arrival waits. -/
def Obligations.LevelBarrierCompletes : Prop :=
  ∀ (s : State) (x : Ctx) (g : Guard) (k : BitVec 3), Issuing s x → x.agrees g → x.p.kind ≠ .handler →
    levelDeclared x.l.lr k.toNat = true →
    let sc := levelScope x.l.lr k.toNat
    let t := updSplit s x.c fun p => { p with wait := .bar k.toNat }
    let whole := (barMembers t x k.toNat).all (waveArrived k.toNat) = true ∧
      (t.saved.filter (savedMember t x k.toNat)).all (savedArrived k.toNat) = true
    (x.p.wait = .barGo →
      exec (.bar g k) s = .next (issuedAt (discardFor s x.w.core sc) x (nextPc x.p.pc) fun w => w)) ∧
    (x.p.wait ≠ .barGo → splitReleased s x sc = true → whole →
      exec (.bar g k) s = .next (issuedAt (discardFor (releaseBar t x k.toNat) x.w.core sc) x (nextPc x.p.pc) fun w => w)) ∧
    (x.p.wait ≠ .barGo → splitReleased s x sc = true → ¬whole → exec (.bar g k) s = .next (waitsAt s x (.bar k.toNat)))

/-- Completion of the named-barrier instructions outside a handler (R380, R381): what `bini` and `binv` make of the record, an
arrival and the token it gives, and the wait for a phase, which ends with predicate 1 once the phase is over and 0 where the barrier
is not valid. -/
def Obligations.NamedBarrierCompletes : Prop :=
  ∀ (s : State) (x : Ctx) (g : Guard) (a d : Reg) (e : SrcU) (pr : PReg) (b : Block), Issuing s x → x.agrees g →
    x.p.kind ≠ .handler →
    let ad := (sWord x.w a.toNat).toNat
    let n := (srcU x.w e).toNat
    let r := readBar b ad
    let s0 := barPsn x s b ad
    BarrierAt s x ad b →
    (1 ≤ n → n ≤ 65535 → ((barEntry b ad).isSome = true ∨ b.bars.length < 16) → barWaiters s b.uid ad = 0 →
      (∀ z, barEntry b ad = some z → z.pend = 0) →
      exec (.bini g a e) s = .next (issuedAt
        (storeBytes (if (barEntry b ad).isSome then s else updBlock s b.uid fun b => { b with bars := b.bars ++ [⟨ad, 0⟩] })
          b.uid ad (leBytes (1 + n * 2 ^ 32) 16)) x (nextPc x.p.pc) fun w => w)) ∧
    ((barEntry b ad).isSome = true →
      exec (.binv g a) s = .next (issuedAt (releaseBarw (setBarValid s b ad) b.uid ad (fun _ => true) false) x
        (nextPc x.p.pc) fun w => w) ∧
      (splitReleased s x .block = true →
        let t := updWave s0 x.c.wave fun w => setS1 w d.toNat r.gen
        exec (.barar g d a pr) s = .next (issuedAt (putPred (if r.valid then arriveBar t b ad else t) x pr r.valid) x
          (nextPc x.p.pc) fun w => w)) ∧
      ((∀ z k, x.p.wait ≠ .barw z k) → (∀ v, x.p.wait ≠ .barwGo v) → (∀ z k, x.p.wait = .barwAgain z k → z = ad ∧ k = srcU x.w e) →
        (r.valid = false → exec (.barw g a e pr) s = .next (issuedAt (putPred s0 x pr false) x (nextPc x.p.pc) fun w => w)) ∧
        (r.valid = true → r.gen ≠ srcU x.w e →
          exec (.barw g a e pr) s = .next (issuedAt (putPred s0 x pr true) x (nextPc x.p.pc) fun w => w)) ∧
        (r.valid = true → r.gen = srcU x.w e →
          exec (.barw g a e pr) s = .next (waitsAt s0 x (.barw ad (srcU x.w e)))))) ∧
    (∀ v, x.p.wait = .barwGo v →
      exec (.barw g a e pr) s = .next (issuedAt (putPred s x pr v) x (nextPc x.p.pc) fun w => w))

/-- Completion of the semaphore instructions outside a handler, on a semaphore that no other tenant holds (R382). -/
def Obligations.SemaphoreCompletes : Prop :=
  ∀ (s : State) (x : Ctx) (g : Guard) (n : Byte) (e : SrcU) (dec : Bool), Issuing s x → x.agrees g → x.p.kind ≠ .handler →
    let k := semKey x.w.core n.toNat
    let m := semGet s k
    let v := srcU x.w e
    let s1 := semPut s k ⟨m.val, some x.l.lr.tenant⟩
    let q := match x.p.wait with | .sem _ a _ => (a, s1) | _ => fresh s1
    let ready := v.toNat ≤ m.val.toNat ∧ (v = 0 ∨ olderWaiter s1 x.w.core n.toNat q.1 m.val = false)
    (splitReleased s x .cluster = true →
      exec (.sinc g n e) s = .next (issuedAt (semAdd s x.w.core n.toNat x.l.lr.tenant v) x (nextPc x.p.pc) fun w => w)) ∧
    (m.tag.getD x.l.lr.tenant = x.l.lr.tenant →
      exec (.sset g n e) s = .next (issuedAt (semPut s k ⟨v, some x.l.lr.tenant⟩) x (nextPc x.p.pc) fun w => w) ∧
      (ready → exec (.swait g dec n e) s = .next (issuedAt
        (discardFor (if dec then semPut q.2 k ⟨m.val - v, some x.l.lr.tenant⟩ else q.2) x.w.core .cluster) x
        (nextPc x.p.pc) fun w => w)) ∧
      (¬ready → exec (.swait g dec n e) s = .next (waitsAt q.2 x (.sem n.toNat q.1 v))))

/-- Completion of `tmset` outside a handler (R383): it sets the deadline to the uniform pair or the immediate, with `.rel` to that many cycles
from now unless it is 0, and clears a pending TIMER; once the deadline is at or below WCYC, in a later resident cycle, the expiry makes TIMER
pending (R373, R178), and its die counts no cycle before that (the model's choice, log 4); a cycle counts in the WCYC of each resident wave
(R372). -/
def Obligations.DeadlineSet : Prop :=
  ∀ (s : State) (x : Ctx) (g : Guard) (rel : Bool) (r : Reg) (v : Word), Issuing s x → x.agrees g → x.p.kind ≠ .handler →
    let sets := fun i (d : DWord) => exec i s = .next (issuedAt s x (nextPc x.p.pc) fun w =>
      { w with wtdl := if rel = true ∧ d ≠ 0 then w.wcyc + d else d, timer := false, wnew := true })
    sets (.tmset g rel (.s r)) (sDWord x.w r.toNat) ∧ sets (.tmset g rel (.imm v)) (v.setWidth 64) ∧
    (∀ n w, findWave s n = some w → w.wtdl ≠ 0 → w.wtdl.toNat ≤ w.wcyc.toNat → w.timer = false → w.wnew = false → resident s w = true →
      exec (.timerExpiry n) s = .next (updWave s n fun w => { w with timer := true }) ∧
      tickS (dieOfCore w.core) s = s) ∧
    (∀ d, d < 4 → cycleHeld s d = false → (tickS d s).waves = s.waves.map fun w =>
      if waveDie w ≠ d then w
      else { w with wnew := false, wcyc := if resident (countHeld (retireBlocks s d) (uDie d)) w then w.wcyc + 1 else w.wcyc })

/-! ### Loads and stores (11) -/

/-- Completion of `ld`, `ldq`, `st` and `stq` in every space, where every active lane passes its checks (R231 to R233): the bytes
read and stored lie at the lane's address, as many as the type and SZ give, and a window takes the result of a load (R64). -/
def Obligations.LoadStoreCompletes : Prop :=
  ∀ (s : State) (x : Ctx) (g : Guard) (la : BitVec 4) (o : LdOp) (o4 : LdqOp) (p : StOp) (p4 : StqOp) (ks : List LaneLoc)
    (sc : State), Issuing s x →
    let n := accBytes o.ty o.sz
    let m := accBytes p.ty p.sz
    let asks := fun (k : Nat) => askL1 sc x.w.core (ks.map fun e => (e.loc, k))
    (Passes s x g o.sp .read n n o.a o.off ks sc →
      IssuesReads (.ld g la o) la s x (if o.nl1 then sc else asks n) (o.d.toNat, wid o.ty.wide) (laneMask ks) (.read o.acq o.nl1)
        (ks.map fun k => (k.lane, unitsOf k.loc n, .ld o.ty o.sz))) ∧
    (Passes s x g o4.sp .read 16 16 o4.a o4.off ks sc →
      IssuesReads (.ldq g la o4) la s x (if o4.nl1 then sc else asks 16) (o4.d.toNat, 4) (laneMask ks) (.read none o4.nl1)
        (ks.map fun k => (k.lane, unitsOf k.loc 16, .ldq))) ∧
    (Passes s x g p.sp .write m m p.a p.off ks sc →
      IssuesWrites (.st g p) s x (asks m) p.rel (ks.map fun k =>
        ⟨k.lane, k.loc, leBytes (srcC x.w p.ty.wide p.b k.lane).toNat m, List.replicate m 0xFF⟩)) ∧
    (Passes s x g p4.sp .write 16 16 p4.a p4.off ks sc →
      IssuesWrites (.stq g p4) s x (asks 16) none (ks.map fun k =>
        ⟨k.lane, k.loc, leBytes (quadNat x.w p4.b.toNat k.lane) 16, List.replicate 16 0xFF⟩))

/-- Completion of `ldf` and `stf` where every active lane passes its checks and every element lies in its page (R234 to R236), and
for a Q4X page where the lanes name every element of the blocks that they touch. That an `ldf` reads the whole blocks of a Q4X page that hold
its elements is the model's choice (log 18): R112 needs a block only from its first position to the element, and R235 gives a bound. -/
def Obligations.PageElementCompletes : Prop :=
  ∀ (s : State) (x : Ctx) (g : Guard) (la : BitVec 4) (o : LdfOp) (p : StfOp) (rs : List ElemRun) (sc : State), Issuing s x →
    (elemRuns (x.guarded g) s .read o.a o.off o.c o.cnt.n = (rs, [], sc) →
      IssuesReads (.ldf g la o) la s x (if o.nl1 then sc else askL1 sc x.w.core (rs.map ElemRun.bytes)) (o.d.toNat, o.cnt.n) (maskOf fun i => rs.any (·.lane == i)) (.read none o.nl1)
        (rs.map fun e =>
          let b := runBytes (pteFmt e.pte) (pteGeom e.pte) e.first e.n
          (e.lane, unitsOf (e.page.off b.1) b.2,
            .ldf e.first e.n (pteFmt e.pte) (pteGeom e.pte) (BitVec.ofNat 16 (pteScale e.pte)) b.1))) ∧
    (elemRuns (x.guarded g) s .write p.a p.off p.c p.cnt.n = (rs, [], sc) →
      let q4 := rs.filter fun e => pteFmt e.pte == 4
      let plain := rs.filter fun e => pteFmt e.pte != 4
      let ok := coveredRuns 33 q4
      (∀ e ∈ q4, e ∈ ok) →
      let t := askL1 sc x.w.core ((ok ++ plain).map ElemRun.bytes)
      let s1 := setFmtErr { t with nid := t.nid + 1 } x.c.wave ((ok ++ plain).any fun e => badScale (pteScale e.pte))
      let s2 := issueWrites s1 x.w t.nid none false
        (trimWrites ((plain.filter fun e => pteFmt e.pte != 5).flatMap (stfLane x.w p.rm p.b)))
      let s3 := issueWrites s2 x.w t.nid none true
        (trimWrites ((plain.filter fun e => pteFmt e.pte == 5).flatMap (stfLane x.w p.rm p.b)))
      exec (.stf g p) s = .next (issuedAt
        (issueWrites s3 x.w t.nid none false ((coveredBlocks ok).flatMap (blockWrites x.w p.rm p.b ok))) x (nextPc x.p.pc)
        fun w => w))

/-! ### Atomics, fences, cache operations and the moves of the ordering machine (10, 11) -/

/-- Completion of `atom` and `cas` where every active lane passes its checks, and of `fence` and `pref` (R237 to R240, R244). -/
def Obligations.AtomicFenceCompletes : Prop :=
  ∀ (s : State) (x : Ctx) (g : Guard) (la : BitVec 4) (o : AtomOp) (c : CasOp) (k : FenceKind) (sp : Scope) (l1 : Bool) (a : Reg)
    (off : Word) (ks : List LaneLoc) (sc : State), Issuing s x →
    let wo := if o.ty.wide then 8 else 4
    let wc := if c.ty.wide then 8 else 4
    let asks := fun (c : Scope) (k : Nat) => if wider c .block then sc else askL1 sc x.w.core (ks.map fun e => (e.loc, k))
    let ta := asks o.sc wo
    let tc := asks c.sc wc
    let tp := prefLanes (x.guarded g) l1 s.nid (laneAddr x.w .gm a off) (lanesOf (x.guarded g).act) { s with nid := s.nid + 1 }
    let s1 := { s with nid := s.nid + 1 }
    (Passes s x g o.sp .atom wo wo o.a o.off ks sc →
      exec (.atom g la o) s = .next (issuedWith
        (issueAtoms { ta with nid := ta.nid + 2 } x.w ta.nid (ta.nid + 1) wo o.ord o.sc o.ty.wide
          (fun l => .op o.aop o.ty (srcC x.w o.ty.wide o.b l)) ks) x (nextPc x.p.pc)
        (issuedWin (ta.nid + 1) la { gd := some (o.d.toNat, wid o.ty.wide) } (laneMask ks) false) fun w => w)) ∧
    (Passes s x g c.sp .atom wc wc c.a c.off ks sc →
      exec (.cas g la c) s = .next (issuedWith
        (issueAtoms { tc with nid := tc.nid + 2 } x.w tc.nid (tc.nid + 1) wc c.ord c.sc c.ty.wide
          (fun l => .cas (gGet x.w c.ty.wide c.d l) (srcC x.w c.ty.wide c.b l) c.ty.wide) ks) x (nextPc x.p.pc)
        (issuedWin (tc.nid + 1) la { gd := some (c.d.toNat, wid c.ty.wide) } (laneMask ks) false) fun w => w)) ∧
    exec (.fence g k sp) s = .next (issuedAt
      ((lanesOf (x.guarded g).act).foldl (fun t l => issueRead t x.w s.nid 0 l
        (.fence k sp (if k = .ar ∧ (sp = .device ∨ sp = .system) then some (vecOf s (waveDie x.w)) else none)) [] .none) s1)
      x (nextPc x.p.pc) fun w => w) ∧
    exec (.pref g l1 a off) s = .next (issuedAt
      (if l1 then askL1 tp x.w.core (prefLocs s.mem.acts.length tp) else tp) x (nextPc x.p.pc) fun w => w)

/-- Completion of the cache operations where the whole range of every active lane can be reached (R242, R243): each lane's operation
enters its stream; `cinv` opens a window for the number of dirty sectors it drops. -/
def Obligations.CacheOperationCompletes : Prop :=
  ∀ (s : State) (x : Ctx) (g : Guard) (d : Reg) (o : CacheOp) (ps : List (Nat × List (Xl × Nat))) (sc : State), Issuing s x →
    let run := fun k => cacheLanes (x.guarded g) k (laneAddr x.w .gm o.a o.off) (fun l => (srcC x.w false o.b l).toNat)
      (lanesOf (x.guarded g).act) s
    let n := sc.nid
    (run .wb = (ps, [], sc) →
      exec (.cwb g o) s = .next (issuedAt (issueCache x.w n 0 .wb ps { sc with nid := n + 1 }) x (nextPc x.p.pc) fun w => w)) ∧
    (run .flush = (ps, [], sc) →
      exec (.cflush g o) s = .next (issuedAt (issueCache x.w n 0 .flush ps { sc with nid := n + 1 }) x (nextPc x.p.pc)
        fun w => w)) ∧
    (run .inv = (ps, [], sc) → (∀ e ∈ ps, e.2 ≠ []) →
      exec (.cinv g d o) s = .next (issuedWith (issueCache x.w n (n + 1) .inv ps { sc with nid := n + 2 }) x (nextPc x.p.pc)
        (issuedWin (n + 1) 0 { gd := some (d.toNat, 1) } (maskOf fun i => ps.any (·.1 == i)) false) fun w => w))

/-- A read of `.gm` takes its byte from the newest write of its core's write buffer, else from the core's L1 copy, else from M(d), where R216
skips none of them and no cave work holds the byte (R215). Completion of the read move of a unit that may be read (R214, R220, R222): its
bytes are those its sources give; an acquire wider than `.block` discards the core's L1 copies in the same move; an atomic of the core or of
an on-chip memory takes the old value and leaves the new one. -/
def Obligations.ReadMoveCompletes : Prop :=
  (∀ (s : State) (r : Reader) (pa : Nat), flyOf s pa = none → (∀ k, r.lane = some k → floorOf s k pa = 0) →
     (∀ k, r.note = some k → engFloor s k pa = 0) →
     let wb := (s.mem.wb.filter fun w => w.core == r.core && w.fn.isNone && wbCovers w (.gm pa) && !r.skip.contains w.id).reverse
     let got := (readByte r s (.gm pa)).1.map ByteSrc.val
     let copy := s.mem.l1.find? fun e => e.1 == l1Key r.core pa
     (∀ w rest, wb = w :: rest → w.mask = none → got = some (w.bytes.getD (pa - w.loc.addr) 0)) ∧
     (wb = [] → r.useL1 = true → ∀ c, copy = some (l1Key r.core pa, c) → got = some c.val) ∧
     (wb = [] → (r.useL1 = false ∨ copy = none) → got = some (viewByte s (dieOfCore r.core) pa))) ∧
  (∀ (s : State) (n i : Nat) (a : Act) (u : UnitR) (acq rel : Option Scope) (nl1 : Bool) (fn : AtomFn) (sc : Scope)
     (bs : List Byte) (p : Bool) (t : State),
     s.mem.acts.find? (·.id == n) = some a → a.units[i]? = some u → u.got = none →
     (a.kind = .read acq nl1 → readOk s a u = true →
       readRun (if isPref a then { coreReader a.core with useL1 := !nl1 } else laneReader a (!nl1) []) s u.loc u.n = some (bs, p, t) →
       exec (.readMove n i) s = .next (takeUnit (discardAcq t a.core acq) a i (bs, p))) ∧
     (a.kind = .atomLocal fn acq rel sc → atomOk s a rel u = true → u.loc.onChip = true →
       exec (.readMove n i) s = .next (atomOnChip s a fn acq u)) ∧
     (∀ v, a.kind = .atomLocal fn acq rel sc → atomOk s a rel u = true → u.loc.onChip = false →
       atomOnCore s a fn acq u = some v → exec (.readMove n i) s = .next v))

/-- Completion of a drain (R215, R216): a plain write of whole bytes whose home die is its own is stored in M(h) at its address, and
no other byte of any view changes; a write for another die's line joins F(d,h), and nothing else moves; an on-chip write is stored in
its memory and leaves the write buffer. -/
def Obligations.DrainCompletes : Prop :=
  ∀ (s : State) (n pa : Nat) (w : Wb), s.memWf → findWb s n = some w → drainOk s w = true →
    (w.loc = .gm pa → w.fn = none → w.mask = none → 1 ≤ w.bytes.length → w.bytes.length ≤ 8 →
      homeDie s pa = dieOfCore w.core → unitFailed s (unitBit s pa) = false →
      stampRoom s (homeDie s pa) = true →
      ∃ t, exec (.drain n) s = .next t ∧
        (∀ i, i < w.bytes.length → viewByte t (homeDie s pa) (pa + i) = w.bytes.getD i 0) ∧
        (∀ a, (a < pa ∨ pa + w.bytes.length ≤ a) → viewByte t (homeDie s pa) a = viewByte s (homeDie s pa) a) ∧
        (∀ e a, e ≠ homeDie s pa → viewByte t e a = viewByte s e a)) ∧
    (w.loc = .gm pa → homeDie s pa ≠ dieOfCore w.core →
      exec (.drain n) s = .next { s with mem := { s.mem with
        chan := s.mem.chan ++ [⟨w.id, w.lane, w.core, w.isq, pa, w.bytes, w.mask, w.fn, w.act, w.counted, w.src, dieOfCore w.core,
          homeDie s pa, vecOf s (dieOfCore w.core), 0, w.psn⟩]
        wb := updFirst (·.id == n) (fun x => { x with state := .sent }) s.mem.wb } }) ∧
    (w.loc.onChip = true →
      exec (.drain n) s = .next (markChip (storeChip (removeWb s n) w.loc w.bytes w.mask) w.loc w.bytes.length w.psn))

/-- Completion of a stamp, where what the write waits for is in M(h), and of an apply, where what it depends on is in M(e)
(R215, R216): the channel's or queue's oldest write is taken; after an apply M(e) holds each of its bytes that is later in coherence
order, and no other byte of a view changes. -/
def Obligations.StampApplyCompletes : Prop :=
  ∀ (s : State) (d h : Nat) (m : Msg) (w : Wb), s.memWf →
    (chanHead s d h = some m → vLe m.vec (vecOf s h) = true → stampRoom s h = true → findWb s m.id = some w →
      exec (.stamp d h) s = .next (homeMove { s with mem := { s.mem with chan := s.mem.chan.filter (·.id != m.id) } } w h d m.pa)) ∧
    (d < 4 → s.mem.apply.find? (fun m => m.src == h && m.dst == d) = some m →
      (∀ k, k < 4 → k ≠ h → vLe1 (vecGet m.vec 0 k) (vecGet (vecOf s d) 0 k) = true) →
      m.mask = none → 1 ≤ m.bytes.length → m.bytes.length ≤ 8 →
      ∃ t, exec (.apply d h) s = .next t ∧
        (∀ i, i < m.bytes.length → viewByte t d (m.pa + i) =
          if viewSeq s d (m.pa + i) < m.seq then m.bytes.getD i 0 else viewByte s d (m.pa + i)) ∧
        (∀ a, (a < m.pa ∨ m.pa + m.bytes.length ≤ a) → viewByte t d a = viewByte s d a) ∧
        (∀ e a, e ≠ d → viewByte t e a = viewByte s e a))

/-- Completion of fences, of write-backs and of the last move of a cache operation (R221, R240 to R243): a fence leaves its lane's stream
once its condition holds, and an acquiring one wider than `.block` discards the core's L1 copies; an eviction of a dirty sector, which none is while
an engine operation pins its line (07 R152), brings H to M(h) for the 64 bytes of the sector, leaves the sector in state I (09 R197) and
changes no view; an operation writes back the dirty sectors of its range whose home is that die. -/
def Obligations.CacheMovesComplete : Prop :=
  (∀ (s : State) (n : Nat) (a : Act) (k : FenceKind) (sc : Scope) (v : Option Vec) (i : Nat), s.memWf →
     (s.mem.acts.find? (·.id == n) = some a → a.kind = .fence k sc v → fenceOk s a k sc v = true →
       let t := { s with mem := { s.mem with acts := s.mem.acts.filter (·.id != a.id) } }
       exec (.completeMove n) s = .next (if k = .rel then t else discardFor t a.core sc)) ∧
     (s.mem.dirty.contains n = true → pinnedLine s (homeDie s (64 * n)) (n / 4) = true → exec (.evict n) s = .next s) ∧
     (s.mem.dirty.contains n = true → pinnedLine s (homeDie s (64 * n)) (n / 4) = false → i < 64 →
       ∃ t, exec (.evict n) s = .next t ∧ homeByte t (n * 64 + i) = viewByte s (homeDie s (n * 64)) (n * 64 + i) ∧
         t.mem.dirty.contains n = false ∧ t.mem.view = s.mem.view ∧ (n < 2 ^ 51 → sectorState t (homeDie s (n * 64)) n = .i) ∧
         (∀ b, (b < n * 64 ∨ n * 64 + 64 ≤ b) → homeByte t b = homeByte s b))) ∧
  (∀ (s : State) (n h : Nat) (a : Act) (rs : List (Nat × Nat)) (rest : List Nat) (c : Nat), s.memWf →
     s.mem.acts.find? (·.id == n) = some a →
     let ks := sectorsOf s rs h
     (a.kind = .cache .wb rs (h :: rest) c → cacheOk s a .wb rs h = true →
       ∃ t, exec (.completeMove n) s = .next t ∧ t.mem.view = s.mem.view ∧
         (∀ k i, k ∈ ks → s.mem.dirty.contains k = true → i < 64 →
           homeByte t (k * 64 + i) = viewByte s h (k * 64 + i)) ∧
         (∀ k, k ∈ ks → t.mem.dirty.contains k = false)) ∧
     (a.kind = .cache .flush rs (h :: rest) c → cacheOk s a .flush rs h = true →
       ∃ t, exec (.completeMove n) s = .next t ∧ t.mem.view = s.mem.view ∧
         (∀ k, k ∈ ks → t.mem.dirty.contains k = false) ∧
         (∀ k i e, k ∈ ks → i < 64 → e ∈ t.mem.l1 → e.1 % 2 ^ 57 ≠ k * 64 + i)))

/-! ### System instructions (08) -/

/-- Completion and result of the class 12 instructions other than the returns. `sreg`, `wsreg`, `perfrd` and `icinv` (R87 to R90, R173, R174,
R179, R180): the trap registers read 0 outside a handler split; `PDRAIN` and `PFLUSH` are written by a privileged launch only, and any
other traps ILLOP. `icinv` completes once no store of its core is on its way, and otherwise waits: which stores it covers is the model's
choice (log 33). The traps that are an instruction's effect (R166, R170, R171, R175): `brk` takes every lane with `em` 1, with its code,
and `trap` the active lanes, with its code; a wave-uniform instruction whose guard differs among its lanes, and a return outside a handler
split or with entries on its stack, trap ILLOP (R62, R176). An arm split goes on at next(PC) without the lanes that trapped (R165; with
ILLOP the model's choice, log 28). The form in which TFPC holds the PC is the model's choice (log 90). -/
def Obligations.SystemInstructionsComplete : Prop :=
  (∀ (s : State) (x : Ctx) (g : Guard) (u : Bool) (d : Reg) (sel : SSel) (b : SrcU) (n : Byte), Issuing s x →
     let pv := perfVal s x n.toNat
     Computes (.sreg g u d sel) g u sel.wide d s x s (sregVal s x sel) ∧
     (∀ l, sregVal s x .laneid l = BitVec.ofNat 64 l ∧ sregVal s x .wcyc l = x.w.wcyc ∧ sregVal s x .thb l = x.w.thb ∧
       (x.p.kind ≠ .handler → sregVal s x .tcause l = 0 ∧ sregVal s x .tfpc l = 0 ∧ sregVal s x .tem l = 0 ∧
         (l < 32 → sregVal s x .taddr l = 0)) ∧
       (∀ t, x.p.kind = .handler → x.p.trap = some t → sregVal s x .tcause l = t.cause.setWidth 64 ∧ sregVal s x .tfpc l = t.fpc ∧
         sregVal s x .tem l = t.em.setWidth 64)) ∧
     (x.agrees g →
       ((slotOf ((thbVal x b).toNat % 64)).isSome = true →
         exec (.wsreg g .thb b) s = .next (issuedAt s x (nextPc x.p.pc) fun w => { w with thb := thbVal x b })) ∧
       (x.l.lr.priv = true →
         exec (.wsreg g .pdrain b) s = .next (issuedAt { s with pdrain := srcU x.w b } x (nextPc x.p.pc) fun w => w) ∧
         exec (.wsreg g .pflush b) s = .next (issuedAt { s with pflush := srcU x.w b } x (nextPc x.p.pc) fun w => w)) ∧
       (x.l.lr.priv = false →
         EntersTrap (.wsreg g .pdrain b) s x x.em .illop (fun _ => 0) ∧ EntersTrap (.wsreg g .pflush b) s x x.em .illop (fun _ => 0)) ∧
       exec (.perfrd g d n) s = .next (issuedAt pv.2 x (nextPc x.p.pc) fun w => setSd w true d pv.1) ∧
       (codeStores s x.w.core = false → exec (.icinv g) s = .next (issuedAt s x (nextPc x.p.pc) fun w =>
         updSplitW w x.c.sid fun p => { p with icFrom := some s.mem.clk })) ∧
       (codeStores s x.w.core = true → exec (.icinv g) s = .next (waitsAt s x .order)))) ∧
  (∀ (s : State) (x : Ctx) (g : Guard) (code : Word) (i : Instr), Issuing s x →
     (x.agrees g → EntersTrap (.brk g code) s x x.em .brk (fun _ => code.setWidth 64)) ∧
     ((x.guarded g).act ≠ 0 → EntersTrap (.trap g code) s x (x.guarded g).act .swtrap (fun _ => code.setWidth 64)) ∧
     ((x.guarded g).act = 0 → exec (.trap g code) s = .next (issuedAt s x (nextPc x.p.pc) fun w => w)) ∧
     (wordUniform i = true → i.guard? = some g → guardAgree x g = none → EntersTrap i s x x.em .illop (fun _ => 0)) ∧
     (x.agrees g → x.p.kind ≠ .handler ∨ x.p.stack ≠ [] → i = .tretRetry g ∨ i = .tretSkip g ∨ i = .tretEnd g →
       EntersTrap i s x x.em .illop (fun _ => 0)))

/-- Completion of a return from a handler split with an empty stack (R176, R177): the lanes that trapped, and any parked, become a
resumed split, or the arm split where none is left, on the stack recorded at the trap, at TFPC or, with `.skip` and none parked, at
next(TFPC); with `.end` the lanes that trapped exit. -/
def Obligations.HandlerReturnCompletes : Prop :=
  ∀ (s : State) (x : Ctx) (g : Guard) (r : TrapRegs), Issuing s x → x.agrees g → x.p.kind = .handler → x.p.stack = [] →
    x.p.trap = some r →
    let lanes := (r.em ||| x.p.parked) &&& ~~~x.w.exited
    let back := fun (t : State) (w : Wave) (m : Mask) (pc : VAddr) =>
      findWave t x.c.wave = some w ∧ w.g = x.w.g ∧ w.s = x.w.s ∧ w.p = x.w.p ∧ t.mem = s.mem ∧
      ∃ p, findSplit w x.c.sid = some p ∧ p.members = m ∧ p.pc = pc ∧ p.stack = x.p.recStack ∧ p.trap = none ∧ p.parked = 0 ∧
        p.kind = (if armOf x.w x.p = none then .arm else .resumed) ∧
        (∀ q ∈ w.splits, q.kind = .arm → q.arm = x.p.arm → q.sid ≠ x.p.sid → q.stopped = true)
    (lanes ≠ 0 →
      (∃ t w, exec (.tretRetry g) s = .next t ∧ back t w lanes (pcOf r.fpc) ∧ w.em = x.w.em ∧ w.exited = x.w.exited) ∧
      (∃ t w, exec (.tretSkip g) s = .next t ∧ w.em = x.w.em ∧ w.exited = x.w.exited ∧
        back t w lanes (if x.p.parked = 0 then nextPc (pcOf r.fpc) else pcOf r.fpc))) ∧
    (∃ t w, exec (.tretEnd g) s = .next t ∧ findWave t x.c.wave = some w ∧ w.exited = x.w.exited ||| r.em ∧
      (lanes &&& ~~~r.em = 0 → findSplit w x.c.sid = none) ∧
      (lanes &&& ~~~r.em ≠ 0 → back t w (lanes &&& ~~~r.em) (pcOf r.fpc)))

/-! ### The streamer and chutes (11, 14) -/

/-- Completion of the instructions of the streamer and of the matrix engine. Issue of a copy (R246, R247): with streamer rights, a legal
completion word, legal lengths and alignment, and every range on chip inside its allocation, the copy enters the end of its block's queue;
without rights it traps STRMPERM. The engine's (R149, R158, R161 to R163): an operation enters the end of the wave's open set with the row
addresses of the split's lanes, and with 256 operations in the open set it traps ILLOP; a batch takes the open operations and the batch
counter's number; a wait on a complete batch returns, and on a faulted one traps MXFLT or, with `.st`, gives its status; a replay runs the
aborted operations again, and a drop gives them up. The form in which TFPC holds the PC (log 90), and what of a completion word to a chute is
checked (log 118), are the model's choices. -/
def Obligations.StreamerAndEngineInstructionsComplete : Prop :=
  (∀ (s : State) (x : Ctx) (b : Block) (g : Guard) (o : CpyOp) (q : CpywOp) (h : GathOp), Issuing s x → x.agrees g →
     findBlock s x.w.blk = some b →
     let e := engOf x b
     let dw := fun r : Reg => sDWord x.w r.toNat
     let wd := fun r : Reg => sWord x.w r.toNat
     let len := (srcU x.w o.len).toNat
     let n := if o.conv == .dec then 4 * len else len
     let m := if o.conv == .enc then 4 * len else len
     let ra := (wd q.b).toNat
     let rd := spadFields s b ra winFields
     let r := winRec rd.1
     let sw := setMemPsn s x.w.launch rd.2
     let es := 4 * 2 ^ h.es.toNat
     let k := h.n.toNat
     let ia := (wd h.b).toNat
     let sx := setMemPsn s x.w.launch (spadFields s b ia (List.replicate k 4)).2
     let queued := fun (s : State) kind dsp ssp d a len idx c =>
       issuedAt (enqueueCopy s x b kind dsp ssp (dw d) (dw a) len idx (wd c)) x (nextPc x.p.pc) fun w => w
     (hasRights x = false →
       EntersTrap (.cpy g o) s x x.em .strmperm (fun _ => 0) ∧ EntersTrap (.cpyw g q) s x x.em .strmperm (fun _ => 0) ∧
       EntersTrap (.gath g h) s x x.em .strmperm (fun _ => 0) ∧ EntersTrap (.scat g h) s x x.em .strmperm (fun _ => 0)) ∧
     (hasRights x = true →
       (len ≤ 2 ^ 24 → cwOk s b (wd o.c) o.dsp (dw o.d).toNat n = true → cwBad e s (wd o.c) = none →
         dstBad e s (wd o.c) o.dsp (dw o.d) n = none → rangeBad e s o.ssp (dw o.a).toNat m = none →
         exec (.cpy g o) s = .next (queued s (.cpy o.conv) o.dsp o.ssp o.d o.a len 0 o.c)) ∧
       (ra % 32 = 0 → ra + 32 ≤ x.l.lr.spad → r.ok = true → cwOk sw b (wd q.c) .sp (dw q.d).toNat r.bytes = true →
         cwBad e sw (wd q.c) = none → dstBad e sw (wd q.c) .sp (dw q.d) r.bytes = none → rangeBad e sw .sp ra 32 = none →
         (∀ off, some off ∈ r.rows → rangeBad e sw q.ssp (addrIn q.ssp (dw q.a) off) (r.nc * r.eb) = none) →
         exec (.cpyw g q) s = .next (queued sw (.cpyw rd.1) .sp q.ssp q.d q.a r.bytes 0 q.c)) ∧
       (baseBad h.dsp (dw h.d) es = none → baseBad h.ssp (dw h.a) es = none →
         (rangeBad e s .sp ia (4 * k) = none → cwBad e s (wd h.c) = none →
           cwOk s b (wd h.c) h.dsp (dw h.d).toNat (k * es) = true → dstBad e s (wd h.c) h.dsp (dw h.d) (k * es) = none →
           exec (.gath g h) s = .next (queued s (.gath k es) h.dsp h.ssp h.d h.a (k * es) ia h.c)) ∧
         let inside := fun s => rangeBad e s .sp ia (4 * k) = none ∧ cwBad e s (wd h.c) = none ∧
           rangeBad e s h.ssp (dw h.a).toNat (k * es) = none
         ((h.dsp = .gm → inside s → cwOk s b (wd h.c) h.dsp (dw h.d).toNat (k * es) = true →
             exec (.scat g h) s = .next (queued s (.scat k es none) h.dsp h.ssp h.d h.a (k * es) ia h.c)) ∧
           (h.dsp ≠ .gm → ia + 4 * k ≤ x.l.lr.spad → inside sx →
             let ix := (spadFields s b ia (List.replicate k 4)).1
             let ext := if cwKind (wd h.c) = 2 then (List.range k).foldl (fun a j => max a ((idxAt ix j + 1) * es)) 0 else k * es
             cwOk sx b (wd h.c) h.dsp (dw h.d).toNat ext = true →
             (cwKind (wd h.c) ≠ 2 → ∀ j, j < k → rangeBad e sx h.dsp (addrIn h.dsp (dw h.d) (idxAt ix j * es)) es = none) →
             exec (.scat g h) s = .next (queued sx (.scat k es (some ix)) h.dsp h.ssp h.d h.a (k * es) ia h.c)))))) ∧
  (∀ (s : State) (x : Ctx) (g : Guard) (la : BitVec 4) (o : MmaOp) (p : MldOp) (q : MstOp) (d : Reg) (af : Af),
    Issuing s x → x.agrees g →
    let rows := fun (spc : Bool) (r : Reg) (off : DWord) => (Vector.ofFn fun l : Fin 32 =>
      if spc then (gWord x.w r.toNat l + lo32 off).setWidth 64 else gDWord x.w r.toNat l + off : Lanes DWord)
    let A := rows o.spc.isSome o.a (o.offA.signExtend 64)
    let B := rows o.spc.isSome o.b (o.offB.signExtend 64)
    let raw := fun b : Bool => if b then some Sf.bf16 else none
    let joins := fun (i : Instr) k (t : Reg) af spc a b =>
      exec i s = .next (issuedAt { s with nid := s.nid + 2 } x (nextPc x.p.pc) fun w => { w with
        mxOps := w.mxOps ++ [⟨s.nid, k, t.toNat, af, spc, x.em, a, b, s.nid + 1, none, .queued, 0, 0, noRows, none, [], none⟩] })
    ((openOps x.w).length < 256 →
      joins (.mma g la o) .mma o.t .f32 o.spc A B ∧ joins (.mlut g la o) .mlut o.t .f32 o.spc A B ∧
      joins (.mzero g la d af) .mzero d af none noRows noRows ∧
      joins (.mld g la p) .mld p.t p.af (raw p.spc) (rows p.spc p.a (p.off.signExtend 64)) noRows ∧
      joins (.mst g la q) .mst q.t .f32 (raw q.spc) (rows q.spc q.a (q.off.signExtend 64)) noRows) ∧
    (256 ≤ (openOps x.w).length → ∀ i, i = .mma g la o ∨ i = .mlut g la o ∨ i = .mzero g la d af ∨ i = .mld g la p ∨ i = .mst g la q →
      EntersTrap i s x x.em .illop (fun _ => 0))) ∧
  (∀ (s : State) (x : Ctx) (g : Guard) (la : BitVec 4) (d a : Reg) (st : Option Reg) (drop : Bool), Issuing s x → x.agrees g →
    let n : Byte := (sWord x.w a.toNat).setWidth 8
    let k := x.w.mxCtr
    let win : Win := ⟨s.nid, la.toNat, false, 0, false, none, some (d.toNat, 1), none, none, [], [k.setWidth 32], 0⟩
    let closed := fun w : Wave => { w with
      mxOps := (w.mxOps.map fun o => if o.batch.isNone then { o with batch := some x.w.mxSerial } else o).filter fun o => o.st != .done
      mxBatches := (w.mxBatches.filter fun b => b.num != k || !batchDone w b) ++
        [⟨x.w.mxSerial, k, (openOps x.w).length, (openOps x.w).map MxOp.id, s.nid, false⟩]
      mxCtr := k + 1
      mxSerial := x.w.mxSerial + 1 }
    let open1 := ((batchList x.w).filter fun e => e.2 != .complete && !e.1.dropped).length
    let put := fun (v : Word) (m : Mask) (w : Wave) => match st with | some d => setSs w d.toNat [v, m] | none => w
    (open1 < 16 → exec (.mfence g la d) s = .next
      (if la = 0 then issuedAt { s with nid := s.nid + 1 } x (nextPc x.p.pc) fun w => applyWin (closed w) win
       else issuedWith { s with nid := s.nid + 1 } x (nextPc x.p.pc) [win] closed)) ∧
    (16 ≤ open1 → exec (.mfence g la d) s = .next (waitsAt s x .batchRoom)) ∧
    (namedBatch x.w n = none →
      exec (.mwait g st a) s = .next (issuedAt s x (nextPc x.p.pc) (put (BitVec.ofNat 32 (n.toNat * 256)) 0))) ∧
    (∀ b r, namedBatch x.w n = some (b, r) →
      (r = .pending → exec (.mwait g st a) s = .next (waitsAt s x .batch)) ∧
      (r ≠ .pending → oldestFault x.w b = none → exec (.mwait g st a) s =
        .next (issuedAt (countWrites s x.w.uid b) x (nextPc x.p.pc) (put (BitVec.ofNat 32 (n.toNat * 256)) 0))) ∧
      (∀ f i o, r ≠ .pending → oldestFault x.w b = some (f, i, o) →
        (st = none → EntersTrap (.mwait g none a) s x x.em .mxflt fun l => laneGet o.addr 0 l) ∧
        (st ≠ none → exec (.mwait g st a) s = .next (issuedAt (countWrites s x.w.uid b) x (nextPc x.p.pc)
          (put (BitVec.ofNat 32 (2 ^ 31 + o.reason * 2 ^ 28 + f.num.toNat * 256 + i)) o.bad)))) ∧
      (r = .faulted → exec (.mrep g drop a) s = .next (issuedAt { s with nid := s.nid + x.w.mxOps.length } x
        (nextPc x.p.pc) fun w => dropBatch (releaseOps w b drop s.nid) b.serial drop))) ∧
    ((∀ b, namedBatch x.w n ≠ some (b, .faulted)) → exec (.mrep g drop a) s = .next (issuedAt s x (nextPc x.p.pc) fun w => w)) ∧
    exec (.mflg g d) s = .next (issuedAt s x (nextPc x.p.pc) fun w => { setS1 w d.toNat (BitVec.ofNat 32
      (x.w.accInf.toNat + 2 * x.w.accSat.toNat + 4 * x.w.fmtErr.toNat)) with accInf := false, accSat := false, fmtErr := false }))

/-- Completion and result of `chini`, `chwait` and `chrel` (R293, R295, R297) at an aligned header inside the scratchpad, the split's
own stores to it being stored: a new chute is empty; `chwait` waits until B slots are written and gives the address of the oldest;
`chrel` frees B slots. -/
def Obligations.ChuteCompletes : Prop :=
  ∀ (s : State) (x : Ctx) (b : Block) (g : Guard) (d a c : Reg) (e : SrcU), Issuing s x → x.agrees g →
    findBlock s x.w.blk = some b →
    let ad := (sWord x.w a.toNat).toNat
    let n := srcU x.w e
    let sz := (sWord x.w c.toNat).toNat
    let h := chHdr s b ad
    let t := setMemPsn s x.w.launch (chRead s b ad).2
    ad % 16 = 0 → ad + 16 ≤ x.l.lr.spad → spadPending s x ad 16 = false →
    (1 ≤ n.toNat → n.toNat ≤ 4096 → 16 ≤ sz → sz ≤ 65536 → sz % 16 = 0 → ad + 16 + n.toNat * sz ≤ x.l.lr.spad →
      (∀ u, findChute b ad = some u → u.cl = h.wr) → (findChute b ad = none → b.chutes.length < 16) →
      exec (.chini g a e c) s = .next (issuedAt
        (storeBytes (updBlock s b.uid fun b => { b with chutes := b.chutes.filter (·.addr != ad) ++ [⟨ad, 0, []⟩] }) b.uid ad
          (leBytes (n.toNat + sz * 2 ^ 32) 16)) x (nextPc x.p.pc) fun w => w)) ∧
    (n.toNat ≤ h.nslot →
      (n.toNat ≤ (h.wr - h.rd).toNat → exec (.chwait g d a e) s = .next (issuedAt t x (nextPc x.p.pc) fun w =>
        setS1 w d.toNat (BitVec.ofNat 32 (ad + 16 + h.rd.toNat % h.nslot * h.slotsz)))) ∧
      ((h.wr - h.rd).toNat < n.toNat → exec (.chwait g d a e) s = .next (waitsAt t x .chute))) ∧
    (n.toNat ≤ (h.wr - h.rd).toNat → splitReleased t x .block = true →
      exec (.chrel g a e) s = .next (issuedAt (if n = 0 then t else setChRd t b.uid ad (h.rd + n)) x (nextPc x.p.pc) fun w => w))

/-- Completion of the start of a copy and of the two moves of a running one (R224, R246 to R248, R296): a block's oldest waiting copy
starts, fewer than 64 of its copies running, and not into a full chute; a raw copy whose ranges can all be reached brings the bytes of
its source, as its core sees them past L1, to its destination's writes; one whose source cannot be reached writes nothing and sets
STRMFLT; once its writes have drained, its completion word is signalled. -/
def Obligations.CopyMovesComplete : Prop :=
  (∀ (s : State) (blk : Nat) (b : Block) (c : Copy), findBlock s blk = some b → b.copies.find? (fun c => !c.running) = some c →
     (b.copies.filter (·.running)).length < 64 →
     let started := fun (slot : Option Word) (b : Block) =>
       { b with copies := updFirst (·.id == c.id) (fun k => { k with running := true, slot := slot }) b.copies }
     (cwKind c.word ≠ 2 → exec (.copyStart blk) s = .next (updBlock s blk (started none))) ∧
     (∀ t, cwKind c.word = 2 → findChute b (cwTarget c.word) = some t →
       let h := chHdr s b t.addr
       ((t.cl - h.rd).toNat = h.nslot → exec (.copyStart blk) s = .next s) ∧
       ((t.cl - h.rd).toNat ≠ h.nslot → exec (.copyStart blk) s = .next (updBlock s blk fun b =>
         let b := started (some t.cl) b
         { b with chutes := b.chutes.map fun u => if u.addr == t.addr then { u with cl := u.cl + 1 } else u })))) ∧
  (∀ (s : State) (blk n : Nat) (b : Block) (l : Launch) (c : Copy), findBlock s blk = some b → findLaunch s b.launch = some l →
     b.copies.find? (·.id == n) = some c → c.running = true →
     let e : Eng := ⟨l, b, b.core⟩
     let wrote := fun t => updCopy t b.uid c.id fun c => { c with wrote := true, got := [] }
     let gone := updBlock s b.uid fun b => { b with copies := b.copies.filter (·.id != c.id) }
     (c.wrote = false → copyReady s c = true → c.kind = .cpy .raw →
       let p := pieces e s c.ssp .read c.src.toNat c.len
       (∀ z, p.1 = .error z →
         exec (.copyComplete blk n) s = .next (wrote (setStrmFlt p.2 l.uid (reasonOf z.1) (BitVec.ofNat 64 z.2)))) ∧
       (∀ sp dp, p.1 = .ok sp →
         let q := pieces e p.2 c.dsp .write (copyDst p.2 b c).toNat c.len
         q.1 = .ok dp → piecesUp q.2 sp = true →
         let r := readUnits (copyReader e c) (copyFree q.2 c) c.got 0 (runUnits sp) q.2
         exec (.copyComplete blk n) s = .next (wrote (addPerf
           (setMemPsn (putAll e c dp r.1 r.2) l.uid (r.1.any Prod.snd)) b.core 6 r.1.length)))) ∧
     (c.wrote = true → copyDrained s e c = true → collective l c = false →
       (cwKind c.word = 0 → exec (.copyComplete blk n) s = .next gone) ∧
       (cwKind c.word = 1 → exec (.copyComplete blk n) s = .next (semAdd gone b.core (cwTarget c.word) l.lr.tenant 1)) ∧
       (cwKind c.word = 3 → (readBar b (cwTarget c.word)).valid = true →
         exec (.copyComplete blk n) s = .next (arriveBar (updBlock gone b.uid fun b => { b with
           bars := b.bars.map fun e => if e.addr == cwTarget c.word then { e with pend := e.pend - 1 } else e }) b (cwTarget c.word)))))

/-! ### The matrix engine (07) -/

/-- Completion of an engine operation whose turn at its tile has come (R147, R151 to R154, R157, R160): with a failing row it is aborted,
and its tile is as it was; behind an aborted one it is held; otherwise, once its rows may be read, its tile takes the product or the rows
read, what it has read of them before among them, and no other tile of the wave changes. The bits that `mlut` takes from a poisoned weight row
are the model's choice (log 116). -/
def Obligations.MatrixOperationCompletes : Prop :=
  ∀ (s : State) (u op : Nat) (w : Wave) (o : MxOp) (b : Block) (l : Launch), findWave s u = some w → opOf w op = some o →
    findBlock s w.blk = some b → findLaunch s w.launch = some l → o.st = .queued →
    let before := (w.mxOps.takeWhile fun p => p.id != op).filter fun p => p.t == o.t
    let r := opRows ⟨l, b, w.core⟩ w o s
    let rows := o.chk.getD (r.1, r.2.1)
    let t0 := if o.chk.isSome then s else updWave r.2.2.2 u fun w => updOp w op fun o => { o with chk := some rows }
    let tl := tileOf w o.t
    (∀ p ∈ before, p.st ≠ .queued) →
    ((∃ p ∈ before, p.st ≠ .done) → exec (.matrixOpExecute u op) s = .next (updWave s u fun w => updOp w op fun o => { o with st := .held })) ∧
    ((∀ p ∈ before, p.st = .done) →
      (o.chk = none → r.2.2.1 ≠ [] → exec (.matrixOpExecute u op) s = .next (updWave r.2.2.2 u fun w =>
        let w := updOp w op fun o => abortOp o r.2.2.1
        match o.batch with | some n => dropBatch w n false | none => w)) ∧
      ((o.chk.isSome = true ∨ r.2.2.1 = []) → (o.kind = .mst → piecesUp t0 (rows.1.flatMap MxRow.runs) = true ∧ mstReady t0 w o rows.1 = true) →
        (o.kind ≠ .mst → (rowUnits (rows.1 ++ rows.2)).all (rowReady t0 w o) = true) → o.t < w.tiles.length →
        ∃ t v, exec (.matrixOpExecute u op) s = .next t ∧ findWave t u = some v ∧
          (∀ k, k ≠ o.t → tileOf v k = tileOf w k) ∧
          (o.kind = .mzero → tileOf v o.t = ⟨o.af, []⟩) ∧
          (o.kind = .mst → tileOf v o.t = tl) ∧
          (o.kind = .mma →
            let A := mxRows w o 0 rows.1 t0
            let B := mxRows w o (rowUnits rows.1).length rows.2 A.2
            (tileOf v o.t).af = tl.af ∧ ∀ i j, i < 32 → j < 32 →
              let c := mmaCell tl.af (cellOf tl i j) (fun k => mval (rowsMatrix o.spc.isSome A.1) i k)
                fun k => mval (rowsMatrix o.spc.isSome B.1) k j
              cellOf (tileOf v o.t) i j = c.c ∧ (c.inf = true → v.accInf = true) ∧ (c.sat = true → v.accSat = true)) ∧
          (o.kind = .mlut →
            let A := mxRows w o 0 rows.1 t0
            let B := mxRows w o (rowUnits rows.1).length rows.2 A.2
            (tileOf v o.t).af = tl.af ∧ ∀ i j, i < 32 → j < 32 →
              cellOf (tileOf v o.t) i j = (mlutCell tl.af (cellOf tl i j) (fun k => mval (rowsMatrix o.spc.isSome A.1) i k)
                fun h => lutNib B.1 h j).c) ∧
          (o.kind = .mld →
            let A := mxRows w o 0 rows.1 t0
            tileOf v o.t = ⟨o.af, (A.1.flatMap fun y => mldCells o.af y.1.lane y.2).filter fun c => c.2 != 0⟩)))

/-! ### Graph space (12, 13) -/

/-- Completion of the issue of the graph instructions (R256, R262, R265, R268, R272, R273): one operation for each active lane joins
its stream, lower lanes first, with the lane's operands, and a window is open for its results; `gopen` first releases an open cursor;
`gclose` closes the cursor at once; `gnew` reads its descriptor at an aligned address that translates. -/
def Obligations.GraphIssueCompletes : Prop :=
  ∀ (s : State) (x : Ctx) (g : Guard) (la : BitVec 4) (m : GmutOp) (e : GdelOp) (d : GdegOp) (l : GldOp) (f : GfindOp) (v : GverOp)
    (o : GopenOp) (c : GcurOp) (q : BitVec 4) (sd a : Reg), Issuing s x →
    let act := (x.guarded g).act
    let base := mkGop x s.nid (s.nid + 1) .gver
    let issues := fun (i : Instr) (ds : Dest) (f : Nat → List GOp) =>
      exec i s = .next (issuedWith (issueGops f (lanesOf act) { s with nid := s.nid + 2 }) x (nextPc x.p.pc)
        (issuedWin (s.nid + 1) la ds act false) fun w => w)
    let gp := fun (r : Reg) n p => ({ gd := some (r.toNat, n), pd := prDest p } : Dest)
    let hd := fun h : Reg => sWord x.w h.toNat
    let v64 := fun (b : SrcC) l => vertexOf (srcC x.w true b l)
    let open1 := (lanesOf act).filter fun l => cursorOpen (qGet x.w q l)
    let va := sDWord x.w a.toNat
    let xl := xlate s x.l.lr.tenant x.l.lr.root va.toNat .read
    let low : LaneKey := ⟨x.c.wave, (lowLane x.em).getD 0⟩
    issues (.gadd g la m) (gp m.d 1 m.pr) (fun l =>
      [{ base with kind := .gadd, handle := hd m.h, u := v64 m.u l, v := v64 m.v l, w := gDWord x.w m.w.toNat l }]) ∧
    issues (.gwt g la m) (gp m.d 1 m.pr) (fun l =>
      [{ base with kind := .gwt, handle := hd m.h, u := v64 m.u l, v := v64 m.v l, w := gDWord x.w m.w.toNat l }]) ∧
    issues (.gdel g la e) (gp e.d 1 e.pr) (fun l =>
      [{ base with kind := .gdel, handle := hd e.h, u := v64 e.u l, v := v64 e.v l }]) ∧
    issues (.gdeg g la d) (gp d.d 2 d.pr) (fun l =>
      [{ base with kind := .gdeg, handle := hd d.h, inl := d.inl, u := vertexOf (srcV x.w d.u l) }]) ∧
    issues (.gld g la l) (gp l.d 4 l.pr) (fun i =>
      [{ base with kind := .gld, handle := hd l.h, inl := l.inl, u := vertexOf (srcV x.w l.u i), rank := (srcC x.w false l.rank i).toNat }]) ∧
    issues (.gfind g la f) (gp f.d 4 f.pr) (fun l =>
      [{ base with kind := .gfind, handle := hd f.h, inl := f.inl, u := v64 f.u l, v := v64 f.v l }]) ∧
    issues (.gver g la v) (gp v.d 4 v.pr) (fun _ => [{ base with kind := .gver, handle := hd v.h }]) ∧
    issues (.gopen g la o) { qd := some o.q.toNat, pd := prDest o.pr } (fun l =>
      let k := qGet x.w o.q l
      (if cursorOpen k then [{ base with kind := .gclose k, win := 0 }] else []) ++
        [{ base with kind := .gopen, handle := hd o.h, inl := o.inl, u := vertexOf (srcV x.w o.u l) }]) ∧
    issues (.gnext g la c) { gd := some (c.d.toNat, 4), qd := some c.q.toNat, pd := prDest c.pr } (fun l =>
      [{ base with kind := .gnext (qGet x.w c.q l) }]) ∧
    issues (.gcst g la c) (gp c.d 4 c.pr) (fun l => [{ base with kind := .gcst (qGet x.w c.q l) }]) ∧
    exec (.gclose g q) s = .next (issuedAt (issueGops (fun l => [{ mkGop x s.nid 0 (.gclose (qGet x.w q l)) with dead := true }]) open1
      { s with nid := s.nid + 1 }) x (nextPc x.p.pc) fun w => open1.foldl (fun w l => setQ1 w q.toNat l .closed) w) ∧
    (x.agrees g →
      exec (.gfree g la a) s = .next (issuedAt (addGop { s with nid := s.nid + 1 }
        { mkGop x s.nid 0 .gfree with lane := low, handle := hd a }) x (nextPc x.p.pc) fun w => w) ∧
      (∀ t, va.toNat % 32 = 0 → xl.1 = .ok t → exec (.gnew g la sd a) s = .next (issuedWith
        (addGop { xl.2 with nid := xl.2.nid + 2 } { mkGop x xl.2.nid (xl.2.nid + 1) (.gnew t.loc []) with lane := low }) x (nextPc x.p.pc)
        (issuedWin (xl.2.nid + 1) la { sd := some (sd.toNat, 2) } 0 true) fun w => w)))

/-- Completion of the moves of `gadd`, `gdel` and `gwt` (R257, R259 to R261), in the operation's turn (R262): the reserve gives BADG, BADV, DUP, ABSENT or LFULL, waits
behind a pending insertion of its edge, or marks the edge pending; each commit changes its one list, moves its ring on, and changes no
other list, and one at a failed stack is discarded (23 R394); the completion counts the edge. That a failed home of the first vertex leaves the
count is the model's choice (log 113). -/
def Obligations.GraphMutationCompletes : Prop :=
  ∀ (s : State) (n : Nat) (o : GOp), findGop s n = some o → o.kind = .gadd ∨ o.kind = .gdel ∨ o.kind = .gwt →
    (o.phase = .start → gopReady s o = true →
      (findGraph s o.tenant o.handle = none → exec (.graphReserve n) s = .next (mutDone s o .badg)) ∧
      (∀ g, findGraph s o.tenant o.handle = some g → vertexIn g o.u = none ∨ vertexIn g o.v = none →
        exec (.graphReserve n) s = .next (mutDone s o .badv))) ∧
    (∀ g u v, findGraph s o.tenant o.handle = some g → o.u = some u → o.v = some v → u < g.cap → v < g.cap →
      let ku := listKey u false
      let kv := listKey v true
      let live := (rankOf (gList g ku) v).isSome
      let pend := g.pending.contains (edgeKey u v)
      let full := fun k => 2 ^ 32 - 1 ≤ (gList g k).ents.length + kvGet 0 k g.resv
      let r1 := kvPut 0 ku (kvGet 0 ku g.resv + 1) g.resv
      let g1 := { g with resv := kvPut 0 kv (kvGet 0 kv r1 + 1) r1 }
      (o.phase = .start → gopReady s o = true → stackUp s (graphHome g u) = true → stackUp s (graphHome g v) = true →
        (o.kind = .gadd → live = true → exec (.graphReserve n) s = .next (mutDone s o .dup)) ∧
        (o.kind = .gadd → live = false → pend = true → exec (.graphReserve n) s = .next s) ∧
        (o.kind = .gadd → live = false → pend = false →
          (full ku ∨ full kv → exec (.graphReserve n) s = .next (mutDone s o .lfull)) ∧
          (¬full ku → ¬full kv →
            let f := reserveFits s o g1 u v
            (f.1 = some true → exec (.graphReserve n) s = .next (reserved f.2 o g1 u v)) ∧
            (f.1 = some false → exec (.graphReserve n) s = .next (mutDone f.2 o .nospace)))) ∧
        (o.kind ≠ .gadd → live = false ∨ pend = true → exec (.graphReserve n) s = .next (mutDone s o .absent)) ∧
        (o.kind ≠ .gadd → live = true → pend = false →
          (o.kind = .gwt → g.pay = 0 → exec (.graphReserve n) s = .next (mutDone s o .ok)) ∧
          (¬(o.kind = .gwt ∧ g.pay = 0) → exec (.graphReserve n) s = .next (reserved s o g u v)))) ∧
      (o.phase = .inCommit → laneTurn s o = true → let k := s.graph.nextStamp
        exec (.inListCommit n) s = .next (updGop (updGraph
          { s with graph := { s.graph with nextStamp := k + 1, openStamps := k :: s.graph.openStamps } } g.idx g.gen
          fun g => commitOn s g o kv u k) o fun o => { o with phase := .outCommit, stamp := k })) ∧
      (o.phase = .outCommit → laneTurn s o = true → exec (.outListCommit n) s = .next (updGop (updGraph
          { s with graph := { s.graph with openStamps := s.graph.openStamps.filter (· != o.stamp) } } g.idx g.gen
          fun g => { commitOn s g o ku v o.stamp with pending := g.pending.filter (· != edgeKey u v) }) o
          fun o => { o with phase := .finish })) ∧
      (o.phase = .finish → laneTurn s o = true → exec (.outListCommit n) s = .next (mutDone
        (updGraph s g.idx g.gen (countEdge s o u)) o .ok)) ∧
      (stackFailed s (graphHome g u) = false → countEdge s o u g =
        { g with count := match o.kind with | .gadd => g.count + 1 | .gdel => g.count - 1 | _ => g.count }) ∧
      (∀ k nbr st, let b := stackFailed s (graphHome g (k / 2))
        (b = false → commitOn s g o k nbr st = commitList g o k nbr st) ∧ (b = true → (commitOn s g o k nbr st).lists = g.lists)) ∧
      (kvWf list0 g.lists = true → ∀ k nbr st, let l := gList g k
        gList (commitList g o k nbr st) k = ⟨match o.kind with
          | .gadd => l.ents ++ [⟨nbr, payWeight g.pay o.w, st⟩]
          | .gdel => l.ents.filter (·.v != nbr)
          | _ => updFirst (·.v == nbr) (fun e => { e with w := payWeight g.pay o.w, k := st }) l.ents, l.ring + 1, l.commits + 1⟩ ∧
        ∀ j, j ≠ k → gList (commitList g o k nbr st) j = gList g j))

/-- Completion and result of the graph reads (R258, R264 to R269): the degree and ring, the entry at a rank or END, the rank of an edge
or ABSENT, the graph's own values; the pin that `gopen` takes; what a cursor's pin holds; the release of a pin. On a failed stack a read of a list gives
poison (23 R394): the words of it, and the predicate 1, are the model's choice (log 113). -/
def Obligations.GraphReadCompletes : Prop :=
  ∀ (s : State) (n : Nat) (o : GOp), findGop s n = some o → gopReady s o = true →
    let done := fun ws ok q => exec (.graphReadMove n) s = .next (gopDone s o ws ok q)
    (∀ c, o.kind = .gclose c → exec (.graphReadMove n) s = .next
      (releasePin { s with graph := { s.graph with ops := s.graph.ops.filter (·.id != o.id) } } c.pin.toNat)) ∧
    (∀ c, (o.kind = .gnext c → cursorOpen c = false → done (noEntry .closed) false none) ∧
      (o.kind = .gcst c → cursorOpen c = false → done (gcstWords { Cursor.closed with st := c.st } false .closed 0) false none) ∧
      (cursorOpen c = true → stackFailed s c.home.toNat = true → o.kind = .gnext c ∨ o.kind = .gcst c →
        exec (.graphReadMove n) s = .next (gopPoison s o 4)) ∧
      (cursorOpen c = true → stackUp s c.home.toNat = true → stackFailed s c.home.toNat = false → ∀ p g t, livePin s c = (some (p, g), t) →
        (o.kind = .gcst c → exec (.graphReadMove n) s = .next (gopDone t o (gcstWords c
          (p.commits < (gList g (listKey p.v p.inl)).commits) .ok p.ents.length) true none)) ∧
        (o.kind = .gnext c → c.st ≠ 2 → ∀ e, p.ents[c.rank.toNat]? = some e → exec (.graphReadMove n) s = .next
          (gopDone (noteStamp t o e.k) o (entryQuad e.v .ok e.w) true (some { c with rank := c.rank + 1 }))) ∧
        (o.kind = .gnext c → c.st ≠ 2 → p.ents[c.rank.toNat]? = none → exec (.graphReadMove n) s = .next
          (gopDone t o (noEntry .fin) false (some { c with st := 2 }))) ∧
        (o.kind = .gnext c → c.st = 2 → exec (.graphReadMove n) s = .next (gopDone t o (noEntry .fin) false none)))) ∧
    (findGraph s o.tenant o.handle = none →
      (o.kind = .gdeg → done [0, 0] false none) ∧ (o.kind = .gld → done (noEntry .badg) false none) ∧
      (o.kind = .gver → done [0, 0, 0, 0] false none) ∧
      (o.kind = .gopen → done [] false (some { Cursor.closed with st := 3 }))) ∧
    (∀ g, findGraph s o.tenant o.handle = some g →
      (o.kind = .gver → done [BitVec.ofNat 32 g.cap, BitVec.ofNat 32 (g.cap / 2 ^ 32 + g.pay * 2 ^ 16 + g.hpol * 2 ^ 18 + g.harg * 2 ^ 20),
        lo32 g.count, hi32 g.count] true none) ∧
      (∀ u, o.u = some u → u < g.cap → stackFailed s (graphHome g u) = true →
        (o.kind = .gdeg → exec (.graphReadMove n) s = .next (gopPoison s o 2)) ∧
        (o.kind = .gld → exec (.graphReadMove n) s = .next (gopPoison s o 4))) ∧
      (∀ u, o.u = some u → u < g.cap → stackUp s (graphHome g u) = true → stackFailed s (graphHome g u) = false →
        let l := gList g (listKey u o.inl)
        (o.kind = .gdeg → done [BitVec.ofNat 32 l.ents.length, l.ring] true none) ∧
        (o.kind = .gld → l.ents[o.rank]? = none → done (noEntry .fin) false none) ∧
        (∀ e, o.kind = .gld → l.ents[o.rank]? = some e →
          exec (.graphReadMove n) s = .next (gopDone (noteStamp s o e.k) o (entryQuad e.v .ok e.w) true none)) ∧
        (∀ k, o.kind = .gopen → o.dead = false → findLaunch s o.launch = some k → pinPlace s k.lr (graphHome g u) = some none →
          let p : Pin := ⟨freshPin s, g.idx, g.gen, o.inl, u, l.ring, l.commits, l.ents, graphHome g u, o.tenant, k.lr.root, none, o.lane⟩
          exec (.graphReadMove n) s = .next (gopDone
            { s with nid := s.nid + 1, graph := { s.graph with pins := s.graph.pins ++ [p] } } o [] true
            (some ⟨l.ring, 0, BitVec.ofNat 32 (freshPin s), BitVec.ofNat 4 (graphHome g u), o.inl, 1⟩)))) ∧
      (∀ u v, o.kind = .gfind → o.u = some u → o.v = some v → u < g.cap → v < g.cap →
        let h := graphHome g (if o.inl then v else u)
        (stackFailed s h = true → exec (.graphReadMove n) s = .next (gopPoison s o 4)) ∧
        (stackUp s h = true → stackFailed s h = false →
        let l := gList g (listKey (if o.inl then v else u) o.inl)
        let k := if o.inl then u else v
        (rankOf l k = none → done [0xFFFFFFFF, BitVec.ofNat 32 (3 * 256), 0, 0] false none) ∧
        (∀ r e, rankOf l k = some r → l.ents[r]? = some e →
          exec (.graphReadMove n) s = .next (gopDone (noteStamp s o e.k) o [BitVec.ofNat 32 r, 0, lo32 e.w, hi32 e.w] true none)))))

/-- Completion of what makes and frees a graph (R253, R272 to R274, R277): `gnew` reads the four units of its descriptor as plain reads, each
once no acquire or earlier read of the same bytes comes before it, and then in its turn gives a handle with the index at the head of the free
list, or BADDESC, BADREG or NOGRAPH; `gfree` frees once no operation on the graph is under way, and frees nothing where the handle
names none; the loader makes an image's graph and writes its handle, before any launch of the image is admitted. These are the model's choice:
that the descriptor is read by a move for each unit and that a poisoned one gives BADDESC (log 41), which of the three codes comes first (log 119),
and that the loader's region is 32 MiB at the image's base and that it adds every edge with no check for NOSPACE or LFULL (log 43). -/
def Obligations.GraphLifeCompletes : Prop :=
  ∀ (s : State) (n : Nat) (o : GOp) (m : GraphImg),
    (findGop s n = some o →
      let left := fun t : State => { t with graph := { t.graph with ops := t.graph.ops.filter (·.id != o.id) } }
      (o.kind = .gfree → gopReady s o = true →
        (findGraph s o.tenant o.handle = none → exec (.gfreeTakeEffect n) s = .next (left s)) ∧
        (∀ g, findGraph s o.tenant o.handle = some g →
          (s.graph.ops.any fun p => p.phase != .start && p.tenant == o.tenant && p.handle == o.handle) = false →
          exec (.gfreeTakeEffect n) s = .next (freeGraph (left s) g.idx g.gen))) ∧
      (∀ desc got k ks bs p t, o.kind = .gnew desc got → locUp s desc = true →
        ((List.range 4).filter fun i => !got.any (·.1 == i)) = k :: ks →
        let c := choose (ks.length + 1) s
        let i := (k :: ks).getD c.1 k
        acqBlocked s o.lane o.isq = false → readBefore s o.lane o.isq (desc.off (8 * i)) 8 = false →
        readRun ⟨some o.lane, some ⟨o.lane, o.isq, true⟩, o.core, true, []⟩ c.2 (desc.off (8 * i)) 8 = some (bs, p, t) →
        exec (.graphReadMove n) s = .next (updGop (setMemPsn t o.launch p) o
          fun o => { o with kind := .gnew desc (kvIns i (bs, p) got) })) ∧
      (∀ desc got, o.kind = .gnew desc got → gopReady s o = true → locUp s desc = true → (∀ i, i < 4 → got.any (·.1 == i) = true) →
        let bs := got.flatMap (·.2.1)
        let p := got.any (·.2.2)
        let u := left s
        let gives := fun t ws => exec (.graphReadMove n) s = .next (deliverS t o.lane.wave o.win ws)
        (p = true ∨ graphDesc (leNat bs) = none → gives u [0, 11]) ∧
        (∀ d, p = false → graphDesc (leNat bs) = some d →
          let r := regionOk u o.tenant (rootOf u o.launch o.tenant) d
          (r.1 = none → gives r.2 [0, 9]) ∧
          (∀ pages, r.1 = some pages → takeIndex r.2.graph = none → gives r.2 [0, 10]) ∧
          (∀ pages i k y, r.1 = some pages → takeIndex r.2.graph = some (i, k, y) →
            gives { r.2 with graph := { y with graphs := y.graphs ++ [newGraph o.tenant i k d pages] } }
              [BitVec.ofNat 32 (i + 65536 * k), 0])))) ∧
    (let d : GDesc := ⟨m.cap, m.pay, 0, 0, pcVa m.base, 2 ^ 25⟩
     let root := tenantRoot s m.tenant
     let r := regionOk s m.tenant root d
     let q := unitRange r.2 m.tenant root .read (pcVa m.handleVa) 4
     ∀ us pages i k y, 1 ≤ m.cap → m.cap ≤ 2 ^ 40 → m.pay ≤ 2 → m.base % 2 ^ 21 = 0 → m.handleVa % 4 = 0 →
      (∀ e ∈ m.edges, e.1 < m.cap ∧ e.2.1 < m.cap) →
      (let at_ := graphHome (newGraph m.tenant 0 0 d []); ∀ e ∈ m.edges, stackUp s (at_ e.1) = true ∧ stackUp s (at_ e.2.1) = true) →
      (∀ l ∈ s.launches, l.lr.tenant = m.tenant → l.lr.code < pcVa m.code.1 ∨ pcVa m.code.1 + m.code.2 ≤ l.lr.code) →
      imageRan s m.tenant root m.code = false → r.1 = some pages → q.1 = .ok us → takeIndex q.2.graph = some (i, k, y) → i < 65536 →
      exec (.loaderGraphCreation m) s = .next (noteUnits us (unitWrite us (leBytes (i + 65536 * k) 4)
        (updGraph { q.2 with graph := { y with graphs := y.graphs ++ [newGraph m.tenant i k d pages] } } i k
          fun g => m.edges.foldl (addEdge q.2) g))))

/-! ### Tasks and queues (14) -/

/-- Completion and result of `qstat` on a declared task stage (R291): once per split, in one step, the stage's occupancy on the issuing die, its
spilled records included, and its quota there for the current period, by way of a window. -/
def Obligations.QstatCompletes : Prop :=
  ∀ (s : State) (x : Ctx) (g : Guard) (la : BitVec 4) (d : Reg) (k : BitVec 3), Issuing s x → taskStage x.l k.toNat ≠ none →
    let here := s.tasks.recs.filter fun r => r.die == waveDie x.w && (r.launch == x.l.uid && r.stage == k.toNat)
    let occ := (here.filter (·.spilled.isNone)).length + (here.filter (·.spilled.isSome)).length
    ComputesLater (.qstat g la d k) g la true true d s x s fun _ =>
      word64 (BitVec.ofNat 32 occ) (BitVec.ofNat 32 (kvGet 0 (k.toNat * 4 + waveDie x.w) x.l.quota))

/-- Completion and result of the task instructions on a declared task stage (R287 to R290, R292; `qstat` has its own statement), and of the
enqueue of a lane that waits at `qpush`: `tspawn` gives each active lane its status; `qpush` enqueues while there is room, and otherwise waits;
`qpop` takes the oldest resident records; `tdone` ends tasks; on any other stage they and `qstat` trap ILLOP, where TFPC holds the PC
in the form that the model chooses (log 90). -/
def Obligations.TaskCompletes : Prop :=
  ∀ (s : State) (x : Ctx) (g : Guard) (la : BitVec 4) (o : TspawnOp) (q : QpopOp) (k : BitVec 3) (a d : Reg), Issuing s x →
    let y := x.guarded g
    let nx := nextPc x.p.pc
    (taskStage x.l k.toNat = none → ∀ i, i = .tspawn g { o with stage := k } ∨ i = .qpush g k a ∨
      i = .qpop g la { q with stage := k } ∨ i = .qstat g la d k → EntersTrap i s x x.em .illop (fun _ => 0)) ∧
    (taskStage x.l o.stage.toNat ≠ none → lanesReleased s x.w y.act = true →
      let c := x.l.lr.search.map fun n => (n, coreCopy s x.w.core n)
      exec (.tspawn g o) s = .next (issuedAt (spawnLanes y o.stage.toNat o c (lanesOf y.act) s) x nx fun w => w) ∧
      ∀ l t, let b := srcC x.w true o.b l
        let put := fun t b => enqueue t x.w x.l o.stage.toNat (group16 x.w o.a.toNat l) b
        (c = none → put t none = none → spawnLane y o.stage.toNat o c t l = (2, t)) ∧
        (∀ u, c = none → put t none = some u → spawnLane y o.stage.toNat o c t l = (0, u)) ∧
        (∀ n m, c = some (n, m) → m.toNat ≤ b.toNat → spawnLane y o.stage.toNat o c t l = (1, addFelled (addSpawned t n 1) n 1)) ∧
        (∀ n m u, c = some (n, m) → b.toNat < m.toNat → put t (some b) = some u →
          spawnLane y o.stage.toNat o c t l = (0, addSpawned u n 1))) ∧
    (taskStage x.l k.toNat ≠ none →
      let r := pushLanes x.c x.w x.l k.toNat a.toNat (lanesOf (y.act &&& ~~~x.p.qdone)) s
      (r.1 = true → exec (.qpush g k a) s = .next (issuedAt r.2 x nx fun w => w)) ∧
      (r.1 = false → exec (.qpush g k a) s = .next (waitsAt r.2 x (.qpush k.toNat a.toNat y.act)))) ∧
    (taskStage x.l q.stage.toNat ≠ none →
      let r := popLanes y q.stage.toNat s.nid (lanesOf y.act) { s with nid := s.nid + 1 }
      let t := r.2
      let win : Win := ⟨t.nid, la.toNat, false, 0, false, some (q.d.toNat, 16), none, none,
        if q.pr = 7 then none else some q.pr.toNat, r.1, [], 0⟩
      exec (.qpop g la q) s = .next (if la = 0 then issuedAt { t with nid := t.nid + 1 } x nx fun w => applyWin w win
        else issuedWith { t with nid := t.nid + 1 } x nx [win] fun w => w)) ∧
    (x.w.hoop = false → exec (.tdone g) s = .next (issuedAt (closeCursors s x.c.wave (y.act &&& x.w.task)) x nx fun w =>
      { w with task := w.task &&& ~~~(y.act &&& x.w.task) })) ∧
    (x.w.hoop = true → ∃ t w, exec (.tdone g) s = .next t ∧ findWave t x.c.wave = some w ∧ w.exited = x.w.exited ||| y.act ∧
      w.em = x.w.em &&& ~~~y.act ∧ w.g = x.w.g ∧ w.s = x.w.s ∧ w.p = x.w.p ∧ t.mem = s.mem) ∧
    (∀ w p l st ar ac n b t, findWave s n = some w → findSplit w p.sid = some p → findLaunch s w.launch = some l →
      p.wait = .qpush st ar ac → taskStage l st = some b → ∀ lane, lowLane (ac &&& ~~~p.qdone) = some lane →
      releaseOk s ⟨w.uid, lane⟩ s.nid .device = true → occupancy s l.uid st (waveDie w) < b.depth →
      enqueue s w l st (group16 w ar lane) none = some t →
      exec (.qpushEnqueue n p.sid lane) s = .next (updSplit t ⟨n, p.sid⟩ fun p => { p with qdone := setBit p.qdone lane true }))

/-- Completion of the reload of a vat and of the formation of a wave from a group's records (R42, R43, R285): a full vat, or one with
nothing spilled, reloads nothing; the hoop unit takes the group's oldest records, fells those whose bound fails, and starts a wave on
the others, in a cycle in which the die has applied what their enqueuers released (that it waits for that is the model's choice, log 121). -/
def Obligations.VatMovesComplete : Prop :=
  ∀ (s : State) (d n k core : Nat) (l : Launch),
    (vatSlots ≤ (residentOn s d).length → exec (.vatReload d) s = .next s) ∧
    ((∀ r ∈ recsOn s d, r.spilled = none) → exec (.vatReload d) s = .next s) ∧
    (∀ r, d < nDies → vecGet s.tasks.reloads 0 d < 4 → (residentOn s d).length + 1 = vatSlots → (recsOn s d).filter (·.spilled.isSome) = [r] → r.tenant < 64 → recSlot s r = none →
      (∀ q ∈ s.tasks.recs, q.id = r.id → q = r) →
      exec (.vatReload d) s = .next { s with tasks := { s.tasks with
        recs := updFirst (·.id == r.id) (fun x => { x with spilled := none }) s.tasks.recs
        reloads := vecUpd s.tasks.reloads 0 d (· + 1) } }) ∧
    (findLaunch s n = some l → vecGet s.begun true d = false → groupForms s l d k core = true → groupFirst s l d k core = true →
      ((waitingAt s d n k).take 32).all (recCovered s d) = true →
      let r := hoopFell core ((waitingAt s d n k).take 32) s
      let t := { r.2 with tasks := { r.2.tasks with
        formed := kvPut 0 (groupKey n k d) ((vecGet s.dcyc 0 d).toNat + 1) r.2.tasks.formed } }
      exec (.hoopFormation d n k core) s = .next (if r.1 = [] then t else addPerf (startBlock t l core 0 k true r.1) core 8 1))

/-! ### Search (15) -/

/-- Completion and result of the search instructions in a launch that binds a slot (R302 to R309), and of the moves of the search unit (R228,
R303 to R305): `incmin` exchanges the key only where its own is lower, and a committed key sets out for every copy; a copy takes the
lower of its key and what arrives; a launch without a slot traps ILLOP, where TFPC holds the PC in the form that the model chooses (log 90). -/
def Obligations.SearchCompletes : Prop :=
  (∀ (s : State) (x : Ctx) (g : Guard) (la : BitVec 4) (o : IncminOp) (acq : Bool) (d : Reg) (b : SrcC), Issuing s x →
     let act := (x.guarded g).act
     let nx := nextPc x.p.pc
     let ops := fun (n : Nat) (f : Nat → SOpKind) => (lanesOf act).foldl (fun t l =>
       addSop t ⟨0, ⟨x.c.wave, l⟩, x.w.core, s.nid, n, s.nid + 1, f l⟩) { s with nid := s.nid + 2 }
     (x.l.lr.search = none → ∀ i, i = .incmin g la o ∨ i = .incld g la acq d ∨ i = .tbound g b ∨ i = .fchk g →
       EntersTrap i s x x.em .illop (fun _ => 0)) ∧
     (∀ n, x.l.lr.search = some n →
       exec (.incmin g la o) s = .next (issuedWith
         (ops n fun l => .incmin (gDWord x.w o.a.toNat l) (srcC x.w true o.b l)) x nx
         (issuedWin (s.nid + 1) la { gd := some (o.d.toNat, 2), pd := if o.pr = 7 then none else some o.pr } act false) fun w => w) ∧
       exec (.incld g la acq d) s = .next (issuedWith (ops n fun _ => .incld acq none) x nx
         (issuedWin (s.nid + 1) la { gd := some (d.toNat, 4) } act false) fun w => w) ∧
       (let bnd : Lanes DWord := Vector.ofFn fun i : Fin 32 => if act.getLsbD i then srcC x.w true b i else laneGet x.w.tbnd 0 i
        exec (.tbound g b) s = .next (issuedAt s x nx fun w => { w with tbnd := bnd })) ∧
       (let ls := (lanesOf act).filter fun l => (coreCopy s x.w.core n).toNat ≤ (laneGet x.w.tbnd 0 l).toNat
        let m := maskOf fun i => ls.contains i
        (m = 0 → exec (.fchk g) s = .next (issuedAt s x nx fun w => w)) ∧
        (m ≠ 0 → n < 16 → ∃ t w, exec (.fchk g) s = .next t ∧ findWave t x.c.wave = some w ∧ w.exited = x.w.exited ||| m ∧
         w.em = x.w.em &&& ~~~m ∧ w.g = x.w.g ∧ w.s = x.w.s ∧ w.p = x.w.p ∧ t.mem = s.mem ∧
         (slotOfInc t n).felled = min ((slotOfInc s n).felled + ls.length) (2 ^ 64 - 1))))) ∧
  (∀ (s : State) (n : Nat) (o : SOp),
     (s.search.ops.find? (·.id == n) = some o → searchUp s = true → searchFailed s = false → sopFirst s o = true →
       acqBlocked s o.lane o.isq = false →
       let c := slotOfInc s o.slot
       let v := vecOf s (dieOfCore o.core)
       let gone := sopGone s n
       let gives := fun (t : State) ws p => deliver t o.lane.wave o.win ⟨o.lane.lane, ws, p, none⟩
       (∀ k t, o.kind = .incmin k t → relBlocked s o.lane o.isq = false → releaseOk s o.lane o.isq .device = true →
         (k.toNat < c.key.toNat → exec (.incminCommit n) s = .next (gives
           (broadcast o.slot k holders (updSlot gone o.slot fun x => { x with key := k, tag := t, vec := v }))
           (wordsOf true c.key) (some true))) ∧
         (c.key.toNat ≤ k.toNat → exec (.incminCommit n) s = .next (gives gone (wordsOf true c.key) (some false)))) ∧
       (∀ acq, o.kind = .incld acq none →
         (vLe c.vec v = true → exec (.incldRead n) s = .next (gives (if acq then discardFor gone o.core .device else gone)
           (wordsOf true c.key ++ wordsOf true c.tag) none)) ∧
         (vLe c.vec v = false → exec (.incldRead n) s = .next { s with search := { s.search with
           ops := updFirst (·.id == n) (fun o => { o with kind := .incld acq (some (c.key, c.tag, c.vec)) }) s.search.ops } }))) ∧
     (∀ acq k t u, s.search.ops.find? (·.id == n) = some o → o.kind = .incld acq (some (k, t, u)) →
       vLe u (vecOf s (dieOfCore o.core)) = true → exec (.incldRead n) s = .next (deliver
         (if acq then discardFor (sopGone s n) o.core .device else sopGone s n) o.lane.wave o.win
         ⟨o.lane.lane, wordsOf true k ++ wordsOf true t, none, none⟩)) ∧
     (∀ b c e, s.search.bcasts.find? (·.id == n) = some b →
       let y := { s.search with bcasts := s.search.bcasts.filter (·.id != n) }
       let put := fun i k m => kvPut worstKey (i * 16 + b.slot) (minKey k b.key) m
       (b.holder = .core c → exec (.broadcastArrival n) s =
         .next { s with search := { y with coreCopy := put c (coreCopy s c b.slot) s.search.coreCopy } }) ∧
       (b.holder = .vat e → exec (.broadcastArrival n) s =
         .next { s with search := { y with vatCopy := put e (vatCopy s e b.slot) s.search.vatCopy } })))

/-! ### Cave programs (16) -/

/-- Completion and result of the scalar instructions of a stack core (R319 to R321): arithmetic wraps mod 2^64, a shift takes the whole
of b, and a branch or jump goes to an aligned target that can be fetched; at any other target the program stops (R318). The form in which the
link of `jal` holds a PC is the model's choice (log 90). -/
def Obligations.CaveScalarCompletes : Prop :=
  ∀ (s : State) (u : CurCave) (x : CaveCtx) (d a b : XReg) (c : XSrc) (hi un : Bool) (v : Word) (t : XTgt), CaveRuns s u x →
    let A := xGet x a
    let B := xSrc x c
    let C := xGet x b
    let nx := nextCave x.pc
    let gives := fun i w => exec i s = .next (caveGoes s u (xSet x d w) nx)
    let goes := fun (g : DWord) i (y : CaveCtx) =>
      (g.toNat % 8 ≠ 0 → exec i s = .next (caveStops s u x 3 g.toNat)) ∧
      (∀ r, g.toNat % 8 = 0 → caveFetch s u x (pcOf g) = (none, r) → exec i s = .next (caveStops r u x 2 g.toNat)) ∧
      (∀ w r, g.toNat % 8 = 0 → caveFetch s u x (pcOf g) = (some w, r) → exec i s = .next (caveGoes r u y (pcOf g)))
    let br := BitVec.ofNat 64 (pcVa x.pc) + 8 * v.signExtend 64
    let if_ := fun (c : Bool) i => (c = true → goes br i x) ∧ (c = false → exec i s = .next (caveGoes s u x nx))
    let tg := match t with | .disp w => BitVec.ofNat 64 (pcVa x.pc) + 8 * w.signExtend 64 | .reg r => xGet x r
    gives (.caveAdd d a c) (A + B) ∧ gives (.caveSub d a c) (A - B) ∧ gives (.caveMul d a c) (A * B) ∧
    gives (.caveAnd d a c) (A &&& B) ∧ gives (.caveOr d a c) (A ||| B) ∧ gives (.caveXor d a c) (A ^^^ B) ∧
    gives (.caveShl d a c) (A <<< B.toNat) ∧ gives (.caveShr d a c) (A >>> B.toNat) ∧
    gives (.caveSra d a c) (A.sshiftRight B.toNat) ∧
    gives (.caveLi hi d v) (if hi then word64 (lo32 (xGet x d)) v else v.signExtend 64) ∧
    gives (.caveSlt un d a c) (if (if un then A.ult B else A.slt B) then 1 else 0) ∧
    if_ (A == C) (.caveBeq a b v) ∧ if_ (A != C) (.caveBne a b v) ∧
    if_ (if un then A.ult C else A.slt C) (.caveBlt un a b v) ∧ if_ (!(if un then A.ult C else A.slt C)) (.caveBge un a b v) ∧
    goes tg (.caveJmp t) x ∧ goes tg (.caveJal d t) (xSet x d (BitVec.ofNat 64 (pcVa nx)))

/-- Completion and result of the loads and stores of a stack core (R314, R315, R318, R320, R324): at an address that passes, in its own
local memory or in its declared range, a vector access to HBM unit by unit; at any other the program stops with the code of the first
check that fails. -/
def Obligations.CaveAccessCompletes : Prop :=
  ∀ (s : State) (u : CurCave) (x : CaveCtx) (l : XLdOp) (t : XStOp) (o : VMemOp) (pa : Nat) (r : State), CaveRuns s u x →
    let nx := nextCave x.pc
    let at_ := fun (a : XReg) (off : Word) => (xGet x a + off.signExtend 64).toNat
    let n := match l.sz with | .b8 => 1 | .b16 => 2 | .b32 => 4 | .b64 => 8
    let m := match t.sz with | .b8 => 1 | .b16 => 2 | .b32 => 4 | .b64 => 8
    let al := if o.lm then 4 else 128
    let va := at_ o.a o.off
    let d := dieOfStack u.stack
    let runs := storeRuns (byteMask o.h (mGet x o.m)) (vByte (vGet x o.v))
    let kept := fun (m : Memory) (y : CaveCtx) => let z := lmPut r u y m; caveGoes z.1 u z.2 nx
    (∀ c, (caveCheck s u x l.lm n (at_ l.a l.off) n .read = (.error c, r) → exec (.caveLd l) s = .next (caveStops r u x c (at_ l.a l.off))) ∧
      (caveCheck s u x t.lm m (at_ t.a t.off) m .write = (.error c, r) → exec (.caveSt t) s = .next (caveStops r u x c (at_ t.a t.off))) ∧
      (x.settled (if o.bank then [] else [o.v]) →
        (caveCheck s u x o.lm al va 128 .read = (.error c, r) → exec (.caveVld o) s = .next (caveStops r u x c va)) ∧
        (caveCheck s u x o.lm al va 128 .write = (.error c, r) → exec (.caveVst o) s = .next (caveStops r u x c va)))) ∧
    (caveCheck s u x l.lm n (at_ l.a l.off) n .read = (.ok pa, r) →
      (l.lm = true → exec (.caveLd l) s = .next (caveGoes r u
        (xSet x l.d (xLoaded l.s n (leNat (memBytes (lmGet r u x) (at_ l.a l.off) n)))) nx)) ∧
      (l.lm = false → exec (.caveLd l) s = .next (caveGoes (setMemPsn (touchMem r pa) x.launch (anyViewPsn r d pa n)) u
        (xSet x l.d (xLoaded l.s n (if anyViewPsn r d pa n then poisonOf n else leNat (viewBytes r d pa n)))) nx))) ∧
    (caveCheck s u x t.lm m (at_ t.a t.off) m .write = (.ok pa, r) →
      let bs := leBytes (xGet x t.b).toNat m
      (t.lm = true → exec (.caveSt t) s = .next (kept (memPutBytes (lmGet r u x) (at_ t.a t.off) bs) x)) ∧
      (t.lm = false → exec (.caveSt t) s = .next (caveGoes (caveStore r u.stack pa bs) u x nx))) ∧
    (caveCheck s u x o.lm al va 128 .read = (.ok pa, r) →
      (o.bank = true → exec (.caveVld o) s = .next (caveGoes r u (pushMicro x (.caveVld o) va pa o.m o.v o.v o.v) nx)) ∧
      (o.bank = false → vPending x o.v = false → o.lm = true → exec (.caveVld o) s = .next (caveGoes r u (supersede (vSet x o.v
        (vLoaded o.h (mGet x o.m) (vGet x o.v) (memBytes (lmGet r u x) va 128) fun _ => false)) (some o.v)) nx)) ∧
      (o.bank = false → vPending x o.v = false → o.lm = false → exec (.caveVld o) s = .next (caveGoes r u
        (supersede (beginPart x (.caveVld o) va pa o.m o.v) (some o.v)) nx))) ∧
    (caveCheck s u x o.lm al va 128 .write = (.ok pa, r) →
      (o.bank = true → exec (.caveVst o) s = .next (caveGoes r u (pushMicro x (.caveVst o) va pa o.m o.v o.v o.v) nx)) ∧
      (o.bank = false → vPending x o.v = false →
        (o.lm = true → exec (.caveVst o) s = .next (kept (runs.foldl (fun m k => memPutBytes m (va + k.1) k.2) (lmGet r u x)) x)) ∧
        (o.lm = false → exec (.caveVst o) s = .next (caveGoes r u (beginPart x (.caveVst o) va pa o.m o.v) nx)))) ∧
    (∀ k i, x.part = some k → k.left = [i] →
      (∀ o, k.instr = .caveVst o → partStep s u x k = ctxPut (unitStores s u.stack o k i) u (some { x with part := none })) ∧
      (∀ o, k.instr = .caveVld o → UnitsRead s u.stack k i → partStep s u x k = ctxPut (touchMem s (k.pa + 8 * i)) u (some
        { vSet x o.v (vLoaded o.h k.mask (vGet x o.v) (viewBytes s (dieOfStack u.stack) k.pa 128) fun _ => false) with part := none })))

/-- Completion and result of the vector instructions of a stack core (R316, R317, R322 to R327, R329): lane by lane under the mask; a
BANK form joins the micro-instruction stream; an instruction that reads a register a micro-instruction still gives waits. -/
def Obligations.CaveVectorCompletes : Prop :=
  ∀ (s : State) (u : CurCave) (x : CaveCtx) (o : VBinOp) (q : VRedOp) (c : VCvtOp) (p : VCmpOp) (l : VSelOp) (b : VBrdOp)
    (m n k : MReg) (h : Bool) (d a : VReg) (e f : XReg) (ln : BitVec 6), CaveRuns s u x →
    let nx := nextCave x.pc
    let ln2 := fun t r i => vLane (vNarrow t) (vGet x r) i
    let puts := fun (i : Instr) d v => exec i s = .next (caveGoes s u (supersede (vSet x d v) (some d)) nx)
    let bin := fun (i : Instr) g => puts i o.d (vUnder (vNarrow o.ty) (mGet x o.m) (vGet x o.d) fun j => g (ln2 o.ty o.a j) (ln2 o.ty o.b j))
    let waits := fun (i : Instr) => exec i s = .next { s with curCave := none }
    let any := fun i => i = .caveVadd o ∨ i = .caveVsub o ∨ i = .caveVmul o ∨ i = .caveVmax o ∨ i = .caveVmin o ∨ i = .caveVfma false o
    (¬x.settled [o.a, o.b, o.d] → ∀ i, any i → waits i) ∧
    (x.settled [o.a, o.b, o.d] →
      bin (.caveVadd o) (vArith o.ty (faddV · .rne) (· + ·)) ∧ bin (.caveVsub o) (vArith o.ty (fsubV · .rne) (· - ·)) ∧
      bin (.caveVmul o) (vArith o.ty (fmulV · .rne) (· * ·)) ∧ bin (.caveVmax o) (vArith o.ty (fminmax · true) max) ∧
      bin (.caveVmin o) (vArith o.ty (fminmax · false) min) ∧
      puts (.caveVfma false o) o.d (vUnder (vNarrow o.ty) (mGet x o.m) (vGet x o.d) fun j =>
        vfmaV o.ty (ln2 o.ty o.a j) (ln2 o.ty o.b j) (ln2 o.ty o.d j))) ∧
    exec (.caveVfma true o) s = .next (caveGoes s u (pushMicro x (.caveVfma true o) 0 0 o.m o.a o.b o.d) nx) ∧
    (q.bank = true → exec (.caveVred q) s = .next (caveGoes s u (pushMicro x (.caveVred q) 0 0 q.m q.a q.a q.d) nx)) ∧
    (q.bank = false → x.settled [q.a, q.d] → puts (.caveVred q) q.d (vredV q (mGet x q.m) (vGet x q.a) (vGet x q.d))) ∧
    (x.settled [c.a, c.d] → puts (.caveVcvt c) c.d (vcvtV c (mGet x c.m) (vGet x c.a) (vGet x c.d))) ∧
    (x.settled [p.a, p.b] → exec (.caveVcmp p) s = .next (caveGoes s u (mSet x p.d (bits64 fun i =>
      if i < vLanes (vNarrow p.ty) && (mGet x p.m).getLsbD i then vHolds p.ty p.cc (ln2 p.ty p.a i) (ln2 p.ty p.b i)
      else (mGet x p.d).getLsbD i)) nx)) ∧
    (x.settled [l.a, l.b] → puts (.caveVsel l) l.d (vUnder l.h (mGet x l.m) (vGet x l.b) (vLane l.h (vGet x l.a)))) ∧
    (x.settled [b.d] → puts (.caveVbrd b) b.d (vUnder b.h (mGet x b.m) (vGet x b.d) fun _ =>
      (match b.src with | .x r => lo32 (xGet x r) | .imm v => v).toNat)) ∧
    (x.settled [a, d] → puts (.caveVmov (.vv m h d a)) d (vUnder h (mGet x m) (vGet x d) (vLane h (vGet x a)))) ∧
    exec (.caveVmov (.mm n k)) s = .next (caveGoes s u (mSet x n (mGet x k)) nx) ∧
    (x.settled [a] → exec (.caveVmov (.xv h e a ln)) s =
      .next (caveGoes s u (xSet x e (BitVec.ofNat 64 (vLane h (vGet x a) ln.toNat))) nx)) ∧
    (x.settled [d] → puts (.caveVmov (.vx m h d f ln)) d (vMake h fun i =>
      if i == ln.toNat && (mGet x m).getLsbD i then (lo32 (xGet x f)).toNat else vLane h (vGet x d) i)) ∧
    exec (.caveVmov (.mx n f)) s = .next (caveGoes s u (mSet x n (xGet x f)) nx) ∧
    exec (.caveVmov (.xm e k)) s = .next (caveGoes s u (xSet x e (mGet x k)) nx)

/-- Completion and result of the control instructions of a stack core (R328) and of one micro-instruction at the banks (R316, R329), whose
access is performed a unit at a time: those that wait for the stream do so; `hret` and `mret` end their own kind of program and stop in any other. -/
def Obligations.CaveControlCompletes : Prop :=
  ∀ (s : State) (u : CurCave) (x : CaveCtx) (o : SendOp),
    let nx := nextCave x.pc
    (CaveRuns s u x →
      let full := 32 ≤ (skGet s o.stack.toNat o.skc.toNat).msgs.length
      let msg : CaveMsg := ⟨s.nid, o.h.toNat, xGet x o.a, x.launch, x.tenant, vecOf s (dieOfStack u.stack), none⟩
      (x.micro ≠ [] → ∀ i, i = .caveSend o ∨ i = .caveHret ∨ i = .caveMret ∨ i = .caveFence → exec i s = .next { s with curCave := none }) ∧
      (x.micro = [] →
        (full → exec (.caveSend o) s = .next (caveGoes s u (xSet x o.d 1) nx)) ∧
        (¬full → exec (.caveSend o) s = .next (caveGoes (skUpd { s with nid := s.nid + 1 } o.stack.toNat o.skc.toNat
          fun k => { k with msgs := k.msgs ++ [msg] }) u (xSet x o.d 0) nx)) ∧
        exec .caveFence s = .next (caveGoes s u x nx) ∧
        ((∀ w, x.kind ≠ .region w) → exec .caveHret s = .next (endProgram s u x 0 0) ∧
          exec .caveMret s = .next (endProgram s u x 1 (pcVa x.pc))) ∧
        (∀ w, x.kind = .region w → exec .caveMret s = .next (endProgram s u x 0 0) ∧
          exec .caveHret s = .next (endProgram s u x 1 (pcVa x.pc))) ∧
        (∀ w, yieldsTo s u.stack x = some w → exec .caveYld s = .next
          { putAside s u.stack u.skc { x with pc := nx, count := x.count + 1 } w with curCave := none })) ∧
      (x.micro ≠ [] → yieldsTo s u.stack x ≠ none → exec .caveYld s = .next { s with curCave := none }) ∧
      (yieldsTo s u.stack x = none → exec .caveYld s = .next (caveGoes s u x nx))) ∧
    (∀ n c k r, u = ⟨n, c, false⟩ → skUp s n = true → microPending s ⟨n, c, true⟩ = false → ctxGet s u = some x → x.micro = k :: r →
      let rest := { x with micro := r }
      let ends := fun (s : State) (x : CaveCtx) =>
        let x := if k.idx.toNat % 4 = 3 then { x with groups := x.groups.filter fun g => g.1 != bankF k.idx 3 } else x
        exec (.microInstructionExecute n c) s = .next (ctxPut s u (some x))
      let fed := fun (d : VReg) v (x : CaveCtx) =>
        let x := { x with micro := x.micro.map (feedMicro k.idx v) }
        if k.live then vSet x d v else x
      (∀ b o, k.instr = .caveVfma b o → k.left = [] → ends s (fed o.d (vUnder (vNarrow o.ty) k.mask (srcVal k.d) fun i =>
        vfmaV o.ty (vLane (vNarrow o.ty) (srcVal k.a) i) (vLane (vNarrow o.ty) (srcVal k.b) i) (vLane (vNarrow o.ty) (srcVal k.d) i)) rest)) ∧
      (∀ o, k.instr = .caveVred o → k.left = [] → ends s (fed o.d (vredV o k.mask (srcVal k.a) (srcVal k.d)) rest)) ∧
      (∀ o, k.instr = .caveVst o → k.left = [] → ends s rest) ∧
      (∀ o i, k.instr = .caveVst o → k.left = [i] → ends (unitStores s n o k i) rest) ∧
      (∀ o i, k.instr = .caveVld o → k.left = [i] → UnitsRead s n k i →
        ends (touchMem s (k.pa + 8 * i))
          (fed o.v (vLoaded o.h k.mask (srcVal k.d) (viewBytes s (dieOfStack n) k.pa 128) fun _ => false) rest)) ∧
      (∀ i j r, k.left = i :: j :: r → k.left.Nodup → ∃ h ∈ k.left, let y := vUnit (choose k.left.length s).2 u rest k h
        exec (.microInstructionExecute n c) s = .next (ctxPut y.1 u (some { y.2.1 with micro := y.2.2 :: y.2.1.micro }))))

/-- Completion and result of the front's calls to the cave level (R334 to R342): `cdisp` and `mig` read their record or region, take a
ticket and queue the work, and a range that does not qualify completes at once with CRANGE; `cwait` on a completed ticket gives its
status and frees it, and a failure traps CAVEERR without `.st`; `mig` goes on, with the shipped registers, once its region is over. These clauses are the model's choice:
that the record and the arguments are read as the instruction issues (log 55), that the stack and core of a CRANGE status are free (log 58), that
a split stands at `mig` until its region is over and its results arrive in windows (log 61), and the form of the PC in TFPC (log 90). -/
def Obligations.CaveCallsComplete : Prop :=
  ∀ (s : State) (x : Ctx) (g : Guard) (la : BitVec 4) (d a : Reg) (b : SrcC) (disp : Word) (st : Option Reg) (m : MigOp) (o : CmsgOp),
    Issuing s x → x.agrees g →
    let lane := (lowLane x.em).getD 0
    let nx := nextPc x.p.pc
    let room := x.w.tickets.length < 16
    let num := x.w.ticketCtr.setWidth 32
    let va := srcC x.w true b lane
    let tk := (sWord x.w a.toNat).setWidth 16
    let freed := fun (s : State) n => updWave s x.c.wave fun w => { w with tickets := w.tickets.filter (·.num != n) }
    let gives := fun (s : State) ws => match st with | some d => updWave s x.c.wave fun w => setSs w d.toNat ws | none => s
    (∀ t r, va.toNat % 32 = 0 → xlate s x.l.lr.tenant x.l.lr.root va.toNat .read = (.ok t, r) → room → splitReleased r x .device = true →
      ∀ e, readRecord r x t.loc = some e →
      recordOk e.1.1 e.1.2.1 e.1.2.2.1 e.1.2.2.2 = true →
      let q := rangeQualifies e.2 x.l.uid x.l.lr.tenant e.1.1 e.1.2.1
      (q.1 = none → let f := rangeFailed q.2 va
        exec (.cdisp g la d b disp) s = .next (issuedWords (takeTicket f.2 x 0 (some f.1) false) x la d [num])) ∧
      (∀ n p, q.1 = some (n, p) → queued r n < 64 →
        let w := newWork q.2 x .cdisp n (caveEntry x disp) va (e.1.1, e.1.2.1) p e.1.2.2.1
        exec (.cdisp g la d b disp) s = .next (issuedWords (takeTicket (addWork q.2 w) x w.id none false) x la d [num]))) ∧
    (x.w.tickets.find? (·.num == tk) = none → exec (.cwait g st a) s =
      .next (issuedAt (discardFor (gives s [0, 0, 0, 0]) x.w.core .device) x nx fun w => w)) ∧
    (∀ t, x.w.tickets.find? (·.num == tk) = some t →
      let s1 := waitedOn s x t
      (t.done = none → exec (.cwait g st a) s = .next (waitsAt s1 x .ticket)) ∧
      (∀ c, t.done = some c →
        (st = none → c.code ≠ 0 → EntersTrap (.cwait g none a) s x x.em .caveerr (fun _ => c.addr)) ∧
        (st ≠ none ∨ c.code = 0 → exec (.cwait g st a) s = .next (issuedAt
          (discardFor (freed (gives s1 (statusWords c)) tk) x.w.core .device) x nx fun w => w)))) ∧
    ((skGet s o.stack.toNat o.skc.toNat).msgs.length < 32 → room → splitReleased s x .device = true →
      let w := newWork s x .msg o.stack.toNat 0 (srcC x.w true o.b lane) (0, 0) [] 1
      let t := takeTicket (addWork s w) x w.id none false
      let k : CaveMsg := ⟨t.nid, o.h.toNat, w.arg, w.launch, x.l.lr.tenant, w.vec, some w.id⟩
      exec (.cmsg g la o) s = .next (issuedWords (skUpd { t with nid := t.nid + 1 } o.stack.toNat o.skc.toNat
        fun c => { c with msgs := c.msgs ++ [k] }) x la o.d [num])) ∧
    (let va := srcC x.w true m.b lane
     let ship := (List.range m.k.toNat).map fun j => x.w.g.getD (m.a.toNat + j) zeroLanes
     let c := (sWord x.w m.c.toNat).toNat
     let lines := (va.toNat / 256 * 256, ((va.toNat + max c 1 - 1) / 256 + 1) * 256 - va.toNat / 256 * 256)
     (∀ t r n p, (∀ t, x.p.wait ≠ .mig t) → ~~~x.w.exited &&& ~~~x.p.members = 0 →
      xlate s x.l.lr.tenant x.l.lr.root va.toNat .read = (.ok t, r) → room → splitReleased r x .device = true →
      let q := rangeQualifies r x.l.uid x.l.lr.tenant lines.1 lines.2
      q.1 = some (n, p) →
      let w := { newWork q.2 x .mig n (caveEntry x m.disp) va lines p 1 with ship := ship, em := x.w.em }
      exec (.mig g la m) s = .next (waitsAt (takeTicket (addWork q.2 w) x w.id none true) x (.mig x.w.ticketCtr.toNat))) ∧
     (∀ n r e k, x.p.wait = .mig n → x.w.tickets.find? (·.num == BitVec.ofNat 16 n) = some r → r.done = some e →
      findWork s r.work = some k →
      let u := discardFor { delWork s k.id with nid := s.nid + 2 } x.w.core .device
      let w1 : Win := ⟨s.nid, la.toNat, la == 0, 0, false, some (m.a.toNat, m.k.toNat), none, none, none,
        (List.range 32).map fun l => ⟨l, k.ship.map fun v => laneGet v 0 l, none, none⟩, [], 0⟩
      let w2 : Win := ⟨s.nid + 1, la.toNat, la == 0, 0, false, none, some (m.d.toNat, 1), none, none, [], [(BitVec.ofNat 16 n).setWidth 32], if la = 0 then 1 else 0⟩
      let ws := (if m.k = 0 then [] else [w1]) ++ [w2]
      let f := fun w : Wave => if e.code = 0 then { w with tickets := w.tickets.filter (·.num != BitVec.ofNat 16 n) }
        else updSplitW w x.c.sid fun p => { p with caveErr := some e.addr }
      exec (.mig g la m) s = .next (if la = 0 then issuedAt u x nx fun w => ws.foldl applyWin (f w) else issuedWith u x nx ws f)))

/-- Completion of the moves of cave work (R226, R313, R334, R338, R342 to R346, R349): the dispatch and completion moves, the start of a region
or of an instance on a free stack core, pre-emption, and the dispatch of a handler, which a disabled entry or one of another tenant
denies. That an instance for which a core was made free starts before the pre-empted ones resume, and that its core's reservation goes with it to the
lowest-numbered free core, is the model's choice (logs 60, 99). -/
def Obligations.CaveMovesComplete : Prop :=
  ∀ (s : State) (i n c : Nat) (w : Work),
    (findWork s i = some w →
      (w.dispatched = false → w.kind ≠ .msg → skUp s w.stack = true → ctlRuns s (5 + w.stack) = true →
        vLe w.vec (vecOf s (dieOfStack w.stack)) = true →
        exec (.caveDispatchMove i) s = .next (updWork (openRange s i w.phys) i fun k => { k with dispatched := true })) ∧
      (w.fin = false → w.dispatched = true → w.nskc ≤ w.ended.length →
        let t := completeTicket (closeRange s i (dieOfStack w.stack)) w (workStatus w)
        (awaited t w = true → exec (.caveCompletionMove i) s = .next (updWork t i fun k => { k with fin := true })) ∧
        (awaited t w = false → exec (.caveCompletionMove i) s = .next (delWork t i)))) ∧
    (n < 16 → skUp s n = true → ctlRuns s (5 + n) = true → skHeld s n c = false → (freeCores s n).contains c = true →
      (waitingRegion s n = some w → w.dispatched = true → exec (.caveInstanceStart n c) s = .next (startRegion s n c w (tenantOf s w.launch))) ∧
      (waitingRegion s n = none → reservedWork s n = some w → w.dispatched = true → (freeCores s n).head? = some c →
        exec (.caveInstanceStart n c) s = .next (startInst (moveResv s n c w) n c w (tenantOf s w.launch))) ∧
      (waitingRegion s n = none → reservedWork s n = none → s.cave.preempted.filter (·.1 == n) = [] →
        waitingInst s n = some w → w.dispatched = true → (freeCores s n).head? = some c → exec (.caveInstanceStart n c) s = .next (startInst s n c w (tenantOf s w.launch))) ∧
      (∀ x, waitingRegion s n = none → reservedWork s n = none → s.cave.preempted = [(n, x)] →
        ∃ t, exec (.caveInstanceStart n c) s = .next t ∧ ctxGet t ⟨n, c, false⟩ = some x ∧ t.cave.preempted = [])) ∧
    (∀ x v, (skGet s n c).prog = some x → (skGet s n c).hand = none → preemptVictim s n = some (c, v) → x.micro = [] →
      x.part = none → ctlRuns s (5 + n) = true → exec (.cavePreempt n c) s = .next (putAside s n c x v)) ∧
    (∀ m r, n < 16 → c < 16 → skUp s n = true → ctlRuns s (5 + n) = true → skHeld s n c = false →
      midAccess s n c = false → (skGet s n c).hand = none → (skGet s n c).msgs = m :: r →
      vLe m.vec (vecOf s (dieOfStack n)) = true →
      let t := skUpd (takeSwap s n c) n c fun k => { k with msgs := r }
      let e := readHand (skGet t n c).table (32 * m.h)
      (e.on = false ∨ e.tenant ≠ m.tenant →
        (m.work = none → exec (.caveHandlerDispatch n c) s = .next t) ∧
        (∀ j v, m.work = some j → findWork t j = some v → exec (.caveHandlerDispatch n c) s =
          .next (delWork (completeTicket t v ⟨6, false, 0, c, n, 0, 0⟩) v.id))) ∧
      (e.on = true → e.tenant = m.tenant → ∃ u x, exec (.caveHandlerDispatch n c) s = .next u ∧ ctxGet u ⟨n, c, true⟩ = some x ∧
        x.pc = pcOf (BitVec.ofNat 64 e.entry) ∧ xGet x 1 = m.word ∧ xGet x 2 = BitVec.ofNat 64 m.h ∧ x.tenant = m.tenant ∧
        x.count = 0 ∧ x.range = (e.base, e.len) ∧ (skGet u n c).msgs = (skGet t n c).msgs))

/-! ### The dispatcher (02, 08, 14, 19, 20) -/

/-- Completion of admission (R279, R356): the head record of highest priority that is served leaves its queue; a record with a field out
of its limits, or that fails a later check, is rejected with the status of that check; any other enters the device launch queue, with
every block of its grid to start and its quotas computed, once there is room for its die scratchpad (the model's choice, log 83). -/
def Obligations.AdmissionCompletes : Prop :=
  ∀ (s : State) (q : Nat) (bs : List Byte) (a : Nat), admits s = true →
    let y := hostHeads (List.range 64) s
    let hs := match y.2.fabric.queue.head? with | some f => y.1 ++ [(64, f.bytes, 0)] | none => y.1
    (serve s.rrpos hs = none → exec .launchAdmission s = .next y.2) ∧
    (serve s.rrpos hs = some (q, bs, a) →
      let r := { y.2 with rrpos := (q + 1) % 65 }
      let t := if q < 64 then vfPut r q fun v => takeQueue { v with qhead := v.qhead + 1 }
        else { r with fabric := { r.fabric with queue := r.fabric.queue.tail } }
      let n := leNat bs
      let l := mkLaunch t n a q
      let u := { t with nid := t.nid + 1, admSeq := t.admSeq + 1 }
      (dspadRoom y.2 n = false → exec .launchAdmission s = .next y.2) ∧
      (recOk n = false → exec .launchAdmission s = .next (rejectLaunch u l 11)) ∧
      (recOk n = true → dspadRoom y.2 n = true →
        let c := admitChecks u l
        let enters := fun s : State =>
          let x := draw s
          let z := draw x.2
          (List.range 4).foldl (fun s d => setQuotas s l.uid d) { z.2 with
            graph := { z.2.graph with ran := z.2.graph.ran ++ [(l.lr.tenant, l.lr.code, z.2.mem.clk)] }
            launches := z.2.launches ++ [{ l with winAt := c.2.1, nextTab := BitVec.ofNat 64 x.1, saveList := BitVec.ofNat 64 z.1 }] }
        (∀ b, c.1 = some b → exec .launchAdmission s = .next (rejectLaunch c.2.2 l b)) ∧
        (c.1 = none → l.lr.search = none → l.todo = [(0, gridBlocks l.lr)] ∧ exec .launchAdmission s = .next (enters c.2.2)) ∧
        (∀ k, c.1 = none → l.lr.search = some k → (∀ x ∈ c.2.2.launches, x.lr.search ≠ some k) →
          exec .launchAdmission s = .next (enters (activateSlot c.2.2 k)))))

/-- Completion of the start, the steal and the end of blocks, of the end of a launch, and of a quota boundary (R38, R45, R46, R280, R286,
R364, R367, R370): a started wave has its registers zero, its lanes active, and its split at the entry; a block ends with the last of
its waves once what they issued has been done, its bit following what it releases; a launch completes when nothing of it is left. These clauses
are the model's choice: that each die's quota boundary balances every launch (R285; log 103), that a wave whose entry is no legal target ends as it
starts (log 81), when a block's end and its bit come (logs 46, 78), and when the completion record is written (log 78). -/
def Obligations.PlacementCompletes : Prop :=
  ∀ (s : State) (n core q u d : Nat) (l : Launch) (b : Block),
    (findLaunch s n = some l →
      (∀ t, (instCores l.lr q).all (startsNow s l) = true → nextInstance l core = some q → outranked s l (instCores l.lr q) = false →
        (instCores l.lr q).any (savedFirst s l) = false → startInstance s l core q = some t →
        exec (.blockStart n core) s = .next t) ∧
      (∀ e t, l.lr.steal = true → mayUse l.lr core = true → (gangCores l.lr core).all (startsNow s l) = true → headInstance l core = none →
        (gangCores l.lr core).any (savedFirst s l) = false → outranked s l (gangCores l.lr core) = false →
        donor l = some e → lastInstance l e = some q → ownerStarts s l q = false → startInstance s l core q = some t →
        exec (.blockSteal n core) s = .next t) ∧
      (gang l.lr = 1 → gangQuota s l core = true → let c := coreInGang l.lr core 0
        let W := (l.lr.block + 31) / 32
        coreOpen s c = true → fitsOn s c (need l.lr W W) = true →
        (depsMet s l (dieOfCore c) q).1 = true → startInstance s l core q = some (updLaunch
          (startBlock (depsMet s l (dieOfCore c) q).2 l c q 0 false []) l.uid fun l => { l with todo := takeTodo q 1 l.todo })) ∧
      (l.todo = [] → s.blocks.all (·.launch != n) = true → s.saved.all (·.blk.launch != n) = true →
        s.tasks.recs.all (·.launch != n) = true → s.cave.works.all (·.launch != n) = true →
        s.mem.remoteW.all (·.lane != bmpKey n) = true → ctlRuns s 1 = true → (completionCovered s l).1 = true →
        let t := writeCompletion (completionCovered s l).2 l
        exec (.launchCompletion n) s = .next
          (releaseSlot { t with launches := t.launches.filter (·.uid != n) } l.lr.search))) ∧
    ((∀ w ∈ s.waves, w.uid < s.nid ∧ w.blk < s.nid) → ∀ w ∈ (startBlock s l core q u false []).waves, w ∈ s.waves ∨
      (w.core = core ∧ w.launch = l.uid ∧ w.exited = allLanes ∧ w.splits = []) ∨
      (w.core = core ∧ w.launch = l.uid ∧ (∀ r i, gWord w r i = 0) ∧ (∀ r, sWord w r = 0) ∧ w.em = ~~~w.exited ∧ w.thb = 0 ∧
        w.tiles = List.replicate l.lr.tiles ⟨.f32, []⟩ ∧
        ∃ p, w.splits = [p] ∧ p.pc = stageEntry l u ∧ p.members = w.em ∧ p.stack = [] ∧ p.kind = .arm)) ∧
    (∀ rel k, findBlock s u = some b → b.mode = .ended rel → blockDone s b = true → findLaunch s b.launch = some k →
      let ends := fun t => exec (.blockEnd u) s = .next (countEnd t b) ∧ (∀ c ∈ (countEnd t b).blocks, c.uid ≠ u) ∧
        ∀ w ∈ (countEnd t b).waves, w.blk ≠ u
      (b.hoop = true ∨ k.lr.bitmap = 0 → ends s) ∧
      (b.hoop = false → k.lr.bitmap ≠ 0 →
        (rel = none → exec (.blockEnd u) s = .next (setMode s u (.ended (some (vecOf s (dieOfCore b.core)))))) ∧
        (∀ v t, rel = some v → setBitmap s k b.bid v = some t → ends t))) ∧
    (d < 4 → let c := vecGet s.dcyc 0 d
      c.toNat % 1024 = 0 → c ≠ vecGet s.quotaAt 0 d → (vecGet s.ctls .reset 1).phase = .armed →
      let t := s.launches.foldl balance s
      let v := t.launches.foldl (fun s l => setQuotas s l.uid d) t
      exec (.quotaBoundary d) s = .next { v with quotaAt := vecSet v.quotaAt d c })

/-- Completion of pre-emption (R182 to R187, R281, R403): the decision drains a block at or above PDRAIN, flushes an idempotent one at or
below PFLUSH, and saves any other, once no migrated region of theirs is out; a drain whose time is over is saved at the start of a cycle;
a save or a flush takes every block of its level instance off its core together, once the work in flight is complete; a restore brings them back
(R47), or records CTXBAD where a context was altered; a request to vacate cores, and its end. That the blocks of a level instance go together is
read from the rules (DEDUCED, log 52); where records lie, what a restore reads back of them and how they are laid out beyond R186 are the model's
choices (logs 50, 51, 22). -/
def Obligations.PreemptionCompletes : Prop :=
  ∀ (s : State) (u core first count : Nat) (b : Block) (l : Launch),
    (findBlock s u = some b → findLaunch s b.launch = some l → allExited s u = false →
      let e := estimate l.lr.e b.ret
      let now := (vecGet s.dcyc 0 (dieOfCore b.core)).toNat
      let begins := recPlaces s l (saveMates s l b) (usedRecs s l.lr.tenant)
      let region := matesHold s b l
      let mates := modeMates s l b
      (b.mode = .run → vecGet s.begun true (dieOfCore b.core) = false → (vecGet s.ctls .reset 1).phase = .armed → holdsRegion s b = false →
        mustGo s b = true →
        (s.pdrain.toNat ≤ e → exec (.preemptionDecision u) s = .next (setMode s u (.drain now))) ∧
        (e < s.pdrain.toNat → region = false → l.lr.idemp = true → e ≤ s.pflush.toNat → b.hoop = false →
          exec (.preemptionDecision u) s = .next (beginFlush s b l)) ∧
        (e < s.pdrain.toNat → region = false → ¬(l.lr.idemp = true ∧ e ≤ s.pflush.toNat ∧ b.hoop = false) →
          (∀ ps, begins = some ps → exec (.preemptionDecision u) s = .next (ps.foldl
            (fun s p => updBlock s p.1 fun b => { b with mode := .saving, ctx := p.2 }) s)) ∧
          (begins = none → exec (.preemptionDecision u) s = .next
            (if l.lr.idemp && !b.hoop then beginFlush s b l else setMode s b.uid .drainFree)))) ∧
      (∀ t, b.mode = .drain t → t + 1048576 ≤ now → vecGet s.begun true (dieOfCore b.core) = false → region = false →
        exec (.drainTimeout u) s = .next (beginSave s b l)) ∧
      (b.mode = .saving → mates.all (blockQuiet s) = true → ∃ t, exec (.blockSave u) s = .next t ∧
        (∀ m ∈ mates, (∃ v ∈ t.saved, v.blk = { m with ctx := [] } ∧ v.recs = m.ctx ∧ v.restart = false) ∧
          ∀ x ∈ t.blocks, x.uid ≠ m.uid) ∧
        (mates = [b] → ∃ v, t.saved = s.saved ++ [v] ∧ v.waves = s.waves.filter (·.blk == u) ∧
          t.waves = s.waves.filter (·.blk != u) ∧ t.blocks = s.blocks.filter (·.uid != u))) ∧
      (b.mode = .flushing → mates.all (fun m => blockQuiet s m && !holdsRegion s m) = true → ∃ t, exec (.flushAndRestart u) s = .next t ∧
        (∀ m ∈ mates, (∃ v ∈ t.saved, v.restart = true ∧ v.blk.ret = 0 ∧ v.blk.uid = m.uid) ∧
          (∀ x ∈ t.blocks, x.uid ≠ m.uid) ∧ ∀ w ∈ t.waves, w.blk ≠ m.uid) ∧
        (mates = [b] → ∃ v, t.saved = s.saved ++ [v] ∧ t.blocks = s.blocks.filter (·.uid != u)))) ∧
    (∀ v, s.saved.find? (·.blk.uid == u) = some v → findLaunch s v.blk.launch = some l →
      vecGet s.begun true (dieOfCore core) = false → placesFor s l (mayBack s l) v core = true →
      ∃ ps r, backPlaces s l v core = some (ps, r) ∧ (v, core) ∈ ps ∧ (∀ x ∈ otherMates s l v, ∃ c, (x, c) ∈ ps) ∧
      (∀ p ∈ ps, p.2 ∈ backCores l p.1 ∧ mayUse l.lr p.2 = true) ∧
      let old := ps.flatMap fun p => p.1.waves.flatMap fun w => w.splits.map Split.age
      let n0 := s.nid
      exec (.blockRestore u core) s = .next (ps.foldl (restoreOne l n0 old) { r with
        nid := n0 + old.length
        saved := s.saved.filter fun x => !(ps.any fun p => p.1.blk.uid == x.blk.uid) }) ∧
      ∀ t at_, let gives := fun r => restoreOne l n0 old t (v, at_) = r
        (v.restart = true → gives (startBlock t l at_ v.blk.bid v.blk.stage false [])) ∧
        (v.restart = false → let c := opaqueIntact t l v.opq
          (c.1 = false → gives
            (v.waves.foldl (fun s w => reportTickets (releaseCursors s w allLanes) w) (setLaunchFlag c.2 l.uid 7))) ∧
          (∀ bs r, c.1 = true → at_ = v.blk.core → l.lr.lpriv = 0 →
            loadRec c.2 l (v.recs.headD (0, 0)).1 (v.recs.headD (0, 0)).2 = (some bs, r) →
            gives (restoreWaves l at_ n0 old v.waves v.recs.tail (freeSlots r at_)
              { r with blocks := r.blocks ++ [{ readBlock l.lr v.blk bs with core := at_, mode := .run }] })))) ∧
    exec (.vacateRequest first count) s = .next { s with vacated := (coreRange first count).foldl (fun l c => insNat c l) s.vacated } ∧
    exec (.vacatedCoresRelease first count) s = .next
      { s with vacated := s.vacated.filter fun c => !(coreRange first count).contains c }

/-! ### The host, configuration, service, firmware and the fabric (04, 09, 16, 23) -/

/-- Completion of what the host and its software do (R95, R96, R363, R386, R387, R389, R395): a write to a unit's block waits for the
unit's boundary that follows its cycle, and all that the unit holds takes effect there in one step; QTAIL moves only forward and only over a queue that holds
it; an invalidation is taken in order; a store to a byte that does not exist faults, with the model's own fault (R360 lays the storage out); a function-level reset leaves nothing of the
function: that launches and task records are among it is the model's choice (log 72). -/
def Obligations.HostCompletes : Prop :=
  ∀ (s : State) (fn u off t pa : Nat) (v : Word) (q : DWord) (bs : List Byte),
    let r := vfGet s fn
    let puts := fun i (g : VfRegs → VfRegs) => exec i s = .next (vfPut s fn g)
    (fn < 64 →
      ((v - r.qhead).toNat ≤ r.qlen.toNat → (r.qtail - r.qhead).toNat ≤ (v - r.qhead).toNat →
        puts (.qtail fn v) fun _ => { r with qtail := v }) ∧
      (r.qlen.toNat < (v - r.qhead).toNat → puts (.qtail fn v) fun _ => { r with qerr := r.qerr ||| 1 }) ∧
      ((v - r.qhead).toNat ≤ r.qlen.toNat → (v - r.qhead).toNat < (r.qtail - r.qhead).toNat →
        puts (.qtail fn v) fun _ => { r with qerr := r.qerr ||| 2 }) ∧
      puts (.qerrClear fn v) (fun _ => { r with qerr := r.qerr &&& ~~~v }) ∧
      (invOk r.invaddr.toNat r.invlen.toNat = true →
        puts (.invreq fn v) fun _ => { r with invq := r.invq ++ [(v, r.invaddr.toNat, r.invlen.toNat, s.mem.clk)] }) ∧
      (invOk r.invaddr.toNat r.invlen.toNat = false → puts (.invreq fn v) fun _ => { r with qerr := r.qerr ||| 8 }) ∧
      (∀ n a len c rest, r.invq = (n, a, len, c) :: rest → ctlRuns s 3 = true →
        let y := vfPut s fn fun v => { v with invdone := n, invq := rest }
        exec (.invalidationComplete fn) s = .next { y with mem := { y.mem with invs := y.mem.invs ++ [⟨fn, a % 2 ^ 57, len, c⟩] } }) ∧
      puts (.configWrite (.vf fn off) bs) (fun v => vfWrite v off bs) ∧
      (r.heldBase ≠ none ∨ r.heldLen ≠ none → r.qhead = r.qtail → exec (.configApply (512 + fn)) s = .next (applyFn s fn)) ∧
      (∃ y, exec (.functionLevelReset fn) s = .next y ∧ (∀ l ∈ y.launches, l.lr.tenant ≠ fn) ∧
        (∀ l ∈ y.launches, l ∈ s.launches) ∧ (∀ p ∈ y.graph.pins, p.tenant ≠ fn) ∧
        (∀ e ∈ y.tasks.recs, e.tenant ≠ fn) ∧
        (∀ w ∈ y.waves, w ∈ s.waves ∧ ∀ l ∈ s.launches, l.lr.tenant = fn → w.launch ≠ l.uid))) ∧
    (pfUnit off bs.length = some u → exec (.configWrite (.pf off) bs) s = .next (holdWrite s u off bs)) ∧
    (u < 512 → (∃ h ∈ s.held, h.unit = u) →
      let applied := applyHeld s u
      applied.pf = (s.held.filter (·.unit == u)).foldl (fun m h => memPutBytes m h.off h.bytes) s.pf ∧
      applied.held = s.held.filter (·.unit != u) ∧
      (heldDue s u = true → atBoundary s u = true → exec (.configApply u) s = .next applied) ∧
      (heldDue s u = false → exec (.configApply u) s = .next s) ∧
      (2 ^ 20 ≤ kvGet 0 u s.heldFor → canForce s u = true → exec (.configForcedBoundary u) s = .next applied)) ∧
    (t < 64 → exec (.tokloWrite t q) s = .next (holdWrite s uDispatch (tenantEnt t + 0x50) (leBytes q.toNat 8))) ∧
    ((∀ i, i < bs.length → inStorage (pa + i) = true) →
      exec (.hostStore pa bs) s = .next (noteHost pa bs.length (unitWrite (unitsOf (.gm pa) bs.length) bs s))) ∧
    (∀ i, i < bs.length → inStorage (pa + i) = false → (∀ j, j < i → inStorage (pa + j) = true) →
      exec (.hostStore pa bs) s = .fault (.noStorage (pa + i)))

/-- Completion of the service moves and of those of the controllers (R209, R332, R376, R392 to R394, R399 to R403, R408, and R211, R344):
scrubs and the hot list, the clearing of a region, counters and bank errors, the commit of a handler table, updates, hand-over,
watchdogs, attestation, path monitors, readiness and device reset. These clauses are the model's choice: the version and the record of an image that
arms, and what becomes of its held outputs (logs 68, 102), the order of a report (log 69), what a device reset keeps, and memory of zeros after it
(logs 70, 3), the score of a row entered for several errors and the row that leaves a full hot list (log 63), and that HTCOMMIT takes the shadow writes still held (log 99). -/
def Obligations.ServiceCompletes : Prop :=
  ∀ (s : State) (n row off k d j : Nat) (hot : Bool) (h : HotRow) (nonce : List Byte),
    let c := ctlGet s k
    let ctl := fun i g => exec i s = .next (ctlUpd s k g)
    let scrub := fun errs : Nat => if hot then Instr.hotScrub n row errs else Instr.scrubRow n row errs
    (n < 16 → row < 2 ^ 32 → skUp s n = true → unitFailed s (9 + n) = false → ctlRuns s 3 = true →
      let rows := hotRows s n
      let err := addCtr s (stackReg n 0x08) 64 j
      ((∀ e ∈ rows, e.row ≠ row) → (0 < j → exec (.scrubRow n row j) s =
          .next (if 8 ≤ j - 1 then retireRow err n row else setHot err n (addHot rows ⟨row, j - 1, 0, j⟩))) ∧
        exec (.scrubRow n row 0) s = .next s) ∧
      (rows.find? (·.row == row) = some h →
        (0 < j → 8 ≤ h.score + j → exec (scrub j) s = .next (retireRow err n row)) ∧
        (0 < j → h.score + j < 8 → exec (scrub j) s = .next (setHot err n (setRow rows
          { h with score := h.score + j, clean := 0, errors := h.errors + j }))) ∧
        (let k := if hot then h.clean + 1 else h.clean
         (16 ≤ k → exec (scrub 0) s = .next (setHot s n (rows.filter (·.row != row)))) ∧
         (k < 16 → exec (scrub 0) s = .next (setHot s n (setRow rows { h with score := h.score / 2, clean := k })))))) ∧
    (s.mem.uncleared.contains n = true → ∃ t, exec (.regionClear n) s = .next t ∧ t.mem.uncleared = delNat n s.mem.uncleared ∧
      ∀ e a, e < 4 → a / 2 ^ 21 = n → viewByte t e a = 0 ∧ homeByte t a = 0) ∧
    (∀ u, counterUnit off = some u → exec (.counterClear off) s = .next (holdWrite s u off []) ∧
      (applyHeld s u).ctrs = clearCtrs (s.held.filter (·.unit == u)) s.ctrNow s.ctrs) ∧
    (counterUnit off = none → exec (.counterClear off) s = .next s) ∧
    (n < 16 → d < 2048 → ctlRuns s (5 + n) = true →
      exec (.berrClear n d) s = .next { s with cave := { s.cave with berr := kvDel (n * 2048 + d) s.cave.berr } }) ∧
    (n < 16 → d < 16 →
      let m := pfAfter s (uSk n d)
      let es := ((List.range 16).map fun h => readHand m (shadowAt n d + 32 * h)).filter (·.on)
      let r := handsOk n es s
      ((∀ a ∈ es, ∀ b ∈ es, a.tenant = b.tenant) ∧ r.1 = true →
        exec (.htcommit n d) s = .next (skUpd r.2 n d fun x =>
          { x with armed := some (memPutBytes .empty 0 (memBytes m (shadowAt n d) 512)) })) ∧
      (r.1 = false → exec (.htcommit n d) s = .next { r.2 with out := r.2.out ++ [.refusedCommit n d] })) ∧
    (k < 21 →
      (c.busy = true → ctl (.updctl k 1) fun c => { c with refused := true }) ∧
      (let r := stagedImage s c
       (c.busy = false → r.1.bind (acceptImage k) = none → exec (.updctl k 1) s = .next (ctlUpd r.2 k fun c => { c with refused := true })) ∧
       (∀ i, c.busy = false → r.1.bind (acceptImage k) = some i → exec (.updctl k 1) s =
        .next (ctlUpd r.2 k fun c => { putImage c i with busy := true, refused := false, rolled := false }))) ∧
      (c.busy = true → c.phase = .armed →
        ctl (.handoverStop k) fun c => { c with phase := .stopping, record := recordOf s k c.recVersion }) ∧
      (c.phase ≠ .stopping →
        (c.armed = true → ctl (.wdogWrite k) fun c => { c with wdog := 0, fed := 0, misses := 0 }) ∧
        (c.armed = false → activeImage c = none → exec (.wdogWrite k) s = .next (armS s k c.recVersion)) ∧
        (∀ i, c.armed = false → activeImage c = some i → readsRecord c = true →
          let v := choose (i.hohi + 1 - i.holo) s
          exec (.wdogWrite k) s = .next (armS v.2 k (i.holo + v.1)))) ∧
      (∀ v, let a := armS s k v
        let b := ctlGet a k
        b.armed = true ∧ b.busy = false ∧ b.phase = .armed ∧ b.recVersion = v ∧ b.record = recordOf s k v ∧ b.copy = none ∧
        b.commit = [] ∧ a.agenda = c.commit.map .ev ++ s.agenda) ∧
      (wdogDue s k = true →
        (c.armed = false → ctl (.watchdogExpiry k) fun c =>
          { c with active := !c.active, armed := true, busy := false, rolled := true, phase := .armed, fed := 0, misses := 0,
                   copy := none, commit := [] }) ∧
        (c.armed = true → c.misses = 0 → ctl (.watchdogExpiry k) fun c => { c with restart := true, misses := 1, fed := 0 }) ∧
        (c.armed = true → c.misses ≠ 0 → exec (.watchdogExpiry k) s =
          .next (setFail (ctlUpd s k fun c => { c with misses := 2 }) (ctlBit k))))) ∧
    (s.fready.getLsbD 0 = true → s.ffail.getLsbD 0 = false →
      let b := nonce ++ (List.range 21).flatMap fun k => reportOf (ctlGet s k)
      exec (.attestationRequest nonce) s = .next { s with out := s.out ++ [.report (b ++ Config.reportSignatures b)] }) ∧
    (d < 4 → ctlRuns s 4 = true → unitFailed s 4 = false →
      (vecGet s.supply 0 d < 10 → exec (.pathMonitorRead d true) s = .next { s with supply := vecUpd s.supply 0 d (· + 1) }) ∧
      (10 ≤ vecGet s.supply 0 d → 2000 < vecGet s.clock 0 d → exec (.pathMonitorRead d true) s = .next
        { s with clock := vecUpd s.clock 0 d (fun f => max 2000 (f - 50)), out := s.out ++ [.slowStep d] })) ∧
    (readyOk s k = true → exec (.unitReady k) s = .next { s with fready := s.fready ||| (1#32 <<< k) }) ∧
    (readyOk s k = false → exec (.unitReady k) s = .next s) ∧
    (∃ t, exec .deviceReset s = .next t ∧ t.waves = [] ∧ t.launches = [] ∧ t.blocks = [] ∧ t.fready = State.reset.fready ∧
      t.mem = State.reset.mem ∧ t.graph = State.reset.graph ∧ t.search = State.reset.search ∧ t.pf = State.reset.pf ∧
      t.vf = State.reset.vf ∧
      (k < 21 → (ctlGet t k).bankA = c.bankA ∧ (ctlGet t k).bankB = c.bankB ∧ (ctlGet t k).active = c.active))

/-- Completion of what arrives at a link port and from the fabric (R363, R396 to R398): a flit that fails its checks is dropped, counted
and answered; a data flit is delivered in sequence, answered when newer and dropped when older; a NAK resends and after eight in a row
retrains; a port sends a data flit while it holds a credit and fewer than 2,048 are unacknowledged, else an idle one; a packet is taken once; a launch packet below its window is stale, one seen before a duplicate, and any other is queued. These clauses are the model's choice: that a resend uses no credit, that retraining succeeds or fails freely, that the credits field
a port sends is free, the state of a port brought up (log 73), and that a packet of TENANT 64 or above is queued (log 74). -/
def Obligations.LinkCompletes : Prop :=
  ∀ (s : State) (p a b n : Nat) (f : Flit) (tok : DWord) (bs : List Byte),
    let x := portGet s p
    let y := flitBase x f
    let arr := fun i z => exec i s = .next (portPut s p z)
    (p < 32 → x.st = .up → f.payload.length = 240 →
      (flitOk f = false → let z := badFlit s x
        ∀ i, i = .dataFlit p f ∨ i = .nakFlit p f ∨ i = .idleFlit p f ∨ i = .retrainRequest p f → exec i s = .next (portPut z.2 p z.1)) ∧
      (flitOk f = true →
        let gap := (flitSeq f + 4096 - x.rxseq) % 4096
        let m := if flitAck f = y.nakFor then y.naks + 1 else 1
        let resent := { y with sent := (y.replay.map (resend y)).reverse ++ y.sent, replays := y.replays + 1, naks := m, nakFor := flitAck f }
        (flitType f = 0 → gap = 0 → arr (.dataFlit p f) { y with rxseq := (x.rxseq + 1) % 4096, got := f.payload :: x.got }) ∧
        (flitType f = 0 → 0 < gap → gap < 2048 → exec (.dataFlit p f) s = .next (portPut (sendNak s y).2 p (sendNak s y).1)) ∧
        (flitType f = 0 → 2048 ≤ gap → arr (.dataFlit p f) y) ∧
        (flitType f = 1 → m < 8 → arr (.nakFlit p f) resent) ∧
        (flitType f = 1 → 8 ≤ m → arr (.nakFlit p f) { resent with st := .training, naks := 0 }) ∧
        (flitType f = 2 → arr (.idleFlit p f) y) ∧
        (flitType f = 3 → arr (.retrainRequest p f) { y with st := .training }))) ∧
    (p < 40 → ctlRuns s 2 = true → x.st = .down → arr (.portBringUp p)
      { x with st := .up, txseq := 0, rxseq := 0, ackseq := 0, replay := [], credits := 0, naks := 0 }) ∧
    (p < 40 → ctlRuns s 2 = true → x.st = .training → exec (.portBringUp p) s = .next
      (if (choose 2 s).1 = 0 then portPut (choose 2 s).2 p { x with st := .up } else portDown (choose 2 s).2 p)) ∧
    (p < 32 → x.st = .up →
      let c := choose 256 s
      (∀ b r, x.replay.length < 2048 → x.credits ≠ 0 → x.outq = b :: r →
        let f := mkFlit b x.txseq x.rxseq 0 c.1
        runMove exec (.linkSend p) s = .next (portPut c.2 p { x with
          txseq := (x.txseq + 1) % 4096, credits := x.credits - 1, replay := x.replay ++ [f], sent := f :: x.sent, outq := r })) ∧
      (2048 ≤ x.replay.length ∨ x.credits = 0 ∨ x.outq = [] → runMove exec (.linkSend p) s = .next
        (portPut c.2 p { x with sent := mkFlit (List.replicate 240 0) 0 x.rxseq 2 c.1 :: x.sent }))) ∧
    (s.fabric.taken.contains (a, s.devno, n) = false → exec (.fabricPacket a s.devno n bs) s = .next
      { s with fabric := { s.fabric with taken := (a, s.devno, n) :: s.fabric.taken, delivered := bs :: s.fabric.delivered } }) ∧
    (b ≠ s.devno ∨ s.fabric.taken.contains (a, b, n) = true → exec (.fabricPacket a b n bs) s = .next s) ∧
    (s.fready.getLsbD 3 = true → fabricRoom s = true → bs.length = 256 →
      let t := leNat ((bs.drop 4).take 2)
      let w := slideWindow s t tok.toNat
      (64 ≤ t → exec (.launchPacket tok bs) s = .next (acceptPacket s tok bs)) ∧
      (t < 64 → tok.toNat < tokLo s t → exec (.launchPacket tok bs) s = .next (dropPacket s tok .stale)) ∧
      (t < 64 → tokLo s t ≤ tok.toNat →
        ((seenOf w t).contains tok.toNat = true → exec (.launchPacket tok bs) s = .next (dropPacket w tok .dup)) ∧
        ((seenOf w t).contains tok.toNat = false → exec (.launchPacket tok bs) s = .next (acceptPacket
          { w with fabric := { w.fabric with seen := kvPut [] t (tok.toNat :: seenOf w t) w.fabric.seen } } tok bs))))

/-! ### The package as a whole -/

/-- What the spec gives for device reset: no wave, block, launch, graph or cave work; counters 0 (R372, R374, R376), semaphores 0 and
untagged (R382), the pre-emption thresholds (R90), inactive incumbent slots with key all ones and tag 0 (R93), every granule direct (R390),
every 2 MiB region cleared (09 R190), no configuration write held (R95), no unit ready or failed (R393), the functions' registers 0 (R386). -/
def Obligations.ResetState : Prop :=
  let s := State.reset
  s.waves = [] ∧ s.blocks = [] ∧ s.launches = [] ∧ s.saved = [] ∧ s.graph.graphs = [] ∧ s.cave.works = [] ∧
  (∀ d : Fin 4, s.dcyc[d] = 0) ∧ (∀ k, kvGet 0 k s.perf = 0) ∧ (∀ k, kvGet 0 k s.ctrs = 0) ∧
  (∀ k, semGet s k = ⟨0, none⟩) ∧ s.pdrain = 0x0000E000 ∧ s.pflush = 0x00004000 ∧
  (∀ n : Fin 16, s.search.slots[n].key = BitVec.allOnes 64 ∧ s.search.slots[n].tag = 0 ∧ s.search.slots[n].active = false) ∧
  (∀ pa, interleaved s pa = false) ∧ s.mem.uncleared = [] ∧ s.held = [] ∧ s.fready = 0 ∧ s.ffail = 0 ∧
  (∀ n, (vfGet s n).qbase = 0 ∧ (vfGet s n).qlen = 0 ∧ (vfGet s n).qtail = 0 ∧ (vfGet s n).qhead = 0 ∧ (vfGet s n).qerr = 0 ∧
    (vfGet s n).msien = 0)

/-- A step makes the move that is due. On a front scheduler's turn the word at the PC of the first split it tries, read with good parity and
decoded to a legal instruction `i` that fits the wave and waits for no register, executes by `exec`; so does the instruction that a split waits
at, which it has fetched before (log 111). The split's pair is then noted (R69), and where `i` turns out to wait, or would reach a unit not yet
ready (R394), the scheduler tries the next split. On a stack core's turn the word at
the program's PC executes; a move of the device executes as it stands, but one that an image not yet armed puts out is held (R401). Around the
move, what it reached is noted (R331), and a move that reached a unit not yet ready (R394), or would begin new work on a die whose units make a
boundary (R96), is not made. -/
def Obligations.StepRunsDecoded : Prop :=
  let fresh := fun (s : State) => { s with mem := { s.mem with touch := [] } }
  (∀ (s s1 s2 : State) (core sched : Nat) (c : Cur) (cs : List Cur), takeMove s = (.front core sched, s1) →
     let s0 := fresh s1
     let m := mergeFirst s2 c
     let t := { m.2 with cur := none, issued := false }
     let after := afterMove (.front core sched) s0
     frontHeld s0 core = false → beginCycle (dieOfCore core) s0 = some s2 → candidates s2 core sched = c :: cs →
     ∀ x : Ctx, ctxOf { m.2 with cur := some m.1 } = some x → canIssue t x = true → x.p.caveErr = none → timerHere x = false →
       let runs := fun (r : State) (i : Instr) (pair : Bool) =>
         (∀ v, exec i r = .next v →
           (waitsUnit v = false → v.issued = true → step s = after (.next (notePair m.1 (pcOfSplit r m.1) pair v))) ∧
           (waitsUnit v = false → v.issued = false → step s = after (tryIssue exec cs (holdInstr m.1 i pair v))) ∧
           (waitsUnit v = true → step s = after (tryIssue exec cs s2))) ∧
         (∀ f, exec i r = .fault f → step s = .fault f) ∧
         (∀ f, exec i r = .refused f → step s = .refused f)
       (∀ (bs : List Byte) (again : Nat) (u : State) (k : Nat) (i : Instr), x.p.under = none →
         fetchParity t x.l x.w.core (fetchFrom x.l x.p) (lineOf x.p.pc) = (.ok (some bs, again), u) →
         lineWordOk bs = true → slotOf (x.p.pc % 64) = some k → decodeSlot (bs.drop (slotOff k)) = .ok i →
         fitsAt i x.w.nregs x.w.ntiles x.p.pc = true → guardOk x i = true → scoreboardBusy x.w x.p i = false →
         i.WellFormed ∧ ∃ pair, lineInstr x bs k = .ok i pair ∧
           runs { (List.range again).foldl (fun s _ => countRefetch s x.w.core) u with cur := some m.1 } i pair) ∧
       (∀ (i : Instr) (pair : Bool), x.p.under = some (i, pair) → guardOk x i = true → scoreboardBusy x.w x.p i = false →
         runs { t with cur := some m.1 } i pair)) ∧
  (∀ (s s1 : State) (n c : Nat), takeMove s = (.cave n c, s1) →
     let t := fresh s1
     let u := caveTurn t n c
     ∀ (x : CaveCtx) (w : DWord) (v : State) (i : Instr),
       ctxGet t u = some x → skUp t n = true → x.part = none → atLimit t uMemory = false → msgTakes t n c = false →
       (u.hand = false → atLimit t (uSk n c) = false) → (u.hand = true → x.count < 256) →
       caveFetch t u x x.pc = (some w, v) → decodeCave w = .ok i →
       i.WellFormed ∧ step s = afterMove (.cave n c) t (exec i { v with curCave := some u })) ∧
  (∀ (s s1 : State) (i : Instr), takeMove s = (.ev i, s1) → isMove i = true →
     let t := fresh s1
     (atLimit t uMemory && beginsAccess i t) = false →
     ((∀ k, outputOf i t = some k → (ctlGet t k).phase ≠ .starting) → step s = afterMove (.ev i) t (exec i t)) ∧
     (∀ k, outputOf i t = some k → (ctlGet t k).phase = .starting → step s = afterMove (.ev i) t (.next (holdOutput t k i)))) ∧
  (∀ (m : Move) (s v : State), waitsUnit v = false → workHeld m s v = false →
     afterMove m s (.next v) = .next (noteTraffic (ownOf m s v) ((match m with | .ev i => stacksOf i s | _ => []) ++
       (v.mem.touch.filter fun k => 9 ≤ k && k < 25).map (· - 9)) v)) ∧
  (∀ (m : Move) (s v : State), waitsUnit v = true ∨ workHeld m s v = true → afterMove m s (.next v) = .next s) ∧
  (∀ (s : State) (m : Move) (r : List Move), s.agenda = m :: r → takeMove s = (m, { s with agenda := r }))

/-- Decode and encode agree (R55 to R78): the word of a well-formed instruction decodes to it, with every operand and modifier. -/
def Obligations.EncodeDecodes : Prop :=
  ∀ (i : Instr) (c : Code), i.WellFormed → encode i = some c → decode c = .ok i

/-- A word decodes to one instruction only, which is well-formed and whose encoding is that word, bit for bit: a reserved code, an unused
field that is not zero or a broken limit never decodes (R74, R78). -/
def Obligations.DecodeEncodes : Prop :=
  ∀ (c : Code) (i : Instr), decode c = .ok i → i.WellFormed ∧ encode i = some c

/-- The words that the spec writes out decode to the instructions that they stand for (R55, R76). -/
def Obligations.DecodedWords : Prop :=
  let front := fun (imm lo : Nat) => decode (.front (BitVec.ofNat 96 (imm * 2 ^ 64 + lo)))
  let cave := fun (w : Nat) => decode (.cave (BitVec.ofNat 64 w))
  front 0 0x0030_1000_4000_3100 = .ok (.iadd ⟨3, false⟩ false ⟨.s32, false, 3, 0, .s 4⟩) ∧
  front 0 0x00B0_1000_4000_3100 = .ok (.iadd ⟨3, true⟩ false ⟨.s32, false, 3, 0, .s 4⟩) ∧
  front 0x10 0x0070_2020_0000_3400 = .ok (.icmp .always ⟨.lt, .s32, 3, 0, .imm 16⟩) ∧
  front 0x40 0x0033_0000_00A0_8500 = .ok (.ld ⟨3, false⟩ 3 ⟨.gm, none, false, .full, .s32, 8, 10, 0x40⟩) ∧
  front 0 0x2070_0200_20A0_0501 = .ok (.st .always ⟨.gm, some .cluster, .full, .s32, 10, .g 2, 0⟩) ∧
  front 4 0x0072_0300_00A1_5600 = .ok (.atom .always 2 ⟨.add, .none, .gm, .i .s32, .die, 21, 10, .g 0, 4⟩) ∧
  front 0 0xC070_0400_0000_0602 = .ok (.fence .always .ar .device) ∧
  front 0x0800_0000 0x4070_0000_C0C0_1800 = .ok (.mma .always 0 ⟨1, 12, 12, 0, 0x800, some .bf16⟩) ∧
  front 0 0x0774_0001_4081_8904 = .ok (.gdeg .always 4 ⟨false, 24, 8, .g 20, 7⟩) ∧
  front 1 0x0540_0002_4302_EA00 = .ok (.tspawn ⟨4, false⟩ ⟨46, 1, 48, .g 36, 5⟩) ∧
  front 3 0x4070_2000_0050_0B06 = .ok (.swait .always true 5 (.imm 3)) ∧
  front 0 0x0070_1000_D002_0C01 = .ok (.wsreg .always .thb (.s 13)) ∧
  front 0x527 0x0070_1001_0000_ED03 = .ok (.cmsg .always 0 ⟨14, .s 16, 5, 2, 7⟩) ∧
  cave 0x0000_0040_01C0_0289 = .ok (.caveLi false 5 64) ∧
  cave 0x0000_0000_0280_40A0 = .ok (.caveVld ⟨2, true, false, false, 1, 4, 0⟩) ∧
  cave 0x0000_0000_03C4_11A5 = .ok (.caveVfma true ⟨7, .f32, 3, 1, 2⟩) ∧
  cave 0x0000_0000_01C0_0041 = .ok .caveHret

/-- The one form of device memory holds after reset. -/
def Obligations.MemoryFormAtReset : Prop := State.reset.memWf

/-- Every step keeps the one form of device memory, in HBM and the tier and in each die's view: addresses rise, and no byte is listed that an
unlisted address reads as. -/
def Obligations.MemoryFormKept : Prop :=
  ∀ s t : State, s.memWf → step s = .next t → t.memWf
end

