-- ==== Sys2Proof/Laws/Issue.lean ====
section
/-! SUPPORT. What the issue of one instruction leaves: the lemmas through which statements about a meaning go. -/

namespace Sys2Proof.Machine

section Lists
variable {α : Type} {p : α → Bool} {f g : α → α} {l : List α} {a : α}

theorem updFirst_congr (h : l.find? p = some a) (e : f a = g a) : updFirst p f l = updFirst p g l := by
  induction l with
  | nil => rfl
  | cons x r ih =>
    simp only [List.find?_cons] at h
    simp only [updFirst]
    split at h <;> rename_i hx
    · cases h; simp [hx, e]
    · simp [hx, ih h]

theorem updFirst_id (h : l.find? p = some a) (e : f a = a) : updFirst p f l = l := by
  induction l with
  | nil => rfl
  | cons x r ih =>
    simp only [List.find?_cons] at h
    simp only [updFirst]
    split at h <;> rename_i hx
    · cases h; simp [hx, e]
    · simp [hx, ih h]

theorem find_updFirst (h : ∀ x, p x = true → p (f x) = true) : (updFirst p f l).find? p = (l.find? p).map f := by
  induction l with
  | nil => rfl
  | cons x r ih =>
    simp only [updFirst, List.find?_cons]
    cases hx : p x
    · simp [hx, ih]
    · simp [h x hx]

theorem updFirst_comp (h : ∀ x, p x = true → p (f x) = true) : updFirst p g (updFirst p f l) = updFirst p (fun x => g (f x)) l := by
  induction l with
  | nil => rfl
  | cons x r ih =>
    cases hx : p x
    · simp [updFirst, hx, ih]
    · simp [updFirst, hx, h x hx]

theorem find_spec (h : l.find? p = some a) : p a = true := List.find?_some h
end Lists

/-! ### The parts of `ctxOf` -/

theorem ctxOf_parts {s : State} {x : Ctx} (h : ctxOf s = some x) :
    s.cur = some x.c ∧ findWave s x.c.wave = some x.w ∧ findSplit x.w x.c.sid = some x.p ∧
    findLaunch s x.w.launch = some x.l ∧ x.em = emOf x.w x.p ∧ x.act = x.em := by
  unfold ctxOf at h
  cases hc : s.cur with
  | none => simp [hc] at h
  | some c =>
    simp only [hc] at h
    cases hw : findWave s c.wave with
    | none => simp [hw] at h
    | some w =>
      simp only [hw] at h
      cases hp : findSplit w c.sid with
      | none => simp [hp] at h
      | some p =>
        cases hl : findLaunch s w.launch with
        | none => simp [hp, hl] at h
        | some l =>
          simp only [hp, hl, Option.some.injEq] at h
          subst h
          exact ⟨rfl, hw, hp, hl, rfl, rfl⟩

/-! ### A quiet wave has nothing to settle -/

theorem settleW_quiet {w : Wave} (h : w.quiet) : settleW w = w := by
  have ha : allWins w = [] := by
    simp only [allWins, h.2, List.append_nil, List.flatMap_eq_nil_iff]
    exact h.1
  simp [settleW, numberWins, ha, settleLoop]

theorem mem_updFirst {α : Type} {p : α → Bool} {f : α → α} {y : α} :
    ∀ {l : List α}, y ∈ updFirst p f l → y ∈ l ∨ ∃ x ∈ l, y = f x
  | [], h => by simp [updFirst] at h
  | x :: r, h => by
    simp only [updFirst] at h
    split at h
    · rcases List.mem_cons.mp h with h | h
      · exact .inr ⟨x, by simp, h⟩
      · exact .inl (by simp [h])
    · rcases List.mem_cons.mp h with h | h
      · exact .inl (by simp [h])
      · rcases mem_updFirst h with h | ⟨z, hz, e⟩
        · exact .inl (by simp [h])
        · exact .inr ⟨z, by simp [hz], e⟩

theorem quiet_updSplitW {w : Wave} {i : Nat} {f : Split → Split} (h : w.quiet) (hf : ∀ p, p.wins = [] → (f p).wins = []) :
    (updSplitW w i f).quiet := by
  refine ⟨fun q hq => ?_, h.2⟩
  rcases mem_updFirst hq with hq | ⟨z, hz, rfl⟩
  · exact h.1 q hq
  · exact hf z (h.1 z hz)

theorem tickWins_nil (n : Nat) : tickWins n [] = [] := rfl
theorem closeWins_nil (f : Win → Bool) : closeWins f [] = [] := rfl

/-- A wave function that touches registers alone: the splits, the orphan windows, the exited lanes, the uid and what says where
the wave is stay. -/
structure RegsOnly (f : Wave → Wave) : Prop where
  splits : ∀ w, (f w).splits = w.splits
  orph : ∀ w, (f w).orph = w.orph
  exited : ∀ w, (f w).exited = w.exited
  uid : ∀ w, (f w).uid = w.uid
  comm : ∀ (w : Wave) (l : List Split), f { w with splits := l } = { f w with splits := l }

theorem RegsOnly.id : RegsOnly (fun w => w) := ⟨fun _ => rfl, fun _ => rfl, fun _ => rfl, fun _ => rfl, fun _ _ => rfl⟩

theorem RegsOnly.comp {f g : Wave → Wave} (hf : RegsOnly f) (hg : RegsOnly g) : RegsOnly fun w => g (f w) := by
  constructor
  · intro w; rw [hg.splits, hf.splits]
  · intro w; rw [hg.orph, hf.orph]
  · intro w; rw [hg.exited, hf.exited]
  · intro w; rw [hg.uid, hf.uid]
  · intro w l; rw [hf.comm, hg.comm]

/-! ### The windows of one split -/

/-- Only the split `i` has windows, namely `ws`. -/
structure Only (w : Wave) (i : Nat) (ws : List Win) : Prop where
  splits : ∀ p ∈ w.splits, p.wins = [] ∨ (p.sid = i ∧ p.wins = ws)
  orph : w.orph = []

/-- A window as it is numbered where none was before (R84). -/
def numWin (x : Win) : Win := if sClosed x && x.ord == 0 then { x with ord := 1 } else x

theorem numWin_apply (w : Wave) (x : Win) : applyWin w (numWin x) = applyWin w x := by
  unfold numWin; split <;> rfl

theorem numWin_id {x : Win} (h : sClosed x = false) : numWin x = x := by simp [numWin, h]

theorem numWins_id {l : List Win} (h : ∀ x ∈ l, sClosed x = false) : l.map numWin = l := by
  induction l with
  | nil => rfl
  | cons x r ih =>
    rw [List.map_cons, numWin_id (h x (by simp)), ih fun y hy => h y (by simp [hy])]

theorem Only.foreign {w : Wave} {i : Nat} {ws : List Win} (h : Only w i ws) : foreignWins w (some i) = [] := by
  simp only [foreignWins, h.orph, Option.isSome_some, if_true, List.filter_nil, List.append_nil, List.flatMap_eq_nil_iff]
  intro p hp
  obtain ⟨hm, hn⟩ := List.mem_filter.mp hp
  rcases h.splits p hm with e | ⟨e, -⟩
  · simp [e]
  · simp [e] at hn

theorem Only.mem {w : Wave} {i : Nat} {ws : List Win} (h : Only w i ws) {y : Win} (hy : y ∈ allWins w) : y ∈ ws := by
  simp only [allWins, h.orph, List.append_nil, List.mem_flatMap] at hy
  obtain ⟨p, hp, hm⟩ := hy
  rcases h.splits p hp with e | ⟨-, e⟩
  · simp [e] at hm
  · rwa [e] at hm

theorem Only.map {w : Wave} {i : Nat} {ws : List Win} (h : Only w i ws) (f : Win → Win) : Only (mapWins f w) i (ws.map f) := by
  refine ⟨fun p hp => ?_, by simp [mapWins, h.orph]⟩
  obtain ⟨q, hq, rfl⟩ := List.mem_map.mp hp
  rcases h.splits q hq with e | ⟨e, e'⟩
  · exact .inl (by simp [e])
  · exact .inr ⟨e, by simp [e']⟩

theorem mapWins_id {w : Wave} {f : Win → Win} (h : ∀ y ∈ allWins w, f y = y) : mapWins f w = w := by
  have hl : ∀ l : List Win, (∀ y ∈ l, f y = y) → l.map f = l := fun l hl => by
    induction l with
    | nil => rfl
    | cons y r ih => rw [List.map_cons, hl y (by simp), ih fun z hz => hl z (by simp [hz])]
  have ho : w.orph.map f = w.orph := hl _ fun y hy => h y (by simp [allWins, hy])
  have hs : w.splits.map (fun p => { p with wins := p.wins.map f }) = w.splits := by
    have : ∀ l : List Split, (∀ p ∈ l, p ∈ w.splits) → l.map (fun p => { p with wins := p.wins.map f }) = l := fun l hm => by
      induction l with
      | nil => rfl
      | cons p r ih =>
        have hp : p.wins.map f = p.wins := hl _ fun y hy => h y (by
          simp only [allWins, List.mem_append, List.mem_flatMap]
          exact .inl ⟨p, hm p (by simp), hy⟩)
        rw [List.map_cons, hp, ih fun q hq => hm q (by simp [hq])]
    exact this _ fun _ h => h
  unfold mapWins
  rw [ho, hs]

theorem foldl_max_zero : ∀ {l : List Nat}, (∀ n ∈ l, n = 0) → l.foldl max 0 = 0
  | [], _ => rfl
  | n :: r, h => by
    rw [List.foldl_cons, h n (by simp)]
    exact foldl_max_zero fun m hm => h m (by simp [hm])

theorem Only.number {w : Wave} {i : Nat} {ws : List Win} (h : Only w i ws) (hz : ∀ y ∈ ws, y.ord = 0) :
    numberWins w = mapWins numWin w := by
  unfold numberWins
  split
  · have : ((allWins w).map Win.ord).foldl max 0 = 0 := foldl_max_zero fun n hn => by
      obtain ⟨y, hy, rfl⟩ := List.mem_map.mp hn
      exact hz y (h.mem hy)
    rw [this]
    rfl
  · rename_i hn
    symm
    apply mapWins_id
    intro y hy
    simp only [List.any_eq_true, not_exists, not_and, Bool.not_eq_true] at hn
    simp [numWin, hn y hy]

/-! ### No window ready: nothing settles -/

theorem settleSplits_none (w : Wave) : ∀ l : List Split, (∀ p ∈ l, readyWin (foreignWins w (some p.sid)) [] p.wins = none) →
    settleSplits w l = (w, l)
  | [], _ => rfl
  | p :: r, h => by
    have hp := h p (by simp)
    have hr := settleSplits_none w r fun q hq => h q (by simp [hq])
    have : ∀ n, settleList w (foreignWins w (some p.sid)) n p.wins = (w, p.wins) := fun n => by cases n <;> simp [settleList, hp]
    simp [settleSplits, this, hr]

theorem passW_none {w : Wave} {i : Nat} {ws : List Win} (h : Only w i ws) (hr : readyWin [] [] ws = none) : passW w = w := by
  have e : settleSplits w w.splits = (w, w.splits) := settleSplits_none w w.splits fun p hp => by
    rcases h.splits p hp with e | ⟨e, e'⟩
    · rw [e]; rfl
    · rw [e, e', h.foreign]; exact hr
  have ho := h.orph
  unfold passW
  rw [e]
  cases w
  simp only at ho
  simp [settleList, ho]

theorem settleLoop_none {w : Wave} (h : passW w = w) : ∀ n, settleLoop n w = w
  | 0 => rfl
  | n + 1 => by rw [settleLoop, h, settleLoop_none h n]

/-- Windows of one split of which none is ready: they are numbered, and stay. -/
theorem settleW_none {w : Wave} {i : Nat} {ws : List Win} (h : Only w i ws) (hz : ∀ y ∈ ws, y.ord = 0)
    (hr : readyWin [] [] (ws.map numWin) = none) : settleW w = mapWins numWin w := by
  unfold settleW
  rw [h.number hz]
  exact settleLoop_none (passW_none (h.map numWin) hr) _

/-! ### Updates of one wave and one split -/

theorem updWave_updWave (s : State) (u : Nat) (f g : Wave → Wave) (h : ∀ w, (f w).uid = w.uid) :
    updWave (updWave s u f) u g = updWave s u fun w => g (f w) := by
  have : ∀ w : Wave, (w.uid == u) = true → ((f w).uid == u) = true := fun w hw => by rw [h]; exact hw
  unfold updWave
  simp [updFirst_comp this]

theorem updSplitW_updSplitW (w : Wave) (i : Nat) (f g : Split → Split) (h : ∀ p, (f p).sid = p.sid) :
    updSplitW (updSplitW w i f) i g = updSplitW w i fun p => g (f p) := by
  have : ∀ p : Split, (p.sid == i) = true → ((f p).sid == i) = true := fun p hp => by rw [h]; exact hp
  unfold updSplitW
  simp [updFirst_comp this]

theorem findSplit_updSplitW (w : Wave) (i : Nat) (f : Split → Split) (h : ∀ p, (f p).sid = p.sid) :
    findSplit (updSplitW w i f) i = (findSplit w i).map f := by
  have : ∀ p : Split, (p.sid == i) = true → ((f p).sid == i) = true := fun p hp => by rw [h]; exact hp
  simp [findSplit, updSplitW, find_updFirst this]

theorem updWave_congr {s : State} {u : Nat} {f g : Wave → Wave} {w : Wave} (h : findWave s u = some w) (e : f w = g w) :
    updWave s u f = updWave s u g := by
  simp [updWave, updFirst_congr (p := fun w : Wave => w.uid == u) h e]

theorem updWave_same {s : State} {u : Nat} {f : Wave → Wave} {w : Wave} (h : findWave s u = some w) (e : f w = w) :
    updWave s u f = s := by
  simp [updWave, updFirst_id (p := fun w : Wave => w.uid == u) h e]

theorem updSplitW_congr {w : Wave} {i : Nat} {f g : Split → Split} {p : Split} (h : findSplit w i = some p) (e : f p = g p) :
    updSplitW w i f = updSplitW w i g := by
  simp [updSplitW, updFirst_congr (p := fun p : Split => p.sid == i) h e]

theorem updSplitW_same {w : Wave} {i : Nat} {f : Split → Split} {p : Split} (h : findSplit w i = some p) (e : f p = p) :
    updSplitW w i f = w := by
  simp [updSplitW, updFirst_id (p := fun p : Split => p.sid == i) h e]

theorem not_all_exited {w : Wave} {p : Split} (h : liveOf w p ≠ 0) : w.exited ≠ allLanes := by
  intro e
  apply h
  simp [liveOf, e, allLanes]

/-- The one split of a quiet wave that gets windows. -/
theorem only_updSplitW {w : Wave} {i : Nat} {F : Split → Split} {ws : List Win} (hw : w.quiet) (hs : ∀ p, (F p).sid = p.sid)
    (hF : ∀ p, (F p).wins = ws) : Only (updSplitW w i F) i ws := by
  have : ∀ l : List Split, (∀ p ∈ l, p.wins = []) → ∀ p ∈ updFirst (fun p : Split => p.sid == i) F l,
      p.wins = [] ∨ (p.sid = i ∧ p.wins = ws) := by
    intro l
    induction l with
    | nil => intro _ p hp; simp [updFirst] at hp
    | cons x r ih =>
      intro hl p hp
      simp only [updFirst] at hp
      split at hp <;> rename_i hx
      · rcases List.mem_cons.mp hp with rfl | hp
        · exact .inr ⟨by rw [hs]; simpa using hx, hF x⟩
        · exact .inl (hl p (by simp [hp]))
      · rcases List.mem_cons.mp hp with rfl | hp
        · exact .inl (hl p (by simp))
        · exact ih (fun q hq => hl q (by simp [hq])) p hp
  exact ⟨this _ hw.1, hw.2⟩

theorem mapWins_updSplitW {w : Wave} (h : w.quiet) (i : Nat) (f : Win → Win) (F G : Split → Split)
    (hF : ∀ p, { F p with wins := (F p).wins.map f } = G p) : mapWins f (updSplitW w i F) = updSplitW w i G := by
  have : ∀ l : List Split, (∀ p ∈ l, p.wins = []) →
      (updFirst (fun p : Split => p.sid == i) F l).map (fun p => { p with wins := p.wins.map f }) =
        updFirst (fun p : Split => p.sid == i) G l := by
    intro l
    have hid : ∀ l : List Split, (∀ p ∈ l, p.wins = []) → l.map (fun p => { p with wins := p.wins.map f }) = l := by
      intro l
      induction l with
      | nil => intro _; rfl
      | cons p r ih =>
        intro hl
        have hp := hl p (by simp)
        rw [List.map_cons, ih fun q hq => hl q (by simp [hq])]
        cases p
        simp only at hp
        simp [hp]
    induction l with
    | nil => intro _; rfl
    | cons p r ih =>
      intro hl
      have hr := fun q (hq : q ∈ r) => hl q (by simp [hq])
      simp only [updFirst]
      split
      · rw [List.map_cons, hid r hr, hF]
      · have hp := hl p (by simp)
        rw [List.map_cons, ih hr]
        cases p
        simp only at hp
        simp [hp]
  have ho := h.2
  unfold mapWins updSplitW
  simp only
  rw [this _ h.1, ho]
  cases w
  simp only at ho
  simp

theorem updFirst_wins (q : Split → Bool) (F : Split → Split) (ws : List Win) (hF : ∀ p, (F p).wins = ws) :
    ∀ l : List Split, (∀ p ∈ l, p.wins = []) → (l.find? q).isSome → (updFirst q F l).flatMap Split.wins = ws
  | [], _, h => by simp at h
  | p :: r, hw, h => by
    have hn : ∀ l : List Split, (∀ p ∈ l, p.wins = []) → l.flatMap Split.wins = [] := fun l hl => by
      rw [List.flatMap_eq_nil_iff]; exact hl
    simp only [updFirst]
    cases hq : q p
    · have ih := updFirst_wins q F ws hF r (fun z hz => hw z (by simp [hz])) (by simpa [List.find?_cons, hq] using h)
      simp [hw p (by simp), ih]
    · simp [hF, hn r fun z hz => hw z (by simp [hz])]

theorem settleSplits_quiet (w : Wave) : ∀ l : List Split, (∀ p ∈ l, p.wins = []) → settleSplits w l = (w, l)
  | [], _ => rfl
  | p :: r, h => by
    have hp : p.wins = [] := h p (by simp)
    have hr := settleSplits_quiet w r fun q hq => h q (by simp [hq])
    cases p
    simp only at hp
    simp [settleSplits, settleList, hp, hr]

/-- One window, complete and closed, in the split that issued: it is applied. -/
theorem settleSplits_one (w : Wave) (i : Nat) (F : Split → Split) (y : Win) (hy : readyWin [] [] [y] = some y)
    (hF : ∀ p, (F p).wins = [y]) (hs : ∀ p, (F p).sid = p.sid) (hf : foreignWins w (some i) = []) :
    ∀ l : List Split, (∀ p ∈ l, p.wins = []) → (l.find? (·.sid == i)).isSome →
    settleSplits w (updFirst (·.sid == i) F l) = (applyWin w y, updFirst (·.sid == i) (fun p => { F p with wins := [] }) l)
  | [], _, h => by simp at h
  | p :: r, hw, h => by
    simp only [updFirst]
    rcases Bool.eq_false_or_eq_true (p.sid == i) with hq | hq <;> simp only [hq]
    rotate_left
    · simp only [Bool.false_eq_true, if_false]
      have hp : p.wins = [] := hw p (by simp)
      have ih := settleSplits_one w i F y hy hF hs hf r (fun z hz => hw z (by simp [hz])) (by simpa [List.find?_cons, hq] using h)
      cases p
      simp only at hp
      simp [settleSplits, settleList, hp, ih]
    · simp only [if_true]
      have hr := settleSplits_quiet (applyWin w y) r fun z hz => hw z (by simp [hz])
      have hfil : [y].erase y = [] := by simp
      have hi : (F p).sid = i := by rw [hs]; simpa using hq
      have e : settleList w [] 1 [y] = (applyWin w y, []) := by
        simp only [settleList, hy, hfil]
      simp [settleSplits, hF, hi, hf, e, hr]

theorem setGs_regs (r l : Nat) : ∀ (vs : List Word), RegsOnly fun w => setGs w r l vs := by
  intro vs
  induction vs generalizing r with
  | nil => exact RegsOnly.id
  | cons v vs ih =>
    have k : RegsOnly fun w => setG1 w r l v := ⟨fun _ => rfl, fun _ => rfl, fun _ => rfl, fun _ => rfl, fun _ _ => rfl⟩
    exact k.comp (ih (r + 1))

theorem setS1_regs (r : Nat) (v : Word) : RegsOnly fun w => setS1 w r v := by
  constructor <;> intros <;> simp only [setS1] <;> split <;> rfl

theorem setSs_regs : ∀ (r : Nat) (vs : List Word), RegsOnly fun w => setSs w r vs := by
  intro r vs
  induction vs generalizing r with
  | nil => exact RegsOnly.id
  | cons v vs ih => exact (setS1_regs r v).comp (ih (r + 1))

theorem setP1_regs (p l : Nat) (b : Bool) : RegsOnly fun w => setP1 w p l b := by
  constructor <;> intros <;> simp only [setP1] <;> split <;> rfl

/-- What `applyWin` does for one lane's results. -/
def applyRes (x : Win) (w : Wave) (r : LaneRes) : Wave :=
  let w := match x.gd with | some (d, _) => setGs w d r.lane r.ws | none => w
  let w := match x.pd, r.p with | some p, some b => setP1 w p r.lane b | _, _ => w
  match x.qd, r.q with | some q, some c => setQ1 w q r.lane c | _, _ => w

theorem applyRes_regs (x : Win) (r : LaneRes) : RegsOnly fun w => applyRes x w r := by
  have a : RegsOnly fun w => (match x.gd with | some (d, _) => setGs w d r.lane r.ws | none => w) := by
    cases x.gd with
    | none => exact RegsOnly.id
    | some d => exact setGs_regs d.1 r.lane r.ws
  have b : RegsOnly fun w => (match x.pd, r.p with | some p, some b => setP1 w p r.lane b | _, _ => w) := by
    cases x.pd <;> cases r.p <;> first | exact setP1_regs _ _ _ | exact RegsOnly.id
  have c : RegsOnly fun w => (match x.qd, r.q with | some q, some c => setQ1 w q r.lane c | _, _ => w) := by
    cases x.qd <;> cases r.q <;>
      first | exact RegsOnly.id | exact ⟨fun _ => rfl, fun _ => rfl, fun _ => rfl, fun _ => rfl, fun _ _ => rfl⟩
  exact (a.comp b).comp c

theorem applyWin_eq (w : Wave) (x : Win) : applyWin w x =
    match x.sd with
    | some (d, _) => setSs (x.got.foldl (applyRes x) w) d x.sgot
    | none => x.got.foldl (applyRes x) w := rfl

theorem foldRes_regs (x : Win) : ∀ l : List LaneRes, RegsOnly fun w => l.foldl (applyRes x) w := by
  intro l
  induction l with
  | nil => exact RegsOnly.id
  | cons r l ih => exact (applyRes_regs x r).comp ih

/-- The results of a window are registers alone. -/
theorem applyWin_regs (x : Win) : RegsOnly fun w => applyWin w x := by
  have a := foldRes_regs x x.got
  cases hx : x.sd with
  | none => simpa only [applyWin_eq, hx] using a
  | some d => simpa only [applyWin_eq, hx] using a.comp (setSs_regs d.1 x.sgot)

/-- The windows of a split that opened `ws` as its instruction issued. -/
def openedBy (ws : List Win) (p : Split) : Split := { p with wins := ws }

/-- The issuing split once its instruction is counted, before its PC moves. -/
def countedSplit (ws : List Win) (p : Split) : Split :=
  { p with wins := ws, wait := .none, skip := if p.kind == .handler then p.skip else 0, qdone := 0, held := false, under := none }

/-- An instruction that completes at `pc` in state `t`: `hset` says what settling its wave comes to. -/
theorem finish_core {s t : State} {x : Ctx} {f f' : Wave → Wave} {ws ws' : List Win} (h : Issuing s x) (hf : RegsOnly f)
    (hf' : RegsOnly f')
    (hw : t.waves = updFirst (·.uid == x.c.wave) (fun w => updSplitW (f w) x.c.sid (openedBy ws)) s.waves)
    (hset : settleW (updSplitW (f x.w) x.c.sid (countedSplit (tickWins s.nid ws))) =
      updSplitW (f' x.w) x.c.sid (countedSplit ws')) (pc : VAddr) :
    { reap (setPc (countIssue t x s.nid) x.c pc) x.c with cur := none } =
      issuedWith { t with waves := s.waves } x pc ws' f' := by
  obtain ⟨hc, hw0, hp0, hl, hem, hact⟩ := ctxOf_parts h.ctx
  have hfu := hf.uid
  have hfs := hf'.splits
  have hfe := hf'.exited
  let P : Wave → Bool := fun w => w.uid == x.c.wave
  let F : Wave → Wave := fun w => updSplitW (f w) x.c.sid (openedBy ws)
  let G : Wave → Wave := fun w => updSplitW w x.c.sid fun p => { p with
    wins := tickWins s.nid p.wins, wait := .none, skip := if p.kind == .handler then p.skip else 0, qdone := 0
    held := false, under := none }
  let S : Wave → Wave := fun w => updSplitW (f' w) x.c.sid (countedSplit ws')
  let K : Wave → Wave := fun w => updSplitW w x.c.sid fun p => { p with pc := pc }
  let R : Wave → Wave := fun w =>
    let w := match findSplit w x.c.sid with
      | none => w
      | some p => if liveOf w p != 0 then w else if p.kind == .handler then resumeW w p true else settleW (endSplitW w x.c.sid)
    endWaveW w
  have hFu : ∀ w, P w = true → P (F w) = true := fun w hw => by
    show ((f w).uid == x.c.wave) = true
    rw [hfu]; exact hw
  have hSu : ∀ w, P w = true → P (S w) = true := fun w hw => by
    show ((f' w).uid == x.c.wave) = true
    rw [hf'.uid]; exact hw
  have hGFu : ∀ w, P w = true → P (G (F w)) = true := fun w hw => hFu w hw
  have hKSu : ∀ w, P w = true → P (K (S w)) = true := fun w hw => hSu w hw
  have hfp : findSplit (f' x.w) x.c.sid = some x.p := by simpa [findSplit, hfs] using hp0
  have e1 : settleW (G (F x.w)) = S x.w := by
    have : G (F x.w) = updSplitW (f x.w) x.c.sid (countedSplit (tickWins s.nid ws)) := by
      simp only [F, G]
      rw [updSplitW_updSplitW _ _ _ _ (by intro _; rfl)]
      rfl
    rw [this, hset]
  have e3 : K (S x.w) = updSplitW (f' x.w) x.c.sid (nextSplit pc ws') := by
    simp only [K, S]
    rw [updSplitW_updSplitW _ _ _ _ (by intro _; rfl)]
    rfl
  have e4 : R (K (S x.w)) = K (S x.w) := by
    rw [e3]
    simp only [R]
    rw [findSplit_updSplitW _ _ _ (by intro _; rfl), hfp]
    have hlive : liveOf (updSplitW (f' x.w) x.c.sid (nextSplit pc ws')) (nextSplit pc ws' x.p) =
        liveOf x.w x.p := by simp [liveOf, updSplitW, hfe, nextSplit]
    have hx : (updSplitW (f' x.w) x.c.sid (nextSplit pc ws')).exited ≠ allLanes := by
      show (f' x.w).exited ≠ allLanes
      rw [hfe]; exact not_all_exited h.live
    have hl0 : liveOf x.w x.p ≠ 0#32 := h.live
    simp [hlive, hl0, endWaveW, hx]
  have f0 : s.waves.find? P = some x.w := hw0
  have f2 : (updFirst P (fun w => K (S w)) s.waves).find? P = some (K (S x.w)) := by
    rw [find_updFirst hKSu, f0]; rfl
  have f1 : updFirst P settleW (updFirst P (fun w => G (F w)) s.waves) = updFirst P S s.waves := by
    rw [updFirst_comp hGFu]
    exact updFirst_congr f0 e1
  have hcount : countIssue t x s.nid = { t with
      issued := true
      last := kvPut 0 (x.w.core * 4 + x.w.slot % 4) x.p.age t.last
      perf := (addPerf t x.w.core 1 1).perf
      blocks := updFirst (·.uid == x.w.blk) (fun b => { b with ret := b.ret + 1 }) t.blocks
      waves := updFirst P S s.waves } := by
    unfold countIssue settle updSplit updWave addPerf updBlock
    simp only [hw]
    rw [show updFirst (fun w : Wave => w.uid == x.c.wave) (fun w => updSplitW w x.c.sid fun p => { p with
      wins := tickWins s.nid p.wins, wait := .none, skip := if p.kind == .handler then p.skip else 0, qdone := 0
      held := false, under := none }) (updFirst (fun w => w.uid == x.c.wave) (fun w => updSplitW (f w) x.c.sid (openedBy ws)) s.waves) =
      updFirst P (fun w => G (F w)) s.waves from updFirst_comp hFu]
    rw [show updFirst (fun w : Wave => w.uid == x.c.wave) settleW (updFirst P (fun w => G (F w)) s.waves) =
      updFirst P S s.waves from f1]
  rw [hcount]
  unfold reap setPc updSplit updWave issuedWith
  simp only
  rw [show updFirst (fun w : Wave => w.uid == x.c.wave) (fun w => updSplitW w x.c.sid fun p => { p with pc := pc })
      (updFirst P S s.waves) = updFirst P (fun w => K (S w)) s.waves from updFirst_comp hSu]
  have f3 : updFirst P R (updFirst P (fun w => K (S w)) s.waves) =
      updFirst P (fun w => updSplitW (f' w) x.c.sid (nextSplit pc ws')) s.waves :=
    (updFirst_id f2 e4).trans (updFirst_congr f0 e3)
  exact congrArg (fun v => ({ t with
    cur := none
    issued := true
    last := kvPut 0 (x.w.core * 4 + x.w.slot % 4) x.p.age t.last
    perf := (addPerf t x.w.core 1 1).perf
    blocks := updFirst (·.uid == x.w.blk) (fun b => { b with ret := b.ret + 1 }) t.blocks
    waves := v } : State)) f3

/-- An instruction that completes at `pc`, having opened the windows `ws` of which none is complete. -/
theorem finish_at {s t : State} {x : Ctx} {f : Wave → Wave} {ws : List Win} (h : Issuing s x) (hf : RegsOnly f)
    (hw : t.waves = updFirst (·.uid == x.c.wave) (fun w => updSplitW (f w) x.c.sid (openedBy ws)) s.waves)
    (hz : ∀ y ∈ tickWins s.nid ws, y.ord = 0) (hr : readyWin [] [] ((tickWins s.nid ws).map numWin) = none) (pc : VAddr) :
    { reap (setPc (countIssue t x s.nid) x.c pc) x.c with cur := none } =
      issuedWith { t with waves := s.waves } x pc ((tickWins s.nid ws).map numWin) f := by
  have hq : (f x.w).quiet := ⟨fun p hp => h.quiet.1 p (by rwa [hf.splits] at hp), by rw [hf.orph]; exact h.quiet.2⟩
  refine finish_core h hf hf hw ?_ pc
  rw [settleW_none (only_updSplitW (F := countedSplit (tickWins s.nid ws)) hq (fun _ => rfl) (fun _ => rfl)) hz hr]
  exact mapWins_updSplitW hq _ _ _ _ fun _ => rfl

/-- An instruction whose one window is complete as it issues. -/
theorem finish_now {s t : State} {x : Ctx} {y z : Win} (h : Issuing s x)
    (hw : t.waves = updFirst (·.uid == x.c.wave) (fun w => updSplitW w x.c.sid (openedBy [y])) s.waves)
    (hy : tickWins s.nid [y] = [z]) (ho : z.ord = 0) (hz : readyWin [] [] [numWin z] = some (numWin z)) (pc : VAddr) :
    { reap (setPc (countIssue t x s.nid) x.c pc) x.c with cur := none } =
      issuedWith { t with waves := s.waves } x pc [] (fun w => applyWin w z) := by
  obtain ⟨-, -, hp0, -⟩ := ctxOf_parts h.ctx
  refine finish_core h RegsOnly.id (applyWin_regs z) hw ?_ pc
  rw [hy]
  have hf : (x.w.splits.find? (·.sid == x.c.sid)).isSome := by rw [show x.w.splits.find? _ = some x.p from hp0]; rfl
  have only := only_updSplitW (i := x.c.sid) (F := countedSplit [z]) h.quiet (fun _ => rfl) (fun _ => rfl)
  have e1 : mapWins numWin (updSplitW x.w x.c.sid (countedSplit [z])) = updSplitW x.w x.c.sid (countedSplit [numWin z]) :=
    mapWins_updSplitW h.quiet _ _ _ _ fun _ => rfl
  have hlen : (allWins (updSplitW x.w x.c.sid (countedSplit [z]))).length = 1 := by
    have : (updSplitW x.w x.c.sid (countedSplit [z])).orph = [] := h.quiet.2
    simp only [allWins, this, List.append_nil]
    rw [show (updSplitW x.w x.c.sid (countedSplit [z])).splits.flatMap Split.wins = [z] from
      updFirst_wins _ (countedSplit [z]) [z] (fun _ => rfl) _ h.quiet.1 hf]
    rfl
  have only' := only_updSplitW (i := x.c.sid) (F := countedSplit [numWin z]) h.quiet (fun _ => rfl) (fun _ => rfl)
  have hs := settleSplits_one (updSplitW x.w x.c.sid (countedSplit [numWin z])) x.c.sid (countedSplit [numWin z]) (numWin z) hz
    (fun _ => rfl) (fun _ => rfl) only'.foreign x.w.splits h.quiet.1 hf
  unfold settleW
  rw [only.number (by simpa using ho), hlen, e1]
  show passW _ = _
  unfold passW
  rw [show (updSplitW x.w x.c.sid (countedSplit [numWin z])).splits =
    updFirst (·.sid == x.c.sid) (countedSplit [numWin z]) x.w.splits from rfl, hs, numWin_apply]
  have hc := (applyWin_regs z).comm x.w
  have hsp := (applyWin_regs z).splits x.w
  have ho2 : (applyWin x.w z).orph = [] := by rw [(applyWin_regs z).orph, h.quiet.2]
  have hq := h.quiet.2
  unfold updSplitW
  rw [hc, hsp]
  cases ha : applyWin x.w z
  rw [ha] at ho2
  simp only at ho2
  simp [ho2, hq, settleList]
  rfl

theorem closeFor_quiet {s : State} {x : Ctx} (h : Issuing s x) (b : Bool) : closeFor b s x.c = s := by
  obtain ⟨-, hw0, hp0, -⟩ := ctxOf_parts h.ctx
  cases b
  · rfl
  · have hp : x.p.wins = [] := h.quiet.1 x.p (List.mem_of_find?_eq_some hp0)
    have e : updSplitW x.w x.c.sid (fun p => { p with wins := closeWins (fun _ => true) p.wins }) = x.w := by
      apply updSplitW_same hp0
      cases hx : x.p
      rw [hx] at hp
      simp only at hp
      simp [hp, closeWins_nil]
    have e1 : updSplit s x.c (fun p => { p with wins := closeWins (fun _ => true) p.wins }) = s := updWave_same hw0 e
    show settle (updSplit s x.c _) x.c.wave = s
    rw [e1]
    exact updWave_same hw0 (settleW_quiet h.quiet)

/-- Where no window was closed for it, an instruction that waits without having changed a wave, or that does not wait, is completed
in the state it was attempted in. -/
theorem finishFrom_self {s : State} {x : Ctx} {r : Res} (h : ∀ t w, r = .wait t w → w.begun = true ∨ t.waves = s.waves) :
    finishFrom s s x r = finish s x r := by
  cases r with
  | wait t w =>
    have e : (if w.begun = true then t else { t with waves := s.waves }) = t := by
      split
      · rfl
      · rename_i hb
        rw [← (h t w rfl).resolve_left hb]
    simp [finishFrom, e]
  | trap t fs k => simp [finishFrom]
  | _ => rfl

@[simp] theorem finishFrom_done {s t : State} {x : Ctx} : finishFrom s s x (.done t) = finish s x (.done t) := rfl
@[simp] theorem finishFrom_jump {s t : State} {x : Ctx} {pc : VAddr} : finishFrom s s x (.jump t pc) = finish s x (.jump t pc) := rfl
@[simp] theorem finishFrom_trap {s t : State} {x : Ctx} {fs : List Flt} {k : Cause} :
    finishFrom s s x (.trap t fs k) = finish s x (.trap t fs k) := by simp [finishFrom]

theorem runLane_eq {closes : Bool} {g : Guard} {s : State} {x : Ctx} {k : Ctx → State → Res} (h : Issuing s x) :
    runLane closes g s k = .next (finishFrom s s x (k (x.guarded g) s)) := by
  simp [runLane, h.ctx, closeFor_quiet h, Ctx.guarded]

theorem runUni_eq {closes : Bool} {g : Guard} {s : State} {x : Ctx} {k : Ctx → State → Res} (h : Issuing s x)
    (hg : x.agrees g) : runUni closes g s k = .next (finishFrom s s x (k x s)) := by
  have hg' : guardAgree x g = some true := hg
  simp [runUni, h.ctx, closeFor_quiet h, hg']

/-- A state whose waves are those of `s` but for what `f` does to the issuing wave's registers. -/
theorem waves_regs {s t : State} {u i : Nat} {f : Wave → Wave} {w : Wave} (hw : findWave s u = some w)
    (hq : w.quiet) (hf : RegsOnly f) (ht : t.waves = (updWave s u f).waves) :
    t.waves = updFirst (·.uid == u) (fun w => updSplitW (f w) i (openedBy [])) s.waves := by
  rw [ht]
  apply updFirst_congr (p := fun w : Wave => w.uid == u) hw
  cases hs : findSplit (f w) i with
  | none =>
    have : ∀ (l : List Split), l.find? (·.sid == i) = none → updFirst (fun p : Split => p.sid == i) (openedBy []) l = l := by
      intro l
      induction l with
      | nil => intro _; rfl
      | cons y r ih =>
        intro hn
        simp only [List.find?_cons] at hn
        split at hn <;> rename_i hy
        · cases hn
        · simp [updFirst, hy, ih hn]
    have e := this _ hs
    simp [updSplitW, e]
  | some p =>
    symm
    apply updSplitW_same hs
    have hm := List.mem_of_find?_eq_some hs
    rw [hf.splits] at hm
    have hp := hq.1 p hm
    cases p
    simp only at hp
    simp [openedBy, hp]

/-- An instruction that completes at next(PC), having touched registers alone. -/
theorem finish_done {s t : State} {x : Ctx} {f : Wave → Wave} (h : Issuing s x) (hf : RegsOnly f)
    (ht : t.waves = (updWave s x.c.wave f).waves) :
    finish s x (.done t) = issuedAt { t with waves := s.waves } x (nextPc x.p.pc) f := by
  obtain ⟨-, hw0, -⟩ := ctxOf_parts h.ctx
  exact finish_at h hf (waves_regs hw0 h.quiet hf ht) (fun _ h => by cases h) rfl (nextPc x.p.pc)

theorem finish_jump {s t : State} {x : Ctx} {f : Wave → Wave} {pc : VAddr} (h : Issuing s x) (hf : RegsOnly f)
    (ht : t.waves = (updWave s x.c.wave f).waves) :
    finish s x (.jump t pc) = issuedAt { t with waves := s.waves } x pc f := by
  obtain ⟨-, hw0, -⟩ := ctxOf_parts h.ctx
  exact finish_at h hf (waves_regs hw0 h.quiet hf ht) (fun _ h => by cases h) rfl pc

theorem regsOnly_setGd (wide : Bool) (d : Reg) (m : Mask) (v : Nat → DWord) : RegsOnly fun w => setGd w wide d m v := by
  constructor <;> intros <;> simp only [setGd, setGm] <;> split <;> rfl

theorem regsOnly_setSd (wide : Bool) (d : Reg) (v : DWord) : RegsOnly fun w => setSd w wide d v := by
  cases wide
  · exact setS1_regs d.toNat (lo32 v)
  · exact (setS1_regs d.toNat (lo32 v)).comp (setS1_regs (d.toNat + 1) (hi32 v))

theorem regsOnly_setPm (p : PReg) (m v : Mask) : RegsOnly fun w => setPm w p m v := by
  constructor <;> intros <;> simp only [setPm] <;> split <;> rfl

theorem regsOnly_resultW (x : Ctx) (u wide : Bool) (d : Reg) (f : Nat → DWord) : RegsOnly (resultW x u wide d f) := by
  unfold resultW
  cases u
  · exact regsOnly_setGd wide d x.act f
  · cases lowLane x.act with
    | none => exact RegsOnly.id
    | some l => exact regsOnly_setSd wide d (f l)

theorem putResult_eq (s : State) (x : Ctx) (u wide : Bool) (d : Reg) (f : Nat → DWord) :
    (putResult s x u wide d f).waves = (updWave s x.c.wave (resultW x u wide d f)).waves ∧
    { putResult s x u wide d f with waves := s.waves } = s := by
  have hid : ∀ (l : List Wave) (p : Wave → Bool), updFirst p (fun w => w) l = l := by
    intro l p
    induction l with
    | nil => rfl
    | cons y r ih => simp only [updFirst]; split <;> simp [ih]
  unfold putResult resultW
  cases u
  · exact ⟨rfl, rfl⟩
  · cases h : lowLane x.act with
    | none => exact ⟨by simp [updWave, hid], rfl⟩
    | some l => exact ⟨rfl, rfl⟩

/-- A register-computing instruction whose operands `k` reads, where reading them leaves the waves alone. -/
theorem execAlu_eq {g : Guard} {u wide : Bool} {d : Reg} {s : State} {x : Ctx}
    {k : Ctx → State → (Nat → DWord) × State} (h : Issuing s x) (hk : (k (x.guarded g) s).2.waves = s.waves) :
    execAlu g u wide d s k =
      .next (issuedAt (k (x.guarded g) s).2 x (nextPc x.p.pc) (resultW (x.guarded g) u wide d (k (x.guarded g) s).1)) := by
  unfold execAlu
  rw [runLane_eq h, finishFrom_done]
  have e := putResult_eq (k (x.guarded g) s).2 (x.guarded g) u wide d (k (x.guarded g) s).1
  have hw : (putResult (k (x.guarded g) s).2 (x.guarded g) u wide d (k (x.guarded g) s).1).waves =
      (updWave s x.c.wave (resultW (x.guarded g) u wide d (k (x.guarded g) s).1)).waves := by
    rw [e.1]
    show updFirst _ _ _ = updFirst _ _ _
    rw [hk]; rfl
  rw [show finish s x (.done (putResult (k (x.guarded g) s).2 (x.guarded g) u wide d (k (x.guarded g) s).1)) = _ from
    finish_done h (regsOnly_resultW _ u wide d _) hw]
  rw [← hk, e.2]

/-! ### Results by way of a window -/

theorem lowLane_none {m : Mask} : lowLane m = none ↔ m = 0 := by
  unfold lowLane
  rw [List.head?_eq_none_iff]
  constructor
  · intro h
    apply BitVec.eq_of_getLsbD_eq
    intro i hi
    by_cases hb : m.getLsbD i
    · have : i ∈ lanesOf m := by simp [lanesOf, List.mem_filter, hb, hi]
      rw [h] at this
      cases this
    · simpa using hb
  · rintro rfl
    simp [lanesOf]

theorem lanesOf_nil {m : Mask} : lanesOf m = [] ↔ m = 0 := by
  rw [← lowLane_none, lowLane, List.head?_eq_none_iff]

/-- Opening one window leaves the wave's registers alone. -/
theorem waves_open {s t : State} {x : Ctx} {y : Win} (h : Issuing s x)
    (ht : t.waves = (updSplit s x.c fun p => { p with wins := p.wins ++ [y] }).waves) :
    t.waves = updFirst (·.uid == x.c.wave) (fun w => updSplitW w x.c.sid (openedBy [y])) s.waves := by
  obtain ⟨-, hw0, hp0, -⟩ := ctxOf_parts h.ctx
  rw [ht]
  apply updFirst_congr (p := fun w : Wave => w.uid == x.c.wave) hw0
  apply updSplitW_congr hp0
  have hp : x.p.wins = [] := h.quiet.1 x.p (List.mem_of_find?_eq_some hp0)
  simp [openedBy, hp]

/-- A complete window that the issuing instruction opens in `t`: applied at once with `rem` 0, otherwise left to run down. -/
theorem finish_win {s t : State} {x : Ctx} {y : Win} (h : Issuing s x)
    (ht : t.waves = (updSplit s x.c fun p => { p with wins := p.wins ++ [y] }).waves)
    (hid : s.nid ≤ y.id) (hcl : y.closed = false) (hf : winFull y = true) (ho : y.ord = 0) (pc : VAddr) :
    { reap (setPc (countIssue t x s.nid) x.c pc) x.c with cur := none } =
      if y.rem = 0 then issuedWith { t with waves := s.waves } x pc [] (fun w => applyWin w y)
      else issuedWith { t with waves := s.waves } x pc [y] fun w => w := by
  have hw := waves_open h ht
  by_cases hr : y.rem = 0
  · have hy : tickWins s.nid [y] = [{ y with closed := true }] := by
      simp [tickWins, closeWins, hid, hcl, hr]
    have hz : readyWin [] [] [numWin { y with closed := true }] = some (numWin { y with closed := true }) := by
      have : winFull { y with closed := true } = true := hf
      have h1 : (numWin { y with closed := true }).closed = true := by unfold numWin; split <;> rfl
      have h2 : winFull (numWin { y with closed := true }) = true := by unfold numWin; split <;> exact this
      simp [readyWin, h1, h2]
    rw [if_pos hr, finish_now h hw hy ho hz pc]
    rfl
  · have hy : tickWins s.nid [y] = [y] := by
      have : y.closed = false := hcl
      simp [tickWins, closeWins, hid, hr]
    have hn : ([y] : List Win).map numWin = [y] := numWins_id fun z hz => by
      rw [List.mem_singleton.mp hz, sClosed, hcl]; rfl
    have hz : readyWin [] [] ((tickWins s.nid [y]).map numWin) = none := by rw [hy, hn]; simp [readyWin, hcl]
    rw [if_neg hr, finish_at h RegsOnly.id hw (by rw [hy]; simpa using ho) hz pc, hy, hn]

/-- An instruction with lookahead whose operands `k` reads, where reading them leaves the waves and the numbers alone. -/
theorem execLong_eq {g : Guard} {la : BitVec 4} {u wide : Bool} {d : Reg} {s : State} {x : Ctx}
    {k : Ctx → State → (Nat → DWord) × State} (h : Issuing s x) (hk : (k (x.guarded g) s).2.waves = s.waves)
    (hn : (k (x.guarded g) s).2.nid = s.nid) :
    execLong g la u wide d s k =
      (let sb := (k (x.guarded g) s).2
       let m := (x.guarded g).act
       let w := resultWin sb.nid la u wide d m (k (x.guarded g) s).1
       let sn := { sb with nid := sb.nid + 1 }
       .next (if la = 0 then issuedAt sn x (nextPc x.p.pc) fun v => applyWin v w
        else issuedWith sn x (nextPc x.p.pc) [w] fun w => w)) := by
  unfold execLong
  rw [runLane_eq h]
  simp only [finishFrom_done]
  congr 1
  generalize hv : (k (x.guarded g) s).1 = v
  generalize hsb : (k (x.guarded g) s).2 = sb at hk hn
  have hla : la.toNat = 0 ↔ la = 0 := by simp [BitVec.toNat_eq]
  have ht : putLater sb (x.guarded g) la u wide d v = updSplit { sb with nid := sb.nid + 1 } x.c fun p => { p with
      wins := p.wins ++ [resultWin sb.nid la u wide d (x.guarded g).act v] } := by
    cases u
    · rfl
    · simp only [putLater, if_true, openDone, resultWin]
      cases lowLane (x.guarded g).act <;> rfl
  have hrem : (resultWin sb.nid la u wide d (x.guarded g).act v).rem = la.toNat := by cases u <;> rfl
  rw [ht]
  show ({ reap (setPc (countIssue _ x s.nid) x.c (nextPc x.p.pc)) x.c with cur := none } : State) = _
  rw [finish_win (y := resultWin sb.nid la u wide d (x.guarded g).act v) h
    (by show updFirst _ _ _ = updFirst _ _ _; rw [show ({ sb with nid := sb.nid + 1 } : State).waves = s.waves from hk])
    (by rw [← hn]; cases u <;> exact Nat.le_refl _) (by cases u <;> rfl) (by cases u <;> rfl) (by cases u <;> rfl)]
  have he : ∀ f, ({ updSplit { sb with nid := sb.nid + 1 } x.c f with waves := s.waves } : State) =
      { sb with nid := sb.nid + 1 } := fun f => by rw [← hk]; rfl
  rw [he, hrem]
  by_cases hz : la = 0
  · rw [if_pos hz, if_pos (hla.mpr hz)]; rfl
  · rw [if_neg hz, if_neg (fun e => hz (hla.mp e))]

/-! ### Whatever the meaning did -/

/-- `t`, in which a quiet wave's split has a lane left, once the instruction is counted and its PC set. -/
theorem finish_quiet {t : State} {x : Ctx} {w1 : Wave} {p1 : Split} (n : Nat) (pc : VAddr)
    (hw : findWave t x.c.wave = some w1) (hq : w1.quiet) (hp : findSplit w1 x.c.sid = some p1) (hl : liveOf w1 p1 ≠ 0) :
    { reap (setPc (countIssue t x n) x.c pc) x.c with cur := none } = issuedWith t x pc [] fun w => w := by
  let P : Wave → Bool := fun w => w.uid == x.c.wave
  let G : Wave → Wave := fun w => updSplitW w x.c.sid fun p => { p with
    wins := tickWins n p.wins, wait := .none, skip := if p.kind == .handler then p.skip else 0, qdone := 0
    held := false, under := none }
  let K : Wave → Wave := fun w => updSplitW w x.c.sid fun p => { p with pc := pc }
  let R : Wave → Wave := fun w =>
    let w := match findSplit w x.c.sid with
      | none => w
      | some p => if liveOf w p != 0 then w else if p.kind == .handler then resumeW w p true else settleW (endSplitW w x.c.sid)
    endWaveW w
  have hGu : ∀ w, P w = true → P (G w) = true := fun _ hw => hw
  have hKGu : ∀ w, P w = true → P (K (G w)) = true := fun _ hw => hw
  have hw1 : p1.wins = [] := hq.1 p1 (List.mem_of_find?_eq_some hp)
  have e1 : G w1 = updSplitW w1 x.c.sid (countedSplit []) := by
    apply updSplitW_congr hp
    simp [countedSplit, hw1, tickWins_nil]
  have e2 : settleW (G w1) = G w1 := by
    rw [e1]
    exact settleW_quiet (quiet_updSplitW hq fun _ _ => rfl)
  have e3 : K (G w1) = updSplitW w1 x.c.sid (nextSplit pc []) := by
    rw [e1]
    simp only [K]
    rw [updSplitW_updSplitW _ _ _ _ (by intro _; rfl)]
    rfl
  have e4 : R (K (G w1)) = K (G w1) := by
    rw [e3]
    simp only [R]
    rw [findSplit_updSplitW _ _ _ (by intro _; rfl), hp]
    have hlive : liveOf (updSplitW w1 x.c.sid (nextSplit pc [])) (nextSplit pc [] p1) =
        liveOf w1 p1 := rfl
    have hx : (updSplitW w1 x.c.sid (nextSplit pc [])).exited ≠ allLanes := not_all_exited hl
    have hl0 : liveOf w1 p1 ≠ 0#32 := hl
    simp [hlive, hl0, endWaveW, hx]
  have f0 : t.waves.find? P = some w1 := hw
  have f1 : (updFirst P G t.waves).find? P = some (G w1) := by rw [find_updFirst hGu, f0]; rfl
  have f2 : (updFirst P (fun w => K (G w)) t.waves).find? P = some (K (G w1)) := by rw [find_updFirst hKGu, f0]; rfl
  have hcount : countIssue t x n = { t with
      issued := true
      last := kvPut 0 (x.w.core * 4 + x.w.slot % 4) x.p.age t.last
      perf := (addPerf t x.w.core 1 1).perf
      blocks := updFirst (·.uid == x.w.blk) (fun b => { b with ret := b.ret + 1 }) t.blocks
      waves := updFirst P G t.waves } := by
    unfold countIssue settle updSplit updWave addPerf updBlock
    simp only
    rw [show updFirst (fun w : Wave => w.uid == x.c.wave) settleW (updFirst (fun w => w.uid == x.c.wave) (fun w => updSplitW w x.c.sid fun p => { p with
      wins := tickWins n p.wins, wait := .none, skip := if p.kind == .handler then p.skip else 0, qdone := 0
      held := false, under := none }) t.waves) = updFirst P G t.waves from updFirst_id f1 e2]
  rw [hcount]
  unfold reap setPc updSplit updWave issuedWith
  simp only
  have f3 : updFirst P R (updFirst P K (updFirst P G t.waves)) =
      updFirst P (fun w => updSplitW w x.c.sid (nextSplit pc [])) t.waves := by
    rw [updFirst_comp hGu]
    exact (updFirst_id f2 e4).trans (updFirst_congr f0 e3)
  exact congrArg (fun v => ({ t with
    cur := none
    issued := true
    last := kvPut 0 (x.w.core * 4 + x.w.slot % 4) x.p.age t.last
    perf := (addPerf t x.w.core 1 1).perf
    blocks := updFirst (·.uid == x.w.blk) (fun b => { b with ret := b.ret + 1 }) t.blocks
    waves := v } : State)) f3

/-- Counting an issue in a quiet wave. -/
theorem countIssue_quiet {t : State} {x : Ctx} {w1 : Wave} {p1 : Split} (n : Nat)
    (hw : findWave t x.c.wave = some w1) (hq : w1.quiet) (hp : findSplit w1 x.c.sid = some p1) :
    countIssue t x n = { t with
      issued := true
      last := kvPut 0 (x.w.core * 4 + x.w.slot % 4) x.p.age t.last
      perf := (addPerf t x.w.core 1 1).perf
      blocks := updFirst (·.uid == x.w.blk) (fun b => { b with ret := b.ret + 1 }) t.blocks
      waves := updFirst (·.uid == x.c.wave) (fun w => updSplitW w x.c.sid (countedSplit [])) t.waves } := by
  have hw1 : p1.wins = [] := hq.1 p1 (List.mem_of_find?_eq_some hp)
  have e1 : updSplitW w1 x.c.sid (fun p => { p with
      wins := tickWins n p.wins, wait := .none, skip := if p.kind == .handler then p.skip else 0, qdone := 0
      held := false, under := none }) = updSplitW w1 x.c.sid (countedSplit []) := by
    apply updSplitW_congr hp
    simp [countedSplit, hw1, tickWins_nil]
  have hq1 : (updSplitW w1 x.c.sid (countedSplit [])).quiet := quiet_updSplitW hq fun _ _ => rfl
  unfold countIssue settle updSplit updWave addPerf updBlock
  simp only
  rw [updFirst_congr (p := fun w : Wave => w.uid == x.c.wave)
    (g := fun w => updSplitW w x.c.sid (countedSplit [])) hw e1]
  have f1 : (updFirst (fun w : Wave => w.uid == x.c.wave) (fun w => updSplitW w x.c.sid (countedSplit [])) t.waves).find?
      (fun w => w.uid == x.c.wave) = some (updSplitW w1 x.c.sid (countedSplit [])) := by
    rw [find_updFirst (by intro _ h; exact h), show t.waves.find? _ = some w1 from hw]; rfl
  rw [updFirst_id f1 (settleW_quiet hq1)]

/-- A meaning that has set the PC itself. -/
theorem finish_gone {t : State} {x : Ctx} {w1 : Wave} {p1 : Split} (s : State)
    (hw : findWave t x.c.wave = some w1) (hq : w1.quiet) (hp : findSplit w1 x.c.sid = some p1) (hl : liveOf w1 p1 ≠ 0) :
    finish s x (.gone t) = issuedHere t x := by
  show { reap (countIssue t x s.nid) x.c with cur := none } = _
  rw [countIssue_quiet s.nid hw hq hp]
  unfold reap updWave issuedHere
  simp only
  have f1 : (updFirst (fun w : Wave => w.uid == x.c.wave) (fun w => updSplitW w x.c.sid (countedSplit [])) t.waves).find?
      (fun w => w.uid == x.c.wave) = some (updSplitW w1 x.c.sid (countedSplit [])) := by
    rw [find_updFirst (by intro _ h; exact h), show t.waves.find? _ = some w1 from hw]; rfl
  rw [updFirst_id f1 ?_]
  · rfl
  · rw [findSplit_updSplitW _ _ _ (by intro _; rfl), hp]
    have hx : (updSplitW w1 x.c.sid (countedSplit [])).exited ≠ allLanes := not_all_exited hl
    have hlive : liveOf (updSplitW w1 x.c.sid (countedSplit [])) (countedSplit [] p1) = liveOf w1 p1 := rfl
    have hl0 : liveOf w1 p1 ≠ 0#32 := hl
    simp [hlive, hl0, endWaveW, hx]

end Sys2Proof.Machine
end

