-- ==== Sys2Proof/Laws/Memory.lean ====
section
/-! SUPPORT. The laws of sparse tables and byte memories: reading after writing, what a write leaves alone, and that every operation keeps
the one form of a memory. -/

namespace Sys2Proof.Machine

section
variable {α : Type} [DecidableEq α] {d : α}

/-! ### Sparse tables -/

omit [DecidableEq α] in
/-- Below the first key of a rising table nothing is listed. -/
theorem kvGet_lt {k : Nat} : ∀ {m : Kv α}, (∀ e ∈ m, k < e.1) → kvGet d k m = d
  | [], _ => rfl
  | (j, v) :: r, h => by
    have hj : k < j := h (j, v) (by simp)
    simp only [kvGet, if_neg (Nat.ne_of_gt hj), if_pos hj]

theorem kvWf_tail {j : Nat} {v : α} {r : Kv α} (h : kvWf d ((j, v) :: r) = true) : kvWf d r = true := by
  cases r with
  | nil => rfl
  | cons e t => obtain ⟨k, w⟩ := e; simp only [kvWf, Bool.and_eq_true] at h; exact h.2

theorem kvWf_head {j : Nat} {v : α} {r : Kv α} (h : kvWf d ((j, v) :: r) = true) : v ≠ d := by
  cases r with
  | nil => simpa [kvWf] using h
  | cons e t => obtain ⟨k, w⟩ := e; simp only [kvWf, Bool.and_eq_true] at h; simpa using h.1.1

/-- The keys after the first are greater than it. -/
theorem kvWf_gt : ∀ {r : Kv α} {j : Nat} {v : α}, kvWf d ((j, v) :: r) = true → ∀ e ∈ r, j < e.1
  | [], _, _, _, e, he => absurd he List.not_mem_nil
  | (k, w) :: t, j, v, h, e, he => by
    have hk : j < k := by simp only [kvWf, Bool.and_eq_true] at h; simpa using h.1.2
    rcases List.mem_cons.1 he with rfl | ht
    · exact hk
    · exact Nat.lt_trans hk (kvWf_gt (kvWf_tail h) e ht)

theorem kvWf_cons {j : Nat} {v : α} {r : Kv α} (hv : v ≠ d) (hr : kvWf d r = true) (hg : ∀ e ∈ r, j < e.1) :
    kvWf d ((j, v) :: r) = true := by
  cases r with
  | nil => simpa [kvWf] using hv
  | cons e t =>
    obtain ⟨k, w⟩ := e
    have := hg (k, w) (by simp)
    simp only [kvWf, Bool.and_eq_true]
    exact ⟨⟨by simpa using hv, by simpa using this⟩, hr⟩

omit [DecidableEq α] in
theorem mem_kvDel {k : Nat} {e : Nat × α} : ∀ {m : Kv α}, e ∈ kvDel k m → e ∈ m
  | [], h => h
  | (j, v) :: r, h => by
    simp only [kvDel] at h
    split at h
    · exact List.mem_cons_of_mem _ h
    · split at h
      · exact h
      · rcases List.mem_cons.1 h with rfl | h
        · simp
        · exact List.mem_cons_of_mem _ (mem_kvDel h)

omit [DecidableEq α] in
theorem mem_kvIns {k : Nat} {w : α} {e : Nat × α} : ∀ {m : Kv α}, e ∈ kvIns k w m → e = (k, w) ∨ e ∈ m
  | [], h => by simpa [kvIns] using h
  | (j, v) :: r, h => by
    simp only [kvIns] at h
    split at h
    · rcases List.mem_cons.1 h with h | h
      · exact .inl h
      · exact .inr (List.mem_cons_of_mem _ h)
    · split at h
      · rcases List.mem_cons.1 h with h | h
        · exact .inl h
        · exact .inr h
      · rcases List.mem_cons.1 h with h | h
        · exact .inr (by simp [h])
        · rcases mem_kvIns h with h | h
          · exact .inl h
          · exact .inr (List.mem_cons_of_mem _ h)

theorem kvWf_del {k : Nat} : ∀ {m : Kv α}, kvWf d m = true → kvWf d (kvDel k m) = true
  | [], h => h
  | (j, v) :: r, h => by
    simp only [kvDel]
    split
    · exact kvWf_tail h
    · split
      · exact h
      · exact kvWf_cons (kvWf_head h) (kvWf_del (kvWf_tail h)) fun e he => kvWf_gt h e (mem_kvDel he)

theorem kvWf_ins {k : Nat} {w : α} (hw : w ≠ d) : ∀ {m : Kv α}, kvWf d m = true → kvWf d (kvIns k w m) = true
  | [], _ => by simpa [kvIns, kvWf] using hw
  | (j, v) :: r, h => by
    simp only [kvIns]
    split
    · next e => exact kvWf_cons hw (kvWf_tail h) (e ▸ kvWf_gt h)
    · split
      · next e =>
        exact kvWf_cons hw h fun x hx => by
          rcases List.mem_cons.1 hx with rfl | hx
          · exact e
          · exact Nat.lt_trans e (kvWf_gt h x hx)
      · next e1 e2 =>
        exact kvWf_cons (kvWf_head h) (kvWf_ins hw (kvWf_tail h)) fun x hx => by
          rcases mem_kvIns hx with rfl | hx
          · show j < k; omega
          · exact kvWf_gt h x hx

/-- A write keeps the form of a table. -/
theorem kvWf_put {k : Nat} {w : α} {m : Kv α} (h : kvWf d m = true) : kvWf d (kvPut d k w m) = true := by
  simp only [kvPut]
  split
  · exact kvWf_del h
  · next hw => exact kvWf_ins hw h

theorem kvGet_del_same {k : Nat} : ∀ {m : Kv α}, kvWf d m = true → kvGet d k (kvDel k m) = d
  | [], _ => rfl
  | (j, v) :: r, h => by
    simp only [kvDel]
    split
    · next e => exact kvGet_lt fun x hx => e ▸ kvWf_gt h x hx
    · next e1 =>
      split
      · next e2 => simp only [kvGet, if_neg e1, if_pos e2]
      · next e2 => simp only [kvGet, if_neg e1, if_neg e2]; exact kvGet_del_same (kvWf_tail h)

theorem kvGet_del_ne {k i : Nat} (hi : i ≠ k) : ∀ {m : Kv α}, kvWf d m = true → kvGet d i (kvDel k m) = kvGet d i m
  | [], _ => rfl
  | (j, v) :: r, h => by
    simp only [kvDel]
    split
    · next e =>
      have hr : ∀ x ∈ r, k < x.1 := e ▸ kvWf_gt h
      simp only [kvGet, e, if_neg (Ne.symm hi)]
      split
      · next e2 => exact kvGet_lt fun x hx => Nat.lt_trans e2 (hr x hx)
      · rfl
    · split
      · rfl
      · simp only [kvGet]
        split
        · rfl
        · split
          · rfl
          · exact kvGet_del_ne hi (kvWf_tail h)

omit [DecidableEq α] in
theorem kvGet_ins_same {k : Nat} {w : α} : ∀ {m : Kv α}, kvGet d k (kvIns k w m) = w
  | [] => by simp [kvIns, kvGet]
  | (j, v) :: r => by
    simp only [kvIns]
    split
    · simp [kvGet]
    · next e1 =>
      split
      · simp [kvGet]
      · next e2 => simp only [kvGet, if_neg e1, if_neg e2]; exact kvGet_ins_same

omit [DecidableEq α] in
theorem kvGet_ins_ne {k i : Nat} {w : α} (hi : i ≠ k) : ∀ {m : Kv α}, kvGet d i (kvIns k w m) = kvGet d i m
  | [] => by simp [kvIns, kvGet, Ne.symm hi]
  | (j, v) :: r => by
    simp only [kvIns]
    split
    · next e =>
      subst e
      simp only [kvGet, if_neg (Ne.symm hi)]
    · next e1 =>
      split
      · next e2 =>
        simp only [kvGet, if_neg (Ne.symm hi)]
        split
        · next e3 => rw [if_neg (by omega), if_pos (by omega)]
        · rfl
      · next e2 =>
        simp only [kvGet]
        split
        · rfl
        · split
          · rfl
          · exact kvGet_ins_ne hi

/-- Reading after a write: the value written at its key. -/
theorem kvGet_put_same {k : Nat} {w : α} {m : Kv α} (h : kvWf d m = true) : kvGet d k (kvPut d k w m) = w := by
  simp only [kvPut]
  split
  · next e => rw [e]; exact kvGet_del_same h
  · exact kvGet_ins_same

/-- Reading after a write: every other key as before. -/
theorem kvGet_put_ne {k i : Nat} {w : α} {m : Kv α} (h : kvWf d m = true) (hi : i ≠ k) : kvGet d i (kvPut d k w m) = kvGet d i m := by
  simp only [kvPut]
  split
  · exact kvGet_del_ne hi h
  · exact kvGet_ins_ne hi

/-- Leaving entries out keeps the form of a table. -/
theorem kvWf_filter {p : Nat × α → Bool} : ∀ {m : Kv α}, kvWf d m = true → kvWf d (m.filter p) = true
  | [], _ => rfl
  | (j, v) :: r, h => by
    simp only [List.filter_cons]
    split
    · exact kvWf_cons (kvWf_head h) (kvWf_filter (kvWf_tail h)) fun e he => kvWf_gt h e (List.mem_filter.1 he).1
    · exact kvWf_filter (kvWf_tail h)

end

/-! ### Rising lists of numbers -/

theorem natWf_tail {j : Nat} {r : List Nat} (h : natWf (j :: r) = true) : natWf r = true := by
  cases r with
  | nil => rfl
  | cons k t => simp only [natWf, Bool.and_eq_true] at h; exact h.2

theorem natWf_gt : ∀ {r : List Nat} {j : Nat}, natWf (j :: r) = true → ∀ k ∈ r, j < k
  | [], _, _, k, hk => absurd hk List.not_mem_nil
  | i :: t, j, h, k, hk => by
    have hi : j < i := by simp only [natWf, Bool.and_eq_true] at h; simpa using h.1
    rcases List.mem_cons.1 hk with rfl | ht
    · exact hi
    · exact Nat.lt_trans hi (natWf_gt (natWf_tail h) k ht)

theorem natWf_cons {j : Nat} {r : List Nat} (hr : natWf r = true) (hg : ∀ k ∈ r, j < k) : natWf (j :: r) = true := by
  cases r with
  | nil => rfl
  | cons k t => simp only [natWf, Bool.and_eq_true]; exact ⟨by simpa using hg k (by simp), hr⟩

theorem mem_insNat {k i : Nat} : ∀ {l : List Nat}, i ∈ insNat k l → i = k ∨ i ∈ l
  | [], h => by simpa [insNat] using h
  | j :: r, h => by
    simp only [insNat] at h
    split at h
    · exact .inr h
    · split at h
      · rcases List.mem_cons.1 h with h | h
        · exact .inl h
        · exact .inr h
      · rcases List.mem_cons.1 h with h | h
        · exact .inr (by simp [h])
        · rcases mem_insNat h with h | h
          · exact .inl h
          · exact .inr (List.mem_cons_of_mem _ h)

theorem natWf_ins {k : Nat} : ∀ {l : List Nat}, natWf l = true → natWf (insNat k l) = true
  | [], _ => rfl
  | j :: r, h => by
    simp only [insNat]
    split
    · exact h
    · split
      · next e =>
        exact natWf_cons h fun i hi => by
          rcases List.mem_cons.1 hi with rfl | hi
          · exact e
          · exact Nat.lt_trans e (natWf_gt h i hi)
      · next e1 e2 =>
        exact natWf_cons (natWf_ins (natWf_tail h)) fun i hi => by
          rcases mem_insNat hi with rfl | hi
          · omega
          · exact natWf_gt h i hi

theorem natWf_filter {p : Nat → Bool} : ∀ {l : List Nat}, natWf l = true → natWf (l.filter p) = true
  | [], _ => rfl
  | j :: r, h => by
    simp only [List.filter_cons]
    split
    · exact natWf_cons (natWf_filter (natWf_tail h)) fun i hi => natWf_gt h i (List.mem_filter.1 hi).1
    · exact natWf_filter (natWf_tail h)

theorem natWf_insAll {α : Type} (f : α → Nat) : ∀ (ks : List α) {l : List Nat}, natWf l = true →
    natWf (ks.foldl (fun l k => insNat (f k) l) l) = true
  | [], _, h => h
  | _ :: ks, _, h => natWf_insAll f ks (natWf_ins h)

/-! ### Byte memories -/

theorem wf_parts {m : Memory} : m.wf = true ↔ kvWf 0 m.cells = true ∧ natWf m.psn = true := by
  simp only [Memory.wf, Bool.and_eq_true]

theorem wf_empty : Memory.empty.wf = true := rfl

/-- The poisoned words may be put in place for others in rising order. -/
theorem wf_psn {m : Memory} {l : List Nat} (h : m.wf = true) (hl : natWf l = true) : { m with psn := l }.wf = true :=
  wf_parts.2 ⟨(wf_parts.1 h).1, hl⟩

theorem wf_putByte {m : Memory} (h : m.wf = true) (a : Nat) (b : Byte) : (memPutByte m a b).wf = true :=
  wf_parts.2 ⟨kvWf_put (wf_parts.1 h).1, (wf_parts.1 h).2⟩

theorem wf_putBytes : ∀ (bs : List Byte) {m : Memory} (_ : m.wf = true) (a : Nat), (memPutBytes m a bs).wf = true
  | [], _, h, _ => h
  | b :: bs, _, h, a => wf_putBytes bs (wf_putByte h a b) (a + 1)

theorem wf_store {m : Memory} (h : m.wf = true) (a : Nat) (bs : List Byte) (k : Option (List Byte)) : (memStore m a bs k).wf = true := by
  cases k with
  | none => exact wf_psn (wf_putBytes bs h a) (natWf_filter (wf_parts.1 h).2)
  | some k => exact wf_putBytes _ h a

theorem wf_mark {m : Memory} (h : m.wf = true) (a n : Nat) : (markPsn m a n).wf = true :=
  wf_psn h (natWf_insAll _ _ (wf_parts.1 h).2)

theorem wf_clear {m : Memory} (h : m.wf = true) (lo hi : Nat) : (memClear m lo hi).wf = true :=
  wf_parts.2 ⟨kvWf_filter (wf_parts.1 h).1, natWf_filter (wf_parts.1 h).2⟩

/-- Reading after writing one byte. -/
theorem memByte_putByte {m : Memory} (h : m.wf = true) (a i : Nat) (b : Byte) :
    memByte (memPutByte m a b) i = if i = a then b else memByte m i := by
  split
  · next e => rw [e]; exact kvGet_put_same (wf_parts.1 h).1
  · next e => exact kvGet_put_ne (wf_parts.1 h).1 e

/-- Reading after writing a run of bytes: the bytes written inside it, and every other byte as before. -/
theorem memByte_putBytes : ∀ (bs : List Byte) {m : Memory} (_ : m.wf = true) (a i : Nat),
    memByte (memPutBytes m a bs) i = if a ≤ i ∧ i < a + bs.length then bs.getD (i - a) 0 else memByte m i
  | [], m, _, a, i => by simp [memPutBytes] <;> omega
  | b :: bs, m, h, a, i => by
    rw [memPutBytes, memByte_putBytes bs (wf_putByte h a b) (a + 1) i, memByte_putByte h]
    by_cases e : i = a
    · subst e
      rw [if_neg (by omega), if_pos rfl, if_pos (by simp)]
      simp
    · rw [if_neg e]
      by_cases c : a + 1 ≤ i ∧ i < a + 1 + bs.length
      · rw [if_pos c, if_pos (by simp; omega)]
        obtain ⟨n, hn⟩ : ∃ n, i - a = n + 1 := ⟨i - a - 1, by omega⟩
        rw [show i - (a + 1) = n by omega, hn]
        simp
      · rw [if_neg c, if_neg (by simp; omega)]

/-! ### The views of the dies -/

theorem vecGet_set {α : Type} {n : Nat} (v : Vector α n) (d : α) (i j : Nat) (x : α) (h : i < n) :
    vecGet (vecSet v i x) d j = if j = i then x else vecGet v d j := by
  by_cases e : j = i
  · subst e; simp [vecGet, vecSet, Vector.getD, h]
  · rw [if_neg e]
    simp only [vecGet, vecSet, Vector.getD, Vector.toArray_setIfInBounds, Array.getD_eq_getD_getElem?,
      Array.getElem?_setIfInBounds_ne (Ne.symm e)]

end Sys2Proof.Machine
end

