-- ==== Sys2Proof/Laws/View.lean ====
section
/-! SUPPORT. The operations on device memory: each keeps its one form, and what a store to a view leaves there. -/

namespace Sys2Proof.Machine

/-! ### The form of device memory -/

/-- Every view in its form. -/
def viewsWf (v : Vector Memory 4) : Prop := ∀ d, d < 4 → (vecGet v .empty d).wf = true

theorem memWf_iff {s : State} : s.memWf ↔ s.mem.home.wf = true ∧ viewsWf s.mem.view := Iff.rfl

/-- Noting the unit a move reaches leaves every other part of the memory system. -/
theorem touchMem_eq (s : State) (pa : Nat) : ∃ l, touchMem s pa = { s with mem := { s.mem with touch := l } } := by
  unfold touchMem
  split
  · exact ⟨_, rfl⟩
  · exact ⟨s.mem.touch, rfl⟩

theorem wf_touch {s : State} (h : s.memWf) (pa : Nat) : (touchMem s pa).memWf := by
  obtain ⟨l, e⟩ := touchMem_eq s pa
  rw [e]
  exact h

/-- Only HBM and the views count. -/
theorem memWf_same {s t : State} (h : s.memWf) (hh : t.mem.home = s.mem.home) (hv : t.mem.view = s.mem.view) : t.memWf := by
  rw [memWf_iff, hh, hv]; exact h

/-- One view replaced by another in its form. -/
theorem viewsWf_set {v : Vector Memory 4} (h : viewsWf v) (d : Nat) {m : Memory} (hm : m.wf = true) : viewsWf (vecSet v d m) := by
  intro e he
  by_cases hd : d < 4
  · rw [vecGet_set v _ d e m hd]
    split
    · exact hm
    · exact h e he
  · have : vecSet v d m = v := by simp only [vecSet]; exact Vector.setIfInBounds_eq_of_size_le (by omega)
    rw [this]; exact h e he

theorem viewsWf_upd {v : Vector Memory 4} (h : viewsWf v) (d : Nat) {f : Memory → Memory} (hf : ∀ m, m.wf = true → (f m).wf = true) :
    viewsWf (vecUpd v .empty d f) := by
  by_cases hd : d < 4
  · exact viewsWf_set h d (hf _ (h d hd))
  · have : vecUpd v .empty d f = v := by simp only [vecUpd]; exact Vector.setIfInBounds_eq_of_size_le (by omega)
    rw [this]; exact h

theorem viewsWf_map {v : Vector Memory 4} (h : viewsWf v) {f : Memory → Memory} (hf : ∀ m, m.wf = true → (f m).wf = true) :
    viewsWf (v.map f) := by
  intro d hd
  have := hf _ (h d hd)
  simpa [vecGet, Vector.getD, hd] using this

theorem wf_clearRegion {s : State} (h : s.memWf) (r : Nat) : (clearRegion s r).memWf := by
  simp only [clearRegion]
  split
  · exact ⟨wf_clear h.1 _ _, viewsWf_map h.2 fun _ hm => wf_clear hm _ _⟩
  · exact h

theorem wf_putView (d seq : Nat) (b : Byte) (pa : Nat) {m : MemSys} (h : viewsWf m.view) :
    viewsWf (putViewByte d seq m pa b).view := by
  by_cases hd : d < 4
  · exact viewsWf_set h d (wf_putByte (h d hd) _ _)
  · simp only [putViewByte]
    have : vecSet m.view d (memPutByte (vecGet m.view .empty d) pa b) = m.view := by
      simp only [vecSet]; exact Vector.setIfInBounds_eq_of_size_le (by omega)
    rw [this]; exact h

theorem home_putView (d seq : Nat) (b : Byte) (pa : Nat) (m : MemSys) : (putViewByte d seq m pa b).home = m.home := rfl

theorem wf_putViews (d seq : Nat) : ∀ (bs : List Byte) (pa : Nat) {m : MemSys}, viewsWf m.view →
    viewsWf (putViewBytes d seq m pa bs).view
  | [], _, _, h => h
  | b :: bs, pa, _, h => wf_putViews d seq bs (pa + 1) (wf_putView d seq b pa h)

theorem home_putViews (d seq : Nat) : ∀ (bs : List Byte) (pa : Nat) (m : MemSys), (putViewBytes d seq m pa bs).home = m.home
  | [], _, _ => rfl
  | b :: bs, pa, m => home_putViews d seq bs (pa + 1) (putViewByte d seq m pa b)

theorem wf_vecGet {v : Vector Memory 4} (h : viewsWf v) (d : Nat) : (vecGet v .empty d).wf = true := by
  by_cases hd : d < 4
  · exact h d hd
  · have : vecGet v .empty d = .empty := by unfold vecGet Vector.getD Array.getD; rw [dif_neg (by simpa using hd)]
    rw [this]; rfl

theorem wf_viewOf {s : State} (h : s.memWf) (d : Nat) : (viewOf s d).wf = true := wf_vecGet h.2 d

theorem wf_countPsn {s : State} (h : s.memWf) (d : Nat) (a b : Memory) : (countPsn s d a b).memWf := h

theorem wf_storedPsn {v : Memory} (h : v.wf = true) (pa n : Nat) (plain p : Bool) : (storedPsn v pa n plain p).wf = true := by
  have h1 : (if plain then { v with psn := psnAfter v.psn pa n } else v).wf = true := by
    split
    · exact wf_psn h (natWf_filter (wf_parts.1 h).2)
    · exact h
  unfold storedPsn
  simp only
  split
  · exact wf_mark h1 pa n
  · exact h1

theorem wf_storeView {s : State} (h : s.memWf) (d pa : Nat) (bs : List Byte) (k : Option (List Byte)) (seq : Nat) (p : Bool) :
    (storeView s d pa bs k seq p).memWf := by
  have h2 := wf_clearRegion (wf_clearRegion h (regionOf pa)) (regionOf (pa + bs.length - 1))
  unfold storeView
  generalize clearRegion (clearRegion s (regionOf pa)) (regionOf (pa + bs.length - 1)) = t at h2
  apply wf_countPsn
  rw [memWf_iff] at h2 ⊢
  exact ⟨(congrArg Memory.wf (home_putViews d seq _ pa t.mem)).trans h2.1, viewsWf_upd (wf_putViews d seq _ pa h2.2) d fun _ _ =>
    wf_storedPsn (wf_vecGet (wf_putViews d seq _ pa h2.2) d) ..⟩

theorem wf_markView {s : State} (h : s.memWf) (d pa n : Nat) : (markView s d pa n).memWf := by
  unfold markView
  apply wf_countPsn
  rw [memWf_iff] at h ⊢
  exact ⟨h.1, viewsWf_upd h.2 d fun _ _ => wf_mark (wf_viewOf h d) pa n⟩

theorem wf_writeBack {s : State} (h : s.memWf) (k : Nat) : (writeBack s k).memWf := by
  rw [memWf_iff] at h
  simp only [writeBack]
  generalize viewBytes s (homeDie s (k * 64)) (k * 64) 64 = bs
  generalize (List.range 8).filter (fun i => viewPsn s (homeDie s (k * 64)) (k * 64 + 8 * i)) = ps
  have hs := wf_store h.1 (k * 64) bs none
  generalize memStore s.mem.home (k * 64) bs none = m at hs
  refine wf_touch ?_ _
  exact ⟨wf_psn hs (natWf_insAll _ _ (wf_parts.1 hs).2), h.2⟩

/-- A fold keeps the form where each of its steps does. -/
theorem wf_foldl {α : Type} {f : State → α → State} (hf : ∀ s a, s.memWf → (f s a).memWf) : ∀ (l : List α) {s : State}, s.memWf →
    (l.foldl f s).memWf
  | [], _, h => h
  | a :: l, s, h => wf_foldl hf l (hf s a h)

theorem wf_restoreOn {s : State} (h : s.memWf) (e a seq : Nat) (bs : List Byte) (ps : List Nat) : (restoreOn s e a seq bs ps).memWf := by
  have h1 : (storeView s e a bs none seq false).memWf := wf_storeView h ..
  unfold restoreOn
  generalize storeView s e a bs none seq false = t at h1
  rw [memWf_iff] at h1 ⊢
  exact ⟨h1.1, viewsWf_upd h1.2 e fun _ _ => wf_psn (wf_vecGet h1.2 e) (natWf_insAll _ _ (wf_parts.1 (wf_vecGet h1.2 e)).2)⟩

theorem wf_restoreSector {s : State} (h : s.memWf) (k : Nat) : (restoreSector s k).memWf :=
  wf_foldl (fun _ _ hs => wf_restoreOn hs ..) _ (wf_touch h _)

theorem wf_caveStore {s : State} (h : s.memWf) (n pa : Nat) (bs : List Byte) : (caveStore s n pa bs).memWf := by
  simp only [caveStore]
  split
  · exact h
  · have h2 := wf_storeView (wf_touch h pa) (dieOfStack n) pa bs none (s.mem.clk + 1) false
    exact ⟨wf_store h2.1 pa bs none, h2.2⟩

theorem wf_copyView {s : State} (hw : s.memWf) (h e : Nat) (r : Nat × Nat) : (copyView h e s r).memWf := by
  have key : ∀ (as : List Nat) (m : MemSys), m.home = s.mem.home → viewsWf m.view →
      (as.foldl (fun m a => putViewByte e (viewSeq s h a) m a (memByte (viewOf s h) a)) m).home = s.mem.home ∧
      viewsWf (as.foldl (fun m a => putViewByte e (viewSeq s h a) m a (memByte (viewOf s h) a)) m).view := by
    intro as
    induction as with
    | nil => exact fun m a b => ⟨a, b⟩
    | cons a as ih => exact fun m hm hv => ih _ hm (wf_putView e _ _ a hv)
  have := key ((((viewOf s h).cells ++ (viewOf s e).cells).map Prod.fst).filter fun a => r.1 ≤ a && a < r.1 + r.2 && regionClearedQ s a) s.mem rfl hw.2
  refine ⟨(congrArg Memory.wf this.1).trans hw.1, viewsWf_upd this.2 e fun _ _ => ?_⟩
  have hv := wf_vecGet this.2 e
  exact wf_psn hv (natWf_insAll _ _ (natWf_filter (wf_parts.1 hv).2))

/-! ### What a store leaves in a view -/

/-- A byte of a view after one byte was put into it. -/
theorem viewByte_put (d seq pa e a : Nat) (b : Byte) (m : MemSys) (hd : d < 4) (h : (vecGet m.view .empty d).wf = true) :
    memByte (vecGet (putViewByte d seq m pa b).view .empty e) a =
      if e = d ∧ a = pa then b else memByte (vecGet m.view .empty e) a := by
  simp only [putViewByte, vecGet_set _ _ d e _ hd]
  by_cases he : e = d
  · subst he
    rw [if_pos rfl, memByte_putByte h]
    by_cases ha : a = pa
    · rw [if_pos ha, if_pos ⟨rfl, ha⟩]
    · rw [if_neg ha, if_neg fun c => ha c.2]
  · rw [if_neg he, if_neg fun c => he c.1]

/-- A byte of a view after a run of bytes was put into it. -/
theorem viewByte_puts (d seq : Nat) (hd : d < 4) : ∀ (bs : List Byte) (pa e a : Nat) (m : MemSys), viewsWf m.view →
    memByte (vecGet (putViewBytes d seq m pa bs).view .empty e) a =
      if e = d ∧ pa ≤ a ∧ a < pa + bs.length then bs.getD (a - pa) 0 else memByte (vecGet m.view .empty e) a
  | [], pa, e, a, m, _ => by simp [putViewBytes] <;> omega
  | b :: bs, pa, e, a, m, h => by
    rw [putViewBytes, viewByte_puts d seq hd bs (pa + 1) e a _ (wf_putView d seq b pa h), viewByte_put d seq pa e a b m hd (h d hd)]
    by_cases he : e = d
    · by_cases ha : a = pa
      · subst ha
        rw [if_neg (by omega), if_pos ⟨he, rfl⟩, if_pos ⟨he, by simp⟩]
        simp
      · by_cases c : pa + 1 ≤ a ∧ a < pa + 1 + bs.length
        · rw [if_pos ⟨he, c⟩, if_pos ⟨he, by simp; omega⟩]
          obtain ⟨n, hn⟩ : ∃ n, a - pa = n + 1 := ⟨a - pa - 1, by omega⟩
          rw [show a - (pa + 1) = n by omega, hn]
          simp
        · rw [if_neg fun x => c x.2, if_neg fun x => ha x.2, if_neg fun x => ?_]
          simp at x; omega
    · rw [if_neg fun c => he c.1, if_neg fun c => he c.1, if_neg fun c => he c.1]

end Sys2Proof.Machine
end

