-- ==== Sys2Proof/Laws/Reads.lean ====
section
/-! SUPPORT. Reading page entries, code and constant windows leaves everything but the counter of free values, the copies of
another device's bytes, the units that the move reaches, and a launch's flags. -/

namespace Sys2Proof.Machine

/-- `t` is `s` after reads that are no lane's accesses. -/
def Reads (s t : State) : Prop :=
  ∃ r ls c k l p e q, t = { s with rnd := r, launches := ls, mem := { s.mem with xc := c, touch := k, l2 := l, fillPsn := p, evs := e, cc := q } }

theorem Reads.of {s t : State} (h : t = { s with rnd := t.rnd, launches := t.launches, mem := { s.mem with
    xc := t.mem.xc, touch := t.mem.touch, l2 := t.mem.l2, fillPsn := t.mem.fillPsn, evs := t.mem.evs, cc := t.mem.cc } }) : Reads s t :=
  ⟨_, _, _, _, _, _, _, _, h⟩

theorem Reads.refl (s : State) : Reads s s := .of rfl
theorem Reads.trans {s t u : State} (h : Reads s t) (k : Reads t u) : Reads s u := by
  obtain ⟨_, _, _, _, _, _, _, _, rfl⟩ := h
  obtain ⟨_, _, _, _, _, _, _, _, rfl⟩ := k
  exact .of rfl

theorem Reads.waves {s t : State} (h : Reads s t) : t.waves = s.waves := by obtain ⟨_, _, _, _, _, _, _, _, rfl⟩ := h; rfl
theorem Reads.nid {s t : State} (h : Reads s t) : t.nid = s.nid := by obtain ⟨_, _, _, _, _, _, _, _, rfl⟩ := h; rfl
theorem Reads.cur {s t : State} (h : Reads s t) : t.cur = s.cur := by obtain ⟨_, _, _, _, _, _, _, _, rfl⟩ := h; rfl
theorem Reads.view {s t : State} (h : Reads s t) : t.mem.view = s.mem.view := by obtain ⟨_, _, _, _, _, _, _, _, rfl⟩ := h; rfl
theorem Reads.blocks {s t : State} (h : Reads s t) : t.blocks = s.blocks := by obtain ⟨_, _, _, _, _, _, _, _, rfl⟩ := h; rfl

theorem reads_draw (s : State) : Reads s (draw s).2 := .of rfl

theorem reads_choose (n : Nat) (s : State) : Reads s (choose n s).2 := by
  unfold choose
  split
  · exact .refl s
  · exact reads_draw s

theorem reads_touch (s : State) (pa : Nat) : Reads s (touchMem s pa) := by
  obtain ⟨l, e⟩ := touchMem_eq s pa
  rw [e]
  exact .of rfl

theorem reads_touchLoc (s : State) (l : Loc) : Reads s (touchLoc s l) := by
  cases l with
  | gm pa => exact reads_touch s pa
  | _ => exact .refl s

theorem reads_dropLine (s : State) (d ln : Nat) : Reads s (dropLine s d ln) := by
  unfold dropLine
  split <;> exact .of rfl

theorem reads_boundL2 (s : State) (d ln : Nat) : Reads s (boundL2 s d ln) := by
  unfold boundL2
  split
  · exact .refl s
  · simp only
    split
    · exact .refl s
    · exact (show Reads s { s with mem := _ } from .of rfl).trans (reads_dropLine ..)

theorem reads_bounds (d : Nat) : ∀ (ls : List Nat) (s : State), Reads s (ls.foldl (fun s ln => boundL2 s d ln) s)
  | [], s => .refl s
  | ln :: r, s => (reads_boundL2 s d ln).trans (reads_bounds d r _)

theorem reads_fillL2 (s : State) (d pa n : Nat) : Reads s (fillL2 s d pa n) := by
  unfold fillL2
  split
  · simp only
    split
    · exact .refl s
    · exact (show Reads s { s with mem := _ } from .of rfl).trans (reads_bounds ..)
  · exact .refl s

theorem reads_fillX (s : State) (die dev pa : Nat) : Reads s (fillX s die dev pa) := by
  unfold fillX
  generalize (List.range 32).foldl _ s.mem.xc = c
  exact (show Reads s { s with mem := { s.mem with xc := c } } from .of rfl).trans (reads_boundL2 ..)

theorem reads_touchL2 (s : State) (d pa n : Nat) : Reads s (touchL2 s d pa n) := by
  unfold touchL2
  split
  · exact .refl s
  · exact reads_touch s pa

theorem reads_pickTime (s : State) (d pa n t0 : Nat) : Reads s (pickTime s d pa n t0).2 := reads_choose _ s

theorem reads_histRead (s : State) (d pa n t0 : Nat) : Reads s (histRead s d pa n t0).2 :=
  ((reads_pickTime s d pa n t0).trans (reads_touchL2 _ d pa n)).trans (reads_fillL2 _ d pa n)

theorem reads_fillCc (s : State) (core : Nat) (k : Loc) : Reads s (fillCc s core k) := by
  unfold fillCc
  simp only
  split
  · exact .refl s
  · refine Reads.trans ?_ (.of rfl)
    split
    · exact .refl s
    · exact reads_choose _ s

theorem reads_readEntry (s : State) (tenant va a : Nat) : Reads s (readEntry s tenant va a).2 := reads_histRead ..

theorem reads_groupEntry (s : State) (tenant va tbl : Nat) : Reads s (groupEntry s tenant va tbl).2 := by
  unfold groupEntry
  simp only
  have h : ∀ t k, Reads s t → Reads s (readEntry t tenant va k).2 := fun t k e => e.trans (reads_readEntry t tenant va k)
  split
  · exact h s _ (.refl s)
  · have h1 := (h s (tbl + 16 * (va / 4096 % 512)) (.refl s)).trans (reads_choose 16 _)
    split
    · exact h _ _ h1
    · exact h _ _ h1

theorem reads_walkFrom (tenant va : Nat) : ∀ (l tbl : Nat) (s : State), Reads s (walkFrom tenant va l tbl s).2
  | 0, tbl, s => reads_groupEntry ..
  | l + 1, tbl, s => by
    unfold walkFrom
    simp only
    split
    · exact reads_readEntry ..
    · split
      · exact reads_readEntry ..
      · split
        · exact (reads_readEntry ..).trans (reads_walkFrom tenant va l _ _)
        · exact reads_readEntry ..

theorem reads_xlateWith (perm : Bool) (s : State) (tenant root va : Nat) (acc : Acc) :
    Reads s (xlateWith perm s tenant root va acc).2 := by
  unfold xlateWith
  split
  · exact .refl s
  · have h := reads_walkFrom tenant (va % 2 ^ 57) 4 root s
    simp only
    split <;> rename_i e <;> rw [e] at h
    · exact h
    · repeat' split
      all_goals exact h

theorem reads_xlate (s : State) (tenant root va : Nat) (acc : Acc) : Reads s (xlate s tenant root va acc).2 :=
  reads_xlateWith false s tenant root va acc

theorem reads_readByte (r : Reader) (s : State) (l : Loc) : Reads s (readByte r s l).2 := by
  unfold readByte
  cases l with
  | gm pa =>
    simp only
    split
    · exact reads_choose ..
    · exact .refl s
  | _ => exact .refl s

/-- A reader that is no lane, marks no write as read and fills no L1 copy. -/
def Reader.plain (r : Reader) : Prop := r.lane = none ∧ r.note = none ∧ r.useL1 = false

theorem fill_wbSource (s : State) (fl : Nat) (l : Loc) (base : Option ByteSrc) (hb : ∀ x, base = some x → x.fill = none) :
    ∀ (ws : List Wb) (x : ByteSrc), wbSource s fl l base ws = some x → x.fill = none
  | [], x, h => hb x h
  | w :: r, x, h => by
    have ih := fill_wbSource s fl l base hb r
    simp only [wbSource] at h
    split at h
    · exact ih x h
    · split at h
      · cases h; rfl
      · split at h
        · cases h; rfl
        · split at h
          · exact ih x h
          · cases hq : wbSource s fl l base r with
            | none => simp [hq] at h
            | some y =>
              simp only [hq, Option.map_some, Option.some.injEq] at h
              subst h
              exact ih y hq

theorem noteReader_plain {r : Reader} (hr : r.plain) (l : Loc) (x : ByteSrc) (m : MemSys) : noteReader r l x m = m := by
  unfold noteReader
  simp only [hr.1, hr.2.1]

theorem reads_noteByte {r : Reader} (hr : r.plain) (s : State) (l : Loc) (x : ByteSrc)
    (hx : ∀ pa, l = .gm pa → x.fill = none) : Reads s (noteByte r s l x) := by
  unfold noteByte
  simp only [noteReader_plain hr]
  cases l with
  | gm pa =>
    simp only [hx pa rfl]
    have h : ∀ c : Bool, Reads s (if c then touchMem s pa else s) := fun c => by
      cases c
      · exact .refl s
      · exact reads_touch s pa
    split
    · exact (h _).trans (reads_fillL2 ..)
    · exact h _
  | remote dev pa =>
    simp only
    split
    · exact reads_fillX ..
    · exact .refl s
  | _ => exact .refl s

theorem fill_readByte {r : Reader} (hr : r.plain) (s : State) (pa : Nat) (x : ByteSrc)
    (h : (readByte r s (.gm pa)).1 = some x) : x.fill = none := by
  unfold readByte at h
  simp only at h
  split at h
  · simp only [Option.some.injEq] at h; subst h; rfl
  · simp only at h
    simp only [wbRead, Option.map_eq_some_iff] at h
    obtain ⟨y, h, rfl⟩ := h
    refine fill_wbSource s _ _ _ ?_ _ y h
    intro y hy
    simp [gmBase, hr.2.2] at hy
    rw [← hy.2]

theorem reads_readRun {r : Reader} (hr : r.plain) : ∀ (n : Nat) (s : State) (l : Loc) (bs : List Byte) (p : Bool) (t : State),
    readRun r s l n = some (bs, p, t) → Reads s t
  | 0, s, l, bs, p, t, h => by
    simp only [readRun, Option.some.injEq, Prod.mk.injEq] at h
    rw [← h.2.2]; exact .refl s
  | n + 1, s, l, bs, p, t, h => by
    simp only [readRun] at h
    have h1 := reads_readByte r s l
    have h2 : ∀ pa x, l = .gm pa → (readByte r s l).1 = some x → x.fill = none := by
      intro pa x e; subst e; exact fill_readByte hr s pa x
    split at h
    · cases h
    · rename_i x t1 e
      rw [e] at h1 h2
      have h3 : Reads s (noteByte r t1 l x) := h1.trans (reads_noteByte hr t1 l x fun pa el => h2 pa x el rfl)
      split at h
      · cases h
      · rename_i bs' p' t' e'
        simp only [Option.some.injEq, Prod.mk.injEq] at h
        rw [← h.2.2]
        exact h3.trans (reads_readRun hr n _ _ _ _ _ e')

theorem reads_readAll (core : Nat) (s : State) (l : Loc) (n : Nat) : Reads s (readAll core s l n).2.2 := by
  unfold readAll
  split
  · rename_i x e
    obtain ⟨bs, p, t⟩ := x
    exact reads_readRun (r := coreReader core) ⟨rfl, rfl, rfl⟩ n s l bs p t e
  · exact .refl s

theorem reads_histRemote (s : State) (core dev pa n t0 : Nat) : Reads s (histRemote s core dev pa n t0).2 :=
  (reads_pickTime s (4 + dev) pa n t0).trans (reads_readAll core _ (.remote dev pa) n)

theorem reads_fetchLine (s : State) (l : Launch) (core t0 line : Nat) : Reads s (fetchLine s l core t0 line).2 := by
  unfold fetchLine
  simp only
  split
  · exact .refl s
  · have h := reads_xlate s l.lr.tenant l.lr.root (pcVa line) .fetch
    split <;> rename_i e <;> rw [e] at h
    · exact h
    · split
      · exact h.trans (reads_histRead ..)
      · exact h.trans (reads_histRemote ..)
      · exact h

theorem reads_targetOk (s : State) (l : Launch) (core t0 pc : Nat) : Reads s (targetOk s l core t0 pc).2 := by
  unfold targetOk
  split
  · exact .refl s
  · have h := reads_fetchLine s l core t0 (pc - pc % 64)
    split <;> rename_i e <;> rw [e] at h <;> exact h

theorem reads_flag (s : State) (u b : Nat) : Reads s (setLaunchFlag s u b) := .of rfl

theorem reads_windowValue {s : State} (l : Launch) {r : List (Byte × Bool) × State} (h : Reads s r.2) (core : Nat) (k : Loc) :
    Reads s (windowValue l r core k).2 := by
  have h1 := h.trans (reads_fillCc r.2 core k)
  unfold windowValue
  simp only
  split
  · exact h1.trans (reads_flag ..)
  · exact h1

theorem reads_windowWord (s : State) (l : Launch) (core w off : Nat) : Reads s (windowWord s l core w off).2 := by
  unfold windowWord
  split
  · split
    · exact .refl s
    · split
      · exact .refl s
      · exact reads_windowValue l (reads_histRead ..) ..
      · exact reads_windowValue l (reads_histRemote ..) ..
      · exact .refl s
  · exact .refl s

theorem reads_srcB (x : Ctx) (s : State) (wide : Bool) (imm : Word → DWord) (b : SrcB) : Reads s (srcB x s wide imm b).2 := by
  unfold srcB
  split
  · exact .refl s
  · exact .refl s
  · exact .refl s
  · simp only
    split
    · exact (reads_windowWord ..).trans (reads_windowWord ..)
    · exact reads_windowWord ..

theorem waves_srcBInt (x : Ctx) (s : State) (t : IntTy) (b : SrcB) : (srcBInt x s t b).2.waves = s.waves :=
  (reads_srcB ..).waves
theorem waves_srcBFlt (x : Ctx) (s : State) (t : FltTy) (b : SrcB) : (srcBFlt x s t b).2.waves = s.waves :=
  (reads_srcB ..).waves

/-! ### Completion in the terms of the statements -/

/-- A register-computing meaning completes with the values `v`. -/
theorem computes_alu {i : Instr} {g : Guard} {u wide : Bool} {d : Reg} {s sb : State} {x : Ctx} {v : Nat → DWord}
    {k : Ctx → State → (Nat → DWord) × State} (h : Issuing s x) (hi : exec i s = execAlu g u wide d s k)
    (hs : (k (x.guarded g) s).2 = sb) (hv : (k (x.guarded g) s).1 = v) (hw : sb.waves = s.waves) :
    Computes i g u wide d s x sb v := by
  unfold Computes
  rw [hi, execAlu_eq h (by rw [hs]; exact hw), hs, hv]

theorem computesLater_long {i : Instr} {g : Guard} {la : BitVec 4} {u wide : Bool} {d : Reg} {s sb : State} {x : Ctx}
    {v : Nat → DWord} {k : Ctx → State → (Nat → DWord) × State} (h : Issuing s x)
    (hi : exec i s = execLong g la u wide d s k) (hs : (k (x.guarded g) s).2 = sb) (hv : (k (x.guarded g) s).1 = v)
    (hw : Reads s sb) : ComputesLater i g la u wide d s x sb v := by
  unfold ComputesLater
  rw [hi, execLong_eq h (by rw [hs]; exact hw.waves) (by rw [hs]; exact hw.nid), hs, hv]

/-- A per-lane meaning that touches registers alone. -/
theorem lane_done {closes : Bool} {g : Guard} {s t sb : State} {x : Ctx} {k : Ctx → State → Res} {f : Wave → Wave}
    (h : Issuing s x) (hk : k (x.guarded g) s = .done t) (hf : RegsOnly f) (ht : t = updWave sb x.c.wave f)
    (hs : sb.waves = s.waves) : runLane closes g s k = .next (issuedAt sb x (nextPc x.p.pc) f) := by
  rw [runLane_eq h, hk, finishFrom_done]
  have e := finish_done (t := t) h hf (by rw [ht]; show updFirst _ _ sb.waves = _; rw [hs]; rfl)
  rw [e, ht, ← hs]
  rfl

theorem uni_done {closes : Bool} {g : Guard} {s t sb : State} {x : Ctx} {k : Ctx → State → Res} {f : Wave → Wave}
    (h : Issuing s x) (hg : x.agrees g) (hk : k x s = .done t) (hf : RegsOnly f) (ht : t = updWave sb x.c.wave f)
    (hs : sb.waves = s.waves) : runUni closes g s k = .next (issuedAt sb x (nextPc x.p.pc) f) := by
  rw [runUni_eq h hg, hk, finishFrom_done]
  have e := finish_done (t := t) h hf (by rw [ht]; show updFirst _ _ sb.waves = _; rw [hs]; rfl)
  rw [e, ht, ← hs]
  rfl

theorem uni_jump {closes : Bool} {g : Guard} {s t sb : State} {x : Ctx} {k : Ctx → State → Res} {f : Wave → Wave} {pc : VAddr}
    (h : Issuing s x) (hg : x.agrees g) (hk : k x s = .jump t pc) (hf : RegsOnly f) (ht : t = updWave sb x.c.wave f)
    (hs : sb.waves = s.waves) : runUni closes g s k = .next (issuedAt sb x pc f) := by
  rw [runUni_eq h hg, hk, finishFrom_jump]
  have e := finish_jump (t := t) (pc := pc) h hf (by rw [ht]; show updFirst _ _ sb.waves = _; rw [hs]; rfl)
  rw [e, ht, ← hs]
  rfl

theorem updWave_id (s : State) (u : Nat) : updWave s u (fun w => w) = s := by
  have : ∀ (l : List Wave) (p : Wave → Bool), updFirst p (fun w => w) l = l := by
    intro l p
    induction l with
    | nil => rfl
    | cons y r ih => simp only [updFirst]; split <;> simp [ih]
  simp [updWave, this]

theorem ofNat_wrapI (w n : Nat) (z : Int) : BitVec.ofNat n (wrapI w z) = (BitVec.ofInt w z).setWidth n := by
  apply BitVec.eq_of_toNat_eq
  simp [wrapI, BitVec.toNat_ofInt]

theorem ofNat_wrapI_same (n : Nat) (z : Int) : BitVec.ofNat n (wrapI n z) = BitVec.ofInt n z := by
  rw [ofNat_wrapI n n]; simp

theorem regs_setGm (r : Nat) (m : Mask) (f : Nat → Word) : RegsOnly fun w => setGm w r m f :=
  ⟨fun _ => rfl, fun _ => rfl, fun _ => rfl, fun _ => rfl, fun _ _ => rfl⟩
theorem regs_fold {α : Type} (f : Wave → α → Wave) (hf : ∀ a, RegsOnly fun w => f w a) : ∀ l : List α, RegsOnly fun w => l.foldl f w
  | [] => RegsOnly.id
  | a :: l => (hf a).comp (regs_fold f hf l)

/-- A cross-lane instruction of a whole split, or with `.part`, runs at once (R144). -/
theorem runCross_eq {g : Guard} {part : Bool} {s : State} {x : Ctx} (k : Ctx → Cross → State → State) (h : Issuing s x) (hw : x.p.wait ≠ .xlaneGo)
    (hp : part = true ∨ (x.p.kind ≠ .handler ∧ liveOf x.w x.p = ~~~x.w.exited)) :
    ∃ ab, runCross g part s k = .next (finish s x (.done (k (x.guarded g) ⟨(x.guarded g).act, ab⟩ s))) ∧ ab = ~~~x.w.exited &&& ~~~x.p.members := by
  unfold runCross
  rw [runLane_eq h]
  have hw' : (x.p.wait == .xlaneGo) = false := by simpa using hw
  refine ⟨_, ?_, rfl⟩
  simp only [Ctx.guarded, hw', Bool.false_eq_true, if_false]
  rcases hp with rfl | ⟨hk, hl⟩
  · rfl
  · cases part
    · have hk' : (x.p.kind == .handler) = false := by simpa using hk
      simp only [hk', hl]
      have : (~~~x.w.exited &&& ~~~x.p.members) = 0 := by
        have hl' := hl
        unfold liveOf at hl'
        apply BitVec.eq_of_getLsbD_eq
        intro i hi
        have := congrArg (·.getLsbD i) hl'
        simp [hi] at this ⊢
        intro a
        simpa [a] using this
      rw [this]
      rfl
    · rfl

/-! ### Completion and waits, whatever the meaning did to the state but for its waves -/

theorem issuing_parts {s : State} {x : Ctx} (h : Issuing s x) :
    findWave s x.c.wave = some x.w ∧ x.w.quiet ∧ findSplit x.w x.c.sid = some x.p ∧ liveOf x.w x.p ≠ 0 := by
  obtain ⟨_, a, b, _⟩ := ctxOf_parts h.ctx
  exact ⟨a, h.quiet, b, h.live⟩

theorem uni_any {closes : Bool} {g : Guard} {s t : State} {x : Ctx} {k : Ctx → State → Res} (h : Issuing s x)
    (hg : x.agrees g) (hk : k x s = .done t) (hw : t.waves = s.waves) :
    runUni closes g s k = .next (issuedAt t x (nextPc x.p.pc) fun w => w) := by
  rw [runUni_eq h hg, hk, finishFrom_done]
  obtain ⟨a, b, c, d⟩ := issuing_parts h
  have a' : findWave t x.c.wave = some x.w := by unfold findWave; rw [hw]; exact a
  exact congrArg _ (finish_quiet s.nid (nextPc x.p.pc) a' b c d)

theorem lane_any {closes : Bool} {g : Guard} {s t : State} {x : Ctx} {k : Ctx → State → Res} (h : Issuing s x)
    (hk : k (x.guarded g) s = .done t) (hw : t.waves = s.waves) :
    runLane closes g s k = .next (issuedAt t x (nextPc x.p.pc) fun w => w) := by
  rw [runLane_eq h, hk, finishFrom_done]
  obtain ⟨a, b, c, d⟩ := issuing_parts h
  have a' : findWave t x.c.wave = some x.w := by unfold findWave; rw [hw]; exact a
  exact congrArg _ (finish_quiet s.nid (nextPc x.p.pc) a' b c d)

theorem uni_wait {closes : Bool} {g : Guard} {s t : State} {x : Ctx} {k : Ctx → State → Res} {w : Wait} (h : Issuing s x)
    (hg : x.agrees g) (hk : k x s = .wait t w) (hb : w.begun = true ∨ t.waves = s.waves) : runUni closes g s k = .next (waitsAt t x w) := by
  rw [runUni_eq h hg, hk, finishFrom_self (by rintro _ _ ⟨⟩; exact hb)]; rfl

/-- A wave-uniform instruction whose guard is 0 throughout (R62). -/
theorem uni_skip {closes : Bool} {g : Guard} {s : State} {x : Ctx} {k : Ctx → State → Res} (h : Issuing s x)
    (hg : guardAgree x g = some false) : runUni closes g s k = .next (issuedAt s x (nextPc x.p.pc) fun w => w) := by
  have e := finish_done (t := s) h RegsOnly.id (by rw [updWave_id])
  simp only [runUni, h.ctx, closeFor_quiet h, hg]
  exact congrArg _ e

end Sys2Proof.Machine
end

