-- ==== Sys2Proof/Laws/Access.lean ====
section
/-! SUPPORT. The checks of an access read and change nothing but what `Reads` allows; the issue of its reads and writes leaves the
waves alone, but for the window that it opens. -/

namespace Sys2Proof.Machine

theorem reads_checkLane (x : Ctx) (s : State) (sp : Space) (acc : Acc) (al n a l : Nat) : Reads s (checkLane x s sp acc al n a l).2 := by
  unfold checkLane
  split
  · exact .refl s
  · split
    · have h := reads_xlate s x.l.lr.tenant x.l.lr.root a acc
      split <;> rename_i e <;> rw [e] at h <;> exact h
    · split
      · exact .refl s
      · split <;> exact .refl s

theorem reads_checkLanes (x : Ctx) (sp : Space) (acc : Acc) (al n : Nat) (addr : Nat → Nat) : ∀ (ls : List Nat) (s : State), Reads s (checkLanes x sp acc al n addr ls s).2.2
  | [], s => .refl s
  | l :: r, s => by
    have h := reads_checkLane x s sp acc al n (addr l) l
    unfold checkLanes
    split <;> rename_i e <;> rw [e] at h <;> exact h.trans (reads_checkLanes x sp acc al n addr r _)

theorem waves_issueReads (w : Wave) (a b : Nat) (k : ActKind) : ∀ (l : List (Nat × List (Loc × Nat) × Post)) (s : State), (issueReads s w a b k l).waves = s.waves
  | [], s => rfl
  | (l, us, p) :: r, s => by rw [issueReads, waves_issueReads w a b k r]; rfl

theorem waves_put (s : State) (lane : LaneKey) (core isq : Nat) (c : Bool) (src : Option Nat) (rel : Option Scope) : ∀ (l : List (Loc × Nat)) (s : State) (bs k : List Byte), (putRun s lane core isq c src rel l bs k).waves = s.waves
  | [], s, _, _ => rfl
  | (l, n) :: r, t, bs, k => by
    rw [putRun, waves_put s lane core isq c src rel r]
    split <;> rfl

theorem waves_issueWrites (w : Wave) (isq : Nat) (rel : Option Scope) (b : Bool) : ∀ (l : List LaneW) (s : State), (issueWrites s w isq rel b l).waves = s.waves
  | [], s => rfl
  | x :: r, s => by rw [issueWrites, waves_issueWrites w isq rel b r, waves_put s]

theorem issueReads_waves (w : Wave) (a b : Nat) (k : ActKind) (v : List Wave) : ∀ (l : List (Nat × List (Loc × Nat) × Post)) (s : State),
    ({ issueReads s w a b k l with waves := v } : State) = issueReads { s with waves := v } w a b k l
  | [], s => rfl
  | (l, us, p) :: r, s => by
    simp only [issueReads]
    rw [issueReads_waves w a b k v r]
    rfl

/-- The window that an instruction opens for the lanes `need`, before its own issue is counted. -/
def opened (n : Nat) (la : BitVec 4) (d : Dest) (need : Mask) (sneed : Bool) : Win :=
  ⟨n, la.toNat, false, need, sneed, d.gd, d.sd, d.qd, d.pd.map BitVec.toNat, [], [], 0⟩

theorem waves_openWin (s : State) (c : Cur) (la : BitVec 4) {d : Dest} (hd : d.any) (need : Mask) (sneed : Bool) :
    (openWin s c la d need sneed).2 = updSplit { s with nid := s.nid + 1 } c fun p => { p with
      wins := p.wins ++ [opened s.nid la d need sneed] } := by
  simp only [openWin, if_pos hd]
  rfl

/-- An instruction that opens a window for results still to come. -/
theorem lane_win {g : Guard} {s t sb : State} {x : Ctx} {k : Ctx → State → Res} {c : Bool} {n : Nat} {la : BitVec 4} {d : Dest} {need : Mask} {sneed : Bool}
    (h : Issuing s x) (hk : k (x.guarded g) s = .done t) (hs : sb.waves = s.waves) (hn : s.nid ≤ n)
    (ht : t.waves = (updSplit sb x.c fun p => { p with wins := p.wins ++ [opened n la d need sneed] }).waves) :
    runLane c g s k = .next (issuedWith { t with waves := s.waves } x (nextPc x.p.pc) (issuedWin n la d need sneed) fun w => w) := by
  rw [runLane_eq h, hk, finishFrom_done]
  congr 1
  have ht' : t.waves = (updSplit s x.c fun p => { p with wins := p.wins ++ [opened n la d need sneed] }).waves := by
    rw [ht]; show updFirst _ _ sb.waves = _; rw [hs]; rfl
  have hla : la.toNat = 0 ↔ la = 0 := by simp [BitVec.toNat_eq]
  cases hf : winFull (opened n la d need sneed)
  · have hz : ¬(la = 0 ∧ need = 0 ∧ sneed = false) := by
      rintro ⟨-, rfl, rfl⟩
      simp [winFull, opened] at hf
    have hy : tickWins s.nid [opened n la d need sneed] = [{ opened n la d need sneed with closed := la == 0 }] := by
      by_cases e : la = 0
      · subst e; simp [tickWins, closeWins, opened, hn]
      · have e1 : (la == 0) = false := by simpa using e
        have e2 : la.toNat ≠ 0 := fun e' => e (hla.mp e')
        simp only [e1]
        simp [tickWins, closeWins, opened, hn, e2]
    have hnum : numWin { opened n la d need sneed with closed := la == 0 } =
        { opened n la d need sneed with closed := la == 0, ord := if la = 0 ∧ d.sd.isSome then 1 else 0 } := by
      by_cases e : la = 0
      · subst e; cases hd : d.sd <;> simp [numWin, sClosed, opened, hd]
      · have e1 : (la == 0) = false := by simpa using e
        have e2 : ¬la = 0#4 := e
        simp only [e1]
        simp [numWin, sClosed, opened, e2]
    have hful : winFull (numWin { opened n la d need sneed with closed := la == 0 }) = false := by rw [hnum]; exact hf
    have ho : ∀ y ∈ tickWins s.nid [opened n la d need sneed], y.ord = 0 := fun y hy' => by
      rw [hy, List.mem_singleton] at hy'
      rw [hy']; rfl
    have e := finish_at h RegsOnly.id (waves_open h ht') ho (by rw [hy, List.map_singleton]; simp only [readyWin]; rw [hful]; simp) (nextPc x.p.pc)
    rw [hy, List.map_singleton, hnum] at e
    rw [issuedWin, if_neg hz]
    exact e
  · have e := finish_win h ht' hn rfl hf rfl (nextPc x.p.pc)
    have hful : need = 0 ∧ sneed = false := by simpa [winFull, opened] using hf
    by_cases hl : la = 0
    · rw [if_pos (show (opened n la d need sneed).rem = 0 from hla.mpr hl)] at e
      rw [issuedWin, if_pos ⟨hl, hful⟩, ← show (fun w => applyWin w (opened n la d need sneed)) = (fun w => w) from ?_]
      · exact e
      · funext w
        cases hd : d.sd <;> simp [applyWin, opened, hd, setSs]
    · rw [if_neg (show ¬(opened n la d need sneed).rem = 0 from fun a => hl (hla.mp a))] at e
      have hl' : (la == 0) = false := by simpa using hl
      rw [issuedWin, if_neg (fun a => hl a.1), hl', if_neg (fun a => hl a.1)]
      exact e

end Sys2Proof.Machine
end

