-- ==== Sys2Proof/Laws/PerInstr.lean ====
section
/-! SUPPORT. Facts about every instruction as syntax, one lemma for each constructor. `Level`: a term is a front instruction with a front
encoding, a stack-core instruction with a cave encoding, or a move of the device and its host with none, and never two of these. -/

namespace Sys2Proof.Laws

/-- At which level a term acts (03 R55, R76). -/
def Level.Statement (i : Instr) : Prop :=
  ((encodeFront i).isSome = true ∧ encodeCave i = none ∧ Machine.isMove i = false) ∨
  (encodeFront i = none ∧ (encodeCave i).isSome = true ∧ Machine.isMove i = false) ∨
  (encodeFront i = none ∧ encodeCave i = none ∧ Machine.isMove i = true)

theorem Level.nop : Level.Statement .nop := .inl ⟨rfl, rfl, rfl⟩
theorem Level.bra (g : Guard) (t : BrImm) : Level.Statement (.bra g t) := .inl ⟨rfl, rfl, rfl⟩
theorem Level.bdiv (g : Guard) (k : PReg) (els : Option ElseRef) (j : BrImm) : Level.Statement (.bdiv g k els j) := .inl ⟨rfl, rfl, rfl⟩
theorem Level.rjoin (g : Guard) : Level.Statement (.rjoin g) := .inl ⟨rfl, rfl, rfl⟩
theorem Level.call (g : Guard) (t : BrImm) : Level.Statement (.call g t) := .inl ⟨rfl, rfl, rfl⟩
theorem Level.ret (g : Guard) : Level.Statement (.ret g) := .inl ⟨rfl, rfl, rfl⟩
theorem Level.jmpi (g : Guard) (a : Reg) : Level.Statement (.jmpi g a) := .inl ⟨rfl, rfl, rfl⟩
theorem Level.exit (g : Guard) : Level.Statement (.exit g) := .inl ⟨rfl, rfl, rfl⟩
theorem Level.yield (g : Guard) : Level.Statement (.yield g) := .inl ⟨rfl, rfl, rfl⟩
theorem Level.iadd (g : Guard) (sat : Bool) (o : IntBin) : Level.Statement (.iadd g sat o) := .inl ⟨rfl, rfl, rfl⟩
theorem Level.isub (g : Guard) (sat : Bool) (o : IntBin) : Level.Statement (.isub g sat o) := .inl ⟨rfl, rfl, rfl⟩
theorem Level.imul (g : Guard) (sat : Bool) (o : IntBin) : Level.Statement (.imul g sat o) := .inl ⟨rfl, rfl, rfl⟩
theorem Level.imulh (g : Guard) (o : IntBin) : Level.Statement (.imulh g o) := .inl ⟨rfl, rfl, rfl⟩
theorem Level.imad (g : Guard) (sat : Bool) (o : IntBin) (c : SrcC) : Level.Statement (.imad g sat o c) := .inl ⟨rfl, rfl, rfl⟩
theorem Level.idiv (g : Guard) (la : BitVec 4) (o : IntBin) : Level.Statement (.idiv g la o) := .inl ⟨rfl, rfl, rfl⟩
theorem Level.irem (g : Guard) (la : BitVec 4) (o : IntBin) : Level.Statement (.irem g la o) := .inl ⟨rfl, rfl, rfl⟩
theorem Level.imin (g : Guard) (o : IntBin) : Level.Statement (.imin g o) := .inl ⟨rfl, rfl, rfl⟩
theorem Level.imax (g : Guard) (o : IntBin) : Level.Statement (.imax g o) := .inl ⟨rfl, rfl, rfl⟩
theorem Level.iabs (g : Guard) (sat : Bool) (o : IntUn) : Level.Statement (.iabs g sat o) := .inl ⟨rfl, rfl, rfl⟩
theorem Level.ineg (g : Guard) (sat : Bool) (o : IntUn) : Level.Statement (.ineg g sat o) := .inl ⟨rfl, rfl, rfl⟩
theorem Level.and (g : Guard) (o : IntBin) : Level.Statement (.and g o) := .inl ⟨rfl, rfl, rfl⟩
theorem Level.or (g : Guard) (o : IntBin) : Level.Statement (.or g o) := .inl ⟨rfl, rfl, rfl⟩
theorem Level.xor (g : Guard) (o : IntBin) : Level.Statement (.xor g o) := .inl ⟨rfl, rfl, rfl⟩
theorem Level.not (g : Guard) (o : IntUn) : Level.Statement (.not g o) := .inl ⟨rfl, rfl, rfl⟩
theorem Level.shl (g : Guard) (o : IntBin) : Level.Statement (.shl g o) := .inl ⟨rfl, rfl, rfl⟩
theorem Level.shr (g : Guard) (o : IntBin) : Level.Statement (.shr g o) := .inl ⟨rfl, rfl, rfl⟩
theorem Level.sra (g : Guard) (o : IntBin) : Level.Statement (.sra g o) := .inl ⟨rfl, rfl, rfl⟩
theorem Level.rot (g : Guard) (o : IntBin) : Level.Statement (.rot g o) := .inl ⟨rfl, rfl, rfl⟩
theorem Level.bfe (g : Guard) (o : IntBin) : Level.Statement (.bfe g o) := .inl ⟨rfl, rfl, rfl⟩
theorem Level.bfi (g : Guard) (o : IntBin) (c : SrcC) : Level.Statement (.bfi g o c) := .inl ⟨rfl, rfl, rfl⟩
theorem Level.popc (g : Guard) (o : IntUn) : Level.Statement (.popc g o) := .inl ⟨rfl, rfl, rfl⟩
theorem Level.clz (g : Guard) (o : IntUn) : Level.Statement (.clz g o) := .inl ⟨rfl, rfl, rfl⟩
theorem Level.ctz (g : Guard) (o : IntUn) : Level.Statement (.ctz g o) := .inl ⟨rfl, rfl, rfl⟩
theorem Level.brev (g : Guard) (o : IntUn) : Level.Statement (.brev g o) := .inl ⟨rfl, rfl, rfl⟩
theorem Level.lea (g : Guard) (o : LeaOp) : Level.Statement (.lea g o) := .inl ⟨rfl, rfl, rfl⟩
theorem Level.iaddc (g : Guard) (d a : Reg) (b : SrcB) (c : PReg) : Level.Statement (.iaddc g d a b c) := .inl ⟨rfl, rfl, rfl⟩
theorem Level.sel (g : Guard) (o : IntBin) (c : PReg) : Level.Statement (.sel g o c) := .inl ⟨rfl, rfl, rfl⟩
theorem Level.mov (g : Guard) (ty : IntTy) (u : Bool) (d : Reg) (b : SrcB) : Level.Statement (.mov g ty u d b) := .inl ⟨rfl, rfl, rfl⟩
theorem Level.movi (g : Guard) (ty : IntTy) (u : Bool) (d : Reg) (v : Word) : Level.Statement (.movi g ty u d v) := .inl ⟨rfl, rfl, rfl⟩
theorem Level.fadd (g : Guard) (r : Rm) (o : FltBin) : Level.Statement (.fadd g r o) := .inl ⟨rfl, rfl, rfl⟩
theorem Level.fsub (g : Guard) (r : Rm) (o : FltBin) : Level.Statement (.fsub g r o) := .inl ⟨rfl, rfl, rfl⟩
theorem Level.fmul (g : Guard) (r : Rm) (o : FltBin) : Level.Statement (.fmul g r o) := .inl ⟨rfl, rfl, rfl⟩
theorem Level.ffma (g : Guard) (r : Rm) (o : FltBin) (c : SrcC) : Level.Statement (.ffma g r o c) := .inl ⟨rfl, rfl, rfl⟩
theorem Level.fdiv (g : Guard) (la : BitVec 4) (r : Rm) (o : FltBin) : Level.Statement (.fdiv g la r o) := .inl ⟨rfl, rfl, rfl⟩
theorem Level.fmin (g : Guard) (o : FltBin) : Level.Statement (.fmin g o) := .inl ⟨rfl, rfl, rfl⟩
theorem Level.fmax (g : Guard) (o : FltBin) : Level.Statement (.fmax g o) := .inl ⟨rfl, rfl, rfl⟩
theorem Level.fabs (g : Guard) (o : FltUn) : Level.Statement (.fabs g o) := .inl ⟨rfl, rfl, rfl⟩
theorem Level.fneg (g : Guard) (o : FltUn) : Level.Statement (.fneg g o) := .inl ⟨rfl, rfl, rfl⟩
theorem Level.frcp (g : Guard) (la : BitVec 4) (r : Rm) (o : FltUn) : Level.Statement (.frcp g la r o) := .inl ⟨rfl, rfl, rfl⟩
theorem Level.frsq (g : Guard) (la : BitVec 4) (r : Rm) (o : FltUn) : Level.Statement (.frsq g la r o) := .inl ⟨rfl, rfl, rfl⟩
theorem Level.fsqrt (g : Guard) (la : BitVec 4) (r : Rm) (o : FltUn) : Level.Statement (.fsqrt g la r o) := .inl ⟨rfl, rfl, rfl⟩
theorem Level.fex2 (g : Guard) (la : BitVec 4) (r : Rm) (o : FltUn) : Level.Statement (.fex2 g la r o) := .inl ⟨rfl, rfl, rfl⟩
theorem Level.flg2 (g : Guard) (la : BitVec 4) (r : Rm) (o : FltUn) : Level.Statement (.flg2 g la r o) := .inl ⟨rfl, rfl, rfl⟩
theorem Level.fsin (g : Guard) (la : BitVec 4) (r : Rm) (o : FltUn) : Level.Statement (.fsin g la r o) := .inl ⟨rfl, rfl, rfl⟩
theorem Level.fcos (g : Guard) (la : BitVec 4) (r : Rm) (o : FltUn) : Level.Statement (.fcos g la r o) := .inl ⟨rfl, rfl, rfl⟩
theorem Level.cvt (g : Guard) (o : CvtOp) : Level.Statement (.cvt g o) := .inl ⟨rfl, rfl, rfl⟩
theorem Level.pk4x (g : Guard) (o : PackOp) : Level.Statement (.pk4x g o) := .inl ⟨rfl, rfl, rfl⟩
theorem Level.upk4x (g : Guard) (o : PackOp) : Level.Statement (.upk4x g o) := .inl ⟨rfl, rfl, rfl⟩
theorem Level.pk6 (g : Guard) (o : PackOp) : Level.Statement (.pk6 g o) := .inl ⟨rfl, rfl, rfl⟩
theorem Level.upk6 (g : Guard) (o : PackOp) : Level.Statement (.upk6 g o) := .inl ⟨rfl, rfl, rfl⟩
theorem Level.fclass (g : Guard) (ty : FTy5) (u : Bool) (d a : Reg) : Level.Statement (.fclass g ty u d a) := .inl ⟨rfl, rfl, rfl⟩
theorem Level.icmp (g : Guard) (o : IcmpOp) : Level.Statement (.icmp g o) := .inl ⟨rfl, rfl, rfl⟩
theorem Level.fcmp (g : Guard) (o : FcmpOp) : Level.Statement (.fcmp g o) := .inl ⟨rfl, rfl, rfl⟩
theorem Level.plog (g : Guard) (d a b c : PReg) (lut : Byte) : Level.Statement (.plog g d a b c lut) := .inl ⟨rfl, rfl, rfl⟩
theorem Level.pmov (g : Guard) (o : PmovOp) : Level.Statement (.pmov g o) := by cases o <;> exact .inl ⟨rfl, rfl, rfl⟩
theorem Level.ballot (g : Guard) (part u : Bool) (d : Reg) (a : PReg) : Level.Statement (.ballot g part u d a) := .inl ⟨rfl, rfl, rfl⟩
theorem Level.vote (g : Guard) (part : Bool) (k : VoteKind) (d a : PReg) : Level.Statement (.vote g part k d a) := .inl ⟨rfl, rfl, rfl⟩
theorem Level.shfl (g : Guard) (part : Bool) (o : ShflOp) : Level.Statement (.shfl g part o) := .inl ⟨rfl, rfl, rfl⟩
theorem Level.lred (g : Guard) (part u : Bool) (o : RedOp) : Level.Statement (.lred g part u o) := .inl ⟨rfl, rfl, rfl⟩
theorem Level.lscan (g : Guard) (part excl : Bool) (o : RedOp) : Level.Statement (.lscan g part excl o) := .inl ⟨rfl, rfl, rfl⟩
theorem Level.emrd (g : Guard) (u : Bool) (d : Reg) : Level.Statement (.emrd g u d) := .inl ⟨rfl, rfl, rfl⟩
theorem Level.emwr (b : SrcU) : Level.Statement (.emwr b) := .inl ⟨rfl, rfl, rfl⟩
theorem Level.ld (g : Guard) (la : BitVec 4) (o : LdOp) : Level.Statement (.ld g la o) := .inl ⟨rfl, rfl, rfl⟩
theorem Level.st (g : Guard) (o : StOp) : Level.Statement (.st g o) := .inl ⟨rfl, rfl, rfl⟩
theorem Level.ldq (g : Guard) (la : BitVec 4) (o : LdqOp) : Level.Statement (.ldq g la o) := .inl ⟨rfl, rfl, rfl⟩
theorem Level.stq (g : Guard) (o : StqOp) : Level.Statement (.stq g o) := .inl ⟨rfl, rfl, rfl⟩
theorem Level.ldf (g : Guard) (la : BitVec 4) (o : LdfOp) : Level.Statement (.ldf g la o) := .inl ⟨rfl, rfl, rfl⟩
theorem Level.stf (g : Guard) (o : StfOp) : Level.Statement (.stf g o) := .inl ⟨rfl, rfl, rfl⟩
theorem Level.atom (g : Guard) (la : BitVec 4) (o : AtomOp) : Level.Statement (.atom g la o) := .inl ⟨rfl, rfl, rfl⟩
theorem Level.cas (g : Guard) (la : BitVec 4) (o : CasOp) : Level.Statement (.cas g la o) := .inl ⟨rfl, rfl, rfl⟩
theorem Level.fence (g : Guard) (k : FenceKind) (sc : Scope) : Level.Statement (.fence g k sc) := .inl ⟨rfl, rfl, rfl⟩
theorem Level.cwb (g : Guard) (o : CacheOp) : Level.Statement (.cwb g o) := .inl ⟨rfl, rfl, rfl⟩
theorem Level.cinv (g : Guard) (d : Reg) (o : CacheOp) : Level.Statement (.cinv g d o) := .inl ⟨rfl, rfl, rfl⟩
theorem Level.cflush (g : Guard) (o : CacheOp) : Level.Statement (.cflush g o) := .inl ⟨rfl, rfl, rfl⟩
theorem Level.pref (g : Guard) (l1 : Bool) (a : Reg) (off : Word) : Level.Statement (.pref g l1 a off) := .inl ⟨rfl, rfl, rfl⟩
theorem Level.cpy (g : Guard) (o : CpyOp) : Level.Statement (.cpy g o) := .inl ⟨rfl, rfl, rfl⟩
theorem Level.cpyw (g : Guard) (o : CpywOp) : Level.Statement (.cpyw g o) := .inl ⟨rfl, rfl, rfl⟩
theorem Level.gath (g : Guard) (o : GathOp) : Level.Statement (.gath g o) := .inl ⟨rfl, rfl, rfl⟩
theorem Level.scat (g : Guard) (o : GathOp) : Level.Statement (.scat g o) := .inl ⟨rfl, rfl, rfl⟩
theorem Level.chini (g : Guard) (a : Reg) (b : SrcU) (c : Reg) : Level.Statement (.chini g a b c) := .inl ⟨rfl, rfl, rfl⟩
theorem Level.chwait (g : Guard) (d a : Reg) (b : SrcU) : Level.Statement (.chwait g d a b) := .inl ⟨rfl, rfl, rfl⟩
theorem Level.chrel (g : Guard) (a : Reg) (b : SrcU) : Level.Statement (.chrel g a b) := .inl ⟨rfl, rfl, rfl⟩
theorem Level.mma (g : Guard) (la : BitVec 4) (o : MmaOp) : Level.Statement (.mma g la o) := .inl ⟨rfl, rfl, rfl⟩
theorem Level.mlut (g : Guard) (la : BitVec 4) (o : MmaOp) : Level.Statement (.mlut g la o) := .inl ⟨rfl, rfl, rfl⟩
theorem Level.mzero (g : Guard) (la : BitVec 4) (t : Reg) (af : Af) : Level.Statement (.mzero g la t af) := .inl ⟨rfl, rfl, rfl⟩
theorem Level.mld (g : Guard) (la : BitVec 4) (o : MldOp) : Level.Statement (.mld g la o) := .inl ⟨rfl, rfl, rfl⟩
theorem Level.mst (g : Guard) (la : BitVec 4) (o : MstOp) : Level.Statement (.mst g la o) := .inl ⟨rfl, rfl, rfl⟩
theorem Level.mfence (g : Guard) (la : BitVec 4) (d : Reg) : Level.Statement (.mfence g la d) := .inl ⟨rfl, rfl, rfl⟩
theorem Level.mwait (g : Guard) (st : Option Reg) (a : Reg) : Level.Statement (.mwait g st a) := .inl ⟨rfl, rfl, rfl⟩
theorem Level.mrep (g : Guard) (drop : Bool) (a : Reg) : Level.Statement (.mrep g drop a) := .inl ⟨rfl, rfl, rfl⟩
theorem Level.mflg (g : Guard) (d : Reg) : Level.Statement (.mflg g d) := .inl ⟨rfl, rfl, rfl⟩
theorem Level.gnew (g : Guard) (la : BitVec 4) (d a : Reg) : Level.Statement (.gnew g la d a) := .inl ⟨rfl, rfl, rfl⟩
theorem Level.gfree (g : Guard) (la : BitVec 4) (a : Reg) : Level.Statement (.gfree g la a) := .inl ⟨rfl, rfl, rfl⟩
theorem Level.gadd (g : Guard) (la : BitVec 4) (o : GmutOp) : Level.Statement (.gadd g la o) := .inl ⟨rfl, rfl, rfl⟩
theorem Level.gdel (g : Guard) (la : BitVec 4) (o : GdelOp) : Level.Statement (.gdel g la o) := .inl ⟨rfl, rfl, rfl⟩
theorem Level.gdeg (g : Guard) (la : BitVec 4) (o : GdegOp) : Level.Statement (.gdeg g la o) := .inl ⟨rfl, rfl, rfl⟩
theorem Level.gld (g : Guard) (la : BitVec 4) (o : GldOp) : Level.Statement (.gld g la o) := .inl ⟨rfl, rfl, rfl⟩
theorem Level.gwt (g : Guard) (la : BitVec 4) (o : GmutOp) : Level.Statement (.gwt g la o) := .inl ⟨rfl, rfl, rfl⟩
theorem Level.gfind (g : Guard) (la : BitVec 4) (o : GfindOp) : Level.Statement (.gfind g la o) := .inl ⟨rfl, rfl, rfl⟩
theorem Level.gopen (g : Guard) (la : BitVec 4) (o : GopenOp) : Level.Statement (.gopen g la o) := .inl ⟨rfl, rfl, rfl⟩
theorem Level.gnext (g : Guard) (la : BitVec 4) (o : GcurOp) : Level.Statement (.gnext g la o) := .inl ⟨rfl, rfl, rfl⟩
theorem Level.gclose (g : Guard) (q : BitVec 4) : Level.Statement (.gclose g q) := .inl ⟨rfl, rfl, rfl⟩
theorem Level.gcst (g : Guard) (la : BitVec 4) (o : GcurOp) : Level.Statement (.gcst g la o) := .inl ⟨rfl, rfl, rfl⟩
theorem Level.gver (g : Guard) (la : BitVec 4) (o : GverOp) : Level.Statement (.gver g la o) := .inl ⟨rfl, rfl, rfl⟩
theorem Level.tspawn (g : Guard) (o : TspawnOp) : Level.Statement (.tspawn g o) := .inl ⟨rfl, rfl, rfl⟩
theorem Level.tdone (g : Guard) : Level.Statement (.tdone g) := .inl ⟨rfl, rfl, rfl⟩
theorem Level.qpush (g : Guard) (stage : BitVec 3) (a : Reg) : Level.Statement (.qpush g stage a) := .inl ⟨rfl, rfl, rfl⟩
theorem Level.qpop (g : Guard) (la : BitVec 4) (o : QpopOp) : Level.Statement (.qpop g la o) := .inl ⟨rfl, rfl, rfl⟩
theorem Level.qstat (g : Guard) (la : BitVec 4) (d : Reg) (stage : BitVec 3) : Level.Statement (.qstat g la d stage) := .inl ⟨rfl, rfl, rfl⟩
theorem Level.tbound (g : Guard) (b : SrcC) : Level.Statement (.tbound g b) := .inl ⟨rfl, rfl, rfl⟩
theorem Level.fchk (g : Guard) : Level.Statement (.fchk g) := .inl ⟨rfl, rfl, rfl⟩
theorem Level.incld (g : Guard) (la : BitVec 4) (acq : Bool) (d : Reg) : Level.Statement (.incld g la acq d) := .inl ⟨rfl, rfl, rfl⟩
theorem Level.incmin (g : Guard) (la : BitVec 4) (o : IncminOp) : Level.Statement (.incmin g la o) := .inl ⟨rfl, rfl, rfl⟩
theorem Level.bar (g : Guard) (lvl : BitVec 3) : Level.Statement (.bar g lvl) := .inl ⟨rfl, rfl, rfl⟩
theorem Level.bini (g : Guard) (a : Reg) (b : SrcU) : Level.Statement (.bini g a b) := .inl ⟨rfl, rfl, rfl⟩
theorem Level.binv (g : Guard) (a : Reg) : Level.Statement (.binv g a) := .inl ⟨rfl, rfl, rfl⟩
theorem Level.barar (g : Guard) (d a : Reg) (pr : PReg) : Level.Statement (.barar g d a pr) := .inl ⟨rfl, rfl, rfl⟩
theorem Level.barw (g : Guard) (a : Reg) (b : SrcU) (pr : PReg) : Level.Statement (.barw g a b pr) := .inl ⟨rfl, rfl, rfl⟩
theorem Level.sinc (g : Guard) (n : Byte) (b : SrcU) : Level.Statement (.sinc g n b) := .inl ⟨rfl, rfl, rfl⟩
theorem Level.swait (g : Guard) (dec : Bool) (n : Byte) (b : SrcU) : Level.Statement (.swait g dec n b) := .inl ⟨rfl, rfl, rfl⟩
theorem Level.sset (g : Guard) (n : Byte) (b : SrcU) : Level.Statement (.sset g n b) := .inl ⟨rfl, rfl, rfl⟩
theorem Level.tmset (g : Guard) (rel : Bool) (b : SrcU) : Level.Statement (.tmset g rel b) := .inl ⟨rfl, rfl, rfl⟩
theorem Level.sreg (g : Guard) (u : Bool) (d : Reg) (sel : SSel) : Level.Statement (.sreg g u d sel) := .inl ⟨rfl, rfl, rfl⟩
theorem Level.wsreg (g : Guard) (sel : WSel) (b : SrcU) : Level.Statement (.wsreg g sel b) := .inl ⟨rfl, rfl, rfl⟩
theorem Level.trap (g : Guard) (code : Word) : Level.Statement (.trap g code) := .inl ⟨rfl, rfl, rfl⟩
theorem Level.tretRetry (g : Guard) : Level.Statement (.tretRetry g) := .inl ⟨rfl, rfl, rfl⟩
theorem Level.tretSkip (g : Guard) : Level.Statement (.tretSkip g) := .inl ⟨rfl, rfl, rfl⟩
theorem Level.tretEnd (g : Guard) : Level.Statement (.tretEnd g) := .inl ⟨rfl, rfl, rfl⟩
theorem Level.brk (g : Guard) (code : Word) : Level.Statement (.brk g code) := .inl ⟨rfl, rfl, rfl⟩
theorem Level.perfrd (g : Guard) (d : Reg) (n : Byte) : Level.Statement (.perfrd g d n) := .inl ⟨rfl, rfl, rfl⟩
theorem Level.icinv (g : Guard) : Level.Statement (.icinv g) := .inl ⟨rfl, rfl, rfl⟩
theorem Level.cdisp (g : Guard) (la : BitVec 4) (d : Reg) (b : SrcC) (disp : Word) : Level.Statement (.cdisp g la d b disp) := .inl ⟨rfl, rfl, rfl⟩
theorem Level.cwait (g : Guard) (st : Option Reg) (a : Reg) : Level.Statement (.cwait g st a) := .inl ⟨rfl, rfl, rfl⟩
theorem Level.mig (g : Guard) (la : BitVec 4) (o : MigOp) : Level.Statement (.mig g la o) := .inl ⟨rfl, rfl, rfl⟩
theorem Level.cmsg (g : Guard) (la : BitVec 4) (o : CmsgOp) : Level.Statement (.cmsg g la o) := .inl ⟨rfl, rfl, rfl⟩
theorem Level.caveAdd (d a : XReg) (b : XSrc) : Level.Statement (.caveAdd d a b) := .inr (.inl ⟨rfl, rfl, rfl⟩)
theorem Level.caveSub (d a : XReg) (b : XSrc) : Level.Statement (.caveSub d a b) := .inr (.inl ⟨rfl, rfl, rfl⟩)
theorem Level.caveMul (d a : XReg) (b : XSrc) : Level.Statement (.caveMul d a b) := .inr (.inl ⟨rfl, rfl, rfl⟩)
theorem Level.caveAnd (d a : XReg) (b : XSrc) : Level.Statement (.caveAnd d a b) := .inr (.inl ⟨rfl, rfl, rfl⟩)
theorem Level.caveOr (d a : XReg) (b : XSrc) : Level.Statement (.caveOr d a b) := .inr (.inl ⟨rfl, rfl, rfl⟩)
theorem Level.caveXor (d a : XReg) (b : XSrc) : Level.Statement (.caveXor d a b) := .inr (.inl ⟨rfl, rfl, rfl⟩)
theorem Level.caveShl (d a : XReg) (b : XSrc) : Level.Statement (.caveShl d a b) := .inr (.inl ⟨rfl, rfl, rfl⟩)
theorem Level.caveShr (d a : XReg) (b : XSrc) : Level.Statement (.caveShr d a b) := .inr (.inl ⟨rfl, rfl, rfl⟩)
theorem Level.caveSra (d a : XReg) (b : XSrc) : Level.Statement (.caveSra d a b) := .inr (.inl ⟨rfl, rfl, rfl⟩)
theorem Level.caveLi (hi : Bool) (d : XReg) (v : Word) : Level.Statement (.caveLi hi d v) := .inr (.inl ⟨rfl, rfl, rfl⟩)
theorem Level.caveSlt (u : Bool) (d a : XReg) (b : XSrc) : Level.Statement (.caveSlt u d a b) := .inr (.inl ⟨rfl, rfl, rfl⟩)
theorem Level.caveLd (o : XLdOp) : Level.Statement (.caveLd o) := .inr (.inl ⟨rfl, rfl, rfl⟩)
theorem Level.caveSt (o : XStOp) : Level.Statement (.caveSt o) := .inr (.inl ⟨rfl, rfl, rfl⟩)
theorem Level.caveBeq (a b : XReg) (disp : Word) : Level.Statement (.caveBeq a b disp) := .inr (.inl ⟨rfl, rfl, rfl⟩)
theorem Level.caveBne (a b : XReg) (disp : Word) : Level.Statement (.caveBne a b disp) := .inr (.inl ⟨rfl, rfl, rfl⟩)
theorem Level.caveBlt (u : Bool) (a b : XReg) (disp : Word) : Level.Statement (.caveBlt u a b disp) := .inr (.inl ⟨rfl, rfl, rfl⟩)
theorem Level.caveBge (u : Bool) (a b : XReg) (disp : Word) : Level.Statement (.caveBge u a b disp) := .inr (.inl ⟨rfl, rfl, rfl⟩)
theorem Level.caveJmp (t : XTgt) : Level.Statement (.caveJmp t) := .inr (.inl ⟨rfl, rfl, rfl⟩)
theorem Level.caveJal (d : XReg) (t : XTgt) : Level.Statement (.caveJal d t) := .inr (.inl ⟨rfl, rfl, rfl⟩)
theorem Level.caveVld (o : VMemOp) : Level.Statement (.caveVld o) := .inr (.inl ⟨rfl, rfl, rfl⟩)
theorem Level.caveVst (o : VMemOp) : Level.Statement (.caveVst o) := .inr (.inl ⟨rfl, rfl, rfl⟩)
theorem Level.caveVadd (o : VBinOp) : Level.Statement (.caveVadd o) := .inr (.inl ⟨rfl, rfl, rfl⟩)
theorem Level.caveVsub (o : VBinOp) : Level.Statement (.caveVsub o) := .inr (.inl ⟨rfl, rfl, rfl⟩)
theorem Level.caveVmul (o : VBinOp) : Level.Statement (.caveVmul o) := .inr (.inl ⟨rfl, rfl, rfl⟩)
theorem Level.caveVfma (bank : Bool) (o : VBinOp) : Level.Statement (.caveVfma bank o) := .inr (.inl ⟨rfl, rfl, rfl⟩)
theorem Level.caveVmax (o : VBinOp) : Level.Statement (.caveVmax o) := .inr (.inl ⟨rfl, rfl, rfl⟩)
theorem Level.caveVmin (o : VBinOp) : Level.Statement (.caveVmin o) := .inr (.inl ⟨rfl, rfl, rfl⟩)
theorem Level.caveVred (o : VRedOp) : Level.Statement (.caveVred o) := .inr (.inl ⟨rfl, rfl, rfl⟩)
theorem Level.caveVcvt (o : VCvtOp) : Level.Statement (.caveVcvt o) := .inr (.inl ⟨rfl, rfl, rfl⟩)
theorem Level.caveVcmp (o : VCmpOp) : Level.Statement (.caveVcmp o) := .inr (.inl ⟨rfl, rfl, rfl⟩)
theorem Level.caveVsel (o : VSelOp) : Level.Statement (.caveVsel o) := .inr (.inl ⟨rfl, rfl, rfl⟩)
theorem Level.caveVbrd (o : VBrdOp) : Level.Statement (.caveVbrd o) := .inr (.inl ⟨rfl, rfl, rfl⟩)
theorem Level.caveVmov (o : VMovOp) : Level.Statement (.caveVmov o) := by cases o <;> exact .inr (.inl ⟨rfl, rfl, rfl⟩)
theorem Level.caveSend (o : SendOp) : Level.Statement (.caveSend o) := .inr (.inl ⟨rfl, rfl, rfl⟩)
theorem Level.caveHret : Level.Statement .caveHret := .inr (.inl ⟨rfl, rfl, rfl⟩)
theorem Level.caveMret : Level.Statement .caveMret := .inr (.inl ⟨rfl, rfl, rfl⟩)
theorem Level.caveYld : Level.Statement .caveYld := .inr (.inl ⟨rfl, rfl, rfl⟩)
theorem Level.caveFence : Level.Statement .caveFence := .inr (.inl ⟨rfl, rfl, rfl⟩)
theorem Level.readMove (acc unit : Nat) : Level.Statement (.readMove acc unit) := .inr (.inr ⟨rfl, rfl, rfl⟩)
theorem Level.drain (w : Nat) : Level.Statement (.drain w) := .inr (.inr ⟨rfl, rfl, rfl⟩)
theorem Level.stamp (d h : Nat) : Level.Statement (.stamp d h) := .inr (.inr ⟨rfl, rfl, rfl⟩)
theorem Level.apply (e s : Nat) : Level.Statement (.apply e s) := .inr (.inr ⟨rfl, rfl, rfl⟩)
theorem Level.completeMove (p : Nat) : Level.Statement (.completeMove p) := .inr (.inr ⟨rfl, rfl, rfl⟩)
theorem Level.evict (sector : Nat) : Level.Statement (.evict sector) := .inr (.inr ⟨rfl, rfl, rfl⟩)
theorem Level.matrixOpExecute (wave op : Nat) : Level.Statement (.matrixOpExecute wave op) := .inr (.inr ⟨rfl, rfl, rfl⟩)
theorem Level.copyStart (blk : Nat) : Level.Statement (.copyStart blk) := .inr (.inr ⟨rfl, rfl, rfl⟩)
theorem Level.copyComplete (blk copy : Nat) : Level.Statement (.copyComplete blk copy) := .inr (.inr ⟨rfl, rfl, rfl⟩)
theorem Level.qpushEnqueue (wave split lane : Nat) : Level.Statement (.qpushEnqueue wave split lane) := .inr (.inr ⟨rfl, rfl, rfl⟩)
theorem Level.graphReserve (op : Nat) : Level.Statement (.graphReserve op) := .inr (.inr ⟨rfl, rfl, rfl⟩)
theorem Level.inListCommit (op : Nat) : Level.Statement (.inListCommit op) := .inr (.inr ⟨rfl, rfl, rfl⟩)
theorem Level.outListCommit (op : Nat) : Level.Statement (.outListCommit op) := .inr (.inr ⟨rfl, rfl, rfl⟩)
theorem Level.graphReadMove (op : Nat) : Level.Statement (.graphReadMove op) := .inr (.inr ⟨rfl, rfl, rfl⟩)
theorem Level.gfreeTakeEffect (op : Nat) : Level.Statement (.gfreeTakeEffect op) := .inr (.inr ⟨rfl, rfl, rfl⟩)
theorem Level.incminCommit (op : Nat) : Level.Statement (.incminCommit op) := .inr (.inr ⟨rfl, rfl, rfl⟩)
theorem Level.incldRead (op : Nat) : Level.Statement (.incldRead op) := .inr (.inr ⟨rfl, rfl, rfl⟩)
theorem Level.broadcastArrival (b : Nat) : Level.Statement (.broadcastArrival b) := .inr (.inr ⟨rfl, rfl, rfl⟩)
theorem Level.hoopFormation (die launch stage core : Nat) : Level.Statement (.hoopFormation die launch stage core) := .inr (.inr ⟨rfl, rfl, rfl⟩)
theorem Level.vatReload (die : Nat) : Level.Statement (.vatReload die) := .inr (.inr ⟨rfl, rfl, rfl⟩)
theorem Level.quotaBoundary (die : Nat) : Level.Statement (.quotaBoundary die) := .inr (.inr ⟨rfl, rfl, rfl⟩)
theorem Level.launchAdmission : Level.Statement .launchAdmission := .inr (.inr ⟨rfl, rfl, rfl⟩)
theorem Level.blockStart (launch core : Nat) : Level.Statement (.blockStart launch core) := .inr (.inr ⟨rfl, rfl, rfl⟩)
theorem Level.blockSteal (launch core : Nat) : Level.Statement (.blockSteal launch core) := .inr (.inr ⟨rfl, rfl, rfl⟩)
theorem Level.blockEnd (blk : Nat) : Level.Statement (.blockEnd blk) := .inr (.inr ⟨rfl, rfl, rfl⟩)
theorem Level.launchCompletion (launch : Nat) : Level.Statement (.launchCompletion launch) := .inr (.inr ⟨rfl, rfl, rfl⟩)
theorem Level.preemptionDecision (blk : Nat) : Level.Statement (.preemptionDecision blk) := .inr (.inr ⟨rfl, rfl, rfl⟩)
theorem Level.drainTimeout (blk : Nat) : Level.Statement (.drainTimeout blk) := .inr (.inr ⟨rfl, rfl, rfl⟩)
theorem Level.blockSave (blk : Nat) : Level.Statement (.blockSave blk) := .inr (.inr ⟨rfl, rfl, rfl⟩)
theorem Level.flushAndRestart (blk : Nat) : Level.Statement (.flushAndRestart blk) := .inr (.inr ⟨rfl, rfl, rfl⟩)
theorem Level.blockRestore (blk core : Nat) : Level.Statement (.blockRestore blk core) := .inr (.inr ⟨rfl, rfl, rfl⟩)
theorem Level.vacateRequest (first count : Nat) : Level.Statement (.vacateRequest first count) := .inr (.inr ⟨rfl, rfl, rfl⟩)
theorem Level.timerExpiry (wave : Nat) : Level.Statement (.timerExpiry wave) := .inr (.inr ⟨rfl, rfl, rfl⟩)
theorem Level.caveDispatchMove (work : Nat) : Level.Statement (.caveDispatchMove work) := .inr (.inr ⟨rfl, rfl, rfl⟩)
theorem Level.caveInstanceStart (stack skc : Nat) : Level.Statement (.caveInstanceStart stack skc) := .inr (.inr ⟨rfl, rfl, rfl⟩)
theorem Level.cavePreempt (stack skc : Nat) : Level.Statement (.cavePreempt stack skc) := .inr (.inr ⟨rfl, rfl, rfl⟩)
theorem Level.caveCompletionMove (work : Nat) : Level.Statement (.caveCompletionMove work) := .inr (.inr ⟨rfl, rfl, rfl⟩)
theorem Level.caveHandlerDispatch (stack skc : Nat) : Level.Statement (.caveHandlerDispatch stack skc) := .inr (.inr ⟨rfl, rfl, rfl⟩)
theorem Level.microInstructionExecute (stack skc : Nat) : Level.Statement (.microInstructionExecute stack skc) := .inr (.inr ⟨rfl, rfl, rfl⟩)
theorem Level.scrubRow (stack row errs : Nat) : Level.Statement (.scrubRow stack row errs) := .inr (.inr ⟨rfl, rfl, rfl⟩)
theorem Level.hotScrub (stack row errs : Nat) : Level.Statement (.hotScrub stack row errs) := .inr (.inr ⟨rfl, rfl, rfl⟩)
theorem Level.regionClear (region : Nat) : Level.Statement (.regionClear region) := .inr (.inr ⟨rfl, rfl, rfl⟩)
theorem Level.qtail (fn : Nat) (v : Word) : Level.Statement (.qtail fn v) := .inr (.inr ⟨rfl, rfl, rfl⟩)
theorem Level.qerrClear (fn : Nat) (mask : Word) : Level.Statement (.qerrClear fn mask) := .inr (.inr ⟨rfl, rfl, rfl⟩)
theorem Level.invreq (fn : Nat) (n : Word) : Level.Statement (.invreq fn n) := .inr (.inr ⟨rfl, rfl, rfl⟩)
theorem Level.invalidationComplete (fn : Nat) : Level.Statement (.invalidationComplete fn) := .inr (.inr ⟨rfl, rfl, rfl⟩)
theorem Level.updctl (ctl : Nat) (v : Word) : Level.Statement (.updctl ctl v) := .inr (.inr ⟨rfl, rfl, rfl⟩)
theorem Level.counterClear (off : Nat) : Level.Statement (.counterClear off) := .inr (.inr ⟨rfl, rfl, rfl⟩)
theorem Level.berrClear (stack bank : Nat) : Level.Statement (.berrClear stack bank) := .inr (.inr ⟨rfl, rfl, rfl⟩)
theorem Level.htcommit (stack skc : Nat) : Level.Statement (.htcommit stack skc) := .inr (.inr ⟨rfl, rfl, rfl⟩)
theorem Level.tokloWrite (tenant : Nat) (v : DWord) : Level.Statement (.tokloWrite tenant v) := .inr (.inr ⟨rfl, rfl, rfl⟩)
theorem Level.configWrite (a : CfgAddr) (bytes : List Byte) : Level.Statement (.configWrite a bytes) := .inr (.inr ⟨rfl, rfl, rfl⟩)
theorem Level.configApply (unit : Nat) : Level.Statement (.configApply unit) := .inr (.inr ⟨rfl, rfl, rfl⟩)
theorem Level.configForcedBoundary (unit : Nat) : Level.Statement (.configForcedBoundary unit) := .inr (.inr ⟨rfl, rfl, rfl⟩)
theorem Level.deviceReset : Level.Statement .deviceReset := .inr (.inr ⟨rfl, rfl, rfl⟩)
theorem Level.unitReady (bit : Nat) : Level.Statement (.unitReady bit) := .inr (.inr ⟨rfl, rfl, rfl⟩)
theorem Level.functionLevelReset (fn : Nat) : Level.Statement (.functionLevelReset fn) := .inr (.inr ⟨rfl, rfl, rfl⟩)
theorem Level.dataFlit (port : Nat) (f : Flit) : Level.Statement (.dataFlit port f) := .inr (.inr ⟨rfl, rfl, rfl⟩)
theorem Level.nakFlit (port : Nat) (f : Flit) : Level.Statement (.nakFlit port f) := .inr (.inr ⟨rfl, rfl, rfl⟩)
theorem Level.idleFlit (port : Nat) (f : Flit) : Level.Statement (.idleFlit port f) := .inr (.inr ⟨rfl, rfl, rfl⟩)
theorem Level.retrainRequest (port : Nat) (f : Flit) : Level.Statement (.retrainRequest port f) := .inr (.inr ⟨rfl, rfl, rfl⟩)
theorem Level.fabricPacket (src dst num : Nat) (bytes : List Byte) : Level.Statement (.fabricPacket src dst num bytes) := .inr (.inr ⟨rfl, rfl, rfl⟩)
theorem Level.launchPacket (tok : DWord) (bytes : List Byte) : Level.Statement (.launchPacket tok bytes) := .inr (.inr ⟨rfl, rfl, rfl⟩)
theorem Level.handoverStop (ctl : Nat) : Level.Statement (.handoverStop ctl) := .inr (.inr ⟨rfl, rfl, rfl⟩)
theorem Level.wdogWrite (ctl : Nat) : Level.Statement (.wdogWrite ctl) := .inr (.inr ⟨rfl, rfl, rfl⟩)
theorem Level.watchdogExpiry (ctl : Nat) : Level.Statement (.watchdogExpiry ctl) := .inr (.inr ⟨rfl, rfl, rfl⟩)
theorem Level.attestationRequest (nonce : List Byte) : Level.Statement (.attestationRequest nonce) := .inr (.inr ⟨rfl, rfl, rfl⟩)
theorem Level.pathMonitorRead (die : Nat) (low : Bool) : Level.Statement (.pathMonitorRead die low) := .inr (.inr ⟨rfl, rfl, rfl⟩)
theorem Level.hostStore (pa : Nat) (bytes : List Byte) : Level.Statement (.hostStore pa bytes) := .inr (.inr ⟨rfl, rfl, rfl⟩)
theorem Level.loaderGraphCreation (img : GraphImg) : Level.Statement (.loaderGraphCreation img) := .inr (.inr ⟨rfl, rfl, rfl⟩)
theorem Level.vacatedCoresRelease (first count : Nat) : Level.Statement (.vacatedCoresRelease first count) := .inr (.inr ⟨rfl, rfl, rfl⟩)
theorem Level.portBringUp (port : Nat) : Level.Statement (.portBringUp port) := .inr (.inr ⟨rfl, rfl, rfl⟩)

end Sys2Proof.Laws
end

