-- ==== Sys2Proof/Laws/State.lean ====
section
/-! SUPPORT. What each update of the state does to each field: one lemma for each, so that no proof unfolds a record update. -/

namespace Sys2Proof.Machine

section
variable (s : State) (u : Nat) (f : Wave → Wave)
@[simp] theorem updWave_agenda : (updWave s u f).agenda = s.agenda := rfl
@[simp] theorem updWave_moveCtr : (updWave s u f).moveCtr = s.moveCtr := rfl
@[simp] theorem updWave_rnd : (updWave s u f).rnd = s.rnd := rfl
@[simp] theorem updWave_nid : (updWave s u f).nid = s.nid := rfl
@[simp] theorem updWave_cur : (updWave s u f).cur = s.cur := rfl
@[simp] theorem updWave_curCave : (updWave s u f).curCave = s.curCave := rfl
@[simp] theorem updWave_issued : (updWave s u f).issued = s.issued := rfl
@[simp] theorem updWave_waves : (updWave s u f).waves = updFirst (·.uid == u) f s.waves := rfl
@[simp] theorem updWave_blocks : (updWave s u f).blocks = s.blocks := rfl
@[simp] theorem updWave_saved : (updWave s u f).saved = s.saved := rfl
@[simp] theorem updWave_launches : (updWave s u f).launches = s.launches := rfl
@[simp] theorem updWave_last : (updWave s u f).last = s.last := rfl
@[simp] theorem updWave_mem : (updWave s u f).mem = s.mem := rfl
@[simp] theorem updWave_tasks : (updWave s u f).tasks = s.tasks := rfl
@[simp] theorem updWave_search : (updWave s u f).search = s.search := rfl
@[simp] theorem updWave_graph : (updWave s u f).graph = s.graph := rfl
@[simp] theorem updWave_cave : (updWave s u f).cave = s.cave := rfl
@[simp] theorem updWave_dcyc : (updWave s u f).dcyc = s.dcyc := rfl
@[simp] theorem updWave_begun : (updWave s u f).begun = s.begun := rfl
@[simp] theorem updWave_quotaAt : (updWave s u f).quotaAt = s.quotaAt := rfl
@[simp] theorem updWave_heldFor : (updWave s u f).heldFor = s.heldFor := rfl
@[simp] theorem updWave_perf : (updWave s u f).perf = s.perf := rfl
@[simp] theorem updWave_sems : (updWave s u f).sems = s.sems := rfl
@[simp] theorem updWave_pdrain : (updWave s u f).pdrain = s.pdrain := rfl
@[simp] theorem updWave_pflush : (updWave s u f).pflush = s.pflush := rfl
@[simp] theorem updWave_pf : (updWave s u f).pf = s.pf := rfl
@[simp] theorem updWave_ctrs : (updWave s u f).ctrs = s.ctrs := rfl
@[simp] theorem updWave_ctrNow : (updWave s u f).ctrNow = s.ctrNow := rfl
@[simp] theorem updWave_held : (updWave s u f).held = s.held := rfl
@[simp] theorem updWave_vf : (updWave s u f).vf = s.vf := rfl
@[simp] theorem updWave_fready : (updWave s u f).fready = s.fready := rfl
@[simp] theorem updWave_ffail : (updWave s u f).ffail = s.ffail := rfl
@[simp] theorem updWave_devno : (updWave s u f).devno = s.devno := rfl
@[simp] theorem updWave_ctls : (updWave s u f).ctls = s.ctls := rfl
@[simp] theorem updWave_admSeq : (updWave s u f).admSeq = s.admSeq := rfl
@[simp] theorem updWave_rrpos : (updWave s u f).rrpos = s.rrpos := rfl
@[simp] theorem updWave_vacated : (updWave s u f).vacated = s.vacated := rfl
@[simp] theorem updWave_fabric : (updWave s u f).fabric = s.fabric := rfl
@[simp] theorem updWave_supply : (updWave s u f).supply = s.supply := rfl
@[simp] theorem updWave_clock : (updWave s u f).clock = s.clock := rfl
@[simp] theorem updWave_out : (updWave s u f).out = s.out := rfl
end

section
variable (s : State) (c : Cur) (f : Split → Split)
@[simp] theorem updSplit_agenda : (updSplit s c f).agenda = s.agenda := rfl
@[simp] theorem updSplit_moveCtr : (updSplit s c f).moveCtr = s.moveCtr := rfl
@[simp] theorem updSplit_rnd : (updSplit s c f).rnd = s.rnd := rfl
@[simp] theorem updSplit_nid : (updSplit s c f).nid = s.nid := rfl
@[simp] theorem updSplit_cur : (updSplit s c f).cur = s.cur := rfl
@[simp] theorem updSplit_curCave : (updSplit s c f).curCave = s.curCave := rfl
@[simp] theorem updSplit_issued : (updSplit s c f).issued = s.issued := rfl
@[simp] theorem updSplit_waves : (updSplit s c f).waves = updFirst (·.uid == c.wave) (fun w => updSplitW w c.sid f) s.waves := rfl
@[simp] theorem updSplit_blocks : (updSplit s c f).blocks = s.blocks := rfl
@[simp] theorem updSplit_saved : (updSplit s c f).saved = s.saved := rfl
@[simp] theorem updSplit_launches : (updSplit s c f).launches = s.launches := rfl
@[simp] theorem updSplit_last : (updSplit s c f).last = s.last := rfl
@[simp] theorem updSplit_mem : (updSplit s c f).mem = s.mem := rfl
@[simp] theorem updSplit_tasks : (updSplit s c f).tasks = s.tasks := rfl
@[simp] theorem updSplit_search : (updSplit s c f).search = s.search := rfl
@[simp] theorem updSplit_graph : (updSplit s c f).graph = s.graph := rfl
@[simp] theorem updSplit_cave : (updSplit s c f).cave = s.cave := rfl
@[simp] theorem updSplit_dcyc : (updSplit s c f).dcyc = s.dcyc := rfl
@[simp] theorem updSplit_begun : (updSplit s c f).begun = s.begun := rfl
@[simp] theorem updSplit_quotaAt : (updSplit s c f).quotaAt = s.quotaAt := rfl
@[simp] theorem updSplit_heldFor : (updSplit s c f).heldFor = s.heldFor := rfl
@[simp] theorem updSplit_perf : (updSplit s c f).perf = s.perf := rfl
@[simp] theorem updSplit_sems : (updSplit s c f).sems = s.sems := rfl
@[simp] theorem updSplit_pdrain : (updSplit s c f).pdrain = s.pdrain := rfl
@[simp] theorem updSplit_pflush : (updSplit s c f).pflush = s.pflush := rfl
@[simp] theorem updSplit_pf : (updSplit s c f).pf = s.pf := rfl
@[simp] theorem updSplit_ctrs : (updSplit s c f).ctrs = s.ctrs := rfl
@[simp] theorem updSplit_ctrNow : (updSplit s c f).ctrNow = s.ctrNow := rfl
@[simp] theorem updSplit_held : (updSplit s c f).held = s.held := rfl
@[simp] theorem updSplit_vf : (updSplit s c f).vf = s.vf := rfl
@[simp] theorem updSplit_fready : (updSplit s c f).fready = s.fready := rfl
@[simp] theorem updSplit_ffail : (updSplit s c f).ffail = s.ffail := rfl
@[simp] theorem updSplit_devno : (updSplit s c f).devno = s.devno := rfl
@[simp] theorem updSplit_ctls : (updSplit s c f).ctls = s.ctls := rfl
@[simp] theorem updSplit_admSeq : (updSplit s c f).admSeq = s.admSeq := rfl
@[simp] theorem updSplit_rrpos : (updSplit s c f).rrpos = s.rrpos := rfl
@[simp] theorem updSplit_vacated : (updSplit s c f).vacated = s.vacated := rfl
@[simp] theorem updSplit_fabric : (updSplit s c f).fabric = s.fabric := rfl
@[simp] theorem updSplit_supply : (updSplit s c f).supply = s.supply := rfl
@[simp] theorem updSplit_clock : (updSplit s c f).clock = s.clock := rfl
@[simp] theorem updSplit_out : (updSplit s c f).out = s.out := rfl
end

section
variable (s : State) (u : Nat) (f : Block → Block)
@[simp] theorem updBlock_agenda : (updBlock s u f).agenda = s.agenda := rfl
@[simp] theorem updBlock_moveCtr : (updBlock s u f).moveCtr = s.moveCtr := rfl
@[simp] theorem updBlock_rnd : (updBlock s u f).rnd = s.rnd := rfl
@[simp] theorem updBlock_nid : (updBlock s u f).nid = s.nid := rfl
@[simp] theorem updBlock_cur : (updBlock s u f).cur = s.cur := rfl
@[simp] theorem updBlock_curCave : (updBlock s u f).curCave = s.curCave := rfl
@[simp] theorem updBlock_issued : (updBlock s u f).issued = s.issued := rfl
@[simp] theorem updBlock_waves : (updBlock s u f).waves = s.waves := rfl
@[simp] theorem updBlock_blocks : (updBlock s u f).blocks = updFirst (·.uid == u) f s.blocks := rfl
@[simp] theorem updBlock_saved : (updBlock s u f).saved = s.saved := rfl
@[simp] theorem updBlock_launches : (updBlock s u f).launches = s.launches := rfl
@[simp] theorem updBlock_last : (updBlock s u f).last = s.last := rfl
@[simp] theorem updBlock_mem : (updBlock s u f).mem = s.mem := rfl
@[simp] theorem updBlock_tasks : (updBlock s u f).tasks = s.tasks := rfl
@[simp] theorem updBlock_search : (updBlock s u f).search = s.search := rfl
@[simp] theorem updBlock_graph : (updBlock s u f).graph = s.graph := rfl
@[simp] theorem updBlock_cave : (updBlock s u f).cave = s.cave := rfl
@[simp] theorem updBlock_dcyc : (updBlock s u f).dcyc = s.dcyc := rfl
@[simp] theorem updBlock_begun : (updBlock s u f).begun = s.begun := rfl
@[simp] theorem updBlock_quotaAt : (updBlock s u f).quotaAt = s.quotaAt := rfl
@[simp] theorem updBlock_heldFor : (updBlock s u f).heldFor = s.heldFor := rfl
@[simp] theorem updBlock_perf : (updBlock s u f).perf = s.perf := rfl
@[simp] theorem updBlock_sems : (updBlock s u f).sems = s.sems := rfl
@[simp] theorem updBlock_pdrain : (updBlock s u f).pdrain = s.pdrain := rfl
@[simp] theorem updBlock_pflush : (updBlock s u f).pflush = s.pflush := rfl
@[simp] theorem updBlock_pf : (updBlock s u f).pf = s.pf := rfl
@[simp] theorem updBlock_ctrs : (updBlock s u f).ctrs = s.ctrs := rfl
@[simp] theorem updBlock_ctrNow : (updBlock s u f).ctrNow = s.ctrNow := rfl
@[simp] theorem updBlock_held : (updBlock s u f).held = s.held := rfl
@[simp] theorem updBlock_vf : (updBlock s u f).vf = s.vf := rfl
@[simp] theorem updBlock_fready : (updBlock s u f).fready = s.fready := rfl
@[simp] theorem updBlock_ffail : (updBlock s u f).ffail = s.ffail := rfl
@[simp] theorem updBlock_devno : (updBlock s u f).devno = s.devno := rfl
@[simp] theorem updBlock_ctls : (updBlock s u f).ctls = s.ctls := rfl
@[simp] theorem updBlock_admSeq : (updBlock s u f).admSeq = s.admSeq := rfl
@[simp] theorem updBlock_rrpos : (updBlock s u f).rrpos = s.rrpos := rfl
@[simp] theorem updBlock_vacated : (updBlock s u f).vacated = s.vacated := rfl
@[simp] theorem updBlock_fabric : (updBlock s u f).fabric = s.fabric := rfl
@[simp] theorem updBlock_supply : (updBlock s u f).supply = s.supply := rfl
@[simp] theorem updBlock_clock : (updBlock s u f).clock = s.clock := rfl
@[simp] theorem updBlock_out : (updBlock s u f).out = s.out := rfl
end

section
variable (s : State) (u : Nat) (f : Launch → Launch)
@[simp] theorem updLaunch_agenda : (updLaunch s u f).agenda = s.agenda := rfl
@[simp] theorem updLaunch_moveCtr : (updLaunch s u f).moveCtr = s.moveCtr := rfl
@[simp] theorem updLaunch_rnd : (updLaunch s u f).rnd = s.rnd := rfl
@[simp] theorem updLaunch_nid : (updLaunch s u f).nid = s.nid := rfl
@[simp] theorem updLaunch_cur : (updLaunch s u f).cur = s.cur := rfl
@[simp] theorem updLaunch_curCave : (updLaunch s u f).curCave = s.curCave := rfl
@[simp] theorem updLaunch_issued : (updLaunch s u f).issued = s.issued := rfl
@[simp] theorem updLaunch_waves : (updLaunch s u f).waves = s.waves := rfl
@[simp] theorem updLaunch_blocks : (updLaunch s u f).blocks = s.blocks := rfl
@[simp] theorem updLaunch_saved : (updLaunch s u f).saved = s.saved := rfl
@[simp] theorem updLaunch_launches : (updLaunch s u f).launches = updFirst (·.uid == u) f s.launches := rfl
@[simp] theorem updLaunch_last : (updLaunch s u f).last = s.last := rfl
@[simp] theorem updLaunch_mem : (updLaunch s u f).mem = s.mem := rfl
@[simp] theorem updLaunch_tasks : (updLaunch s u f).tasks = s.tasks := rfl
@[simp] theorem updLaunch_search : (updLaunch s u f).search = s.search := rfl
@[simp] theorem updLaunch_graph : (updLaunch s u f).graph = s.graph := rfl
@[simp] theorem updLaunch_cave : (updLaunch s u f).cave = s.cave := rfl
@[simp] theorem updLaunch_dcyc : (updLaunch s u f).dcyc = s.dcyc := rfl
@[simp] theorem updLaunch_begun : (updLaunch s u f).begun = s.begun := rfl
@[simp] theorem updLaunch_quotaAt : (updLaunch s u f).quotaAt = s.quotaAt := rfl
@[simp] theorem updLaunch_heldFor : (updLaunch s u f).heldFor = s.heldFor := rfl
@[simp] theorem updLaunch_perf : (updLaunch s u f).perf = s.perf := rfl
@[simp] theorem updLaunch_sems : (updLaunch s u f).sems = s.sems := rfl
@[simp] theorem updLaunch_pdrain : (updLaunch s u f).pdrain = s.pdrain := rfl
@[simp] theorem updLaunch_pflush : (updLaunch s u f).pflush = s.pflush := rfl
@[simp] theorem updLaunch_pf : (updLaunch s u f).pf = s.pf := rfl
@[simp] theorem updLaunch_ctrs : (updLaunch s u f).ctrs = s.ctrs := rfl
@[simp] theorem updLaunch_ctrNow : (updLaunch s u f).ctrNow = s.ctrNow := rfl
@[simp] theorem updLaunch_held : (updLaunch s u f).held = s.held := rfl
@[simp] theorem updLaunch_vf : (updLaunch s u f).vf = s.vf := rfl
@[simp] theorem updLaunch_fready : (updLaunch s u f).fready = s.fready := rfl
@[simp] theorem updLaunch_ffail : (updLaunch s u f).ffail = s.ffail := rfl
@[simp] theorem updLaunch_devno : (updLaunch s u f).devno = s.devno := rfl
@[simp] theorem updLaunch_ctls : (updLaunch s u f).ctls = s.ctls := rfl
@[simp] theorem updLaunch_admSeq : (updLaunch s u f).admSeq = s.admSeq := rfl
@[simp] theorem updLaunch_rrpos : (updLaunch s u f).rrpos = s.rrpos := rfl
@[simp] theorem updLaunch_vacated : (updLaunch s u f).vacated = s.vacated := rfl
@[simp] theorem updLaunch_fabric : (updLaunch s u f).fabric = s.fabric := rfl
@[simp] theorem updLaunch_supply : (updLaunch s u f).supply = s.supply := rfl
@[simp] theorem updLaunch_clock : (updLaunch s u f).clock = s.clock := rfl
@[simp] theorem updLaunch_out : (updLaunch s u f).out = s.out := rfl
end

section
variable (s : State) (c n k : Nat)
@[simp] theorem addPerf_agenda : (addPerf s c n k).agenda = s.agenda := rfl
@[simp] theorem addPerf_moveCtr : (addPerf s c n k).moveCtr = s.moveCtr := rfl
@[simp] theorem addPerf_rnd : (addPerf s c n k).rnd = s.rnd := rfl
@[simp] theorem addPerf_nid : (addPerf s c n k).nid = s.nid := rfl
@[simp] theorem addPerf_cur : (addPerf s c n k).cur = s.cur := rfl
@[simp] theorem addPerf_curCave : (addPerf s c n k).curCave = s.curCave := rfl
@[simp] theorem addPerf_issued : (addPerf s c n k).issued = s.issued := rfl
@[simp] theorem addPerf_waves : (addPerf s c n k).waves = s.waves := rfl
@[simp] theorem addPerf_blocks : (addPerf s c n k).blocks = s.blocks := rfl
@[simp] theorem addPerf_saved : (addPerf s c n k).saved = s.saved := rfl
@[simp] theorem addPerf_launches : (addPerf s c n k).launches = s.launches := rfl
@[simp] theorem addPerf_last : (addPerf s c n k).last = s.last := rfl
@[simp] theorem addPerf_mem : (addPerf s c n k).mem = s.mem := rfl
@[simp] theorem addPerf_tasks : (addPerf s c n k).tasks = s.tasks := rfl
@[simp] theorem addPerf_search : (addPerf s c n k).search = s.search := rfl
@[simp] theorem addPerf_graph : (addPerf s c n k).graph = s.graph := rfl
@[simp] theorem addPerf_cave : (addPerf s c n k).cave = s.cave := rfl
@[simp] theorem addPerf_dcyc : (addPerf s c n k).dcyc = s.dcyc := rfl
@[simp] theorem addPerf_begun : (addPerf s c n k).begun = s.begun := rfl
@[simp] theorem addPerf_quotaAt : (addPerf s c n k).quotaAt = s.quotaAt := rfl
@[simp] theorem addPerf_heldFor : (addPerf s c n k).heldFor = s.heldFor := rfl
@[simp] theorem addPerf_perf : (addPerf s c n k).perf = kvPut 0 (c * 256 + n) ((kvGet 0 (c * 256 + n) s.perf + k) % 2 ^ 64) s.perf := rfl
@[simp] theorem addPerf_sems : (addPerf s c n k).sems = s.sems := rfl
@[simp] theorem addPerf_pdrain : (addPerf s c n k).pdrain = s.pdrain := rfl
@[simp] theorem addPerf_pflush : (addPerf s c n k).pflush = s.pflush := rfl
@[simp] theorem addPerf_pf : (addPerf s c n k).pf = s.pf := rfl
@[simp] theorem addPerf_ctrs : (addPerf s c n k).ctrs = s.ctrs := rfl
@[simp] theorem addPerf_ctrNow : (addPerf s c n k).ctrNow = s.ctrNow := rfl
@[simp] theorem addPerf_held : (addPerf s c n k).held = s.held := rfl
@[simp] theorem addPerf_vf : (addPerf s c n k).vf = s.vf := rfl
@[simp] theorem addPerf_fready : (addPerf s c n k).fready = s.fready := rfl
@[simp] theorem addPerf_ffail : (addPerf s c n k).ffail = s.ffail := rfl
@[simp] theorem addPerf_devno : (addPerf s c n k).devno = s.devno := rfl
@[simp] theorem addPerf_ctls : (addPerf s c n k).ctls = s.ctls := rfl
@[simp] theorem addPerf_admSeq : (addPerf s c n k).admSeq = s.admSeq := rfl
@[simp] theorem addPerf_rrpos : (addPerf s c n k).rrpos = s.rrpos := rfl
@[simp] theorem addPerf_vacated : (addPerf s c n k).vacated = s.vacated := rfl
@[simp] theorem addPerf_fabric : (addPerf s c n k).fabric = s.fabric := rfl
@[simp] theorem addPerf_supply : (addPerf s c n k).supply = s.supply := rfl
@[simp] theorem addPerf_clock : (addPerf s c n k).clock = s.clock := rfl
@[simp] theorem addPerf_out : (addPerf s c n k).out = s.out := rfl
end

section
variable (s : State) (o n k : Nat)
@[simp] theorem addCtr_agenda : (addCtr s o n k).agenda = s.agenda := rfl
@[simp] theorem addCtr_moveCtr : (addCtr s o n k).moveCtr = s.moveCtr := rfl
@[simp] theorem addCtr_rnd : (addCtr s o n k).rnd = s.rnd := rfl
@[simp] theorem addCtr_nid : (addCtr s o n k).nid = s.nid := rfl
@[simp] theorem addCtr_cur : (addCtr s o n k).cur = s.cur := rfl
@[simp] theorem addCtr_curCave : (addCtr s o n k).curCave = s.curCave := rfl
@[simp] theorem addCtr_issued : (addCtr s o n k).issued = s.issued := rfl
@[simp] theorem addCtr_waves : (addCtr s o n k).waves = s.waves := rfl
@[simp] theorem addCtr_blocks : (addCtr s o n k).blocks = s.blocks := rfl
@[simp] theorem addCtr_saved : (addCtr s o n k).saved = s.saved := rfl
@[simp] theorem addCtr_launches : (addCtr s o n k).launches = s.launches := rfl
@[simp] theorem addCtr_last : (addCtr s o n k).last = s.last := rfl
@[simp] theorem addCtr_mem : (addCtr s o n k).mem = s.mem := rfl
@[simp] theorem addCtr_tasks : (addCtr s o n k).tasks = s.tasks := rfl
@[simp] theorem addCtr_search : (addCtr s o n k).search = s.search := rfl
@[simp] theorem addCtr_graph : (addCtr s o n k).graph = s.graph := rfl
@[simp] theorem addCtr_cave : (addCtr s o n k).cave = s.cave := rfl
@[simp] theorem addCtr_dcyc : (addCtr s o n k).dcyc = s.dcyc := rfl
@[simp] theorem addCtr_begun : (addCtr s o n k).begun = s.begun := rfl
@[simp] theorem addCtr_quotaAt : (addCtr s o n k).quotaAt = s.quotaAt := rfl
@[simp] theorem addCtr_heldFor : (addCtr s o n k).heldFor = s.heldFor := rfl
@[simp] theorem addCtr_perf : (addCtr s o n k).perf = s.perf := rfl
@[simp] theorem addCtr_sems : (addCtr s o n k).sems = s.sems := rfl
@[simp] theorem addCtr_pdrain : (addCtr s o n k).pdrain = s.pdrain := rfl
@[simp] theorem addCtr_pflush : (addCtr s o n k).pflush = s.pflush := rfl
@[simp] theorem addCtr_pf : (addCtr s o n k).pf = s.pf := rfl
@[simp] theorem addCtr_ctrs : (addCtr s o n k).ctrs = kvPut 0 o (min (kvGet 0 o s.ctrs + k) (2 ^ n - 1)) s.ctrs := rfl
@[simp] theorem addCtr_ctrNow : (addCtr s o n k).ctrNow = kvPut 0 o (min (kvGet 0 o s.ctrNow + k) (2 ^ n - 1)) s.ctrNow := rfl
@[simp] theorem addCtr_held : (addCtr s o n k).held = s.held := rfl
@[simp] theorem addCtr_vf : (addCtr s o n k).vf = s.vf := rfl
@[simp] theorem addCtr_fready : (addCtr s o n k).fready = s.fready := rfl
@[simp] theorem addCtr_ffail : (addCtr s o n k).ffail = s.ffail := rfl
@[simp] theorem addCtr_devno : (addCtr s o n k).devno = s.devno := rfl
@[simp] theorem addCtr_ctls : (addCtr s o n k).ctls = s.ctls := rfl
@[simp] theorem addCtr_admSeq : (addCtr s o n k).admSeq = s.admSeq := rfl
@[simp] theorem addCtr_rrpos : (addCtr s o n k).rrpos = s.rrpos := rfl
@[simp] theorem addCtr_vacated : (addCtr s o n k).vacated = s.vacated := rfl
@[simp] theorem addCtr_fabric : (addCtr s o n k).fabric = s.fabric := rfl
@[simp] theorem addCtr_supply : (addCtr s o n k).supply = s.supply := rfl
@[simp] theorem addCtr_clock : (addCtr s o n k).clock = s.clock := rfl
@[simp] theorem addCtr_out : (addCtr s o n k).out = s.out := rfl
end

section
variable (s : State) (k : Nat) (v : Sem)
@[simp] theorem semPut_agenda : (semPut s k v).agenda = s.agenda := rfl
@[simp] theorem semPut_moveCtr : (semPut s k v).moveCtr = s.moveCtr := rfl
@[simp] theorem semPut_rnd : (semPut s k v).rnd = s.rnd := rfl
@[simp] theorem semPut_nid : (semPut s k v).nid = s.nid := rfl
@[simp] theorem semPut_cur : (semPut s k v).cur = s.cur := rfl
@[simp] theorem semPut_curCave : (semPut s k v).curCave = s.curCave := rfl
@[simp] theorem semPut_issued : (semPut s k v).issued = s.issued := rfl
@[simp] theorem semPut_waves : (semPut s k v).waves = s.waves := rfl
@[simp] theorem semPut_blocks : (semPut s k v).blocks = s.blocks := rfl
@[simp] theorem semPut_saved : (semPut s k v).saved = s.saved := rfl
@[simp] theorem semPut_launches : (semPut s k v).launches = s.launches := rfl
@[simp] theorem semPut_last : (semPut s k v).last = s.last := rfl
@[simp] theorem semPut_mem : (semPut s k v).mem = s.mem := rfl
@[simp] theorem semPut_tasks : (semPut s k v).tasks = s.tasks := rfl
@[simp] theorem semPut_search : (semPut s k v).search = s.search := rfl
@[simp] theorem semPut_graph : (semPut s k v).graph = s.graph := rfl
@[simp] theorem semPut_cave : (semPut s k v).cave = s.cave := rfl
@[simp] theorem semPut_dcyc : (semPut s k v).dcyc = s.dcyc := rfl
@[simp] theorem semPut_begun : (semPut s k v).begun = s.begun := rfl
@[simp] theorem semPut_quotaAt : (semPut s k v).quotaAt = s.quotaAt := rfl
@[simp] theorem semPut_heldFor : (semPut s k v).heldFor = s.heldFor := rfl
@[simp] theorem semPut_perf : (semPut s k v).perf = s.perf := rfl
@[simp] theorem semPut_sems : (semPut s k v).sems = kvPut sem0 k v s.sems := rfl
@[simp] theorem semPut_pdrain : (semPut s k v).pdrain = s.pdrain := rfl
@[simp] theorem semPut_pflush : (semPut s k v).pflush = s.pflush := rfl
@[simp] theorem semPut_pf : (semPut s k v).pf = s.pf := rfl
@[simp] theorem semPut_ctrs : (semPut s k v).ctrs = s.ctrs := rfl
@[simp] theorem semPut_ctrNow : (semPut s k v).ctrNow = s.ctrNow := rfl
@[simp] theorem semPut_held : (semPut s k v).held = s.held := rfl
@[simp] theorem semPut_vf : (semPut s k v).vf = s.vf := rfl
@[simp] theorem semPut_fready : (semPut s k v).fready = s.fready := rfl
@[simp] theorem semPut_ffail : (semPut s k v).ffail = s.ffail := rfl
@[simp] theorem semPut_devno : (semPut s k v).devno = s.devno := rfl
@[simp] theorem semPut_ctls : (semPut s k v).ctls = s.ctls := rfl
@[simp] theorem semPut_admSeq : (semPut s k v).admSeq = s.admSeq := rfl
@[simp] theorem semPut_rrpos : (semPut s k v).rrpos = s.rrpos := rfl
@[simp] theorem semPut_vacated : (semPut s k v).vacated = s.vacated := rfl
@[simp] theorem semPut_fabric : (semPut s k v).fabric = s.fabric := rfl
@[simp] theorem semPut_supply : (semPut s k v).supply = s.supply := rfl
@[simp] theorem semPut_clock : (semPut s k v).clock = s.clock := rfl
@[simp] theorem semPut_out : (semPut s k v).out = s.out := rfl
end

section
variable (s : State) (n : Nat) (f : VfRegs → VfRegs)
@[simp] theorem vfPut_agenda : (vfPut s n f).agenda = s.agenda := rfl
@[simp] theorem vfPut_moveCtr : (vfPut s n f).moveCtr = s.moveCtr := rfl
@[simp] theorem vfPut_rnd : (vfPut s n f).rnd = s.rnd := rfl
@[simp] theorem vfPut_nid : (vfPut s n f).nid = s.nid := rfl
@[simp] theorem vfPut_cur : (vfPut s n f).cur = s.cur := rfl
@[simp] theorem vfPut_curCave : (vfPut s n f).curCave = s.curCave := rfl
@[simp] theorem vfPut_issued : (vfPut s n f).issued = s.issued := rfl
@[simp] theorem vfPut_waves : (vfPut s n f).waves = s.waves := rfl
@[simp] theorem vfPut_blocks : (vfPut s n f).blocks = s.blocks := rfl
@[simp] theorem vfPut_saved : (vfPut s n f).saved = s.saved := rfl
@[simp] theorem vfPut_launches : (vfPut s n f).launches = s.launches := rfl
@[simp] theorem vfPut_last : (vfPut s n f).last = s.last := rfl
@[simp] theorem vfPut_mem : (vfPut s n f).mem = s.mem := rfl
@[simp] theorem vfPut_tasks : (vfPut s n f).tasks = s.tasks := rfl
@[simp] theorem vfPut_search : (vfPut s n f).search = s.search := rfl
@[simp] theorem vfPut_graph : (vfPut s n f).graph = s.graph := rfl
@[simp] theorem vfPut_cave : (vfPut s n f).cave = s.cave := rfl
@[simp] theorem vfPut_dcyc : (vfPut s n f).dcyc = s.dcyc := rfl
@[simp] theorem vfPut_begun : (vfPut s n f).begun = s.begun := rfl
@[simp] theorem vfPut_quotaAt : (vfPut s n f).quotaAt = s.quotaAt := rfl
@[simp] theorem vfPut_heldFor : (vfPut s n f).heldFor = s.heldFor := rfl
@[simp] theorem vfPut_perf : (vfPut s n f).perf = s.perf := rfl
@[simp] theorem vfPut_sems : (vfPut s n f).sems = s.sems := rfl
@[simp] theorem vfPut_pdrain : (vfPut s n f).pdrain = s.pdrain := rfl
@[simp] theorem vfPut_pflush : (vfPut s n f).pflush = s.pflush := rfl
@[simp] theorem vfPut_pf : (vfPut s n f).pf = s.pf := rfl
@[simp] theorem vfPut_ctrs : (vfPut s n f).ctrs = s.ctrs := rfl
@[simp] theorem vfPut_ctrNow : (vfPut s n f).ctrNow = s.ctrNow := rfl
@[simp] theorem vfPut_held : (vfPut s n f).held = s.held := rfl
@[simp] theorem vfPut_vf : (vfPut s n f).vf = kvPut vf0 n (f (vfGet s n)) s.vf := rfl
@[simp] theorem vfPut_fready : (vfPut s n f).fready = s.fready := rfl
@[simp] theorem vfPut_ffail : (vfPut s n f).ffail = s.ffail := rfl
@[simp] theorem vfPut_devno : (vfPut s n f).devno = s.devno := rfl
@[simp] theorem vfPut_ctls : (vfPut s n f).ctls = s.ctls := rfl
@[simp] theorem vfPut_admSeq : (vfPut s n f).admSeq = s.admSeq := rfl
@[simp] theorem vfPut_rrpos : (vfPut s n f).rrpos = s.rrpos := rfl
@[simp] theorem vfPut_vacated : (vfPut s n f).vacated = s.vacated := rfl
@[simp] theorem vfPut_fabric : (vfPut s n f).fabric = s.fabric := rfl
@[simp] theorem vfPut_supply : (vfPut s n f).supply = s.supply := rfl
@[simp] theorem vfPut_clock : (vfPut s n f).clock = s.clock := rfl
@[simp] theorem vfPut_out : (vfPut s n f).out = s.out := rfl
end

section
variable (s : State) (k : Nat) (f : Ctl → Ctl)
@[simp] theorem ctlUpd_agenda : (ctlUpd s k f).agenda = s.agenda := rfl
@[simp] theorem ctlUpd_moveCtr : (ctlUpd s k f).moveCtr = s.moveCtr := rfl
@[simp] theorem ctlUpd_rnd : (ctlUpd s k f).rnd = s.rnd := rfl
@[simp] theorem ctlUpd_nid : (ctlUpd s k f).nid = s.nid := rfl
@[simp] theorem ctlUpd_cur : (ctlUpd s k f).cur = s.cur := rfl
@[simp] theorem ctlUpd_curCave : (ctlUpd s k f).curCave = s.curCave := rfl
@[simp] theorem ctlUpd_issued : (ctlUpd s k f).issued = s.issued := rfl
@[simp] theorem ctlUpd_waves : (ctlUpd s k f).waves = s.waves := rfl
@[simp] theorem ctlUpd_blocks : (ctlUpd s k f).blocks = s.blocks := rfl
@[simp] theorem ctlUpd_saved : (ctlUpd s k f).saved = s.saved := rfl
@[simp] theorem ctlUpd_launches : (ctlUpd s k f).launches = s.launches := rfl
@[simp] theorem ctlUpd_last : (ctlUpd s k f).last = s.last := rfl
@[simp] theorem ctlUpd_mem : (ctlUpd s k f).mem = s.mem := rfl
@[simp] theorem ctlUpd_tasks : (ctlUpd s k f).tasks = s.tasks := rfl
@[simp] theorem ctlUpd_search : (ctlUpd s k f).search = s.search := rfl
@[simp] theorem ctlUpd_graph : (ctlUpd s k f).graph = s.graph := rfl
@[simp] theorem ctlUpd_cave : (ctlUpd s k f).cave = s.cave := rfl
@[simp] theorem ctlUpd_dcyc : (ctlUpd s k f).dcyc = s.dcyc := rfl
@[simp] theorem ctlUpd_begun : (ctlUpd s k f).begun = s.begun := rfl
@[simp] theorem ctlUpd_quotaAt : (ctlUpd s k f).quotaAt = s.quotaAt := rfl
@[simp] theorem ctlUpd_heldFor : (ctlUpd s k f).heldFor = s.heldFor := rfl
@[simp] theorem ctlUpd_perf : (ctlUpd s k f).perf = s.perf := rfl
@[simp] theorem ctlUpd_sems : (ctlUpd s k f).sems = s.sems := rfl
@[simp] theorem ctlUpd_pdrain : (ctlUpd s k f).pdrain = s.pdrain := rfl
@[simp] theorem ctlUpd_pflush : (ctlUpd s k f).pflush = s.pflush := rfl
@[simp] theorem ctlUpd_pf : (ctlUpd s k f).pf = s.pf := rfl
@[simp] theorem ctlUpd_ctrs : (ctlUpd s k f).ctrs = s.ctrs := rfl
@[simp] theorem ctlUpd_ctrNow : (ctlUpd s k f).ctrNow = s.ctrNow := rfl
@[simp] theorem ctlUpd_held : (ctlUpd s k f).held = s.held := rfl
@[simp] theorem ctlUpd_vf : (ctlUpd s k f).vf = s.vf := rfl
@[simp] theorem ctlUpd_fready : (ctlUpd s k f).fready = s.fready := rfl
@[simp] theorem ctlUpd_ffail : (ctlUpd s k f).ffail = s.ffail := rfl
@[simp] theorem ctlUpd_devno : (ctlUpd s k f).devno = s.devno := rfl
@[simp] theorem ctlUpd_ctls : (ctlUpd s k f).ctls = vecUpd s.ctls .reset k f := rfl
@[simp] theorem ctlUpd_admSeq : (ctlUpd s k f).admSeq = s.admSeq := rfl
@[simp] theorem ctlUpd_rrpos : (ctlUpd s k f).rrpos = s.rrpos := rfl
@[simp] theorem ctlUpd_vacated : (ctlUpd s k f).vacated = s.vacated := rfl
@[simp] theorem ctlUpd_fabric : (ctlUpd s k f).fabric = s.fabric := rfl
@[simp] theorem ctlUpd_supply : (ctlUpd s k f).supply = s.supply := rfl
@[simp] theorem ctlUpd_clock : (ctlUpd s k f).clock = s.clock := rfl
@[simp] theorem ctlUpd_out : (ctlUpd s k f).out = s.out := rfl
end

section
variable (s : State) (n c : Nat) (f : SkCore → SkCore)
@[simp] theorem skUpd_agenda : (skUpd s n c f).agenda = s.agenda := rfl
@[simp] theorem skUpd_moveCtr : (skUpd s n c f).moveCtr = s.moveCtr := rfl
@[simp] theorem skUpd_rnd : (skUpd s n c f).rnd = s.rnd := rfl
@[simp] theorem skUpd_nid : (skUpd s n c f).nid = s.nid := rfl
@[simp] theorem skUpd_cur : (skUpd s n c f).cur = s.cur := rfl
@[simp] theorem skUpd_curCave : (skUpd s n c f).curCave = s.curCave := rfl
@[simp] theorem skUpd_issued : (skUpd s n c f).issued = s.issued := rfl
@[simp] theorem skUpd_waves : (skUpd s n c f).waves = s.waves := rfl
@[simp] theorem skUpd_blocks : (skUpd s n c f).blocks = s.blocks := rfl
@[simp] theorem skUpd_saved : (skUpd s n c f).saved = s.saved := rfl
@[simp] theorem skUpd_launches : (skUpd s n c f).launches = s.launches := rfl
@[simp] theorem skUpd_last : (skUpd s n c f).last = s.last := rfl
@[simp] theorem skUpd_mem : (skUpd s n c f).mem = s.mem := rfl
@[simp] theorem skUpd_tasks : (skUpd s n c f).tasks = s.tasks := rfl
@[simp] theorem skUpd_search : (skUpd s n c f).search = s.search := rfl
@[simp] theorem skUpd_graph : (skUpd s n c f).graph = s.graph := rfl
@[simp] theorem skUpd_cave : (skUpd s n c f).cave = { s.cave with cores := kvPut .reset (skKey n c) (f (skGet s n c)) s.cave.cores } := rfl
@[simp] theorem skUpd_dcyc : (skUpd s n c f).dcyc = s.dcyc := rfl
@[simp] theorem skUpd_begun : (skUpd s n c f).begun = s.begun := rfl
@[simp] theorem skUpd_quotaAt : (skUpd s n c f).quotaAt = s.quotaAt := rfl
@[simp] theorem skUpd_heldFor : (skUpd s n c f).heldFor = s.heldFor := rfl
@[simp] theorem skUpd_perf : (skUpd s n c f).perf = s.perf := rfl
@[simp] theorem skUpd_sems : (skUpd s n c f).sems = s.sems := rfl
@[simp] theorem skUpd_pdrain : (skUpd s n c f).pdrain = s.pdrain := rfl
@[simp] theorem skUpd_pflush : (skUpd s n c f).pflush = s.pflush := rfl
@[simp] theorem skUpd_pf : (skUpd s n c f).pf = s.pf := rfl
@[simp] theorem skUpd_ctrs : (skUpd s n c f).ctrs = s.ctrs := rfl
@[simp] theorem skUpd_ctrNow : (skUpd s n c f).ctrNow = s.ctrNow := rfl
@[simp] theorem skUpd_held : (skUpd s n c f).held = s.held := rfl
@[simp] theorem skUpd_vf : (skUpd s n c f).vf = s.vf := rfl
@[simp] theorem skUpd_fready : (skUpd s n c f).fready = s.fready := rfl
@[simp] theorem skUpd_ffail : (skUpd s n c f).ffail = s.ffail := rfl
@[simp] theorem skUpd_devno : (skUpd s n c f).devno = s.devno := rfl
@[simp] theorem skUpd_ctls : (skUpd s n c f).ctls = s.ctls := rfl
@[simp] theorem skUpd_admSeq : (skUpd s n c f).admSeq = s.admSeq := rfl
@[simp] theorem skUpd_rrpos : (skUpd s n c f).rrpos = s.rrpos := rfl
@[simp] theorem skUpd_vacated : (skUpd s n c f).vacated = s.vacated := rfl
@[simp] theorem skUpd_fabric : (skUpd s n c f).fabric = s.fabric := rfl
@[simp] theorem skUpd_supply : (skUpd s n c f).supply = s.supply := rfl
@[simp] theorem skUpd_clock : (skUpd s n c f).clock = s.clock := rfl
@[simp] theorem skUpd_out : (skUpd s n c f).out = s.out := rfl
end

section
variable (s : State) (f : Tasks → Tasks)
@[simp] theorem updTasks_agenda : (updTasks s f).agenda = s.agenda := rfl
@[simp] theorem updTasks_moveCtr : (updTasks s f).moveCtr = s.moveCtr := rfl
@[simp] theorem updTasks_rnd : (updTasks s f).rnd = s.rnd := rfl
@[simp] theorem updTasks_nid : (updTasks s f).nid = s.nid := rfl
@[simp] theorem updTasks_cur : (updTasks s f).cur = s.cur := rfl
@[simp] theorem updTasks_curCave : (updTasks s f).curCave = s.curCave := rfl
@[simp] theorem updTasks_issued : (updTasks s f).issued = s.issued := rfl
@[simp] theorem updTasks_waves : (updTasks s f).waves = s.waves := rfl
@[simp] theorem updTasks_blocks : (updTasks s f).blocks = s.blocks := rfl
@[simp] theorem updTasks_saved : (updTasks s f).saved = s.saved := rfl
@[simp] theorem updTasks_launches : (updTasks s f).launches = s.launches := rfl
@[simp] theorem updTasks_last : (updTasks s f).last = s.last := rfl
@[simp] theorem updTasks_mem : (updTasks s f).mem = s.mem := rfl
@[simp] theorem updTasks_tasks : (updTasks s f).tasks = f s.tasks := rfl
@[simp] theorem updTasks_search : (updTasks s f).search = s.search := rfl
@[simp] theorem updTasks_graph : (updTasks s f).graph = s.graph := rfl
@[simp] theorem updTasks_cave : (updTasks s f).cave = s.cave := rfl
@[simp] theorem updTasks_dcyc : (updTasks s f).dcyc = s.dcyc := rfl
@[simp] theorem updTasks_begun : (updTasks s f).begun = s.begun := rfl
@[simp] theorem updTasks_quotaAt : (updTasks s f).quotaAt = s.quotaAt := rfl
@[simp] theorem updTasks_heldFor : (updTasks s f).heldFor = s.heldFor := rfl
@[simp] theorem updTasks_perf : (updTasks s f).perf = s.perf := rfl
@[simp] theorem updTasks_sems : (updTasks s f).sems = s.sems := rfl
@[simp] theorem updTasks_pdrain : (updTasks s f).pdrain = s.pdrain := rfl
@[simp] theorem updTasks_pflush : (updTasks s f).pflush = s.pflush := rfl
@[simp] theorem updTasks_pf : (updTasks s f).pf = s.pf := rfl
@[simp] theorem updTasks_ctrs : (updTasks s f).ctrs = s.ctrs := rfl
@[simp] theorem updTasks_ctrNow : (updTasks s f).ctrNow = s.ctrNow := rfl
@[simp] theorem updTasks_held : (updTasks s f).held = s.held := rfl
@[simp] theorem updTasks_vf : (updTasks s f).vf = s.vf := rfl
@[simp] theorem updTasks_fready : (updTasks s f).fready = s.fready := rfl
@[simp] theorem updTasks_ffail : (updTasks s f).ffail = s.ffail := rfl
@[simp] theorem updTasks_devno : (updTasks s f).devno = s.devno := rfl
@[simp] theorem updTasks_ctls : (updTasks s f).ctls = s.ctls := rfl
@[simp] theorem updTasks_admSeq : (updTasks s f).admSeq = s.admSeq := rfl
@[simp] theorem updTasks_rrpos : (updTasks s f).rrpos = s.rrpos := rfl
@[simp] theorem updTasks_vacated : (updTasks s f).vacated = s.vacated := rfl
@[simp] theorem updTasks_fabric : (updTasks s f).fabric = s.fabric := rfl
@[simp] theorem updTasks_supply : (updTasks s f).supply = s.supply := rfl
@[simp] theorem updTasks_clock : (updTasks s f).clock = s.clock := rfl
@[simp] theorem updTasks_out : (updTasks s f).out = s.out := rfl
end

section
variable (s : State) (n : Nat) (f : Slot → Slot)
@[simp] theorem updSlot_agenda : (updSlot s n f).agenda = s.agenda := rfl
@[simp] theorem updSlot_moveCtr : (updSlot s n f).moveCtr = s.moveCtr := rfl
@[simp] theorem updSlot_rnd : (updSlot s n f).rnd = s.rnd := rfl
@[simp] theorem updSlot_nid : (updSlot s n f).nid = s.nid := rfl
@[simp] theorem updSlot_cur : (updSlot s n f).cur = s.cur := rfl
@[simp] theorem updSlot_curCave : (updSlot s n f).curCave = s.curCave := rfl
@[simp] theorem updSlot_issued : (updSlot s n f).issued = s.issued := rfl
@[simp] theorem updSlot_waves : (updSlot s n f).waves = s.waves := rfl
@[simp] theorem updSlot_blocks : (updSlot s n f).blocks = s.blocks := rfl
@[simp] theorem updSlot_saved : (updSlot s n f).saved = s.saved := rfl
@[simp] theorem updSlot_launches : (updSlot s n f).launches = s.launches := rfl
@[simp] theorem updSlot_last : (updSlot s n f).last = s.last := rfl
@[simp] theorem updSlot_mem : (updSlot s n f).mem = s.mem := rfl
@[simp] theorem updSlot_tasks : (updSlot s n f).tasks = s.tasks := rfl
@[simp] theorem updSlot_search : (updSlot s n f).search = { s.search with slots := vecUpd s.search.slots .reset n f } := rfl
@[simp] theorem updSlot_graph : (updSlot s n f).graph = s.graph := rfl
@[simp] theorem updSlot_cave : (updSlot s n f).cave = s.cave := rfl
@[simp] theorem updSlot_dcyc : (updSlot s n f).dcyc = s.dcyc := rfl
@[simp] theorem updSlot_begun : (updSlot s n f).begun = s.begun := rfl
@[simp] theorem updSlot_quotaAt : (updSlot s n f).quotaAt = s.quotaAt := rfl
@[simp] theorem updSlot_heldFor : (updSlot s n f).heldFor = s.heldFor := rfl
@[simp] theorem updSlot_perf : (updSlot s n f).perf = s.perf := rfl
@[simp] theorem updSlot_sems : (updSlot s n f).sems = s.sems := rfl
@[simp] theorem updSlot_pdrain : (updSlot s n f).pdrain = s.pdrain := rfl
@[simp] theorem updSlot_pflush : (updSlot s n f).pflush = s.pflush := rfl
@[simp] theorem updSlot_pf : (updSlot s n f).pf = s.pf := rfl
@[simp] theorem updSlot_ctrs : (updSlot s n f).ctrs = s.ctrs := rfl
@[simp] theorem updSlot_ctrNow : (updSlot s n f).ctrNow = s.ctrNow := rfl
@[simp] theorem updSlot_held : (updSlot s n f).held = s.held := rfl
@[simp] theorem updSlot_vf : (updSlot s n f).vf = s.vf := rfl
@[simp] theorem updSlot_fready : (updSlot s n f).fready = s.fready := rfl
@[simp] theorem updSlot_ffail : (updSlot s n f).ffail = s.ffail := rfl
@[simp] theorem updSlot_devno : (updSlot s n f).devno = s.devno := rfl
@[simp] theorem updSlot_ctls : (updSlot s n f).ctls = s.ctls := rfl
@[simp] theorem updSlot_admSeq : (updSlot s n f).admSeq = s.admSeq := rfl
@[simp] theorem updSlot_rrpos : (updSlot s n f).rrpos = s.rrpos := rfl
@[simp] theorem updSlot_vacated : (updSlot s n f).vacated = s.vacated := rfl
@[simp] theorem updSlot_fabric : (updSlot s n f).fabric = s.fabric := rfl
@[simp] theorem updSlot_supply : (updSlot s n f).supply = s.supply := rfl
@[simp] theorem updSlot_clock : (updSlot s n f).clock = s.clock := rfl
@[simp] theorem updSlot_out : (updSlot s n f).out = s.out := rfl
end

section
variable (s : State) (f : GraphSys → GraphSys)
@[simp] theorem updGraphSys_agenda : (updGraphSys s f).agenda = s.agenda := rfl
@[simp] theorem updGraphSys_moveCtr : (updGraphSys s f).moveCtr = s.moveCtr := rfl
@[simp] theorem updGraphSys_rnd : (updGraphSys s f).rnd = s.rnd := rfl
@[simp] theorem updGraphSys_nid : (updGraphSys s f).nid = s.nid := rfl
@[simp] theorem updGraphSys_cur : (updGraphSys s f).cur = s.cur := rfl
@[simp] theorem updGraphSys_curCave : (updGraphSys s f).curCave = s.curCave := rfl
@[simp] theorem updGraphSys_issued : (updGraphSys s f).issued = s.issued := rfl
@[simp] theorem updGraphSys_waves : (updGraphSys s f).waves = s.waves := rfl
@[simp] theorem updGraphSys_blocks : (updGraphSys s f).blocks = s.blocks := rfl
@[simp] theorem updGraphSys_saved : (updGraphSys s f).saved = s.saved := rfl
@[simp] theorem updGraphSys_launches : (updGraphSys s f).launches = s.launches := rfl
@[simp] theorem updGraphSys_last : (updGraphSys s f).last = s.last := rfl
@[simp] theorem updGraphSys_mem : (updGraphSys s f).mem = s.mem := rfl
@[simp] theorem updGraphSys_tasks : (updGraphSys s f).tasks = s.tasks := rfl
@[simp] theorem updGraphSys_search : (updGraphSys s f).search = s.search := rfl
@[simp] theorem updGraphSys_graph : (updGraphSys s f).graph = f s.graph := rfl
@[simp] theorem updGraphSys_cave : (updGraphSys s f).cave = s.cave := rfl
@[simp] theorem updGraphSys_dcyc : (updGraphSys s f).dcyc = s.dcyc := rfl
@[simp] theorem updGraphSys_begun : (updGraphSys s f).begun = s.begun := rfl
@[simp] theorem updGraphSys_quotaAt : (updGraphSys s f).quotaAt = s.quotaAt := rfl
@[simp] theorem updGraphSys_heldFor : (updGraphSys s f).heldFor = s.heldFor := rfl
@[simp] theorem updGraphSys_perf : (updGraphSys s f).perf = s.perf := rfl
@[simp] theorem updGraphSys_sems : (updGraphSys s f).sems = s.sems := rfl
@[simp] theorem updGraphSys_pdrain : (updGraphSys s f).pdrain = s.pdrain := rfl
@[simp] theorem updGraphSys_pflush : (updGraphSys s f).pflush = s.pflush := rfl
@[simp] theorem updGraphSys_pf : (updGraphSys s f).pf = s.pf := rfl
@[simp] theorem updGraphSys_ctrs : (updGraphSys s f).ctrs = s.ctrs := rfl
@[simp] theorem updGraphSys_ctrNow : (updGraphSys s f).ctrNow = s.ctrNow := rfl
@[simp] theorem updGraphSys_held : (updGraphSys s f).held = s.held := rfl
@[simp] theorem updGraphSys_vf : (updGraphSys s f).vf = s.vf := rfl
@[simp] theorem updGraphSys_fready : (updGraphSys s f).fready = s.fready := rfl
@[simp] theorem updGraphSys_ffail : (updGraphSys s f).ffail = s.ffail := rfl
@[simp] theorem updGraphSys_devno : (updGraphSys s f).devno = s.devno := rfl
@[simp] theorem updGraphSys_ctls : (updGraphSys s f).ctls = s.ctls := rfl
@[simp] theorem updGraphSys_admSeq : (updGraphSys s f).admSeq = s.admSeq := rfl
@[simp] theorem updGraphSys_rrpos : (updGraphSys s f).rrpos = s.rrpos := rfl
@[simp] theorem updGraphSys_vacated : (updGraphSys s f).vacated = s.vacated := rfl
@[simp] theorem updGraphSys_fabric : (updGraphSys s f).fabric = s.fabric := rfl
@[simp] theorem updGraphSys_supply : (updGraphSys s f).supply = s.supply := rfl
@[simp] theorem updGraphSys_clock : (updGraphSys s f).clock = s.clock := rfl
@[simp] theorem updGraphSys_out : (updGraphSys s f).out = s.out := rfl
end

section
variable (s : State)
@[simp] theorem draw_agenda : (draw s).2.agenda = s.agenda := rfl
@[simp] theorem draw_moveCtr : (draw s).2.moveCtr = s.moveCtr := rfl
@[simp] theorem draw_rnd : (draw s).2.rnd = s.rnd + 1 := rfl
@[simp] theorem draw_nid : (draw s).2.nid = s.nid := rfl
@[simp] theorem draw_cur : (draw s).2.cur = s.cur := rfl
@[simp] theorem draw_curCave : (draw s).2.curCave = s.curCave := rfl
@[simp] theorem draw_issued : (draw s).2.issued = s.issued := rfl
@[simp] theorem draw_waves : (draw s).2.waves = s.waves := rfl
@[simp] theorem draw_blocks : (draw s).2.blocks = s.blocks := rfl
@[simp] theorem draw_saved : (draw s).2.saved = s.saved := rfl
@[simp] theorem draw_launches : (draw s).2.launches = s.launches := rfl
@[simp] theorem draw_last : (draw s).2.last = s.last := rfl
@[simp] theorem draw_mem : (draw s).2.mem = s.mem := rfl
@[simp] theorem draw_tasks : (draw s).2.tasks = s.tasks := rfl
@[simp] theorem draw_search : (draw s).2.search = s.search := rfl
@[simp] theorem draw_graph : (draw s).2.graph = s.graph := rfl
@[simp] theorem draw_cave : (draw s).2.cave = s.cave := rfl
@[simp] theorem draw_dcyc : (draw s).2.dcyc = s.dcyc := rfl
@[simp] theorem draw_begun : (draw s).2.begun = s.begun := rfl
@[simp] theorem draw_quotaAt : (draw s).2.quotaAt = s.quotaAt := rfl
@[simp] theorem draw_heldFor : (draw s).2.heldFor = s.heldFor := rfl
@[simp] theorem draw_perf : (draw s).2.perf = s.perf := rfl
@[simp] theorem draw_sems : (draw s).2.sems = s.sems := rfl
@[simp] theorem draw_pdrain : (draw s).2.pdrain = s.pdrain := rfl
@[simp] theorem draw_pflush : (draw s).2.pflush = s.pflush := rfl
@[simp] theorem draw_pf : (draw s).2.pf = s.pf := rfl
@[simp] theorem draw_ctrs : (draw s).2.ctrs = s.ctrs := rfl
@[simp] theorem draw_ctrNow : (draw s).2.ctrNow = s.ctrNow := rfl
@[simp] theorem draw_held : (draw s).2.held = s.held := rfl
@[simp] theorem draw_vf : (draw s).2.vf = s.vf := rfl
@[simp] theorem draw_fready : (draw s).2.fready = s.fready := rfl
@[simp] theorem draw_ffail : (draw s).2.ffail = s.ffail := rfl
@[simp] theorem draw_devno : (draw s).2.devno = s.devno := rfl
@[simp] theorem draw_ctls : (draw s).2.ctls = s.ctls := rfl
@[simp] theorem draw_admSeq : (draw s).2.admSeq = s.admSeq := rfl
@[simp] theorem draw_rrpos : (draw s).2.rrpos = s.rrpos := rfl
@[simp] theorem draw_vacated : (draw s).2.vacated = s.vacated := rfl
@[simp] theorem draw_fabric : (draw s).2.fabric = s.fabric := rfl
@[simp] theorem draw_supply : (draw s).2.supply = s.supply := rfl
@[simp] theorem draw_clock : (draw s).2.clock = s.clock := rfl
@[simp] theorem draw_out : (draw s).2.out = s.out := rfl
end

end Sys2Proof.Machine
end

