-- ==== Sys2Proof/Laws/Windows.lean ====
section
/-! SUPPORT. What settling the lookahead windows of a wave can do (03 R64): it writes registers and takes windows away, and nothing else. -/

namespace Sys2Proof.Machine

/-- A split without its windows. -/
def Split.bare (p : Split) : Split := { p with wins := [] }

/-- `v` is `w` but for its registers and its windows. -/
def Settles (w v : Wave) : Prop :=
  (∃ g s p q sp o, v = { w with g := g, s := s, p := p, q := q, splits := sp, orph := o }) ∧ v.splits.map Split.bare = w.splits.map Split.bare

theorem Settles.refl (w : Wave) : Settles w w := ⟨⟨w.g, w.s, w.p, w.q, w.splits, w.orph, rfl⟩, rfl⟩
theorem Settles.trans {u v w : Wave} (h : Settles u v) (k : Settles v w) : Settles u w := by
  obtain ⟨⟨_, _, _, _, _, _, rfl⟩, e⟩ := h
  obtain ⟨⟨a, b, c, d, x, y, rfl⟩, f⟩ := k
  exact ⟨⟨a, b, c, d, x, y, rfl⟩, f.trans e⟩
theorem Settles.uid {w v : Wave} (h : Settles w v) : v.uid = w.uid := by obtain ⟨⟨_, _, _, _, _, _, rfl⟩, _⟩ := h; rfl
theorem Settles.em {w v : Wave} (h : Settles w v) : v.em = w.em := by obtain ⟨⟨_, _, _, _, _, _, rfl⟩, _⟩ := h; rfl
theorem Settles.exited {w v : Wave} (h : Settles w v) : v.exited = w.exited := by obtain ⟨⟨_, _, _, _, _, _, rfl⟩, _⟩ := h; rfl
theorem Settles.launch {w v : Wave} (h : Settles w v) : v.launch = w.launch := by obtain ⟨⟨_, _, _, _, _, _, rfl⟩, _⟩ := h; rfl

theorem settles_fold {α : Type} {f : Wave → α → Wave} (hf : ∀ w a, Settles w (f w a)) : ∀ (l : List α) (w : Wave), Settles w (l.foldl f w)
  | [], w => .refl w
  | a :: l, w => (hf w a).trans (settles_fold hf l _)

theorem settles_setG1 (w : Wave) (r l : Nat) (v : Word) : Settles w (setG1 w r l v) := ⟨⟨_, w.s, w.p, w.q, w.splits, w.orph, rfl⟩, rfl⟩
theorem settles_setS1 (w : Wave) (r : Nat) (v : Word) : Settles w (setS1 w r v) := by
  unfold setS1; split
  · exact .refl w
  · exact ⟨⟨w.g, _, w.p, w.q, w.splits, w.orph, rfl⟩, rfl⟩
theorem settles_setP1 (w : Wave) (p l : Nat) (b : Bool) : Settles w (setP1 w p l b) := by
  unfold setP1; split
  · exact .refl w
  · exact ⟨⟨w.g, w.s, _, w.q, w.splits, w.orph, rfl⟩, rfl⟩
theorem settles_setQ1 (w : Wave) (q l : Nat) (c : Cursor) : Settles w (setQ1 w q l c) := ⟨⟨w.g, w.s, w.p, _, w.splits, w.orph, rfl⟩, rfl⟩

theorem settles_setGs (l : Nat) : ∀ (vs : List Word) (w : Wave) (r : Nat), Settles w (setGs w r l vs)
  | [], w, _ => .refl w
  | v :: vs, w, r => (settles_setG1 w r l v).trans (settles_setGs l vs _ _)
theorem settles_setSs : ∀ (vs : List Word) (w : Wave) (r : Nat), Settles w (setSs w r vs)
  | [], w, _ => .refl w
  | v :: vs, w, r => (settles_setS1 w r v).trans (settles_setSs vs _ _)

theorem settles_applyRes (x : Win) (w : Wave) (r : LaneRes) : Settles w (applyRes x w r) := by
  have a : ∀ w, Settles w (match x.gd with | some (d, _) => setGs w d r.lane r.ws | none => w) := fun w => by
    cases x.gd with
    | none => exact .refl w
    | some d => exact settles_setGs ..
  have b : ∀ w, Settles w (match x.pd, r.p with | some p, some b => setP1 w p r.lane b | _, _ => w) := fun w => by
    cases x.pd <;> cases r.p <;> first | exact settles_setP1 .. | exact .refl w
  have c : ∀ w, Settles w (match x.qd, r.q with | some q, some c => setQ1 w q r.lane c | _, _ => w) := fun w => by
    cases x.qd <;> cases r.q <;> first | exact settles_setQ1 .. | exact .refl w
  exact ((a w).trans (b _)).trans (c _)

theorem settles_applyWin (w : Wave) (x : Win) : Settles w (applyWin w x) := by
  rw [applyWin_eq]
  have h := settles_fold (settles_applyRes x) x.got w
  cases x.sd with
  | none => exact h
  | some d => exact h.trans (settles_setSs ..)

/-- Registers alone. -/
theorem splits_applyWin (w : Wave) (x : Win) : (applyWin w x).splits = w.splits := (applyWin_regs x).splits w

theorem settles_list (others : List Win) : ∀ (f : Nat) (l : List Win) (w : Wave),
    Settles w (settleList w others f l).1 ∧ (settleList w others f l).1.splits = w.splits
  | 0, l, w => ⟨.refl w, rfl⟩
  | f + 1, l, w => by
    unfold settleList
    split
    · exact ⟨.refl w, rfl⟩
    · rename_i x _
      have h := settles_list others f (l.erase x) (applyWin w x)
      exact ⟨(settles_applyWin w x).trans h.1, h.2.trans (splits_applyWin w x)⟩

theorem settles_splits : ∀ (l : List Split) (w : Wave), Settles w (settleSplits w l).1 ∧ (settleSplits w l).1.splits = w.splits ∧
    (settleSplits w l).2.map Split.bare = l.map Split.bare
  | [], w => ⟨.refl w, rfl, rfl⟩
  | p :: r, w => by
    have a := settles_list (foreignWins w (some p.sid)) p.wins.length p.wins w
    have b := settles_splits r (settleList w (foreignWins w (some p.sid)) p.wins.length p.wins).1
    refine ⟨a.1.trans b.1, b.2.1.trans a.2, ?_⟩
    simp only [settleSplits, List.map_cons, b.2.2]
    rfl

theorem settles_pass (w : Wave) : Settles w (passW w) := by
  unfold passW
  have a := settles_splits w.splits w
  have b := settles_list (foreignWins w none) w.orph.length w.orph (settleSplits w w.splits).1
  obtain ⟨⟨g, s, p, q, sp, o, e⟩, -⟩ := a.1.trans b.1
  refine ⟨⟨g, s, p, q, _, _, by simp only; rw [e]⟩, a.2.2⟩

theorem settles_loop : ∀ (n : Nat) (w : Wave), Settles w (settleLoop n w)
  | 0, w => .refl w
  | n + 1, w => (settles_pass w).trans (settles_loop n _)

theorem settles_mapWins (f : Win → Win) (w : Wave) : Settles w (mapWins f w) := by
  refine ⟨⟨w.g, w.s, w.p, w.q, _, _, rfl⟩, ?_⟩
  simp only [mapWins, List.map_map]
  rfl

/-- Settling writes registers and takes windows away, and nothing else. -/
theorem settles_settleW (w : Wave) : Settles w (settleW w) := by
  unfold settleW numberWins
  simp only
  split
  · exact (settles_mapWins _ w).trans (settles_loop _ _)
  · exact settles_loop _ _

theorem find_bare : ∀ (l m : List Split), l.map Split.bare = m.map Split.bare → ∀ i, (l.find? (·.sid == i)).map Split.bare = (m.find? (·.sid == i)).map Split.bare
  | [], [], _, _ => rfl
  | [], b :: m, h, _ => by simp at h
  | a :: l, [], h, _ => by simp at h
  | a :: l, b :: m, h, i => by
    simp only [List.map_cons, List.cons.injEq] at h
    have hs : a.sid = b.sid := congrArg (·.sid) h.1
    simp only [List.find?_cons, hs]
    split
    · exact congrArg some h.1
    · exact find_bare l m h.2 i

/-- The splits that settling leaves are those there were but for their windows. -/
theorem Settles.split {w v : Wave} (h : Settles w v) {i : Nat} {p : Split} (hp : findSplit w i = some p) :
    ∃ q, findSplit v i = some q ∧ q.bare = p.bare := by
  have e := find_bare _ _ h.2 i
  rw [show w.splits.find? _ = some p from hp] at e
  cases hq : findSplit v i with
  | none => rw [show v.splits.find? _ = none from hq] at e; simp at e
  | some q =>
    rw [show v.splits.find? _ = some q from hq] at e
    exact ⟨q, rfl, by simpa using e⟩

end Sys2Proof.Machine
end

