-- ==== Sys2Proof/Tests/Slice0.lean ====
section
/-! SUPPORT. Tests: an ill-formed term for each check that the check refuses; the words that the spec writes out; and for each statement with
hypotheses a state and operands that meet them. Words come from the spec's listings, with the file named; other expected results are worked
out by hand from the rule named. -/

namespace Sys2Proof.Tests

open Sys2Proof.Machine

set_option Elab.async false

/-! ### Ill-formed terms (03 R57 to R60, R63, R72, R74, R78) -/

def ib (ty : IntTy) (d a : Reg) (b : SrcB) : IntBin := ⟨ty, false, d, a, b⟩
def fb (ty : FltTy) (b : SrcB) : FltBin := ⟨ty, false, 0, 0, b⟩

theorem test_misaligned_pair : (Instr.iadd .always false (ib .s64 1 0 (.g 0))).check = some .misaligned := by decide
theorem test_misaligned_group : (Instr.qpush .always 1 8).check = some .misaligned := by decide
theorem test_out_of_file_s : (Instr.iadd .always false (ib .s32 0 0 (.s 64))).check = some .outOfFile := by decide
theorem test_out_of_file_thb : (Instr.wsreg .always .thb (.s 63)).check = some .outOfFile := by decide
theorem test_out_of_file_tile : (Instr.mzero .always 0 8 .f32).check = some .outOfFile := by decide
theorem test_mov_immediate : (Instr.mov .always .s32 false 0 (.imm 1)).check = some .immediate := by decide
theorem test_half_immediate : (Instr.fadd .always .rne (fb .f16 (.imm 0x10000))).check = some .immediate := by decide
theorem test_fcmp_f8e4_immediate : (Instr.fcmp .always ⟨.eq, .f8e4, 0, 0, .imm 0⟩).check = some .immediate := by decide
theorem test_odd_window : (Instr.iadd .always false (ib .s64 0 0 (.cw 0 1))).check = some .oddWindow := by decide
theorem test_odd_window_float : (Instr.fmul .always .rne (fb .f64 (.cw 0 3))).check = some .oddWindow := by decide
theorem test_iabs_unsigned : (Instr.iabs .always false ⟨.z32, false, 0, 0⟩).check = some .type := by decide
theorem test_fex2_f64 : (Instr.fex2 .always 0 .rne ⟨.f64, false, 0, 0⟩).check = some .type := by decide
theorem test_icmp_ord : (Instr.icmp .always ⟨.ord, .s32, 0, 0, .g 0⟩).check = some .type := by decide
theorem test_lred_float_and : (Instr.lred .always false false ⟨.and, .f .f32, .rne, 0, 0⟩).check = some .type := by decide
theorem test_lred_rounding : (Instr.lred .always false false ⟨.max, .f .f32, .rz, 0, 0⟩).check = some .modifier := by decide
theorem test_atom_inc_signed : (Instr.atom .always 0 ⟨.inc, .none, .gm, .i .s32, .device, 0, 0, .g 0, 0⟩).check = some .type := by decide
theorem test_branch_slot : (Instr.bra .always ⟨5, 0⟩).check = some .slot := by decide
theorem test_bdiv_else_slot : (Instr.bdiv .always 0 (some ⟨1, 7⟩) ⟨0, 1⟩).check = some .slot := by decide
theorem test_wsreg_slot : (Instr.wsreg .always .thb (.imm 6)).check = some .slot := by decide
theorem test_ld_nl1_scratchpad : (Instr.ld .always 0 ⟨.sp, none, true, .full, .s32, 0, 0, 0⟩).check = some .modifier := by decide
theorem test_st_release_private : (Instr.st .always ⟨.lp, some .device, .full, .s32, 0, .g 0, 0⟩).check = some .modifier := by decide
theorem test_cpy_private : (Instr.cpy .always ⟨.raw, .lp, .gm, 0, 0, .imm 4, 0⟩).check = some .modifier := by decide
theorem test_cpy_length : (Instr.cpy .always ⟨.raw, .sp, .gm, 0, 0, .imm 0x1000001, 0⟩).check = some .limit := by decide
theorem test_mlut_format : (Instr.mlut .always 0 ⟨0, 0, 0, 0, 0, some .f16⟩).check = some .modifier := by decide
theorem test_tspawn_stage : (Instr.tspawn .always ⟨0, 0, 0, .g 0, 7⟩).check = some .limit := by decide
theorem test_bar_level : (Instr.bar .always 1).check = some .limit := by decide
theorem test_sreg_uniform_laneid : (Instr.sreg .always true 0 .laneid).check = some .modifier := by decide
theorem test_sreg_level : (Instr.sreg .always false 0 (.lvl 1)).check = some .limit := by decide
theorem test_mig_count : (Instr.mig .always 0 ⟨0, 0, 17, .g 0, 0, 0⟩).check = some .limit := by decide
theorem test_mig_base : (Instr.mig .always 0 ⟨0, 4, 0, .g 0, 0, 0⟩).check = some .limit := by decide
theorem test_cave_ld_signed : (Instr.caveLd ⟨false, .b64, true, 0, 0, 0⟩).check = some .modifier := by decide
theorem test_cave_bank_local : (Instr.caveVld ⟨7, true, true, false, 0, 0, 0⟩).check = some .modifier := by decide
theorem test_cave_vcmp_ord : (Instr.caveVcmp ⟨7, .uno, .i32, 0, 0, 0⟩).check = some .type := by decide
theorem test_cave_lane : (Instr.caveVmov (.xv false 0 0 32)).check = some .limit := by decide
/-- R57: a register at or beyond the wave's allocation. -/
theorem test_allocation : fitsAt (.iadd .always false (ib .s32 31 0 (.g 32))) 32 0 0x1000 = false := by decide
/-- R128: the else entry of a `bdiv` lies after its PC. -/
theorem test_bdiv_backward : fitsAt (.bdiv .always 0 none ⟨0, 0⟩) 32 0 0x1030 = false := by decide
/-- R74: CLS 14. -/
theorem test_reserved_class : decodeFront 0x0070000000000E00 = .error .reservedClass := rfl
theorem test_undefined_op : decodeFront 0x00700000000000FF = .error .undefinedOp := rfl
/-- R74: `exit` with a non-zero D. -/
theorem test_unused_field : decodeFront 0x0070000000001007 = .error .fields := rfl
theorem test_cave_undefined_op : decodeCave 0x01C0007F = .error .undefinedOp := rfl

/-! ### Decoding, family by family -/

/-- The front instruction of a word with the IMM and the bits [63:0] that the spec gives. -/
def front (imm lo : Nat) : Except DecErr Instr := decodeFront (BitVec.ofNat 96 (imm * 2 ^ 64 + lo))
def cave (w : Nat) : Except DecErr Instr := decodeCave (BitVec.ofNat 64 w)

/-- 03 R73. -/
theorem test_decode_nop : front 0 0 = .ok .nop := rfl
/-- 18, `lea.z32 g30:g31, g6:g7, g29, 6`. -/
theorem test_decode_lea : front 0 0x6170_0001_D061_E119 = .ok (.lea .always ⟨false, 6, false, 30, 6, .g 29⟩) := rfl
/-- 02 R55 by hand: `fadd.f32 g1, g2, g3` is CLS 2, OP 0, MOD 6. -/
theorem test_decode_fadd : front 0 0x0670_0000_3020_1200 = .ok (.fadd .always .rne ⟨.f32, false, 1, 2, .g 3⟩) := rfl
/-- R135 by hand: `cvt.f32.s32 g1, g2` is CLS 3, OP 0, MOD 6, C 0. -/
theorem test_decode_cvt : front 0 0x0670_0000_0020_1300 = .ok (.cvt .always ⟨.f32, .s32, .rne, false, 1, 2⟩) := rfl
/-- 22, `vote.all p3, p2`. -/
theorem test_decode_vote : front 0 0x0070_0000_0020_3405 = .ok (.vote .always false .all 3 2) := rfl
/-- 22, `atom.add.rel.z32.device g11, [g4:g5], g9`. -/
theorem test_decode_atom_rel : front 0 0x8070_0410_9040_B600 =
    .ok (.atom .always 0 ⟨.add, .rel, .gm, .i .z32, .device, 11, 4, .g 9, 0⟩) := rfl
/-- 22, `ld.gm.acq.z32.device~0 g9, [g4:g5]`. -/
theorem test_decode_ld_acq : front 0 0x1070_0410_0040_9500 =
    .ok (.ld .always 0 ⟨.gm, some .device, false, .full, .z32, 9, 4, 0⟩) := rfl
/-- R245 by hand: `cpy.gm.sp` is CLS 7, OP 0, MOD 0x02 (DST gm, SRC sp); D 4, A 6, IMM 64, C 9 uniform (CK 01, BK 10). -/
theorem test_decode_cpy : front 0x40 0x0270_6090_0060_4700 = .ok (.cpy .always ⟨.raw, .gm, .sp, 4, 6, .imm 64, 9⟩) := rfl
/-- 18, `mwait.st s10, s9` and `mrep.drop s9`. -/
theorem test_decode_mwait : front 0 0x4070_0000_0090_A806 = .ok (.mwait .always (some 10) 9) := rfl
theorem test_decode_mrep : front 0 0x4070_0000_0090_0807 = .ok (.mrep .always true 9) := rfl
/-- 13, the `gld` of the listing. -/
theorem test_decode_gld : front 2 0x0570_21A0_0082_C905 = .ok (.gld .always 0 ⟨false, 44, 8, .imm 2, .g 26, 5⟩) := rfl
/-- 15, `tbound g24:g25` and `fchk`. -/
theorem test_decode_tbound : front 0 0x0070_0001_8000_0A05 = .ok (.tbound .always (.g 24)) := rfl
theorem test_decode_fchk : front 0 0x0070_0000_0000_0A06 = .ok (.fchk .always) := rfl
/-- 21, `bar` at level 2 and `perfrd`. -/
theorem test_decode_bar : front 2 0x0070_0000_0000_0B00 = .ok (.bar .always 2) := rfl
theorem test_decode_perfrd : front 0xF1 0x0070_2000_0001_EC05 = .ok (.perfrd .always 30 0xF1) := rfl
/-- 08, `sreg g0, laneid`. -/
theorem test_decode_sreg : front 0 0x0070_0000_0000_0C00 = .ok (.sreg .always false 0 .laneid) := rfl
/-- 16, `cdisp~8 s12, ·, g10:g11` and 17, `cwait.st s20, s12`. -/
theorem test_decode_cdisp : front 5 0x0078_0000_A000_CD00 = .ok (.cdisp .always 8 12 (.g 10) 5) := rfl
theorem test_decode_cwait : front 0 0x4070_0000_00C1_4D01 = .ok (.cwait .always (some 20) 12) := rfl
/-- 17, `vld.bank.h v0, [x3+0]`, `vfma.bank.f16 v2, v0, v1` and `vred.bank.add.f16 v3, v2`. -/
theorem test_decode_vld : cave 0x0000_0000_07C0_3020 = .ok (.caveVld ⟨7, true, false, true, 0, 3, 0⟩) := rfl
theorem test_decode_vfma : cave 0x0000_0000_07C2_0125 = .ok (.caveVfma true ⟨7, .f16, 2, 0, 1⟩) := rfl
theorem test_decode_vred : cave 0x0000_0000_07C0_21A8 = .ok (.caveVred ⟨7, true, .add, .f16, 3, 2⟩) := rfl

/-- 03 R68: the successor of slot 3 lies in the same line, that of slot 4 in the next. -/
theorem test_next_pc : nextPc 0x1024 = 0x1030 ∧ nextPc 0x1030 = 0x1040 := by decide
/-- 03 R72: three lines back, slot 2. -/
theorem test_branch_target : branchTarget 0x1018 ⟨2, -3⟩ = 0x0F58 := by decide
/-- 03 R67: a line made of words has good parity, and its line word names its targets. -/
theorem test_line_parity : let l := makeLine [0x0070_0000_0000_0A06] 1 0
    lineParityOk l = true ∧ lineWordOk l = true ∧ lineTarget l 0 = true ∧ lineTarget l 1 = false := by decide +kernel

/-! ### Small states -/

/-- The split 4 of wave 3: an arm with every lane, at `pc`. -/
def arm (pc : VAddr) : Split := newSplit 4 4 .arm pc allLanes 1
/-- A split 4 that is a handler split of arm 4. -/
def handler : Split := { arm 0x1000 with kind := .handler, trap := some ⟨9, 0x1000, 3, .replicate 32 0⟩ }
/-- Wave 3 with the splits given, registers zero. -/
def wv (ps : List Split) : Wave := { hostWave 3 1 2 (arm 0x1000) with splits := ps }
/-- `w` with uniform registers set. -/
def withS (w : Wave) (l : List (Nat × Word)) : Wave := l.foldl (fun w e => setS1 w e.1 e.2) w
def blk2 : Block := hostBlock State.reset 2 1
def lau1 : Launch := hostLaunch State.reset 1
/-- Split 4 of wave 3 issues; the block and the launch are as given. -/
def stOf (w : Wave) (b : Block) (l : Launch) : State :=
  { State.reset with nid := 10, cur := some ⟨3, 4⟩, waves := [w], blocks := [b], launches := [l] }
def cx (w : Wave) (p : Split) (l : Launch) : Ctx := ⟨⟨3, 4⟩, w, p, l, emOf w p, emOf w p⟩

theorem issuing_mk {s : State} {w : Wave} {p : Split} {r : List Split} {l : Launch} (hc : s.cur = some ⟨3, 4⟩) (hw : s.waves = [w])
    (hl : s.launches = [l]) (h : w.uid = 3 ∧ w.launch = 1 ∧ l.uid = 1 ∧ p.sid = 4) (hs : w.splits = p :: r)
    (hq : w.splits.all (·.wins.isEmpty) = true) (ho : w.orph = []) (hv : (liveOf w p != 0) = true) : Issuing s (cx w p l) := by
  refine ⟨?_, ⟨fun q hm => ?_, ho⟩, ?_⟩
  · simp [ctxOf, hc, findWave, hw, h.1, findSplit, hs, h.2.2.2, findLaunch, hl, h.2.1, h.2.2.1, cx]
  · exact List.isEmpty_iff.1 (List.all_eq_true.1 hq q hm)
  · simpa [cx] using hv

def w0 : Wave := wv [arm 0x1000]
def s0 : State := stOf w0 blk2 lau1
def x0 : Ctx := cx w0 (arm 0x1000) lau1

/-- A split that issues, with every lane active: the premise of IntegerArithmeticCompletes, IntegerDivisionCompletes,
IntegerPatternCompletes, AddressAndMoveCompletes, FloatCompletes, ConversionCompletes and PredicateAndMaskCompletes. -/
theorem test_issuing : Issuing s0 x0 := issuing_mk rfl rfl rfl ⟨rfl, rfl, rfl, rfl⟩ rfl rfl rfl (by decide)

theorem agree_mk {x : Ctx} {g : Guard} (h : guardAgree x g = some true) : x.agrees g := h

/-! ### Premises of the statements, clause by clause -/

/-- IntegerValues, at the ends of each range. -/
theorem test_integer_values : (IntTy.s32.signed = true ∧ IntTy.z64.signed = false) ∧
    (intMin .s32 ≤ intMin .s32 ∧ intMin .s32 ≤ intMax .s32) ∧ intMin .s32 - 1 < intMin .s32 ∧ intMax .z64 < intMax .z64 + 1 ∧
    intBits .s32 ≤ 32 ∧ (255 < 256 ∧ 255 < 256 ∧ 31 < intBits .s32) ∧ 63 < intBits .z64 := by decide

/-- CrossLaneCompletes: a whole split, and `.part`. -/
theorem test_cross_lane : Issuing s0 x0 ∧ x0.p.wait ≠ .xlaneGo ∧ (x0.p.kind ≠ .handler ∧ liveOf x0.w x0.p = ~~~x0.w.exited) :=
  ⟨test_issuing, by decide, by decide⟩

/-- The same state with a line of `nop` at 0x1000, every slot a target. -/
def coded (s : State) : State := pokeCode s (makeLine [] 31 0)
def w1 : Wave := withS w0 [(62, 0x100C), (10, 0x1018)]
def s1 : State := coded (stOf w1 blk2 lau1)
def x1 : Ctx := cx w1 (arm 0x1000) lau1

/-- TransferCompletes: a branch, a return and a jump to legal targets. -/
theorem test_transfer : Issuing s1 x1 ∧ x1.agrees .always ∧ (targetOk s1 x1.l 0 (fetchFrom x1.l x1.p) (branchTarget 0x1000 ⟨4, 0⟩)).1 = true ∧
    (targetOk s1 x1.l 0 (fetchFrom x1.l x1.p) (pcOf (sDWord w1 62))).1 = true ∧
    (targetOk s1 x1.l 0 (fetchFrom x1.l x1.p) (pcOf (sDWord w1 10))).1 = true :=
  ⟨issuing_mk rfl rfl rfl ⟨rfl, rfl, rfl, rfl⟩ rfl rfl rfl (by decide), agree_mk (by decide), by decide +kernel, by decide +kernel, by decide +kernel⟩

/-- UniformGuardFalse: a guard that is 0 in every lane. -/
theorem test_guard_false : Issuing s0 x0 ∧ wordUniform (.yield ⟨0, false⟩) = true ∧ guardAgree x0 ⟨0, false⟩ = some false :=
  ⟨test_issuing, rfl, by decide⟩

/-- ExitCompletes: some lanes left, and none. -/
theorem test_exit : Issuing s0 x0 ∧ liveOf w0 x0.p &&& ~~~(x0.guarded ⟨0, false⟩).act ≠ 0 ∧
    liveOf w0 x0.p &&& ~~~(x0.guarded .always).act = 0 ∧ x0.p.kind ≠ .handler := ⟨test_issuing, by decide, by decide, by decide⟩

/-- DivergeJoinComplete: legal targets, and first arms of some, all and no lanes. -/
def w2 : Wave := { w0 with p := vecSet w0.p 1 1 }
theorem test_bdiv :
    let s := coded (stOf w2 blk2 lau1)
    let x := cx w2 (arm 0x1000) lau1
    let t := bdivTargets 0x1000 none ⟨2, 0⟩
    let f := fun k => liveOf w2 x.p &&& ~~~(liveOf w2 x.p &&& pMask w2 k)
    let a := targetOk s lau1 0 (fetchFrom lau1 x.p) t.1
    Issuing s x ∧ x.agrees .always ∧ a.1 = true ∧ (targetOk a.2 lau1 0 (fetchFrom lau1 x.p) t.2).1 = true ∧ x.p.stack.length < 16 ∧
    (liveOf w2 x.p &&& pMask w2 1 ≠ 0 ∧ f 1 ≠ 0 ∧ divergenceOpen w2 = false ∧ armTaken w2 x.p = false ∧ x.p.kind = .arm) ∧
    (liveOf w2 x.p &&& pMask w2 7 ≠ 0 ∧ f 7 = 0) ∧ liveOf w2 x.p &&& pMask w2 0 = 0 :=
  ⟨issuing_mk rfl rfl rfl ⟨rfl, rfl, rfl, rfl⟩ rfl rfl rfl (by decide), agree_mk (by decide), by decide +kernel, by decide +kernel,
    by decide, by decide, by decide, by decide⟩

/-- A split at a join with the entry `e` on top, and the other arm, if any, that waits there. -/
def joining (e : StkEntry) (m : Mask) : Split := { arm 0x1000 with stack := [e], members := m }
def w3 (e : StkEntry) (m : Mask) (r : List Split) : Wave := wv (joining e m :: r)
def ser : StkEntry := ⟨0x1000, 0x100C, 1, 2, false, false⟩
def outer : StkEntry := ⟨0x1000, 0x100C, 1, 2, false, true⟩
def other : Split := { newSplit 5 1 .arm 0x1000 2 2 with stack := [outer], wait := .join }
/-- DivergeJoinComplete, at the join: a serialised first arm, a serialised second arm, and an outermost divergence whose other arm waits. -/
theorem test_rjoin :
    (let w := w3 ser 1 []; let x := cx w (joining ser 1) lau1
     Issuing (stOf w blk2 lau1) x ∧ x.agrees .always ∧ x.p.stack.getLast? = some ser ∧ ser.j = x.p.pc ∧
     rjoinHeld x ser ((ser.t ||| ser.f) &&& ~~~w.exited) = false ∧ (ser.t ||| ser.f) &&& ~~~w.exited ≠ 0 ∧
     ser.outer = false ∧ ser.els = false ∧ ser.f &&& ~~~w.exited ≠ 0) ∧
    (let e := { ser with els := true }; let w := w3 e 2 []; let x := cx w (joining e 2) lau1
     Issuing (stOf w blk2 lau1) x ∧ x.p.stack.getLast? = some e ∧ rjoinHeld x e 3 = false ∧ e.els = true) ∧
    (let w := w3 outer 1 [other]; let x := cx w (joining outer 1) lau1
     Issuing (stOf w blk2 lau1) x ∧ x.p.stack.getLast? = some outer ∧ rjoinHeld x outer 3 = false ∧
     partner x outer = some other ∧ other.wait = .join ∧ other.pc = x.p.pc ∧ other.stack.getLast? = some outer) :=
  ⟨⟨issuing_mk rfl rfl rfl ⟨rfl, rfl, rfl, rfl⟩ rfl rfl rfl (by decide), agree_mk (by decide), rfl, rfl, by decide, by decide, rfl, rfl, by decide⟩,
    ⟨issuing_mk rfl rfl rfl ⟨rfl, rfl, rfl, rfl⟩ rfl rfl rfl (by decide), rfl, by decide, rfl⟩,
    ⟨issuing_mk rfl rfl rfl ⟨rfl, rfl, rfl, rfl⟩ rfl rfl rfl (by decide), rfl, by decide, by decide, rfl, rfl, rfl⟩⟩

/-- A split of wave 3 that waits as `k` says. -/
def waiting (k : Wait) : Split := { arm 0x1000 with wait := k }
/-- LevelBarrierCompletes: a released split, the last arrival of its block, and an arrival before another wave of the block. -/
theorem test_bar :
    (let w := wv [waiting .barGo]; let x := cx w (waiting .barGo) lau1; Issuing (stOf w blk2 lau1) x ∧ x.agrees .always ∧ x.p.kind ≠ .handler ∧ levelDeclared x.l.lr 2 = true) ∧
    (let t := updSplit s0 x0.c fun p => { p with wait := .bar 2 }
     levelDeclared lau1.lr 2 = true ∧ x0.p.wait ≠ .barGo ∧ splitReleased s0 x0 .block = true ∧
     (barMembers t x0 2).all (waveArrived 2) = true ∧ (t.saved.filter (savedMember t x0 2)).all (savedArrived 2) = true) ∧
    (let p := { newSplit 5 4 .resumed 0x1000 2 2 with parked := 0 }; let w := wv [arm 0x1000, p]; let x := cx w (arm 0x1000) lau1
     let s := stOf w blk2 lau1; let t := updSplit s x.c fun p => { p with wait := .bar 2 }
     Issuing s x ∧ splitReleased s x .block = true ∧ (barMembers t x 2).all (waveArrived 2) = false) :=
  ⟨⟨issuing_mk rfl rfl rfl ⟨rfl, rfl, rfl, rfl⟩ rfl rfl rfl (by decide), agree_mk (by decide), by decide, rfl⟩,
    ⟨rfl, by decide, by decide +kernel, by decide +kernel, rfl⟩,
    ⟨issuing_mk rfl rfl rfl ⟨rfl, rfl, rfl, rfl⟩ rfl rfl rfl (by decide), by decide +kernel, by decide +kernel⟩⟩

/-- A block with a named barrier at 0x40: expected 1, valid, in its scratchpad. -/
def blk3 (valid : Bool) : Block := { blk2 with
  bars := [⟨0x40, 0⟩], spad := memPutBytes .empty 0x40 (leBytes ((if valid then 1 else 0) + 2 ^ 32) 16) }
def w4 : Wave := withS w0 [(8, 0x40)]
def s4 (v : Bool) : State := stOf w4 (blk3 v) lau1
def x4 : Ctx := cx w4 (arm 0x1000) lau1
theorem issuing4 (v : Bool) : Issuing (s4 v) x4 := issuing_mk rfl rfl rfl ⟨rfl, rfl, rfl, rfl⟩ rfl rfl rfl (by decide)

/-- NamedBarrierCompletes: the record, `bini` with the least and the greatest count on a new record, and each answer of a valid and of an
invalid barrier. -/
theorem test_named_barrier :
    (∀ v, Issuing (s4 v) x4 ∧ BarrierAt (s4 v) x4 0x40 (blk3 v) ∧ (barEntry (blk3 v) 0x40).isSome = true ∧ splitReleased (s4 v) x4 .block = true ∧
      barWaiters (s4 v) 2 0x40 = 0 ∧ ∀ z, barEntry (blk3 v) 0x40 = some z → z.pend = 0) ∧ x4.agrees .always ∧
    (1 ≤ (srcU w4 (.imm 1)).toNat ∧ (srcU w4 (.imm 65535)).toNat ≤ 65535) ∧
    ((readBar (blk3 false) 0x40).valid = false ∧ (readBar (blk3 true) 0x40).valid = true) ∧
    ((readBar (blk3 true) 0x40).gen ≠ srcU w4 (.imm 1) ∧ (readBar (blk3 true) 0x40).gen = srcU w4 (.imm 0)) ∧
    (∀ p ∈ [arm 0x1000, waiting (.barwAgain 0x40 1)], (∀ z k, p.wait ≠ .barw z k) ∧ (∀ v, p.wait ≠ .barwGo v) ∧
      ∀ z k, p.wait = .barwAgain z k → z = 0x40 ∧ k = srcU w4 (.imm 1)) ∧
    (let w := wv [waiting (.barwGo true)]; Issuing (stOf w (blk3 true) lau1) (cx w (waiting (.barwGo true)) lau1)) := by
  refine ⟨fun v => ⟨issuing4 v, ⟨by decide, by decide, rfl, rfl⟩, ?_, ?_, rfl, fun z hz => ?_⟩, agree_mk (by decide), by decide,
    by decide +kernel, by decide +kernel, ?_,
    issuing_mk rfl rfl rfl ⟨rfl, rfl, rfl, rfl⟩ rfl rfl rfl (by decide)⟩
  · cases v <;> rfl
  · cases v <;> decide +kernel
  · cases v <;> (cases hz; rfl)
  · intro p h
    simp only [List.mem_cons, List.not_mem_nil, or_false] at h
    rcases h with rfl | rfl <;> refine ⟨fun _ _ h => Wait.noConfusion h, fun _ h => Wait.noConfusion h, fun _ _ h => ?_⟩ <;> cases h <;> decide

/-- SemaphoreCompletes: an untagged semaphore at 0 and a threshold at and above its value. -/
theorem test_semaphore : Issuing s0 x0 ∧ splitReleased s0 x0 .cluster = true ∧
    (semGet s0 (semKey 0 5)).tag.getD lau1.lr.tenant = lau1.lr.tenant ∧
    (srcU w0 (.imm 0)).toNat ≤ (semGet s0 (semKey 0 5)).val.toNat ∧ ¬(srcU w0 (.imm 1)).toNat ≤ (semGet s0 (semKey 0 5)).val.toNat :=
  ⟨test_issuing, by decide +kernel, by decide, by decide, by decide⟩

/-- DeadlineSet: a deadline of 0 and another, a deadline that is reached, and a cycle that can pass. -/
theorem test_deadline : Issuing s0 x0 ∧ x0.agrees .always ∧ x0.p.kind ≠ .handler ∧
    (let w := { w0 with wtdl := 7, wcyc := 7 }; findWave (stOf w blk2 lau1) 3 = some w ∧ w.wtdl ≠ 0 ∧ w.wtdl.toNat ≤ w.wcyc.toNat ∧
      w.timer = false ∧ w.wnew = false ∧ resident (stOf w blk2 lau1) w = true) ∧
    cycleHeld { s0 with dcyc := .replicate 4 1 } 3 = false :=
  ⟨test_issuing, agree_mk (by decide), by decide, ⟨rfl, by decide, by decide, rfl, rfl, by decide +kernel⟩, by decide +kernel⟩

/-! #### Memory -/

/-- Predicate 1 is true in lane 0 only. -/
def p1 : Guard := ⟨1, false⟩
def w5 : Wave := { w1 with p := vecSet w1.p 1 1 }
/-- A line of code and its tables, mapped by one leaf whose bits 106 and up, its format, are `fmt`. -/
def s5 (fmt : Nat) : State :=
  let s := coded (stOf w5 blk2 lau1)
  { s with fready := 0x7FFFFFFF, mem := pokeEntry s.mem (tableAt + 0x4000) (1 + 2 + 4 + 8 + 16 + 64 + fmt * 2 ^ 106 + 0x3F80 * 2 ^ 112) }
def x5 : Ctx := cx w5 (arm 0x1000) lau1
theorem issuing5 (f : Nat) : Issuing (s5 f) x5 := issuing_mk rfl rfl rfl ⟨rfl, rfl, rfl, rfl⟩ rfl rfl rfl (by decide)

theorem passes_mk {s : State} {x : Ctx} {g : Guard} {sp : Space} {acc : Acc} {al n : Nat} {a : Reg} {off : Word}
    (h : (checkLanes (x.guarded g) sp acc al n (laneAddr x.w sp a off) (lanesOf (x.guarded g).act) s).2.1 = [] ∧
      (checkLanes (x.guarded g) sp acc al n (laneAddr x.w sp a off) (lanesOf (x.guarded g).act) s).1 ≠ []) :
    ∃ ks sc, ks ≠ [] ∧ Passes s x g sp acc al n a off ks sc := ⟨_, _, h.2, by rw [Passes, ← h.1]⟩

/-- LoadStoreCompletes, AtomicFenceCompletes: the last word of HBM's first GiB, the last bytes of the scratchpad, a private byte. -/
theorem test_load_store : Issuing (s5 0) x5 ∧
    (∃ ks sc, ks ≠ [] ∧ Passes (s5 0) x5 p1 .gm .read 4 4 0 0x3FFFFFFC ks sc) ∧
    (∃ ks sc, ks ≠ [] ∧ Passes (s5 0) x5 p1 .sp .read 16 16 0 65520 ks sc) ∧
    (∃ ks sc, ks ≠ [] ∧ Passes (s5 0) x5 p1 .lp .write 1 1 0 0 ks sc) ∧
    (∃ ks sc, ks ≠ [] ∧ Passes (s5 0) x5 p1 .gm .write 16 16 0 0 ks sc) ∧
    (∃ ks sc, ks ≠ [] ∧ Passes (s5 0) x5 p1 .gm .atom 8 8 0 8 ks sc) ∧
    (∃ ks sc, ks ≠ [] ∧ Passes (s5 0) x5 p1 .sp .atom 4 4 0 65532 ks sc) := by
  refine ⟨issuing5 0, ?_, ?_, ?_, ?_, ?_, ?_⟩ <;> exact passes_mk (by decide +kernel)

/-- PageElementCompletes: the first element of a page in each of the formats F16 and F6, read and written. -/
theorem test_page_element : Issuing (s5 1) x5 ∧ Issuing (s5 5) x5 ∧ ∀ f, f = 1 ∨ f = 5 → ∀ acc, acc = .read ∨ acc = .write →
    let r := elemRuns (x5.guarded p1) (s5 f) acc 0 0x3000 (.g 0) 1
    r.1 ≠ [] ∧ r.2.1 = [] ∧ r.1.filter (fun e => pteFmt e.pte == 4) = [] := by
  refine ⟨issuing5 1, issuing5 5, ?_⟩
  rintro f (rfl | rfl) acc (rfl | rfl) <;> decide +kernel

/-- CacheOperationCompletes: a range of no byte, and one of a sector, for each operation. -/
theorem test_cache_operation : Issuing (s5 0) x5 ∧
    ∀ k, k = .wb ∨ k = .flush ∨ k = .inv → ∀ n, n = 0 ∨ n = 64 →
      let r := cacheLanes (x5.guarded p1) k (laneAddr w5 .gm 0 0x2000) (fun _ => n) (lanesOf (x5.guarded p1).act) (s5 0)
      r.1 ≠ [] ∧ r.2.1 = [] ∧ (n = 64 → ∀ e ∈ r.1, e.2 ≠ []) := by
  refine ⟨issuing5 0, ?_⟩
  rintro k (rfl | rfl | rfl) n (rfl | rfl) <;> decide +kernel

/-- Lane 0 of wave 3. -/
def ln : LaneKey := ⟨3, 0⟩
def act1 (k : ActKind) (l : Loc) (n : Nat) : Act := ⟨7, ln, 0, 5, k, [⟨l, n, none⟩], .none, 0⟩
def wb1 (l : Loc) (bs : List Byte) : Wb := ⟨8, ln, 0, 4, l, bs, none, none, none, none, true, none, [], .pending, none, false, false⟩
/-- All units ready, and the accesses `as`, the write buffer `ws`. -/
def sMem (as : List Act) (ws : List Wb) : State :=
  { s0 with fready := 0x7FFFFFFF, mem := { s0.mem with acts := as, wb := ws } }

/-- ReadMoveCompletes: the three sources of a byte; a plain read, an on-chip atomic and one of scope `.block`. -/
theorem test_read_move :
    (flyOf s0 0x40 = none ∧ s0.mem.wb = [] ∧ floorOf s0 ln 0x40 = 0) ∧
    (((sMem [] [wb1 (.gm 0x40) [1, 2]]).mem.wb.filter fun w => w.core == 0 && w.fn.isNone && wbCovers w (.gm 0x41)) =
      [wb1 (.gm 0x40) [1, 2]]) ∧
    (let a := act1 (.read (some .device) false) (.gm 0x40) 4; let s := sMem [a] []
     s.mem.acts.find? (·.id == 7) = some a ∧ readOk s a ⟨.gm 0x40, 4, none⟩ = true ∧
     (readRun (laneReader a true []) s (.gm 0x40) 4).isSome = true ∧ (readRun { coreReader 0 with useL1 := true } s (.gm 0x40) 4).isSome = true) ∧
    (let fn : AtomFn := .op .add (.i .s32) 1
     let a := act1 (.atomLocal fn none none .block) (.spad 2 0x40) 4
     atomOk (sMem [a] []) a none ⟨.spad 2 0x40, 4, none⟩ = true ∧
     let a := act1 (.atomLocal fn none none .block) (.gm 0x40) 4
     atomOk (sMem [a] []) a none ⟨.gm 0x40, 4, none⟩ = true ∧ (atomOnCore (sMem [a] []) a fn none ⟨.gm 0x40, 4, none⟩).isSome = true) := by
  refine ⟨⟨rfl, rfl, by decide⟩, by decide +kernel, ⟨rfl, by decide +kernel, by decide +kernel, by decide +kernel⟩, by decide +kernel, by decide +kernel, by decide +kernel⟩

theorem memWf_mk {s : State} (h : s.mem.home = State.reset.mem.home ∧ s.mem.view = State.reset.mem.view) : s.memWf := by
  have hr : State.reset.memWf := ⟨by decide +kernel, by decide +kernel⟩
  exact ⟨h.1 ▸ hr.1, fun d hd => by have := hr.2 d hd; rwa [viewOf, ← h.2] at this⟩

/-- DrainCompletes: a write of one byte and of eight at home, a write for another die, and an on-chip write. -/
theorem test_drain :
    (∀ bs, bs = [1] ∨ bs = [1, 2, 3, 4, 5, 6, 7, 8] → let w := wb1 (.gm 0x40) bs; let s := sMem [] [w]
      s.memWf ∧ findWb s 8 = some w ∧ drainOk s w = true ∧ 1 ≤ bs.length ∧ bs.length ≤ 8 ∧ homeDie s 0x40 = dieOfCore 0 ∧
      stampRoom s 0 = true ∧ unitFailed s (unitBit s 0x40) = false) ∧
    (let w := wb1 (.gm (2 ^ 36)) [1]; let s := sMem [] [w]
     s.memWf ∧ findWb s 8 = some w ∧ drainOk s w = true ∧ homeDie s (2 ^ 36) ≠ dieOfCore 0) ∧
    (let w := wb1 (.spad 2 0) [1]; let s := sMem [] [w]; s.memWf ∧ drainOk s w = true ∧ w.loc.onChip = true) := by
  refine ⟨?_, ⟨memWf_mk ⟨rfl, rfl⟩, rfl, by decide +kernel, by decide +kernel⟩, ⟨memWf_mk ⟨rfl, rfl⟩, by decide +kernel, rfl⟩⟩
  rintro bs (rfl | rfl) <;> exact ⟨memWf_mk ⟨rfl, rfl⟩, rfl, by decide +kernel, by decide, by decide, by decide +kernel, by decide +kernel, by decide +kernel⟩

/-- StampApplyCompletes: a write that waits for nothing, in F(0,1) and on its way from die 1 to die 3. -/
def msg1 : Msg := ⟨8, ln, 0, 4, 2 ^ 36, [1], none, none, none, true, none, 0, 1, .replicate 4 0, 3, false⟩
theorem test_stamp_apply :
    (let s := { s0 with mem := { s0.mem with chan := [msg1], wb := [wb1 (.gm (2 ^ 36)) [1]] } }
     s.memWf ∧ chanHead s 0 1 = some msg1 ∧ vLe msg1.vec (vecOf s 1) = true ∧ stampRoom s 1 = true ∧ findWb s 8 = some (wb1 (.gm (2 ^ 36)) [1])) ∧
    (let m := { msg1 with src := 1, dst := 3 }; let s := { s0 with mem := { s0.mem with apply := [m] } }
     s.memWf ∧ s.mem.apply.find? (fun m => m.src == 1 && m.dst == 3) = some m ∧
     (∀ k, k < 4 → k ≠ 1 → vLe1 (vecGet m.vec 0 k) (vecGet (vecOf s 3) 0 k) = true) ∧ m.mask = none ∧ 1 ≤ m.bytes.length ∧ m.bytes.length ≤ 8) :=
  ⟨⟨memWf_mk ⟨rfl, rfl⟩, rfl, by decide, by decide, rfl⟩, ⟨memWf_mk ⟨rfl, rfl⟩, rfl, by decide +kernel, rfl, by decide, by decide⟩⟩

/-- CacheMovesComplete: a fence whose condition holds, a dirty sector that no operation pins, and the last moves of a write-back and of a
flush. -/
theorem test_cache_moves :
    (let a : Act := { act1 (.fence .ar .device (some (.replicate 4 0))) (.gm 0) 0 with units := [] }; let s := sMem [a] []
     s.memWf ∧ s.mem.acts.find? (·.id == 7) = some a ∧ fenceOk s a .ar .device (some (.replicate 4 0)) = true) ∧
    (∀ k, k = .wb ∨ k = .flush →
      let a : Act := { act1 (.cache k [(0x40, 64)] [0] 0) (.gm 0) 0 with units := [] }
      let s := { sMem [a] [] with mem := { (sMem [a] []).mem with dirty := [1] } }
      s.memWf ∧ s.mem.acts.find? (·.id == 7) = some a ∧ s.mem.dirty.contains 1 = true ∧ 1 ∈ sectorsOf s [(0x40, 64)] 0 ∧
      cacheOk s a k [(0x40, 64)] 0 = true ∧ pinnedLine s (homeDie s (64 * 1)) (1 / 4) = false) := by
  refine ⟨⟨memWf_mk ⟨rfl, rfl⟩, rfl, by decide +kernel⟩, ?_⟩
  rintro k (rfl | rfl) <;> exact ⟨memWf_mk ⟨rfl, rfl⟩, rfl, by decide, by decide +kernel, by decide +kernel, by decide +kernel⟩

/-- A window of instruction `n` on g`r`: `rem` more instructions, closed or not, the result 9 there or not. -/
def win1 (n rem r : Nat) (closed full : Bool) : Win :=
  ⟨n, rem, closed, if full then 0 else 1, false, some (r, 1), none, none, none, if full then [⟨0, [9], none, none⟩] else [], [], 0⟩
/-- The same on s5, in place `k` of the order of closing. -/
def winS (n k : Nat) (full : Bool) : Win :=
  ⟨n, 0, true, 0, !full, none, some (5, 1), none, none, [], if full then [BitVec.ofNat 32 n] else [], k⟩
def wWin (ps : List (List Win)) : Wave := wv (ps.zipIdx.map fun e => { arm 0x1000 with sid := 4 + e.2, wins := e.1 })
/-- LookaheadWindows: a split with an open window issues `nop`, and `yield` with a false guard; windows at each count; two closed windows of one
split in each state, and of two splits on one uniform register. -/
theorem test_lookahead :
    (let w := wWin [[win1 8 2 6 false true]]; let s := stOf w blk2 lau1
     (ctxOf s).isSome = true ∧ liveOf w (arm 0x1000) ≠ 0 ∧ wordUniform (.yield ⟨7, true⟩) = true ∧ closesWins (.yield ⟨7, true⟩) = true ∧
     (∀ x ∈ ctxOf s, guardAgree { x with w := closedW w 4 } ⟨7, true⟩ = some false) ∧ gWord (closedW w 4) 6 0 = 9 ∧
     gWord (goesOnW w 4 9 0x1018) 6 0 = 0 ∧ gWord (goesOnW (goesOnW w 4 9 0x1018) 4 9 0x1030) 6 0 = 9) ∧
    (tickWins 9 [win1 8 2 6 false true, win1 7 1 5 false true, win1 9 0 4 false true] =
      [win1 8 1 6 false true, win1 7 0 5 true true, win1 9 0 4 true true]) ∧
    (∀ f ∈ [false, true], ∀ r ∈ [6, 7], let w := wWin [[win1 8 0 6 true f, win1 9 0 r true true]]
      (∃ p, w.splits = [p] ∧ w.orph = [] ∧ p.wins = [win1 8 0 6 true f, win1 9 0 r true true]) ∧
      winMeets (win1 9 0 r true true) (win1 8 0 6 true f) = (r == 6) ∧ (allWins (settleW w)).map Win.id = if f then [] else if r = 6 then [8, 9] else [8]) ∧
    (∀ f ∈ [false, true], let w := wWin [[winS 8 1 f], [winS 9 2 true]]
      (∃ p q, w.splits = [p, q] ∧ w.orph = [] ∧ p.sid ≠ q.sid) ∧ runsMeet (winS 9 2 true).sd (winS 8 1 f).sd = true ∧
      sWord (settleW w) 5 = if f then 9 else 0) := by
  refine ⟨by decide +kernel, by decide +kernel, ?_, ?_⟩
  · intro f hf r hr
    simp only [List.mem_cons, List.not_mem_nil, or_false] at hf hr
    rcases hf with rfl | rfl <;> rcases hr with rfl | rfl <;> exact ⟨⟨_, rfl, rfl, rfl⟩, by decide +kernel⟩
  · intro f hf
    simp only [List.mem_cons, List.not_mem_nil, or_false] at hf
    rcases hf with rfl | rfl <;> exact ⟨⟨_, _, rfl, rfl, by decide⟩, by decide +kernel⟩

/-! #### System instructions, traps, the streamer and the matrix engine -/

/-- UniformRegisters: a register and another, `s0`, the last pair of the file, and a pair that R57 allows. -/
theorem test_uniform_registers :
    sWord (setS1 w0 63 5) 63 = 5 ∧ sWord (setS1 w0 0 5) 0 = 0 ∧ sWord (setSd w0 true 62 0x500000007) 63 = 5 ∧
    (Use.rdN .s 62 2).check = none ∧ (Use.rdN .s 63 2).check = some .misaligned := by decide

/-- SystemInstructionsComplete, special registers: a legal THB, launches with PRIV and without, and a handler split. -/
theorem test_special_register :
    (let w := withS w0 [(10, 0x1018)]; let x := cx w (arm 0x1000) lau1
     Issuing (stOf w blk2 lau1) x ∧ x.agrees .always ∧ (slotOf ((thbVal x (.s 10)).toNat % 64)).isSome = true ∧ x.p.kind ≠ .handler ∧
     x.l.lr.priv = false ∧ codeStores (stOf w blk2 lau1) x.w.core = false ∧
     let t := { stOf w blk2 lau1 with mem := { (stOf w blk2 lau1).mem with wb := [wb1 (.gm 0x40) [1]] } }
     Issuing t x ∧ codeStores t x.w.core = true) ∧
    (let l := { lau1 with lr := { lau1.lr with priv := true } }; let x := cx w0 (arm 0x1000) l
     Issuing (stOf w0 blk2 l) x ∧ x.agrees .always ∧ x.l.lr.priv = true) ∧
    (let x := cx (wv [handler]) handler lau1; Issuing (stOf (wv [handler]) blk2 lau1) x ∧ x.p.kind = .handler ∧ x.p.trap.isSome = true) :=
  ⟨⟨issuing_mk rfl rfl rfl ⟨rfl, rfl, rfl, rfl⟩ rfl rfl rfl (by decide), agree_mk (by decide), by decide, by decide, rfl, by decide,
      issuing_mk rfl rfl rfl ⟨rfl, rfl, rfl, rfl⟩ rfl rfl rfl (by decide), by decide⟩,
    ⟨issuing_mk rfl rfl rfl ⟨rfl, rfl, rfl, rfl⟩ rfl rfl rfl (by decide), agree_mk (by decide), rfl⟩,
    ⟨issuing_mk rfl rfl rfl ⟨rfl, rfl, rfl, rfl⟩ rfl rfl rfl (by decide), rfl, rfl⟩⟩

/-- SystemInstructionsComplete, traps, and EntersTrap: an arm with its companion slot free and taken, a handler split, a resumed split; no THB, a THB that is
no legal target, and one that is; a guard that no lane, every lane and one lane meets. -/
theorem test_trap_instructions :
    (∀ n, n = 0 ∨ n = 0x1018 ∨ n = 0x2000 → let w := { w5 with thb := n }; let x := cx w (arm 0x1000) lau1
     let s := coded (stOf w blk2 lau1)
     Issuing s x ∧ (x.p.kind = .arm ∧ companion x.w x.p = none) ∧ x.agrees .always ∧ guardAgree x p1 = none ∧
     (x.guarded p1).act ≠ 0 ∧ (x.guarded ⟨0, false⟩).act = 0 ∧ wordUniform (.nop) = false ∧ wordUniform (.yield p1) = true ∧
     (n = 0x1018 → (handlerOk s w x.p).1 = true ∧ ∀ q ∈ w.splits, q.sid < s.nid) ∧ (n = 0x2000 → (handlerOk s w x.p).1 = false)) ∧
    (let w := wv [handler]; let x := cx w handler lau1; Issuing (stOf w blk2 lau1) x ∧ x.p.kind = .handler ∧ x.p.stack = []) ∧
    (let p : Split := { arm 0x1000 with kind := .resumed }; let x := cx (wv [p]) p lau1
     Issuing (stOf (wv [p]) blk2 lau1) x ∧ x.p.kind = .resumed) ∧
    (let h : Split := { handler with sid := 5, members := 2 }; let p : Split := { arm 0x1000 with members := 1 }
     let x := cx (wv [p, h]) p lau1
     Issuing (stOf (wv [p, h]) blk2 lau1) x ∧ x.p.kind = .arm ∧ companion x.w x.p ≠ none) := by
  refine ⟨?_, ⟨issuing_mk rfl rfl rfl ⟨rfl, rfl, rfl, rfl⟩ rfl rfl rfl (by decide), rfl, rfl⟩,
    ⟨issuing_mk rfl rfl rfl ⟨rfl, rfl, rfl, rfl⟩ rfl rfl rfl (by decide), rfl⟩,
    ⟨issuing_mk rfl rfl rfl ⟨rfl, rfl, rfl, rfl⟩ rfl rfl rfl (by decide), rfl, by decide⟩⟩
  rintro n (rfl | rfl | rfl) <;>
    exact ⟨issuing_mk rfl rfl rfl ⟨rfl, rfl, rfl, rfl⟩ rfl rfl rfl (by decide), by decide, agree_mk (by decide), by decide,
      by decide, by decide, rfl, rfl, by decide +kernel, by decide +kernel⟩

/-- HandlerReturnCompletes: every lane of the handler trapped; none is left after `tret.end`. -/
theorem test_handler_return :
    let w := wv [handler]; let x := cx w handler lau1
    ∃ r, Issuing (stOf w blk2 lau1) x ∧ x.agrees .always ∧ x.p.kind = .handler ∧ x.p.stack = [] ∧ x.p.trap = some r ∧
      (r.em ||| x.p.parked) &&& ~~~w.exited ≠ 0 ∧
      (let p : Split := { handler with parked := 4, members := 7 }; let x := cx (wv [p]) p lau1
       Issuing (stOf (wv [p]) blk2 lau1) x ∧ ((r.em ||| x.p.parked) &&& ~~~x.w.exited) &&& ~~~r.em ≠ 0) ∧
      ((r.em ||| x.p.parked) &&& ~~~w.exited) &&& ~~~r.em = 0 :=
  ⟨_, issuing_mk rfl rfl rfl ⟨rfl, rfl, rfl, rfl⟩ rfl rfl rfl (by decide), agree_mk (by decide), rfl, rfl, rfl, by decide,
    ⟨issuing_mk rfl rfl rfl ⟨rfl, rfl, rfl, rfl⟩ rfl rfl rfl (by decide), by decide⟩, by decide⟩

/-- A launch whose producer is wave 0 of a block; a block with a window record at 0x20, a chute at 0x80 of two slots, one of them written,
and a valid barrier at 0x40. -/
def lau6 : Launch := { lau1 with lr := { lau1.lr with producer := 0 } }
def blk6 : Block := { blk2 with
  bars := [⟨0x40, 1⟩], chutes := [⟨0x80, 1, []⟩]
  spad := memPutBytes (memPutBytes (memPutBytes .empty 0x40 (leBytes (1 + 2 ^ 32) 16)) 0x80 (leBytes (2 + 16 * 2 ^ 32 + 2 ^ 64) 16))
    0x20 [0, 0, 0, 0, 1, 0, 1, 0, 4, 0, 4, 0, 1, 1, 1, 1, 0, 0, 0, 0, 0, 0, 0, 0, 0, 0, 0, 0, 0, 0, 0, 0] }
/-- s10 and s11 a zero pair, s12 0x20, s13 0x80, s14 to s17 completion words of each kind. -/
def w6 : Wave := withS w0 [(12, 0x20), (13, 0x80), (15, 0x40000005), (16, 0x80000080), (17, 0xC0000040), (18, 16)]
def x6 : Ctx := cx w6 (arm 0x1000) lau6
def s6 : State := stOf w6 blk6 lau6
theorem issuing6 : Issuing s6 x6 := issuing_mk rfl rfl rfl ⟨rfl, rfl, rfl, rfl⟩ rfl rfl rfl (by decide)

/-- StreamerAndEngineInstructionsComplete, copies: no rights; and with rights, legal operands of each copy, with each kind of completion word. -/
theorem test_copy_issue :
    (hasRights x0 = false ∧ x0.agrees .always) ∧ (Issuing s6 x6 ∧ x6.agrees .always ∧ findBlock s6 x6.w.blk = some blk6 ∧ hasRights x6 = true) ∧
    (let e := engOf x6 blk6
     (∀ c, c = 14 ∨ c = 15 ∨ c = 16 ∨ c = 17 → ∀ n, n = 0 ∨ n = 16 → let k := sWord w6 c
       cwOk s6 blk6 k .sp 0 n = true ∧ cwBad e s6 k = none ∧ dstBad e s6 k .sp 0 n = none ∧ rangeBad e s6 .gm 0 n = none) ∧
     (let rd := spadFields s6 blk6 0x20 winFields
      let r := winRec rd.1
      let s := setMemPsn s6 1 rd.2
      0x20 % 32 = 0 ∧ r.ok = true ∧ cwOk s blk6 0 .sp 0 r.bytes = true ∧ dstBad e s 0 .sp 0 r.bytes = none ∧ rangeBad e s .sp 0x20 32 = none ∧
      ∀ off, some off ∈ r.rows → rangeBad e s .gm (addrIn .gm 0 off) (r.nc * r.eb) = none) ∧
     (let s := setMemPsn s6 1 (spadFields s6 blk6 0 [4]).2
      cwBad e s 0 = none ∧ cwOk s blk6 0 .sp 0 4 = true ∧ rangeBad e s .sp 0 4 = none ∧ rangeBad e s .gm 0 4 = none) ∧
     (baseBad .sp 0 4 = none ∧ baseBad .gm 0 4 = none ∧ rangeBad e s6 .sp 65532 4 = none ∧ cwOk s6 blk6 0 .sp 0 4 = true ∧
      dstBad e s6 0 .sp 0 4 = none ∧ rangeBad e s6 .sp 0 4 = none ∧ rangeBad e s6 .gm 0 4 = none ∧ 0 + 4 * 1 ≤ x6.l.lr.spad)) := by
  refine ⟨⟨by decide, agree_mk (by decide)⟩, ⟨issuing6, agree_mk (by decide), rfl, by decide⟩, ?_,
    ⟨rfl, by decide +kernel, by decide +kernel, by decide +kernel, by decide +kernel, fun _ _ => rfl⟩, by decide +kernel, by decide +kernel⟩
  rintro c (rfl | rfl | rfl | rfl) n (rfl | rfl) <;> decide +kernel

/-- ChuteCompletes: a new chute of one slot and of 4,094; a header with a slot to read, and none beyond it. -/
theorem test_chute :
    Issuing s6 x6 ∧ findBlock s6 2 = some blk6 ∧ (sWord w6 13).toNat = 0x80 ∧ spadPending s6 x6 0x80 16 = false ∧ splitReleased s6 x6 .block = true ∧
    (∀ n, n = 1 ∨ n = 4087 → 1 ≤ n ∧ n ≤ 4096 ∧ (sWord w6 18).toNat % 16 = 0 ∧ 0x80 + 16 + n * (sWord w6 18).toNat ≤ x6.l.lr.spad) ∧
    (let h := chHdr s6 blk6 0x80
     (∀ u, findChute blk6 0x80 = some u → u.cl = h.wr) ∧ 1 ≤ h.nslot ∧ 1 ≤ (h.wr - h.rd).toNat ∧ 2 ≤ h.nslot ∧ (h.wr - h.rd).toNat < 2) := by
  refine ⟨issuing6, rfl, by decide, by decide, by decide +kernel, ?_, ?_, by decide +kernel⟩
  · rintro n (rfl | rfl) <;> decide
  · intro u h; cases h; decide +kernel

/-- A raw copy of 4 bytes within the scratchpad. -/
def copy1 (run wrote : Bool) (w : Word) : Copy := ⟨7, 3, 1, .cpy .raw, .sp, .sp, 0x100, 0x20, 4, 0, w, 5, run, wrote, none, [], none⟩
def sCopy (c : Copy) (b : Block) : State := stOf w6 { b with copies := [c] } lau6
/-- CopyMovesComplete: a start without and with a chute, not full and full; a raw copy that can be made, one whose source lies outside, and
the end of a copy with each completion word. -/
theorem test_copy_moves :
    (∀ c, c = copy1 false false 0 ∨ c = copy1 false false 0x80000080 → let b := { blk6 with copies := [c] }
      findBlock (sCopy c blk6) 2 = some b ∧ b.copies.find? (fun c => !c.running) = some c ∧ (b.copies.filter (·.running)).length < 64) ∧
    (cwKind (copy1 false false 0).word ≠ 2 ∧ cwKind (copy1 false false 0x80000080).word = 2 ∧
     findChute blk6 (cwTarget 0x80000080) = some ⟨0x80, 1, []⟩ ∧
     let h := chHdr s6 blk6 0x80; ((1 : Word) - h.rd).toNat ≠ h.nslot ∧ ((2 : Word) - h.rd).toNat = h.nslot) ∧
    (let c := copy1 true false 0; let s := sCopy c blk6; let b := { blk6 with copies := [c] }
     findLaunch s b.launch = some lau6 ∧ b.copies.find? (·.id == 7) = some c ∧ copyReady s c = true ∧
     let e : Eng := ⟨lau6, b, 0⟩; let p := pieces e s .sp .read 0x20 4
     p.1 = .ok [(.spad 2 0x20, 4)] ∧ (pieces e p.2 .sp .write (copyDst p.2 b c).toNat 4).1 = .ok [(.spad 2 0x100, 4)] ∧
     piecesUp p.2 [(.spad 2 0x20, 4)] = true ∧ ∃ z, (pieces e s .gm .read 0 4).1 = .error z) ∧
    (∀ w, w = 0 ∨ w = 0x40000005 ∨ w = 0xC0000040 → let c := copy1 true true w; let s := sCopy c blk6
      copyDrained s ⟨lau6, { blk6 with copies := [c] }, 0⟩ c = true ∧ collective lau6 c = false) ∧
    (readBar blk6 0x40).valid = true := by
  refine ⟨?_, ⟨by decide, by decide, rfl, by decide +kernel⟩, ⟨rfl, rfl, by decide +kernel, ⟨rfl, rfl, rfl, _, rfl⟩⟩, ?_, by decide +kernel⟩
  · rintro c (rfl | rfl) <;> exact ⟨rfl, rfl, by decide⟩
  · rintro w (rfl | rfl | rfl) <;> decide +kernel

def mxOp (n : Nat) (k : MxKind) (r : Mask) (st : MxState) : MxOp := ⟨n, k, 0, .f32, some .bf16, r, noRows, noRows, 5, some 0, st, 1, r, noRows, none, [], none⟩
/-- CacheMovesComplete, 07 R152: an operation that has read a unit of line 0 pins a dirty sector of it. -/
theorem test_pinned :
    let o := { mxOp 7 .mma 1 .queued with chk := some ([⟨0, [(.gm 0x40, 8)], 3, 0, 0, 0, 0⟩], []), got := [(0, [(1, false)])] }
    let s := { sMem [] [] with waves := [{ w0 with mxOps := [o] }], mem := { s0.mem with dirty := [1] } }
    s.memWf ∧ s.mem.dirty.contains 1 = true ∧ pinnedLine s (homeDie s (64 * 1)) (1 / 4) = true :=
  ⟨memWf_mk ⟨rfl, rfl⟩, by decide, by decide +kernel⟩

/-- The wave with engine operations and a closed batch of the first of them. -/
def wMx (l : List MxOp) : Wave := { w0 with mxOps := l, mxBatches := [⟨0, 0, 1, [7], 9, false⟩] }

/-- StreamerAndEngineInstructionsComplete, the engine: an empty and a full open set; a batch number that names no batch, a pending, a complete and a
faulted one. -/
theorem test_matrix_issue :
    Issuing s0 x0 ∧ x0.agrees .always ∧ (openOps w0).length < 256 ∧
    (let o := { mxOp 7 .mzero 1 .queued with batch := none }; let w := { w0 with mxOps := List.replicate 256 o }
     Issuing (stOf w blk2 lau1) (cx w (arm 0x1000) lau1) ∧ 256 ≤ (openOps w).length) ∧
    ((batchList w0).filter fun e => e.2 != .complete && !e.1.dropped).length < 16 ∧ namedBatch w0 0 = none ∧
    (let w := { w0 with mxOps := (List.range 16).map fun n => mxOp n .mzero 1 .queued
                        mxBatches := (List.range 16).map fun n => ⟨n, BitVec.ofNat 8 n, 1, [n], 20, false⟩ }
     Issuing (stOf w blk2 lau1) (cx w (arm 0x1000) lau1) ∧ 16 ≤ ((batchList w).filter fun e => e.2 != .complete && !e.1.dropped).length) ∧
    (∀ st r, (st = .queued ∧ r = .pending) ∨ (st = .done ∧ r = .complete) ∨ (st = .aborted ∧ r = .faulted) →
      let w := wMx [mxOp 7 .mzero 1 st]
      Issuing (stOf w blk2 lau1) (cx w (arm 0x1000) lau1) ∧ namedBatch w 0 = some (⟨0, 0, 1, [7], 9, false⟩, r) ∧
      ((oldestFault w ⟨0, 0, 1, [7], 9, false⟩).isSome = decide (r = .faulted))) := by
  refine ⟨test_issuing, agree_mk (by decide), by decide, ⟨issuing_mk rfl rfl rfl ⟨rfl, rfl, rfl, rfl⟩ rfl rfl rfl (by decide), by decide +kernel⟩,
    by decide, rfl, ⟨issuing_mk rfl rfl rfl ⟨rfl, rfl, rfl, rfl⟩ rfl rfl rfl (by decide), by decide +kernel⟩, ?_⟩
  rintro st r (⟨rfl, rfl⟩ | ⟨rfl, rfl⟩ | ⟨rfl, rfl⟩) <;>
    exact ⟨issuing_mk rfl rfl rfl ⟨rfl, rfl, rfl, rfl⟩ rfl rfl rfl (by decide), by decide +kernel, by decide +kernel⟩

/-- MatrixOperationCompletes: each kind of operation with one row whose bytes can be reached, one with a failing row, and one behind an
aborted one. -/
theorem test_matrix_operation :
    (∀ k, k = .mzero ∨ k = .mma ∨ k = .mlut ∨ k = .mld ∨ k = .mst → let o := mxOp 7 k 1 .queued; let w := wMx [o]; let s := stOf w blk2 lau1
      findWave s 3 = some w ∧ opOf w 7 = some o ∧ findBlock s w.blk = some blk2 ∧ findLaunch s w.launch = some lau1 ∧ o.st = .queued ∧
      let r := opRows ⟨lau1, blk2, 0⟩ w o s
      let t0 := updWave r.2.2.2 3 fun w => updOp w 7 fun o => { o with chk := some (r.1, r.2.1) }
      o.chk = none ∧ r.2.2.1 = [] ∧ (k = .mst → piecesUp t0 (r.1.flatMap MxRow.runs) = true ∧ mstReady t0 w o r.1 = true) ∧
      (k ≠ .mst → (rowUnits (r.1 ++ r.2.1)).all (rowReady t0 w o) = true) ∧ o.t < w.tiles.length) ∧
    (let o := { mxOp 7 .mld 1 .queued with chk := some ([], []) }
     o.chk.isSome = true ∧ (rowUnits (([] : List MxRow) ++ [])).all (rowReady s0 (wMx [o]) o) = true) ∧
    (let o := { mxOp 7 .mld 1 .queued with a := .replicate 32 65424 }; let w := wMx [o]
     (opRows ⟨lau1, blk2, 0⟩ w o (stOf w blk2 lau1)).2.2.1 ≠ []) ∧
    (let o := mxOp 8 .mld 1 .queued; let w := wMx [mxOp 7 .mld 1 .aborted, o]
     opOf w 8 = some o ∧ ∃ p ∈ ((w.mxOps.takeWhile fun p => p.id != 8).filter fun p => p.t == o.t), p.st ≠ .done ∧ p.st ≠ .queued) := by
  refine ⟨?_, by decide +kernel, by decide +kernel, rfl, by decide +kernel⟩
  rintro k (rfl | rfl | rfl | rfl | rfl) <;> exact ⟨rfl, rfl, rfl, rfl, rfl, rfl, by decide +kernel⟩

/-! #### Graphs, tasks and search -/

theorem ok_mk {α : Type} {e : Except Cause α} (h : e.toBool = true) : ∃ t, e = .ok t := by cases e <;> simp_all [Except.toBool]

/-- GraphIssueCompletes: an aligned descriptor that can be read. -/
theorem test_graph_issue : Issuing (s5 0) x5 ∧ x5.agrees .always ∧ (sDWord w5 0).toNat % 32 = 0 ∧
    ∃ t, (xlate (s5 0) lau1.lr.tenant lau1.lr.root (sDWord w5 0).toNat .read).1 = .ok t :=
  ⟨issuing5 0, agree_mk (by decide), by decide, ok_mk (by decide +kernel)⟩

/-- In place of the 1 GiB leaf, a table of 2 MiB pages: page 0 plain, page k, up to 16, for graphs on stack k - 1; tenant 0's root in the tenant
table, and a graph descriptor at 0x40. -/
def sPages (desc : List Byte) : State :=
  let s := s5 0
  let m := pokeEntry (pokeBytes s.mem 0x40 desc) (tableAt + 0x4000) (1 + (tableAt + 0x6000))
  let m := pokeEntry m (tableAt + 0x6000) (1 + 2 + 4 + 8 + 16 + 64)
  let m := (List.range 16).foldl (fun m k =>
    pokeEntry m (tableAt + 0x6010 + 16 * k) (1 + 2 + 4 + 16 + 32 + (k * 2 ^ 34 + 2 ^ 21) + k * 2 ^ 64)) m
  { s with mem := m, pf := memPutBytes s.pf (tenantEnt 0) (leBytes tableAt 8) }

/-- An operation of lane 0, on the graph with handle 0. -/
def gop (k : GKind) (u v : Option Nat) (p : GPhase) : GOp := ⟨7, ln, 0, 5, 9, 0, 1, k, 0, false, u, v, 6, 0, p, 1, false⟩
/-- A graph of two vertices on stack 0, with the edge from 0 to 1. -/
def gr (pend : List Nat) : Graph :=
  ⟨0, 0, 0, 2, 1, 1, 0, 0x200000, 0x200000, [(0, 0x200000, 0x200000)], 1, true, [(0, ⟨[⟨1, 5, 0⟩], 1, 1⟩), (3, ⟨[⟨0, 5, 0⟩], 1, 1⟩)], [], pend⟩
def pin0 : Pin := ⟨4, 0, 0, false, 0, 1, 1, [⟨1, 5, 0⟩], 0, 0, tableAt, none, ln⟩
def sG (o : GOp) (gs : List Graph) (ps : List Pin) : State :=
  { sPages [] with graph := { State.reset.graph with graphs := gs, ops := [o], pins := ps } }

/-- GraphMutationCompletes: no graph, a vertex out of range, each state of the edge at the reserve, and each later phase. -/
theorem test_graph_mutation :
    (let o := gop .gadd (some 0) (some 2) .start; let s := sG o [] []
     findGop s 7 = some o ∧ o.kind = .gadd ∧ gopReady s o = true ∧ findGraph s 0 0 = none ∧
     findGraph (sG o [gr []] []) 0 0 = some (gr []) ∧ vertexIn (gr []) o.v = none) ∧
    (∀ k ∈ [GKind.gadd, .gdel, .gwt], ∀ u ∈ [0, 1], ∀ v ∈ [0, 1], ∀ q ∈ [false, true],
      let o := gop k (some u) (some v) .start; let g := gr (if q then [edgeKey u v] else []); let s := sG o [g] []
      findGop s 7 = some o ∧ gopReady s o = true ∧ findGraph s 0 0 = some g ∧ u < g.cap ∧ v < g.cap ∧
      stackUp s 0 = true ∧ graphHome g u = 0 ∧ graphHome g v = 0 ∧ g.pending.contains (edgeKey u v) = q ∧
      (rankOf (gList g (listKey u false)) v).isSome = decide (u = 0 ∧ v = 1) ∧ g.pay ≠ 0 ∧
      stackFailed s 0 = false ∧ stackFailed { s with ffail := 1#32 <<< 9 } 0 = true) ∧
    (let g := gr []; let o := gop .gadd (some 1) (some 0) .start
     (reserveFits (sG o [g] []) o { g with resv := kvPut 0 1 1 (kvPut 0 2 1 []) } 1 0).1 = some true ∧
     (reserveFits (sG o [g] []) o { g with resv := kvPut 0 1 1 (kvPut 0 2 1 []), pages := [] } 1 0).1 = some false) ∧
    (kvWf list0 (gr []).lists = true ∧
     (let g := { gr [] with resv := [(listKey 0 false, 2 ^ 32 - 2)] }
      2 ^ 32 - 1 ≤ (gList g (listKey 0 false)).ents.length + kvGet 0 (listKey 0 false) g.resv)) ∧
    (∀ p ∈ [GPhase.inCommit, .outCommit, .finish], let o := gop .gdel (some 0) (some 1) p; findGop (sG o [gr []] []) 7 = some o ∧
      laneTurn (sG o [gr []] []) o = true ∧ findGraph (sG o [gr []] []) 0 0 = some (gr [])) := by
  refine ⟨?_, ?_, ?_, ?_, ?_⟩ <;> decide +kernel

/-- R262: a second lane's reserve at the same source waits for the first lane's commits, one at another source does not. -/
theorem test_lane_turn :
    let a := gop .gadd (some 0) (some 2) .inCommit
    let b := fun u : Nat => { gop .gadd (some u) (some 3) .start with id := 8, lane := ⟨a.lane.wave, a.lane.lane + 1⟩ }
    let s := fun u : Nat => { sG a [gr []] [] with graph := { (sG a [gr []] []).graph with ops := [a, b u] } }
    gopReady (s 0) (b 0) = false ∧ gopReady (s 1) (b 1) = true := by decide +kernel

def cur1 (st : BitVec 2) (rank : Word) : Cursor := ⟨1, rank, 4, 0, false, st⟩
/-- GraphReadCompletes: no graph; ranks with an entry and without, edges that are there and not; cursors closed, at an entry, at the end, ended. -/
theorem test_graph_read :
    (∀ k ∈ [GKind.gdeg, .gld, .gfind, .gver, .gopen], ∀ v ∈ [0, 1],
      let o := gop k (some 0) (some v) .start; let g := gr []; let s := sG o [g] []
      findGop s 7 = some o ∧ gopReady s o = true ∧ findGraph s 0 0 = some g ∧ findGraph (sG o [] []) 0 0 = none ∧ 0 < g.cap ∧ v < g.cap ∧
      stackUp s (graphHome g 0) = true ∧ o.dead = false ∧ findLaunch s o.launch = some lau1 ∧ pinPlace s lau1.lr (graphHome g 0) = some none ∧
      ((gList g 0).ents[0]? = some ⟨1, 5, 0⟩ ∧ (gList g 0).ents[1]? = none) ∧
      rankOf (gList g 0) 1 = some 0 ∧ rankOf (gList g 0) 0 = none ∧ stackFailed s (graphHome g 0) = false ∧
      (let t := { s with ffail := 1#32 <<< 9 }; findGop t 7 = some o ∧ gopReady t o = true ∧ findGraph t 0 0 = some g ∧
        stackFailed t (graphHome g 0) = true ∧ stackFailed t (graphHome g 1) = true)) ∧
    (∀ c ∈ [cur1 1 0, cur1 1 1, cur1 2 1], ∀ k ∈ [GKind.gnext c, .gcst c, .gclose c],
      let o := gop k none none .start; let s := sG o [gr []] [pin0]
      findGop s 7 = some o ∧ gopReady s o = true ∧ cursorOpen c = true ∧ cursorOpen .closed = false ∧ stackUp s c.home.toNat = true ∧
      stackFailed s c.home.toNat = false ∧ (let t := { s with ffail := 1#32 <<< 9 }; gopReady t o = true ∧ stackFailed t c.home.toNat = true) ∧
      (livePin s c).1 = some (pin0, gr [])) ∧
    (pin0.ents[(cur1 1 0).rank.toNat]? = some ⟨1, 5, 0⟩ ∧ pin0.ents[(cur1 1 1).rank.toNat]? = none ∧ (cur1 1 0).st ≠ 2 ∧ (cur1 2 1).st = 2) := by
  refine ⟨?_, ?_, ?_⟩ <;> decide +kernel

def img (e : List (Nat × Nat × Nat)) : GraphImg := ⟨0, 0x1000, 4, 0, 0x200000, e, (0x100000, 64)⟩
/-- Descriptors: legal, and of no capacity; their region is page 1. -/
def descOf (cap : Nat) : List Byte := leBytes cap 8 ++ [0, 1, 0, 0, 0, 0, 0, 0] ++ leBytes 0x200000 8 ++ leBytes 0x200000 8

/-- GraphLifeCompletes: `gfree` of a graph and of none; `gnew` of a descriptor that is legal and one that is not, in a region that qualifies and
one that another graph holds, with an index left and none; an image with no edge and one. -/
theorem test_graph_life :
    (let o := gop .gfree none none .start; let s := sG o [gr []] []
     findGop s 7 = some o ∧ gopReady s o = true ∧ findGraph s 0 0 = some (gr []) ∧ findGraph (sG o [] []) 0 0 = none ∧
     (s.graph.ops.any fun p => p.phase != .start && p.tenant == o.tenant && p.handle == o.handle) = false) ∧
    (∀ n ∈ [0, 1], ∀ k ∈ [0, 4], let got := (List.range k).map fun i => (i, (((descOf n).drop (8 * i)).take 8, false))
     let o := gop (.gnew (.gm 0x40) got) none none .start
     let s := { sPages (descOf n) with graph := { State.reset.graph with ops := [o] } }
     findGop s 7 = some o ∧ gopReady s o = true ∧ locUp s (.gm 0x40) = true ∧
     (k = 0 → ((List.range 4).filter fun i => !got.any (·.1 == i)) = [0, 1, 2, 3] ∧
       acqBlocked s o.lane o.isq = false ∧ ∀ i, i < 4 → readBefore s o.lane o.isq (.gm (0x40 + 8 * i)) 8 = false ∧ (readRun ⟨some o.lane, some ⟨o.lane, o.isq, true⟩, o.core, true, []⟩ (choose 4 s).2 (.gm (0x40 + 8 * i)) 8).isSome = true) ∧
     (k = 4 → (∀ i, i < 4 → got.any (·.1 == i) = true) ∧ got.flatMap (·.2.1) = descOf n ∧ got.any (·.2.2) = false) ∧
     (graphDesc (leNat (descOf n))).isSome = decide (n = 1)) ∧
    (let d : GDesc := ⟨1, 0, 1, 0, 0x200000, 0x200000⟩
     graphDesc (leNat (descOf 1)) = some d ∧ (regionOk (sPages []) 0 tableAt d).1.isSome = true ∧
     (regionOk { sPages [] with graph := { State.reset.graph with graphs := [gr []] } } 0 tableAt d).1 = none ∧
     (takeIndex State.reset.graph).isSome = true ∧ (takeIndex { State.reset.graph with fresh := 65536 }).isSome = false) ∧
    (∀ e ∈ [[], [(0, 3, 7)]], let m := img e; let s := sPages []; let d : GDesc := ⟨m.cap, m.pay, 0, 0, pcVa m.base, 2 ^ 25⟩
     let r := regionOk s m.tenant (tenantRoot s m.tenant) d
     1 ≤ m.cap ∧ m.pay ≤ 2 ∧ m.base % 2 ^ 21 = 0 ∧ m.handleVa % 4 = 0 ∧ (∀ e ∈ m.edges, e.1 < m.cap ∧ e.2.1 < m.cap) ∧
     (let at_ := graphHome (newGraph m.tenant 0 0 d []); ∀ e ∈ m.edges, stackUp s (at_ e.1) = true ∧ stackUp s (at_ e.2.1) = true) ∧
     (∀ l ∈ s.launches, l.lr.tenant = m.tenant → l.lr.code < pcVa m.code.1 ∨ pcVa m.code.1 + m.code.2 ≤ l.lr.code) ∧
     imageRan s m.tenant (tenantRoot s m.tenant) m.code = false ∧ r.1.isSome = true ∧
     (unitRange r.2 m.tenant (tenantRoot s m.tenant) .read (pcVa m.handleVa) 4).1.toBool = true) := by
  refine ⟨?_, ?_, ?_, ?_⟩ <;> decide +kernel

/-- A launch with the task stage 1, which may or may not bind slot 0. -/
def lau7 (n : Option Nat) : Launch := { lau1 with lr := { lau1.lr with search := n, stages := [⟨0, 0, none⟩, ⟨4, 0x1000, none⟩] }, quota := [(4, 1)] }
def rec1 (id cyc : Nat) : TaskRec := ⟨id, 0, 1, 1, 0, .replicate 16 0, none, 0, cyc, .replicate 4 0, none⟩
/-- Wave 3 with a split that waits at `qpush` for lane 0. -/
def wPush : Wave := wv [waiting (.qpush 1 0 1)]
def sTask (l : Launch) (r : List TaskRec) : State :=
  { stOf wPush blk2 l with fready := 0x7FFFFFFF, tasks := { State.reset.tasks with recs := r, nextPos := 1 }, dcyc := .replicate 4 100 }
def xTask (l : Launch) : Ctx := cx wPush (waiting (.qpush 1 0 1)) l

/-- TaskCompletes and QstatCompletes: a stage that is none, a task stage with room and one without, records to take and none, bounds on both sides of a core's copy. -/
theorem test_task :
    (Issuing s0 x0 ∧ taskStage lau1 1 = none) ∧
    (∀ n r, n = none ∨ n = some 0 → r = [] ∨ r = [rec1 1 0] ∨ r = List.replicate 4 (rec1 1 0) → let s := sTask (lau7 n) r; let x := xTask (lau7 n)
      Issuing s x ∧ taskStage x.l 1 = some ⟨4, 0x1000, none⟩ ∧ (x.guarded .always).act ≠ 0 ∧ x.w.hoop = false ∧
      ((byPos ((groupOn s 0 1 1).filter (·.spilled.isNone))).take 32).all (recCovered s 0) = true ∧
      (n = none → x.l.lr.search.map (fun n => (n, coreCopy s 0 n)) = none) ∧ (n = some 0 → coreCopy s 0 0 = worstKey) ∧
      (occupancy s 1 1 0 < 4 ↔ r ≠ List.replicate 4 (rec1 1 0))) ∧
    (let s := sTask (lau7 none) []; let x := xTask (lau7 none)
     lanesReleased s x.w 1 = true ∧ findWave s 3 = some wPush ∧ findSplit wPush 4 = some (waiting (.qpush 1 0 1)) ∧
     findLaunch s 1 = some (lau7 none) ∧ lowLane (1 &&& ~~~(waiting .none).qdone) = some 0 ∧ releaseOk s ⟨3, 0⟩ s.nid .device = true ∧
     (enqueue s wPush (lau7 none) 1 (group16 wPush 0 0) none).isSome = true) ∧
    (let w := { wPush with hoop := true }; Issuing { stOf w blk2 lau1 with nid := 10 } (cx w (waiting (.qpush 1 0 1)) lau1)) := by
  refine ⟨⟨test_issuing, rfl⟩, ?_, ⟨by decide +kernel, rfl, rfl, rfl, rfl, by decide +kernel, by decide +kernel⟩,
    issuing_mk rfl rfl rfl ⟨rfl, rfl, rfl, rfl⟩ rfl rfl rfl (by decide)⟩
  rintro n r (rfl | rfl) (rfl | rfl | rfl) <;>
    exact ⟨issuing_mk rfl rfl rfl ⟨rfl, rfl, rfl, rfl⟩ rfl rfl rfl (by decide), rfl, by decide, rfl, by decide +kernel, by decide, by decide +kernel, by decide +kernel⟩

theorem resident_replicate (l : Launch) (n : Nat) (q : List TaskRec) (h : q.filter (fun r => r.die == 0 && r.spilled.isNone) = []) :
    (residentOn (sTask l (q ++ List.replicate n (rec1 1 0))) 0).length = n := by
  have e : residentOn (sTask l (q ++ List.replicate n (rec1 1 0))) 0 =
      (q ++ List.replicate n (rec1 1 0)).filter fun r => r.die == 0 && r.spilled.isNone := by
    simp [residentOn, recsOn, sTask, List.filter_filter, Bool.and_comm]
  rw [e, List.filter_append, h, List.filter_replicate_of_pos (by rfl)]; simp

/-- VatMovesComplete: a full vat; nothing spilled; one free slot and one spilled record; a group of one record that is old enough. -/
theorem test_vat_moves :
    vatSlots ≤ (residentOn (sTask (lau7 none) ([] ++ List.replicate vatSlots (rec1 1 0))) 0).length ∧
    (∀ r ∈ recsOn (sTask (lau7 none) []) 0, r.spilled = none) ∧
    (let r := { rec1 2 0 with spilled := some 0x2000 }; let s := sTask (lau7 none) ([r] ++ List.replicate (vatSlots - 1) (rec1 1 0))
     vecGet s.tasks.reloads 0 0 < 4 ∧ (residentOn s 0).length + 1 = vatSlots ∧ (recsOn s 0).filter (·.spilled.isSome) = [r] ∧ r.tenant < 64 ∧ recSlot s r = none ∧
     ∀ q ∈ s.tasks.recs, q.id = r.id → q = r) ∧
    (let s := { sTask (lau7 none) [rec1 1 0] with begun := .replicate 4 false }
     findLaunch s 1 = some (lau7 none) ∧ vecGet s.begun true 0 = false ∧ groupForms s (lau7 none) 0 1 0 = true ∧ groupFirst s (lau7 none) 0 1 0 = true ∧
     ((waitingAt s 0 1 1).take 32).all (recCovered s 0) = true) := by
  refine ⟨?_, by decide, ⟨by decide, ?_, ?_, by decide, rfl, ?_⟩, rfl, rfl, by decide +kernel, by decide +kernel, by decide +kernel⟩
  · exact Nat.le_of_eq (resident_replicate _ _ _ rfl).symm
  · rw [resident_replicate _ _ _ rfl]; decide
  · simp [recsOn, sTask, rec1]
  · intro q h e
    rcases List.mem_cons.1 h with h | h
    · exact h
    · rw [(List.mem_replicate.1 h).2] at e; cases e

/-- SearchCompletes: a launch with a slot and without; keys below and equal to the slot's; a commit vector that the die has and one that it has
not; copies of a core and of a vat. -/
theorem test_search :
    (Issuing s0 x0 ∧ x0.l.lr.search = none) ∧
    (let x := xTask (lau7 (some 0)); Issuing (sTask (lau7 (some 0)) []) x ∧ x.l.lr.search = some 0 ∧
     ((lanesOf (x.guarded p1).act).filter fun l => (coreCopy (sTask (lau7 (some 0)) []) 0 0).toNat ≤ (laneGet x.w.tbnd 0 l).toNat) = [] ∧
     (let w := { wPush with tbnd := .replicate 32 worstKey }; let x := cx w (waiting (.qpush 1 0 1)) (lau7 (some 0))
      Issuing (stOf w blk2 (lau7 (some 0))) x ∧
      ((lanesOf (x.guarded .always).act).filter fun l => (coreCopy s0 0 0).toNat ≤ (laneGet w.tbnd 0 l).toNat) ≠ [])) ∧
    (∀ k, k = .incmin 0 1 ∨ k = .incmin worstKey 1 ∨ k = .incld false none ∨ k = .incld true (some (0, 0, .replicate 4 0)) →
      let o : SOp := ⟨7, ln, 0, 5, 0, 9, k⟩
      let s := { s5 0 with search := { State.reset.search with ops := [o] } }
      s.search.ops.find? (·.id == 7) = some o ∧ searchUp s = true ∧ searchFailed s = false ∧ sopFirst s o = true ∧ acqBlocked s ln 5 = false ∧ relBlocked s ln 5 = false ∧
      releaseOk s ln 5 .device = true ∧ vLe (slotOfInc s 0).vec (vecOf s 0) = true ∧ vLe (.replicate 4 0) (vecOf s 0) = true) ∧
    (0 < worstKey.toNat ∧ vLe (.replicate 4 1) (vecOf s0 0) = false) ∧
    (∀ h, h = .core 767 ∨ h = .vat 3 → let b : Bcast := ⟨7, 0, 5, h, 0⟩
      ({ State.reset with search := { State.reset.search with bcasts := [b] } }).search.bcasts.find? (·.id == 7) = some b) := by
  refine ⟨⟨test_issuing, rfl⟩, ⟨issuing_mk rfl rfl rfl ⟨rfl, rfl, rfl, rfl⟩ rfl rfl rfl (by decide), rfl, by decide +kernel,
    issuing_mk rfl rfl rfl ⟨rfl, rfl, rfl, rfl⟩ rfl rfl rfl (by decide), by decide +kernel⟩, ?_, by decide +kernel, ?_⟩
  · rintro k (rfl | rfl | rfl | rfl) <;> exact ⟨rfl, by decide +kernel⟩
  · rintro h (rfl | rfl) <;> rfl

/-! #### The cave level -/

/-- A program on stack core 0 of stack 0, and its state where one of its instructions executes. -/
def sP : State := { placeCave State.reset 0 with curCave := some ⟨0, 0, false⟩ }
def u0 : CurCave := ⟨0, 0, false⟩
def xP : CaveCtx := (ctxGet sP u0).getD default
/-- The same, the program's context being `x`. -/
def sX (x : CaveCtx) : State := ctxPut sP u0 (some x)
theorem runs (x : CaveCtx) : CaveRuns (sX x) u0 x := by
  refine ⟨rfl, ?_⟩
  have h : kvWf SkCore.reset sP.cave.cores = true := by decide +kernel
  simp only [ctxGet, sX, ctxPut, skGet, skUpd, u0, kvGet_put_same h, Bool.false_eq_true, if_false]

/-- CaveScalarCompletes: a target that is not aligned, one that cannot be fetched, and one that can. -/
theorem test_cave_scalar : CaveRuns (sX xP) u0 xP ∧ (0x1004 % 8 ≠ 0) ∧ (caveFetch (sX xP) u0 xP (pcOf 0x80000000)).1 = none ∧
    (caveFetch (sX xP) u0 xP (pcOf 0x1008)).1.isSome = true := ⟨runs xP, by decide, by decide +kernel, by decide +kernel⟩

/-- An access to the units `l` at 0x2000, what it has read of the others being zeros. -/
def micro1 (i : Instr) (l : List Nat) : Micro :=
  ⟨0, i, 0x2000, 0x2000, BitVec.allOnes 64, .val zeroV, .val zeroV, .val zeroV, true, l,
    ((List.range 16).filter fun k => !l.contains k).map fun k => (k, some (List.replicate 8 0))⟩
def vld0 : Instr := .caveVld ⟨7, true, false, false, 0, 3, 0⟩
def vst0 : Instr := .caveVst ⟨7, true, false, false, 0, 3, 0⟩
theorem units_read (x : CaveCtx) (i : Instr) : UnitsRead (sX x) 0 (micro1 i [5]) 5 := by
  refine ⟨by decide, ?_, by show ∀ j, j < 16 → j ≠ 5 → ∃ g ∈ (micro1 .nop [5]).got, g.1 = j; decide, ?_⟩
  · show ∀ g ∈ (micro1 .nop [5]).got, g.2 = some (viewBytes sP (dieOfStack 0) (0x2000 + 8 * g.1) 8)
    decide +kernel
  · show anyViewPsn sP (dieOfStack 0) (0x2000 + 8 * 5) 8 = false
    decide +kernel

/-- CaveAccessCompletes: the ends of local memory and of the declared range, and the addresses beyond them; the last unit of a vector load and of
a vector store. -/
theorem test_cave_access : CaveRuns (sX xP) u0 xP ∧ xP.settled [0, 15] ∧
    (∀ acc ∈ [Acc.read, .write], ∀ n ∈ [1, 8, 128],
      (caveCheck (sX xP) u0 xP false n (2 ^ 20 - n) n acc).1.toBool = true ∧ (caveCheck (sX xP) u0 xP true n 0 n acc).1.toBool = true ∧
      (caveCheck (sX xP) u0 xP false n (2 ^ 20) n acc).1.toBool = false) ∧
    (caveCheck (sX xP) u0 xP true 8 4 8 .read).1.toBool = false ∧
    ((micro1 vld0 [5]).left = [5] ∧ (micro1 vld0 [5]).instr = vld0 ∧ (micro1 vst0 [5]).instr = vst0 ∧ UnitsRead (sX xP) 0 (micro1 vld0 [5]) 5) := by
  refine ⟨runs xP, ?_, by decide +kernel, by decide +kernel, rfl, rfl, rfl, units_read _ _⟩
  intro r h
  simp only [List.mem_cons, List.not_mem_nil, or_false] at h
  rcases h with rfl | rfl <;> decide

/-- A program with one micro-instruction in its stream. -/
def xM (i : Instr) (l : List Nat) : CaveCtx := { xP with micro := [micro1 i l] }
/-- CaveVectorCompletes: all registers settled, and one that a micro-instruction still gives. -/
theorem test_cave_vector : CaveRuns (sX xP) u0 xP ∧ xP.settled [0, 1, 2] ∧
    (let x := xM (.caveVfma true ⟨7, .f32, 2, 0, 1⟩) []; CaveRuns (sX x) u0 x ∧ ¬x.settled [0, 1, 2]) := by
  refine ⟨runs xP, ?_, runs _, fun h => absurd (h 2 (by decide)) (by decide)⟩
  intro r h
  simp only [List.mem_cons, List.not_mem_nil, or_false] at h
  rcases h with rfl | rfl | rfl <;> decide

def cmsg1 : CaveMsg := ⟨9, 0, 7, 0, 0, .replicate 4 0, none⟩
/-- A program beside which a region waits on its stack. -/
def sWaits : State := { sX xP with cave := { (sX xP).cave with
  works := { sentWork 7 0 0 cmsg1 with kind := .mig, dispatched := true, placed := 0 } :: (sX xP).cave.works } }
/-- CaveControlCompletes: an empty stream and one that is not, a full message queue and one that is not, an instance and a region, something to
yield to and nothing; and each kind of micro-instruction at the head of a stream. -/
theorem test_cave_control :
    (CaveRuns (sX xP) u0 xP ∧ xP.micro = [] ∧ ¬32 ≤ (skGet (sX xP) 15 15).msgs.length ∧ (∀ w, xP.kind ≠ .region w) ∧ yieldsTo (sX xP) 0 xP = none) ∧
    32 ≤ (skGet (skUpd (sX xP) 15 15 fun k => { k with msgs := List.replicate 32 cmsg1 }) 15 15).msgs.length ∧
    (let x := { xP with kind := .region 1 }; CaveRuns (sX x) u0 x ∧ x.micro = [] ∧ x.kind = .region 1) ∧ (yieldsTo sWaits 0 xP).isSome = true ∧
    (∀ p ∈ [(Instr.caveVfma true ⟨7, .f32, 2, 0, 1⟩, []), (.caveVred ⟨7, true, .add, .f32, 3, 2⟩, []), (vst0, []), (vst0, [5]), (vld0, [5]),
        (vld0, [5, 6])], let x := xM p.1 p.2
      CaveRuns (sX x) u0 x ∧ x.micro = [micro1 p.1 p.2] ∧ skUp (sX x) 0 = true ∧ microPending (sX x) ⟨0, 0, true⟩ = false ∧ p.2.Nodup) ∧
    UnitsRead (sX (xM vld0 [5])) 0 (micro1 vld0 [5]) 5 := by
  refine ⟨⟨runs xP, rfl, by decide +kernel, fun w h => CaveKind.noConfusion h, by decide +kernel⟩, by decide +kernel, ⟨runs _, rfl, rfl⟩, by decide +kernel, ?_, units_read _ _⟩
  intro i h
  simp only [List.mem_cons, List.not_mem_nil, or_false] at h
  rcases h with rfl | rfl | rfl | rfl | rfl | rfl <;> exact ⟨runs _, rfl, by decide +kernel, by decide +kernel, by decide⟩

/-- A wave with a ticket of the work 20, completed or not. -/
def wTk (done : Option CaveStatus) (k : Wait) : Wave := { wv [waiting k] with p := vecSet w0.p 1 1, tickets := [⟨0, 20, done, false, false⟩] }
/-- A record at 0x40 for the range `r`. -/
def sRec (r : List Byte) : State := let s := s5 0; { s with mem := pokeBytes s.mem 0x40 (r ++ [1, 0, 0, 0, 0, 0, 0, 0, 0, 0, 0, 0, 0, 0, 0, 0]) }
def okStatus (c : Nat) : CaveStatus := { CaveStatus.zero 0 0 with code := c }
/-- CaveCallsComplete: a record whose range qualifies and one whose range does not, a ticket that is none, pending, completed and failed, and a
region that starts and one that is over. -/
theorem test_cave_calls :
    (Issuing (s5 0) x5 ∧ x5.agrees .always ∧ x5.w.tickets.length < 16 ∧ splitReleased (s5 0) x5 .device = true ∧ x5.w.tickets.find? (·.num == 0) = none) ∧
    (let f := fun base => let s := sRec (leBytes base 8 ++ leBytes 256 8); (readRecord s x5 (.gm 0x40)).map fun e =>
       (recordOk e.1.1 e.1.2.1 e.1.2.2.1 e.1.2.2.2, (rangeQualifies e.2 1 0 e.1.1 e.1.2.1).1.isSome)
     f 0x2000 = some (true, true) ∧ f 0x4000_0000 = some (true, false)) ∧
    ((xlate (sRec []) 0 tableAt 0x40 .read).1.toBool = true ∧ 0x40 % 32 = 0 ∧ queued (s5 0) 0 < 64 ∧ (skGet (s5 0) 15 15).msgs.length < 32) ∧
    (∀ d ∈ [none, some (okStatus 0), some (okStatus 2)], let w := wTk d .none
      Issuing (stOf w blk2 lau1) (cx w (waiting .none) lau1) ∧ w.tickets.find? (·.num == 0) = some ⟨0, 20, d, false, false⟩) ∧
    ((okStatus 2).code ≠ 0 ∧ (okStatus 0).code = 0) ∧
    ((∀ t, x5.p.wait ≠ .mig t) ∧ ~~~x5.w.exited &&& ~~~x5.p.members = 0 ∧ (rangeQualifies (s5 0) 1 0 0x2000 256).1.isSome = true) ∧
    (∀ c ∈ [0, 2], let w := wTk (some (okStatus c)) (.mig 0)
      let s := { stOf w blk2 lau1 with cave := { State.reset.cave with works := [{ sentWork 20 1 0 cmsg1 with kind := .mig, wave := 3, fin := true }] } }
      Issuing s (cx w (waiting (.mig 0)) lau1) ∧ (findWork s 20).isSome = true ∧ w.tickets.find? (·.num == BitVec.ofNat 16 0) = some ⟨0, 20, some (okStatus c), false, false⟩) := by
  refine ⟨⟨issuing5 0, agree_mk (by decide), by decide, by decide +kernel, by decide⟩, by decide +kernel, by decide +kernel, ?_, by decide,
    ⟨fun _ h => Wait.noConfusion h, by decide, by decide +kernel⟩, ?_⟩
  · intro d h
    simp only [List.mem_cons, List.not_mem_nil, or_false] at h
    rcases h with rfl | rfl | rfl <;> exact ⟨issuing_mk rfl rfl rfl ⟨rfl, rfl, rfl, rfl⟩ rfl rfl rfl (by decide), rfl⟩
  · intro c h
    simp only [List.mem_cons, List.not_mem_nil, or_false] at h
    rcases h with rfl | rfl <;> exact ⟨issuing_mk rfl rfl rfl ⟨rfl, rfl, rfl, rfl⟩ rfl rfl rfl (by decide), rfl, rfl⟩

/-- Work on stack 0. -/
def work1 (k : WorkKind) (disp : Bool) : Work := { sentWork 7 1 0 cmsg1 with kind := k, dispatched := disp, wave := 3, placed := 0 }
def sW (ws : List Work) : State :=
  { stOf w0 blk2 lau1 with fready := 0x7FFFFFFF, cave := { State.reset.cave with works := ws } }
/-- A handler table entry, on, for tenant `t`. -/
def hand1 (t : Nat) : List Byte := leBytes 0x1000 8 ++ leBytes 0 8 ++ leBytes 256 8 ++ leBytes t 4 ++ leBytes 1 4
/-- CaveMovesComplete: the dispatch and the completion of work, awaited and not; a region, an instance, a pre-empted program to start; a
victim; a message for a handler that is off, one that is on, and one of another tenant. -/
theorem test_cave_moves :
    (let w := work1 .cdisp false; findWork (sW [w]) 7 = some w ∧ w.kind ≠ .msg ∧ skUp (sW [w]) 0 = true ∧ ctlRuns (sW [w]) 5 = true ∧ vLe w.vec (vecOf (sW [w]) (dieOfStack 0)) = true) ∧
    (∀ k ∈ [WorkKind.mig, .cdisp], let w := { work1 k true with nskc := 1, ended := [(0, okStatus 0)] }; let s := sW [w]
      findWork s 7 = some w ∧ w.fin = false ∧ w.nskc ≤ w.ended.length ∧ awaited (completeTicket (closeRange s 7 0) w (workStatus w)) w = (k == .mig)) ∧
    (let w := work1 .mig true; let s := sW [w]; (freeCores s 0).contains 15 = true ∧ waitingRegion s 0 = some w ∧ w.dispatched = true ∧
      skHeld s 0 15 = false) ∧
    (let w := { work1 .cdisp true with nskc := 1 }; let s := sW [w]; waitingRegion s 0 = none ∧ waitingInst s 0 = some w ∧ (freeCores s 0).head? = some 0 ∧
      s.cave.preempted.filter (·.1 == 0) = [] ∧ reservedWork s 0 = none ∧
      let t := skUpd s 0 3 fun k => { k with resv := some 7 }; reservedWork t 0 = some w ∧ w.dispatched = true ∧ (freeCores t 0).head? = some 0 ∧ waitingRegion t 0 = none) ∧
    (let s := { sW [] with cave := { State.reset.cave with preempted := [(0, xP)] } }; waitingRegion s 0 = none ∧ reservedWork s 0 = none ∧ (freeCores s 0).contains 15 = true) ∧
    (let s := (List.range 16).foldl (fun s c => setProg s 0 c { xP with started := c }) (sW [work1 .mig true])
     (preemptVictim s 0).isSome = true ∧ (skGet s 0 0).hand = none ∧ xP.micro = [] ∧ xP.part = none) ∧
    (∀ m ∈ [none, some 7], ∀ n ∈ [0, 1],
      let s := skUpd (sW [work1 .msg true]) 0 0 fun k => { k with msgs := [{ cmsg1 with work := m }], table := memPutBytes .empty 0 (hand1 n) }
      (skGet s 0 0).hand = none ∧ skUp s 0 = true ∧ skHeld s 0 0 = false ∧ midAccess s 0 0 = false ∧ (skGet s 0 0).msgs = [{ cmsg1 with work := m }] ∧ vLe cmsg1.vec (vecOf s 0) = true ∧
      (readHand (skGet s 0 0).table 0).on = true ∧ (readHand (skGet s 0 0).table 0).tenant = n ∧ (readHand (skGet s 0 0).table 32).on = false) := by
  refine ⟨by decide +kernel, by decide +kernel, by decide +kernel, by decide +kernel, by decide +kernel, by decide +kernel, by decide +kernel⟩

/-! #### The dispatcher, the host, the fabric, and the package as a whole -/

/-- All units ready, controllers armed, the tables and code of `s5`, tenant 0's entry, and no wave. -/
def sD (prio : Nat) : State := { s5 0 with
  waves := [], blocks := [], launches := []
  ctls := .replicate 21 { Ctl.reset with phase := .armed }
  pf := memPutBytes (s5 0).pf (tenantEnt 0) (leBytes (tableAt + 1 + 2 ^ 30 * 2 ^ 128 + 2 ^ 192 + prio * 2 ^ 208 + 2 * 2 ^ 216 + 2 ^ 240 + 2 ^ 704) 96) }
/-- A launch record: one block of 32 threads on core 0 at the code line, of priority `p`, with search slot byte `k`. -/
def rec0 (p k : Nat) : List Byte :=
  leBytes (1 + p * 2 ^ 48 + 0x1000 * 2 ^ 64 + 2 ^ 128 + 32 * 2 ^ 160 + k * 2 ^ 184 + 8 * 2 ^ 352 + 0xFF * 2 ^ 376 + 2 ^ 496 + 2 ^ 1568) 256
def sQ (bs : List Byte) : State := { sD 1 with fabric := { State.reset.fabric with queue := [⟨0, bs⟩] } }

/-- AdmissionCompletes: no head; a record with a bad field, one above its tenant's priority, and one that passes, without a slot and with one. -/
theorem test_admission :
    (admits (sD 1) = true ∧ serve (sD 1).rrpos (hostHeads (List.range 64) (sD 1)).1 = none) ∧
    (∀ bs ∈ [leBytes 2 256, rec0 2 0, rec0 1 0, rec0 1 0x85], admits (sQ bs) = true ∧ dspadRoom (hostHeads (List.range 64) (sQ bs)).2 (leNat bs) = true ∧ serve 0 [(64, bs, 0)] = some (64, bs, 0)) ∧
    (recOk (leNat (leBytes 2 256)) = false ∧ ∀ bs ∈ [rec0 2 0, rec0 1 0, rec0 1 0x85], recOk (leNat bs) = true) ∧
    (let c := fun bs => let s := sQ bs; (admitChecks s (mkLaunch s (leNat bs) 0 64)).1
     c (rec0 2 0) = some 12 ∧ c (rec0 1 0) = none ∧ c (rec0 1 0x85) = none) ∧
    (let bs := leBytes (leNat (rec0 1 0) + 2 ^ 20 * 2 ^ 448) 256
     let s := { sQ bs with launches := [{ lau1 with lr := { lau1.lr with dspad := 48 * 2 ^ 20 } }] }
     admits s = true ∧ serve 0 [(64, bs, 0)] = some (64, bs, 0) ∧ dspadRoom (hostHeads (List.range 64) s).2 (leNat bs) = false) ∧
    ((mkLaunch (sD 1) (leNat (rec0 1 0)) 0 64).lr.search = none ∧ (mkLaunch (sD 1) (leNat (rec0 1 0x85)) 0 64).lr.search = some 5) := by
  refine ⟨by decide +kernel, by decide +kernel, by decide +kernel, by decide +kernel, by decide +kernel, by decide +kernel⟩

/-- A launch on two cores, with one block to start or none. -/
def lau8 (todo : List (Nat × Nat)) : Launch :=
  { lau1 with todo := todo, quota := [(0, 1)], lr := { hostRec with ncores := 2, steal := true, ctxBase := 0x100000, ctxLen := 0x100000 } }
def sL (w : List Wave) (b : List Block) (todo : List (Nat × Nat)) : State :=
  { sD 1 with waves := w, blocks := b, launches := [lau8 todo], dcyc := .replicate 4 1, begun := .replicate 4 false }
/-- PlacementCompletes: a block to start on its own core and one to steal, a launch that is over, a block whose waves have ended, and a quota boundary. -/
theorem test_placement :
    (let s := sL [] [] [(0, 1)]; let l := lau8 [(0, 1)]
     findLaunch s 1 = some l ∧ (instCores l.lr 0).all (startsNow s l) = true ∧ outranked s l (instCores l.lr 0) = false ∧ (instCores l.lr 0).any (savedFirst s l) = false ∧
     nextInstance l 0 = some 0 ∧ (startInstance s l 0 0).isSome = true ∧ gang l.lr = 1 ∧ gangQuota s l 0 = true ∧ coreInGang l.lr 0 0 = 0 ∧
     coreOpen s 0 = true ∧ fitsOn s 0 (Machine.need l.lr 1 1) = true ∧ (depsMet s l 0 0).1 = true ∧
     let t := { s with vacated := [0] }
     findLaunch t 1 = some l ∧ l.lr.steal = true ∧ mayUse l.lr 1 = true ∧ (gangCores l.lr 1).all (startsNow t l) = true ∧ headInstance l 1 = none ∧
     (gangCores l.lr 1).any (savedFirst t l) = false ∧ outranked t l (gangCores l.lr 1) = false ∧ donor l = some 0 ∧ lastInstance l 0 = some 0 ∧
     ownerStarts t l 0 = false ∧ (startInstance t l 1 0).isSome = true) ∧
    (let s := sL [] [] []; (lau8 []).todo = [] ∧ s.blocks.all (·.launch != 1) = true ∧ s.saved.all (·.blk.launch != 1) = true ∧
      s.tasks.recs.all (·.launch != 1) = true ∧ s.cave.works.all (·.launch != 1) = true ∧ s.mem.remoteW.all (·.lane != bmpKey 1) = true ∧ ctlRuns s 1 = true ∧ (completionCovered s (lau8 [])).1 = true) ∧
    (∀ w ∈ (sL [w0] [blk2] []).waves, w.uid < (sL [w0] [blk2] []).nid ∧ w.blk < (sL [w0] [blk2] []).nid) ∧
    (∀ h ∈ [false, true], ∀ r ∈ [none, some (.replicate 4 0)], let b := { blk2 with hoop := h, mode := .ended r }
      let w := { wv [] with exited := allLanes }; let k := { lau8 [] with lr := { (lau8 []).lr with bitmap := 0x2000 } }
      let s := { sL [w] [b] [] with launches := [k] }
      findBlock s 2 = some b ∧ blockDone s b = true ∧ findLaunch s 1 = some k ∧ (setBitmap s k b.bid (.replicate 4 0)).isSome = true ∧
      blockDone (sL [w] [b] []) b = true ∧ (lau8 []).lr.bitmap = 0) ∧
    (let s := { sD 1 with dcyc := .replicate 4 1024 }; (vecGet s.dcyc 0 3).toNat % 1024 = 0 ∧ vecGet s.dcyc 0 3 ≠ vecGet s.quotaAt 0 3 ∧
      (vecGet s.ctls .reset 1).phase = .armed) := by
  refine ⟨by decide +kernel, by decide +kernel, by decide +kernel, by decide +kernel, by decide +kernel⟩

def sV (m : BlkMode) (ret e : Nat) (idemp : Bool) (len : Nat) : State :=
  let s := sL [w0] [{ blk2 with mode := m, ret := ret }] []
  { s with vacated := [0], dcyc := .replicate 4 1048576
           launches := [{ lau8 [] with lr := { (lau8 []).lr with e := e, idemp := idemp, ctxLen := len } }] }
theorem place_two {b n m : Nat} (hb : b % 64 = 0) (hn : 0 < n) (hm : 0 < m) : (placeRecs b (alignUp n + m) [n, m] []).isSome = true := by
  have h1 : firstGap b (alignUp n + m) n [] = some b := by
    have : n ≤ alignUp n + m := by unfold alignUp; omega
    simp [firstGap, this]
  have h2 : (firstGap b (alignUp n + m) m [(b, n)]).isSome = true := by
    have h : alignUp (b + n) = b + alignUp n := by unfold alignUp; omega
    have g : n ≤ alignUp n := by unfold alignUp; omega
    simp [firstGap, h, hn, hm, g, Nat.add_assoc]
  obtain ⟨c, hc⟩ := Option.isSome_iff_exists.1 h2
  simp [placeRecs, h1, hc]
theorem one_place (s : State) (l : Launch) (b : Block) (u : List (Nat × Nat)) :
    (recPlaces s l [b] u).isSome = (placeRecs l.lr.ctxBase l.lr.ctxLen (recLens s b l) u).isSome := by
  simp only [recPlaces, Option.map_some]; cases placeRecs l.lr.ctxBase l.lr.ctxLen (recLens s b l) u <;> rfl
theorem place_none {b n : Nat} {r : List Nat} (hn : 0 < n) : (placeRecs b 0 (n :: r) []).isSome = false := by
  have : ¬ b + n ≤ b := by omega
  simp [placeRecs, firstGap, List.filter, this]
/-- A context region that the records of block 2 and its one wave just fill, however long their opaque parts are. -/
def room : Nat := alignUp (blockRecLen (lau8 []).lr 1) + waveRecLen w0
/-- PreemptionCompletes: an estimate at each side of PDRAIN and of PFLUSH, with and without room for a save; a drain whose limit has passed; a save, a
flush; a restore of a context that is whole, of one that is not, and a restart. -/
theorem test_preemption :
    (∀ r ∈ [0, 1], ∀ i ∈ [false, true], ∀ n ∈ [0, 0x100000], let s := sV .run r 1 i n; let b := { blk2 with ret := r }
      findBlock s 2 = some b ∧ (findLaunch s b.launch).isSome = true ∧ allExited s 2 = false ∧ (∀ l ∈ s.launches, matesHold s b l = false) ∧ holdsRegion s b = false ∧ vecGet s.begun true 0 = false ∧ mustGo s b = true ∧
      (s.pdrain.toNat ≤ estimate 1 r ↔ r = 1) ∧ estimate 1 0 ≤ s.pflush.toNat) ∧
    (∀ n ∈ [0, room], ∀ l ∈ (sV .run 0 1 false n).launches, (let s := sV .run 0 1 false n; recPlaces s l (saveMates s l blk2) (usedRecs s l.lr.tenant)).isSome = (n != 0)) ∧
    (let s := sV (.drain 0) 0 1 false 0x100000; let b := { blk2 with mode := .drain 0 }
     findBlock s 2 = some b ∧ 0 + 1048576 ≤ (vecGet s.dcyc 0 (dieOfCore 0)).toNat ∧ vecGet s.begun true (dieOfCore 0) = false ∧ ∀ l ∈ s.launches, matesHold s b l = false) ∧
    (∀ m ∈ [BlkMode.saving, .flushing], let s := sV m 0 1 true 0x100000; let b := { blk2 with mode := m }
      findBlock s 2 = some b ∧ blockQuiet s b = true ∧ holdsRegion s b = false ∧ ∀ l ∈ s.launches, modeMates s l b = [b]) ∧
    (∀ r ∈ [false, true], ∀ o ∈ [[], [(2 ^ 40, 0)]], let v : Saved := ⟨blk2, [], [(0x2000, 64)], o, 0, .replicate 4 0, r⟩
      let l := { lau8 [] with lr := { (lau8 []).lr with lpriv := 0 } }
      let s := { sL [] [] [] with saved := [v], launches := [l] }
      s.saved.find? (·.blk.uid == 2) = some v ∧ findLaunch s 1 = some l ∧ vecGet s.begun true 0 = false ∧ placesFor s l (mayBack s l) v 0 = true ∧
      (opaqueIntact s l o).1 = o.isEmpty ∧ l.lr.lpriv = 0 ∧ (loadRec (opaqueIntact s l o).2 l 0x2000 64).1.isSome = true) := by
  refine ⟨by decide +kernel, ?_, by decide +kernel, by decide +kernel, by decide +kernel⟩
  intro n h l hl
  obtain rfl := List.mem_singleton.1 hl
  simp only [List.mem_cons, List.not_mem_nil, or_false] at h
  have hb : 0 < blockRecLen (lau8 []).lr 1 := by
    have : (lau8 []).lr.spad = 65536 := rfl
    rw [blockRecLen, this]; omega
  have hw : 0 < waveRecLen w0 := by simp only [waveRecLen]; omega
  have hr : (room != 0) = true := by simp only [room, bne_iff_ne]; omega
  rcases h with rfl | rfl
  · show (recPlaces (sV .run 0 1 false 0) _ [blk2] []).isSome = false
    rw [one_place]; exact place_none hb
  · rw [hr]
    show (recPlaces (sV .run 0 1 false room) _ [blk2] []).isSome = true
    rw [one_place]; exact place_two (by decide) hb hw

/-- A queue of four entries, one of them submitted. -/
def vr : VfRegs := ⟨0, 4, 1, 0, 0, 0, 0, 0, 0, none, none, []⟩
/-- HostCompletes: QTAIL at the queue's length and beyond it, and back over entries not read; aligned and misaligned invalidations, one to complete;
held writes; a unit whose boundary has come; a store inside storage and at its end. -/
theorem test_host :
    (((4 - vr.qhead).toNat ≤ vr.qlen.toNat ∧ (vr.qtail - vr.qhead).toNat ≤ (4 - vr.qhead).toNat) ∧ vr.qlen.toNat < (5 - vr.qhead).toNat ∧
     (0 - vr.qhead).toNat ≤ vr.qlen.toNat ∧ (0 - vr.qhead).toNat < (vr.qtail - vr.qhead).toNat) ∧
    (invOk 0x1000 0x1000 = true ∧ invOk 0x1001 0x1000 = false ∧ ctlRuns (sD 1) 3 = true) ∧
    (let s := vfPut State.reset 63 fun r => { r with heldBase := some 0, invq := [(1, 0, 0x1000, 0)] }
     ((vfGet s 63).heldBase.isSome ∧ (vfGet s 63).qhead = (vfGet s 63).qtail) ∧ (vfGet s 63).invq = [(1, 0, 0x1000, 0)]) ∧
    (pfUnit 0x1000 128 = some uDispatch ∧ pfUnit 0x90100 10 = some uMemory) ∧
    (∀ u ∈ [0, 6, 24, 279], let s := { sD 1 with held := [⟨u, 0x1000, [1]⟩], heldFor := [(u, 2 ^ 20)] }
      (∃ h ∈ s.held, h.unit = u) ∧ heldDue s u = true ∧ heldDue { s with heldFor := [] } u = false ∧ atBoundary s u = true ∧ 2 ^ 20 ≤ kvGet 0 u s.heldFor ∧ canForce s u = true) ∧
    (inStorage 0 = true ∧ inStorage (hbmSize - 1) = true ∧ inStorage hbmSize = false) := by
  refine ⟨by decide, by decide +kernel, by decide +kernel, by decide +kernel, by decide +kernel, by decide +kernel⟩

def sCtl (f : Ctl → Ctl) : State := { sD 1 with ctls := .replicate 21 (f { Ctl.reset with phase := .armed }) }
/-- ServiceCompletes: a row that is not listed, and ones at score 6 and 7 and clean 15 and 16; a region to clear; a counter; handler tables that
qualify and that do not; a controller busy and not, with and without a staged image; watchdogs that are due; supplies of 9 and 10 steps. -/
theorem test_service :
    (skUp (sD 1) 15 = true ∧ unitFailed (sD 1) 24 = false ∧ ctlRuns (sD 1) 20 = true ∧ hotRows (sD 1) 15 = []) ∧
    (∀ h ∈ [HotRow.mk 5 6 15 1, .mk 5 7 16 1], (hotRows (setHot (sD 1) 15 [h]) 15).find? (·.row == 5) = some h ∧ (h.score + 1 < 8 ↔ h.score = 6)) ∧
    ((pokeBytes { (sD 1).mem with uncleared := [3] } 0 []).uncleared.contains 3 = true ∧ counterUnit 0x90200 = some uMemory ∧ counterUnit 0x90208 = some uMemory ∧ counterUnit 0 = none) ∧
    (let es := fun s => ((List.range 16).map fun h => readHand (pfAfter s (uSk 0 0)) (shadowAt 0 0 + 32 * h)).filter (·.on)
     let put := fun bs => { sD 1 with pf := memPutBytes (sD 1).pf (shadowAt 0 0) bs }
     (∀ a ∈ es (put (hand1 0)), ∀ b ∈ es (put (hand1 0)), a.tenant = b.tenant) ∧ (handsOk 0 (es (put (hand1 0))) (put (hand1 0))).1 = true ∧
     (handsOk 0 (es (put (hand1 64))) (put (hand1 64))).1 = false) ∧
    (∀ b ∈ [false, true], let s := sCtl fun c => { c with busy := b }
      (ctlGet s 20).busy = b ∧ (ctlGet s 20).phase = .armed ∧ (stagedImage s (ctlGet s 20)).1.bind (acceptImage 20) = none) ∧
    (let i : Image := ⟨0, 0, 0, 5, [], []⟩; let s := sCtl fun c => { c with bankA := some i, armed := false }
      (ctlGet s 20).armed = false ∧ (ctlGet s 20).phase ≠ .stopping ∧ activeImage (ctlGet s 20) = some i ∧ readsRecord (ctlGet s 20) = true ∧
      readyOk s 24 = false ∧ readyOk (sD 1) 24 = true) ∧
    (∀ a ∈ [false, true], ∀ m ∈ [0, 1], let s := sCtl fun c => { c with armed := a, misses := m, fed := 2 ^ 28 }
      wdogDue s 20 = true ∧ (ctlGet s 20).armed = a ∧ (ctlGet s 20).misses = m ∧ activeImage (ctlGet s 20) = none) ∧
    ((sD 1).fready.getLsbD 0 = true ∧ (sD 1).ffail.getLsbD 0 = false ∧ unitFailed (sD 1) 4 = false ∧ vecGet (sD 1).supply 0 3 < 10 ∧
     10 ≤ vecGet { sD 1 with supply := .replicate 4 10 }.supply 0 3 ∧ 2000 < vecGet (sD 1).clock 0 3) := by
  refine ⟨by decide +kernel, by decide +kernel, by decide +kernel, by decide +kernel, by decide +kernel, by decide +kernel, by decide +kernel, by decide +kernel⟩

/-- R407: an increment in the cycle of a clear counts after it; one of an earlier cycle does not. -/
theorem test_clear_same_cycle :
    let s := { sD 1 with ctrs := [(0x90200, 5)], ctrNow := [(0x90200, 1)], held := [⟨uMemory, 0x90200, []⟩] }
    kvGet 0 0x90200 (applyHeld s uMemory).ctrs = 1 ∧ kvGet 0 0x90200 (applyHeld (countHeld s uMemory) uMemory).ctrs = 0 := by decide +kernel

/-- R331: an error that another program latched keeps its window. -/
theorem test_widen_own :
    let e := fun p => BankErr.mk 8 4 0 3 false true p
    let s := { sD 1 with cave := { (sD 1).cave with berr := [(0, e xP.started), (1, e (xP.started + 1))] } }
    let r := (widenBank xP 0 4 s).2
    (berrGet r 0).w = 7 ∧ (berrGet r 0).f = 0 ∧ (berrGet r 1).w = 3 := by decide +kernel

/-- ServiceCompletes, the image that a controller takes: one of its own format and length whose digest and signatures agree and whose SVN is not
below the fused one, whatever the opaque functions are. -/
theorem test_image (k : Nat) (bs : List Byte) (h : (let n := leNat (bs.take 0x70); let len := bits n 128 64
      0x4200 + len ≤ bs.length && bits n 0 32 == 1 && bits n 32 32 == ctlTarget k && Config.fusedSvn k ≤ (BitVec.ofNat 32 (bits n 96 32)).toNat &&
      sha384 ((bs.drop 0x4200).take len) == (bs.drop 0x40).take 48 && Config.signaturesVerify (bs.take 0x4200)) = true) :
    (acceptImage k bs).isSome = true := by simp only [acceptImage] at *; rw [if_pos h]; rfl

theorem flit_whole (p : List Byte) (s a t c : Nat) : flitOk (mkFlit p s a t c) =
    (decide (flitType (mkFlit p s a t c) < 4) && bits (mkFlit p s a t c).ctl.toNat 36 28 == 0) := by simp [flitOk, mkFlit]
theorem flit_broken (f : Flit) (h : flitOk f = true) : flitOk { f with crc := f.crc + 1 } = false := by
  simp only [flitOk, Bool.and_eq_true, beq_iff_eq] at h
  simp [flitOk, ← h.1.1]
/-- LinkCompletes: a flit that fails its checks (by the lemma above); a data flit in sequence, newer and older; the other types; the states of a port;
a packet and its copy; tokens below their window, seen and new. -/
theorem test_link :
    (∀ t ∈ [0, 1, 2, 3], let f := mkFlit (List.replicate 240 0) 0 0 t 0; flitOk f = true ∧ flitType f = t ∧ f.payload.length = 240) ∧
    (∀ n ∈ [0, 1, 2047, 2048, 4095], let f := mkFlit (List.replicate 240 0) n 0 0 0; flitOk f = true ∧ flitSeq f = n) ∧
    (∀ t ∈ [PortState.up, .down, .training], (portGet (portPut (sD 1) 31 { Port.reset with st := t }) 31).st = t) ∧ ctlRuns (sD 1) 2 = true ∧
    (let x := { Port.reset with st := .up, credits := 1, outq := [List.replicate 240 0] }; portGet (portPut (sD 1) 31 x) 31 = x) ∧
    ((sD 1).fabric.taken.contains (5, (sD 1).devno, 7) = false ∧ (sD 1).devno + 1 ≠ (sD 1).devno) ∧
    ((sD 1).fready.getLsbD 3 = true ∧ fabricRoom (sD 1) = true ∧ ∀ t ∈ [0, 64], leNat (((leBytes (t * 2 ^ 32) 256).drop 4).take 2) = t) ∧
    (let s := { sD 1 with pf := memPutBytes (sD 1).pf (tenantEnt 0 + 0x50) (leBytes (5 + 2 ^ 64) 12)
                          fabric := { (sD 1).fabric with seen := [(0, [5])] } }
     (4 < tokLo s 0 ∧ tokLo s 0 ≤ 5) ∧ (seenOf (slideWindow s 0 5) 0).contains 5 = true ∧ (seenOf (slideWindow s 0 6) 0).contains 6 = false) := by
  simp only [flit_whole]
  refine ⟨by decide +kernel, by decide +kernel, by decide +kernel, by decide +kernel, by decide +kernel, by decide +kernel, by decide +kernel, by decide +kernel⟩

/-- The premises of StepRunsDecoded on a front scheduler's turn, as a test: of a split that fetches, or of one that waits at an instruction. -/
def ready (s : State) (core sched : Nat) : Bool :=
  match candidates s core sched with
  | [] => false
  | c :: _ =>
    let m := mergeFirst s c
    let t := { m.2 with cur := none, issued := false }
    match ctxOf { m.2 with cur := some m.1 } with
    | none => false
    | some x =>
      canIssue t x && match x.p.under with
        | some (i, _) => guardOk x i && x.p.caveErr.isNone && !scoreboardBusy x.w x.p i && !timerHere x
        | none => match fetchParity t x.l x.w.core (fetchFrom x.l x.p) (lineOf x.p.pc) with
        | (.ok (some bs, _), _) => lineWordOk bs && match slotOf (x.p.pc % 64) with
          | none => false
          | some k => match decodeSlot (bs.drop (slotOff k)) with
            | .error _ => false
            | .ok i => fitsAt i x.w.nregs x.w.ntiles x.p.pc && guardOk x i && x.p.caveErr.isNone && !scoreboardBusy x.w x.p i && !timerHere x
        | _ => false

/-- StepRunsDecoded: instructions placed in a front core and in a stack core, and a move of the device. -/
theorem test_step_runs :
    (∀ w ∈ [0, 0x0030_1000_4000_3100], let s := State.reset.withFetchWord 96 w
      let t := (takeMove s).2
      (takeMove s).1 = .front 0 0 ∧ frontHeld t 0 = false ∧ vecGet t.begun true 0 = true ∧ beginCycle (dieOfCore 0) t = some t ∧
      ready t 0 0 = true ∧
      ready { t with waves := t.waves.map fun w => { w with splits := w.splits.map fun p => { p with wait := .sem 0 0 1, under := some (.nop, false) } } } 0 0 = true) ∧
    (let s := State.reset.withFetchWord 64 0x0000_0040_01C0_0289
     let t := (takeMove s).2
     (takeMove s).1 = .cave 0 0 ∧
     let u := caveTurn t 0 0
     skUp t 0 = true ∧ u.hand = false ∧ msgTakes t 0 0 = false ∧ atLimit t (uSk 0 0) = false ∧ atLimit t uMemory = false ∧
     ((ctxGet t u).bind fun x => if x.part.isNone then (caveFetch t u x x.pc).1 else none) = some 0x0000_0040_01C0_0289) ∧
    (∃ s1, takeMove { State.reset with agenda := [.ev (.unitReady 0)] } = (.ev (.unitReady 0), s1) ∧ isMove (.unitReady 0) = true ∧ (atLimit s1 uMemory && beginsAccess (.unitReady 0) s1) = false) ∧
    (∀ p ∈ [CtlPhase.armed, .starting], let s := sCtl fun c => { c with phase := p }
      outputOf .launchAdmission s = some 1 ∧ (ctlGet s 1).phase = p) ∧
    (waitsUnit { sD 1 with mem := { (sD 1).mem with touch := [9] } } = false ∧
      waitsUnit { State.reset with mem := { State.reset.mem with touch := [9] } } = true) ∧
    (let s := { sD 1 with held := [⟨uDie 0, 0x1000, [1]⟩], heldFor := [(uDie 0, 2 ^ 20)] }
     workHeld (.ev (.vatReload 0)) s s = true ∧ workHeld (.ev (.vatReload 1)) s s = false) :=
  ⟨by decide +kernel, by decide +kernel, ⟨_, rfl, rfl, by decide⟩, by decide +kernel, by decide +kernel, by decide +kernel⟩

/-- EncodeDecodes and DecodeEncodes: a front and a cave instruction. -/
theorem test_encode :
    (let i := Instr.iadd ⟨3, false⟩ false ⟨.s32, false, 3, 0, .s 4⟩; i.check = none ∧ encode i = some (.front 0x0030_1000_4000_3100) ∧
      decode (.front 0x0030_1000_4000_3100) = .ok i) ∧
    (let i := Instr.caveLi false 5 64; i.check = none ∧ encode i = some (.cave 0x0000_0040_01C0_0289) ∧
      decode (.cave 0x0000_0040_01C0_0289) = .ok i) := ⟨⟨rfl, by decide +kernel, rfl⟩, rfl, by decide +kernel, rfl⟩

/-- MemoryFormKept: a step from a state whose memory holds code and tables. -/
theorem test_memory_form : let s := State.reset.withFetchWord 96 0
    s.memWf ∧ (match step s with | .next _ => true | _ => false) = true := ⟨⟨by decide +kernel, by decide +kernel⟩, by decide +kernel⟩

/-! ### Results worked out by hand -/

/-- General register `r` of lane `l` in the state after an instruction of wave 3. -/
def after (o : Out) (r l : Nat) : Option Word :=
  match o with
  | .next t => (findWave t 3).map fun w => gWord w r l
  | _ => none
/-- Wave 3 with lane 0 of g4 at -1 and of g5 at 3. -/
def wR : Wave := { w0 with g := (w0.g.set 4 (laneSet zeroLanes 0 0xFFFFFFFF)).set 5 (laneSet zeroLanes 0 3) }
def run1 (i : Instr) : Out := exec i (stOf wR blk2 lau1)

/-- R130: -1 + 1 is 0; -1 - 3 is -4; the high half of (2^32 - 1) × 3 is 2. -/
theorem test_iadd_wraps : after (run1 (.iadd .always false (ib .s32 6 4 (.imm 1)))) 6 0 = some 0 := by decide +kernel
theorem test_isub : after (run1 (.isub .always false (ib .s32 6 4 (.g 5)))) 6 0 = some 0xFFFFFFFC := by decide +kernel
theorem test_imulh : after (run1 (.imulh .always (ib .z32 6 4 (.g 5)))) 6 0 = some 2 := by decide +kernel
/-- R98: the saturating forms stop at the ends of the type. -/
theorem test_saturate : intRes .s32 true (2 ^ 31) = 0x7FFFFFFF ∧ intRes .z32 true (-1) = 0 ∧ intRes .z32 true (2 ^ 32) = 0xFFFFFFFF := by decide
/-- R130: division by zero gives all ones. -/
theorem test_idiv_zero : after (run1 (.idiv .always 0 (ib .s32 6 5 (.imm 0)))) 6 0 = some 0xFFFFFFFF := by decide +kernel
/-- R131. -/
theorem test_bit_counts : popcV 32 0xF0 = 4 ∧ clzV 32 1 = 31 ∧ clzV 32 0 = 32 ∧ ctzV 32 8 = 3 ∧ ctzV 32 0 = 32 := by decide +kernel
/-- 1 + 2^-24 lies half way and goes to the even 1; 1 + 3 × 2^-24 goes up to 1 + 2^-22. -/
theorem test_fadd_ties : faddV .f32 .rne 0x3F800000 0x33800000 = 0x3F800000 ∧ faddV .f32 .rne 0x3F800001 0x33800000 = 0x3F800002 := by decide +kernel
/-- 65504 + 16 in `.f16`: the nearest is infinity; toward zero, the greatest finite number. -/
theorem test_f16_overflow : faddV .f16 .rne 0x7BFF 0x4C00 = 0x7C00 ∧ faddV .f16 .rz 0x7BFF 0x4C00 = 0x7BFF := by decide +kernel
/-- (1 + 2^-23)^2 - (1 + 2^-22) is 2^-46, which a product rounded first would lose. -/
theorem test_ffma_once : ffmaV .f32 .rne 0x3F800001 0x3F800001 0xBF800002 = 0x28800000 := by decide +kernel
/-- R135: 2^31 does not fit `.s32`; 2.5 to the nearest even is 2. -/
theorem test_cvt : convert .s32 .f32 .rne 0x4F000000 = 0x7FFFFFFF ∧ convert .s32 .f32 .rne 0x40200000 = 2 := by decide +kernel
/-- R238: `inc` wraps at its bound. -/
theorem test_atom_inc : atomNew (.op .inc (.i .z32) 5) [5, 0, 0, 0] = some [0, 0, 0, 0] ∧ atomNew (.op .inc (.i .z32) 5) [4, 0, 0, 0] = some [5, 0, 0, 0] := by
  decide +kernel
/-- R203: the stack of an interleaved line. -/
theorem test_stack_of_line : xorStack 0x100 = 1 ∧ xorStack 0x1100 = 0 ∧ xorStack 0x10F00 = 14 := by decide
/-- R396: the check value that the catalogues of CRCs give for CRC-64 with ECMA-182's polynomial, over the digits 1 to 9. -/
theorem test_crc : crc64 [0x31, 0x32, 0x33, 0x34, 0x35, 0x36, 0x37, 0x38, 0x39] = 0x6C40DF5F0B497347 := by decide +kernel
/-- FIPS 180-4's example: the digest of "abc" begins CB00753F and ends 34C825A7. -/
theorem test_sha384 : let d := sha384 [0x61, 0x62, 0x63]
    d.take 4 = [0xCB, 0x00, 0x75, 0x3F] ∧ d.drop 44 = [0x34, 0xC8, 0x25, 0xA7] := by decide +kernel

end Sys2Proof.Tests
end

section
/-! SUPPORT. The vats and the hoop units as moves: what one reload does to its die, and the wave that a group forms (02 R42, R43, 14 R285). -/

namespace Sys2Proof.Machine

/-! ### The moves as meanings -/

theorem exec_vatReload (d : Nat) (s : State) : exec (.vatReload d) s = .next (iter (reloadS d) 4 s) := rfl
theorem exec_hoopFormation (d n k core : Nat) (s : State) :
    exec (.hoopFormation d n k core) s = .next ((hoopS s d n k core).getD s) := rfl

/-! ### Lists and repeated steps -/

/-- The element that `updFirst` changes, and those around it. -/
theorem updFirst_split {α : Type} {p : α → Bool} (f : α → α) {a : α} : ∀ {l : List α}, l.find? p = some a →
    ∃ as bs, l = as ++ a :: bs ∧ updFirst p f l = as ++ f a :: bs
  | [], h => by simp at h
  | x :: r, h => by
    cases hx : p x with
    | true =>
      obtain rfl : x = a := by simpa [List.find?_cons, hx] using h
      exact ⟨[], r, rfl, by simp [updFirst, hx]⟩
    | false =>
      obtain ⟨as, bs, rfl, e⟩ := updFirst_split f (l := r) (by simpa [List.find?_cons, hx] using h)
      exact ⟨x :: as, bs, rfl, by simp [updFirst, hx, e]⟩

theorem iter_of_none {α : Type} {f : α → Option α} {x : α} (h : f x = none) : ∀ n, iter f n x = x
  | 0 => rfl
  | n + 1 => by simp [iter, h]

/-- A step that can be made only once is made once. -/
theorem iter_once {α : Type} {f : α → Option α} {x y : α} (h : f x = some y) (k : f y = none) (n : Nat) : iter f (n + 1) x = y := by
  simp [iter, h, iter_of_none k]

/-! ### Reloads -/

/-- A record leaves the spill region for its vat. -/
def unspill (s : State) (r : TaskRec) : State :=
  updTasks s fun t => { t with recs := updFirst (·.id == r.id) (fun x => { x with spilled := none }) t.recs }

/-- A record that was spilled is one more in its vat. -/
theorem residentOn_unspill_length {s : State} {r : TaskRec} (hf : s.tasks.recs.find? (·.id == r.id) = some r) (hs : r.spilled.isSome = true) :
    (residentOn (unspill s r) r.die).length = (residentOn s r.die).length + 1 := by
  obtain ⟨as, bs, hl, hu⟩ := updFirst_split (fun x : TaskRec => { x with spilled := none }) hf
  have hn : r.spilled.isNone = false := by simpa using hs
  simp only [residentOn, recsOn, unspill, updTasks, hu]
  rw [hl]
  simp [hn, Nat.add_assoc]

theorem reloadOne_full {s : State} {d : Nat} (h : vatSlots ≤ (residentOn s d).length) : reloadOne d s = none := by
  simp [reloadOne, h]

theorem reloadOne_unspilled {s : State} {d : Nat} (h : ∀ r ∈ recsOn s d, r.spilled = none) : reloadOne d s = none := by
  have e : (recsOn s d).filter (·.spilled.isSome) = [] := by simpa [List.filter_eq_nil_iff] using h
  have n : (List.range 64).filter (fun t => ([] : List TaskRec).any (·.tenant == t)) = [] :=
    List.filter_eq_nil_iff.2 fun _ _ => Bool.false_ne_true
  unfold reloadOne
  split
  · rfl
  · simp only [e, n]

/-- The numbers below `n` that are `t`: of the tenants, the one that has the only spilled record. -/
theorem filter_range_beq {n t : Nat} (h : t < n) : (List.range n).filter (t == ·) = [t] := by
  rw [show (fun x => t == x) = (· == t) from funext fun x => Bool.beq_comm]
  rw [List.filter_beq, List.count_range, if_pos h]
  rfl

theorem reloadOne_single {s : State} {d : Nat} {r : TaskRec} (hroom : (residentOn s d).length < vatSlots)
    (hr : (recsOn s d).filter (·.spilled.isSome) = [r]) (ht : r.tenant < 64) (hb : recSlot s r = none) :
    reloadOne d s = some (unspill s r) := by
  simp [reloadOne, Nat.not_le.2 hroom, hr, filter_range_beq ht, byPos, insPos, vatFell, hb, unspill]

theorem reloadS_none {s : State} {d : Nat} (h : reloadOne d s = none) : reloadS d s = none := by
  simp [reloadS, h]

/-- The number of reloads in a die's cycle does not say which records its vat holds. -/
theorem residentOn_countReload (s : State) (d e : Nat) :
    residentOn (updTasks s fun t => { t with reloads := vecUpd t.reloads 0 e (· + 1) }) d = residentOn s d := rfl

/-- Only one record is spilled, and only one slot is free: it is reloaded, and no other after it. -/
theorem iter_reloadS_single {s : State} {d : Nat} {r : TaskRec} (hd : d < nDies) (hc : vecGet s.tasks.reloads 0 d < 4)
    (hroom : (residentOn s d).length + 1 = vatSlots) (hr : (recsOn s d).filter (·.spilled.isSome) = [r]) (ht : r.tenant < 64)
    (hb : recSlot s r = none) (hu : ∀ q ∈ s.tasks.recs, q.id = r.id → q = r) :
    iter (reloadS d) 4 s = updTasks (unspill s r) fun t => { t with reloads := vecUpd t.reloads 0 d (· + 1) } := by
  have hm : r ∈ (recsOn s d).filter (·.spilled.isSome) := by simp [hr]
  obtain ⟨hin, hsp⟩ := List.mem_filter.1 hm
  obtain ⟨hmem, hdie⟩ := List.mem_filter.1 hin
  obtain rfl : r.die = d := by simpa using hdie
  have hf : s.tasks.recs.find? (·.id == r.id) = some r := by
    obtain ⟨q, hq⟩ : ∃ q, s.tasks.recs.find? (·.id == r.id) = some q :=
      Option.isSome_iff_exists.1 (List.find?_isSome.2 ⟨r, hmem, by simp⟩)
    rw [hq, hu q (List.mem_of_find?_eq_some hq) (by simpa using find_spec hq)]
  refine iter_once ?_ (reloadS_none (reloadOne_full ?_)) 3
  · simp [reloadS, Nat.not_le.2 hd, Nat.not_le.2 hc, reloadOne_single (by omega) hr ht hb]
  · have e := residentOn_unspill_length hf hsp
    rw [residentOn_countReload]
    omega

/-! ### Formation -/

/-- A group that forms a wave, once its die has applied what its records' enqueuers released. -/
theorem hoopS_forms {s : State} {d n k core : Nat} {l : Launch} (hl : findLaunch s n = some l) (hb : vecGet s.begun true d = false)
    (hg : groupForms s l d k core = true) (hf : groupFirst s l d k core = true)
    (hc : ((waitingAt s d n k).take 32).all (recCovered s d) = true) :
    let r := hoopFell core ((waitingAt s d n k).take 32) s
    let t := updTasks r.2 fun t => { t with formed := kvPut 0 (groupKey n k d) ((vecGet s.dcyc 0 d).toNat + 1) t.formed }
    hoopS s d n k core = some (if r.1 = [] then t else addPerf (startBlock t l core 0 k true r.1) core 8 1) := by
  simp only [hoopS, hl, Option.bind_some, hb, hg, hf, hc, List.isEmpty_iff]
  simp

/-- Settles O40: a vat with no slot or nothing spilled makes no step; the one step that it makes otherwise fills it; and the formation of a wave
is what `hoopS` answers where its premises hold. -/
theorem vatMovesComplete : Obligations.VatMovesComplete := by
  unfold Obligations.VatMovesComplete
  intro s d n k core l
  refine ⟨fun h => ?_, fun h => ?_, fun r hd hc hroom hr ht hb hu => ?_, fun hl hb hg hf hc => ?_⟩
  · rw [exec_vatReload, iter_of_none (reloadS_none (reloadOne_full h))]
  · rw [exec_vatReload, iter_of_none (reloadS_none (reloadOne_unspilled h))]
  · rw [exec_vatReload, iter_reloadS_single hd hc hroom hr ht hb hu]
    rfl
  · rw [exec_hoopFormation, hoopS_forms hl hb hg hf hc]
    rfl

end Sys2Proof.Machine
end

section
/-! SUPPORT. What reads by the package's own units leave of the launches, and that what a start does to a launch keeps its record (19 R352). -/

namespace Sys2Proof.Machine

/-- What every step of a fold leaves alone, the fold does. -/
theorem foldl_keeps {α β : Type} (g : State → β) {f : State → α → State} (hf : ∀ s a, g (f s a) = g s) :
    ∀ (l : List α) (s : State), g (l.foldl f s) = g s
  | [], _ => rfl
  | a :: l, s => (foldl_keeps g hf l (f s a)).trans (hf s a)

/-! ### Translations, fetches and the units' reads change no launch -/

section
variable (s : State)

@[simp] theorem launches_choose (n : Nat) : (choose n s).2.launches = s.launches := by
  unfold choose; split <;> rfl

@[simp] theorem launches_touchMem (pa : Nat) : (touchMem s pa).launches = s.launches := by
  unfold touchMem; split <;> rfl

@[simp] theorem launches_touchL2 (d pa n : Nat) : (touchL2 s d pa n).launches = s.launches := by
  unfold touchL2; split <;> simp

@[simp] theorem launches_dropLine (d ln : Nat) : (dropLine s d ln).launches = s.launches := by
  unfold dropLine; split <;> rfl

@[simp] theorem launches_boundL2 (d ln : Nat) : (boundL2 s d ln).launches = s.launches := by
  unfold boundL2
  split
  · rfl
  · simp only; split <;> simp

@[simp] theorem launches_fillL2 (d pa n : Nat) : (fillL2 s d pa n).launches = s.launches := by
  unfold fillL2
  split
  · simp only
    split
    · rfl
    · rw [foldl_keeps State.launches fun s ln => launches_boundL2 s d ln]
  · rfl

@[simp] theorem launches_fillX (die dev pa : Nat) : (fillX s die dev pa).launches = s.launches := by
  simp [fillX]

@[simp] theorem launches_histRead (d pa n t0 : Nat) : (histRead s d pa n t0).2.launches = s.launches := by
  simp [histRead, pickTime]

@[simp] theorem launches_readEntry (tenant va a : Nat) : (readEntry s tenant va a).2.launches = s.launches := by
  simp [readEntry]

@[simp] theorem launches_groupEntry (tenant va tbl : Nat) : (groupEntry s tenant va tbl).2.launches = s.launches := by
  unfold groupEntry
  simp only
  repeat' split
  all_goals simp
end

theorem launches_walkFrom (tenant va : Nat) : ∀ (l tbl : Nat) (s : State), (walkFrom tenant va l tbl s).2.launches = s.launches
  | 0, _, _ => by simp [walkFrom]
  | l + 1, tbl, s => by
    unfold walkFrom
    simp only
    repeat' split
    all_goals simp [launches_walkFrom tenant va l]

@[simp] theorem launches_xlate (s : State) (tenant root va : Nat) (acc : Acc) : (xlate s tenant root va acc).2.launches = s.launches := by
  have h := launches_walkFrom tenant (va % 2 ^ 57) 4 root s
  unfold xlate xlateWith
  split
  · rfl
  · simp only
    split <;> rename_i e <;> rw [e] at h
    · exact h
    · repeat' split
      all_goals exact h

@[simp] theorem launches_readByte (r : Reader) (s : State) (l : Loc) : (readByte r s l).2.launches = s.launches := by
  unfold readByte
  cases l with
  | gm pa => simp only; split <;> simp
  | _ => rfl

@[simp] theorem launches_noteByte (r : Reader) (s : State) (l : Loc) (x : ByteSrc) : (noteByte r s l x).launches = s.launches := by
  unfold noteByte
  cases l with
  | gm pa =>
    simp only
    repeat' split
    all_goals simp
  | remote dev pa => simp only; split <;> simp
  | _ => rfl

theorem launches_readRun (r : Reader) : ∀ (n : Nat) (s : State) (l : Loc) (x : List Byte × Bool × State),
    readRun r s l n = some x → x.2.2.launches = s.launches
  | 0, s, l, x, h => by simp only [readRun, Option.some.injEq] at h; rw [← h]
  | n + 1, s, l, x, h => by
    have hb := launches_readByte r s l
    simp only [readRun] at h
    split at h
    · cases h
    · rename_i y t e
      rw [e] at hb
      split at h
      · cases h
      · rename_i bs p u e'
        cases h
        rw [launches_readRun r n _ _ _ e', launches_noteByte, hb]

@[simp] theorem launches_readAll (core : Nat) (s : State) (l : Loc) (n : Nat) : (readAll core s l n).2.2.launches = s.launches := by
  unfold readAll
  split
  · exact launches_readRun _ _ _ _ _ ‹_›
  · rfl

@[simp] theorem launches_histRemote (s : State) (core dev pa n t0 : Nat) : (histRemote s core dev pa n t0).2.launches = s.launches := by
  simp [histRemote, pickTime]

@[simp] theorem launches_fetchLine (s : State) (l : Launch) (core t0 line : Nat) :
    (fetchLine s l core t0 line).2.launches = s.launches := by
  have h := launches_xlate s l.lr.tenant l.lr.root (pcVa line) .fetch
  unfold fetchLine
  simp only
  split
  · rfl
  · split <;> rename_i e <;> rw [e] at h
    · exact h
    · split <;> simpa using h

@[simp] theorem launches_targetOk (s : State) (l : Launch) (core t0 pc : Nat) : (targetOk s l core t0 pc).2.launches = s.launches := by
  unfold targetOk
  split
  · rfl
  · have h := launches_fetchLine s l core t0 (pc - pc % 64)
    split <;> rename_i e <;> rw [e] at h <;> exact h

@[simp] theorem launches_bitmapBit (s : State) (l : Launch) (die base n : Nat) : (bitmapBit s l die base n).2.launches = s.launches := by
  have h := launches_xlate s l.lr.tenant l.lr.root (base + n / 8) .read
  unfold bitmapBit
  split <;> rename_i e <;> rw [e] at h
  · exact h
  · split <;> simpa using h

theorem launches_allBits (l : Launch) (die base : Nat) : ∀ (ns : List Nat) (s : State), (allBits l die base ns s).2.launches = s.launches
  | [], _ => rfl
  | n :: r, s => by
    unfold allBits
    simp only
    split <;> simp [launches_allBits l die base r]

@[simp] theorem launches_depsMet (s : State) (l : Launch) (die b : Nat) : (depsMet s l die b).2.launches = s.launches := by
  unfold depsMet
  split
  · rfl
  · exact launches_allBits ..

/-! ### What a start does to a launch keeps its record -/

/-- The launches of `t` are those of `s` with the records they had. -/
def KeepsLr (s t : State) : Prop := ∀ u, (findLaunch t u).map Launch.lr = (findLaunch s u).map Launch.lr

theorem KeepsLr.trans {s t u : State} (h : KeepsLr s t) (k : KeepsLr t u) : KeepsLr s u := fun n => (k n).trans (h n)

theorem KeepsLr.of_launches {s t : State} (h : t.launches = s.launches) : KeepsLr s t := fun u => by rw [findLaunch, findLaunch, h]

theorem KeepsLr.find {s t : State} (h : KeepsLr s t) {u : Nat} {l : Launch} (hl : findLaunch s u = some l) :
    ∃ k, findLaunch t u = some k ∧ k.lr = l.lr := by
  simpa [hl] using h u

theorem keepsLr_updLaunch (s : State) (n : Nat) {f : Launch → Launch} (hu : ∀ l, (f l).uid = l.uid) (hf : ∀ l, (f l).lr = l.lr) :
    KeepsLr s (updLaunch s n f) := by
  intro u
  simp only [findLaunch, updLaunch]
  induction s.launches with
  | nil => rfl
  | cons l r ih =>
    cases hn : l.uid == n with
    | true => cases hx : l.uid == u <;> simp [updFirst, hn, hu, hf, hx]
    | false => cases hx : l.uid == u <;> simp [updFirst, hn, hx, ih]

@[simp] theorem launches_discardFor (s : State) (core : Nat) (sc : Scope) : (discardFor s core sc).launches = s.launches := by
  unfold discardFor; split <;> rfl

theorem launches_releaseCursors (s : State) (w : Wave) (m : Mask) : (releaseCursors s w m).launches = s.launches := by
  exact foldl_keeps State.launches (f := fun t (e : Nat × Cursor) => queueClose t w s.nid e.1 e.2) (fun _ _ => rfl) _ _

theorem launches_exitLanes (s : State) (u : Nat) (m : Mask) : (exitLanes s u m).launches = s.launches := by
  unfold exitLanes closeCursors
  split
  · rfl
  · exact launches_releaseCursors ..

theorem keepsLr_killWave (s : State) (u bit code : Nat) : KeepsLr s (killWave s u bit code) := by
  unfold killWave
  split
  · exact .of_launches rfl
  · rename_i w _
    have hf : KeepsLr s (setLaunchFlag s w.launch bit) := keepsLr_updLaunch s _ (fun _ => rfl) (fun _ => rfl)
    refine KeepsLr.trans ?_ (.of_launches (launches_exitLanes _ u allLanes))
    split
    · exact hf
    · exact hf.trans (keepsLr_updLaunch _ _ (fun l => by split <;> rfl) (fun l => by split <;> rfl))

theorem keepsLr_checkEntry (l : Launch) (core : Nat) (pc : VAddr) : ∀ (ws : List Wave) (s : State), KeepsLr s (checkEntry l core pc ws s)
  | [], _ => .of_launches rfl
  | w :: r, s => by
    have h : KeepsLr s (targetOk s l core l.admT pc).2 := .of_launches (by simp)
    unfold checkEntry
    refine KeepsLr.trans ?_ (keepsLr_checkEntry l core pc r _)
    split
    · exact h
    · exact h.trans (keepsLr_killWave _ _ _ _)

theorem launches_startWaves (l : Launch) (b : Block) (ts : List TaskRec) (pc : VAddr) : ∀ (sl r : List Nat) (s : State),
    (startWaves l b ts pc sl r s).launches = s.launches
  | [], _, _ => by simp [startWaves]
  | _ :: _, [], _ => by simp [startWaves]
  | k :: sl, i :: r, s => by rw [startWaves, launches_startWaves l b ts pc sl r]

/-- The block that a start makes. -/
def blockToStart (s : State) (l : Launch) (core bid stage : Nat) (hoop : Bool) : Block :=
  ⟨s.nid, l.uid, core, bid, hoop, stage, s.nid, wavesOf l.lr hoop, .empty, .empty, 0, [], [], [], .run, []⟩

/-- The state once the block and its waves are there, their entries not yet checked. -/
def withBlock (s : State) (l : Launch) (core bid stage : Nat) (hoop : Bool) (ts : List TaskRec) : State :=
  let b := blockToStart s l core bid stage hoop
  let s := { s with nid := s.nid + 1, blocks := s.blocks ++ [b] }
  startWaves l b ts (stageEntry l stage) (freeSlots s core) (List.range (wavesOf l.lr hoop)) s

theorem startBlock_eq (s : State) (l : Launch) (core bid stage : Nat) (hoop : Bool) (ts : List TaskRec) :
    startBlock s l core bid stage hoop ts = checkEntry l core (stageEntry l stage)
      ((withBlock s l core bid stage hoop ts).waves.filter (·.blk == s.nid)) (discardFor (withBlock s l core bid stage hoop ts) core .device) := rfl

theorem keepsLr_startBlock (s : State) (l : Launch) (core bid stage : Nat) (hoop : Bool) (ts : List TaskRec) :
    KeepsLr s (startBlock s l core bid stage hoop ts) := by
  rw [startBlock_eq]
  refine KeepsLr.trans (.of_launches ?_) (keepsLr_checkEntry _ _ _ _ _)
  rw [launches_discardFor]
  exact launches_startWaves ..

end Sys2Proof.Machine
end

section
/-! SUPPORT. Placement as moves: the waves that a block's start leaves, the block that ends, the launch that completes and the quota boundary (02 R38,
R45, R46, 14 R280, R285, R286, 19 R364, R367, 20 R370). -/

namespace Sys2Proof.Machine

/-! ### The moves as meanings -/

theorem exec_blockStart (n core : Nat) (s : State) : exec (.blockStart n core) s = .next ((blockStartS s n core).getD s) := rfl
theorem exec_blockSteal (n core : Nat) (s : State) : exec (.blockSteal n core) s = .next ((blockStealS s n core).getD s) := rfl
theorem exec_blockEnd (u : Nat) (s : State) : exec (.blockEnd u) s = .next ((blockEndS s u).getD s) := rfl
theorem exec_launchCompletion (n : Nat) (s : State) : exec (.launchCompletion n) s = .next ((completionS s n).getD s) := rfl
theorem exec_quotaBoundary (d : Nat) (s : State) : exec (.quotaBoundary d) s = .next ((quotaS s d).getD s) := rfl

/-! ### Which start or steal a core makes -/

section
variable {s t : State} {l : Launch} {n core q e : Nat}

theorem blockStartS_starts (hl : findLaunch s n = some l) (hs : (instCores l.lr q).all (startsNow s l) = true)
    (hq : nextInstance l core = some q) (ho : outranked s l (instCores l.lr q) = false)
    (hv : (instCores l.lr q).any (savedFirst s l) = false) (ht : startInstance s l core q = some t) : blockStartS s n core = some t := by
  simp only [blockStartS, hl, Option.bind_some, hq, ho, startOn, Option.map_some, Option.getD_some, hs, startReady, hv, ht]
  rfl

theorem blockStealS_steals (hl : findLaunch s n = some l) (hst : l.lr.steal = true) (hu : mayUse l.lr core = true)
    (hs : (gangCores l.lr core).all (startsNow s l) = true) (hh : headInstance l core = none)
    (hv : (gangCores l.lr core).any (savedFirst s l) = false) (ho : outranked s l (gangCores l.lr core) = false)
    (hd : donor l = some e) (hq : lastInstance l e = some q) (hw : ownerStarts s l q = false) (ht : startInstance s l core q = some t) :
    blockStealS s n core = some t := by
  simp only [blockStealS, hl, Option.bind_some, ho, stealOn, hst, hu, hs, hh, hv, hd, hq, hw, ht]
  rfl

/-- Taking blocks out of a launch's ranges depends on its record alone. -/
theorem updLaunch_takeTodo {k : Launch} (hk : findLaunch s n = some k) (hg : gang k.lr = 1) :
    updLaunch s n (fun l => { l with todo := takeTodo (q * gang l.lr) (gang l.lr) l.todo }) =
      updLaunch s n fun l => { l with todo := takeTodo q 1 l.todo } := by
  have e : updFirst (·.uid == n) (fun l : Launch => { l with todo := takeTodo (q * gang l.lr) (gang l.lr) l.todo }) s.launches =
      updFirst (·.uid == n) (fun l => { l with todo := takeTodo q 1 l.todo }) s.launches := updFirst_congr hk (by simp [hg])
  simp only [updLaunch, e]

/-- A gang of one block starts it where it fits, is within the quota and its dependences are met. -/
theorem startInstance_single (hl : findLaunch s l.uid = some l) (hg : gang l.lr = 1) (hq : gangQuota s l core = true)
    (ho : coreOpen s (coreInGang l.lr core 0) = true)
    (hf : fitsOn s (coreInGang l.lr core 0) (need l.lr ((l.lr.block + 31) / 32) ((l.lr.block + 31) / 32)) = true)
    (hd : (depsMet s l (dieOfCore (coreInGang l.lr core 0)) q).1 = true) :
    startInstance s l core q = some (updLaunch
      (startBlock (depsMet s l (dieOfCore (coreInGang l.lr core 0)) q).2 l (coreInGang l.lr core 0) q 0 false []) l.uid
      fun l => { l with todo := takeTodo q 1 l.todo }) := by
  have hr : KeepsLr s (startBlock (depsMet s l (dieOfCore (coreInGang l.lr core 0)) q).2 l (coreInGang l.lr core 0) q 0 false []) :=
    (KeepsLr.of_launches (launches_depsMet ..)).trans (keepsLr_startBlock _ _ _ _ _ _ _)
  obtain ⟨k, hk, e⟩ := hr.find hl
  rw [← updLaunch_takeTodo hk (by rw [e, hg])]
  simp [startInstance, hq, hg, List.range_one, startGang, ho, wavesOf, hf, hd]
end

/-! ### What the end of a wave does to the list of waves -/

/-- Where no element satisfies `p` nothing is updated. -/
theorem updFirst_of_find_none {α : Type} {p : α → Bool} {f : α → α} : ∀ {l : List α}, l.find? p = none → updFirst p f l = l
  | [], _ => rfl
  | x :: r, h => by
    cases hx : p x with
    | true => simp [hx] at h
    | false => simp [updFirst, hx, updFirst_of_find_none (l := r) (by simpa [hx] using h)]

/-- The updated element satisfied `p`. -/
theorem mem_updFirst_pos {α : Type} {p : α → Bool} {f : α → α} {y : α} :
    ∀ {l : List α}, y ∈ updFirst p f l → y ∈ l ∨ ∃ x ∈ l, p x = true ∧ y = f x
  | [], h => by simp [updFirst] at h
  | x :: r, h => by
    cases hx : p x with
    | true =>
      simp only [updFirst, hx, if_true, List.mem_cons] at h ⊢
      rcases h with rfl | h
      · exact .inr ⟨x, .inl rfl, hx, rfl⟩
      · exact .inl (.inr h)
    | false =>
      simp only [updFirst, hx, Bool.false_eq_true, if_false, List.mem_cons] at h ⊢
      rcases h with rfl | h
      · exact .inl (.inl rfl)
      · rcases mem_updFirst_pos h with h | ⟨z, hz, hp, e⟩
        · exact .inl (.inr h)
        · exact .inr ⟨z, .inr hz, hp, e⟩

theorem waves_releaseCursors (s : State) (w : Wave) (m : Mask) : (releaseCursors s w m).waves = s.waves :=
  foldl_keeps State.waves (f := fun t (e : Nat × Cursor) => queueClose t w s.nid e.1 e.2) (fun _ _ => rfl) _ _

theorem waves_discardFor (s : State) (core : Nat) (sc : Scope) : (discardFor s core sc).waves = s.waves := by
  unfold discardFor; split <;> rfl

/-- A wave whose lanes `m` have their cursors closed (R91). -/
def closedLanesW (m : Mask) (w : Wave) : Wave :=
  { mapWins (closeHeld m) w with q := w.q.map fun v => Vector.ofFn fun i : Fin 32 => if m.getLsbD i then .closed else laneGet v .closed i }

/-- A wave whose lanes `m` have exited (R86). -/
def exitedW (m : Mask) (w : Wave) : Wave :=
  { closedLanesW m w with exited := w.exited ||| m, em := w.em &&& ~~~m, task := w.task &&& ~~~m }

theorem waves_closeCursors (s : State) (u : Nat) (m : Mask) :
    (closeCursors s u m).waves = updFirst (·.uid == u) (closedLanesW m) s.waves := by
  unfold closeCursors
  split <;> rename_i hw
  · exact (updFirst_of_find_none hw).symm
  · rw [updWave_waves, waves_releaseCursors]; rfl

theorem waves_exitLanes (s : State) (u : Nat) (m : Mask) : (exitLanes s u m).waves = updFirst (·.uid == u) (exitedW m) s.waves := by
  rw [exitLanes, updWave_waves, waves_closeCursors]
  exact updFirst_comp fun _ h => h

/-- A wave that a trap ends. -/
def killedW (w : Wave) : Wave := endWaveW (exitedW allLanes w)

theorem waves_killWave (s : State) (u bit code : Nat) : (killWave s u bit code).waves = updFirst (·.uid == u) killedW s.waves := by
  unfold killWave
  split <;> rename_i hw
  · exact (updFirst_of_find_none hw).symm
  · simp only
    rw [updWave_waves, waves_exitLanes]
    refine (updFirst_comp (p := (·.uid == u)) (f := exitedW allLanes) fun _ h => h).trans ?_
    split <;> rfl

/-! ### A wave that a trap ends has no lane and no split -/

theorem Settles.core {w v : Wave} (h : Settles w v) : v.core = w.core := by obtain ⟨⟨_, _, _, _, _, _, rfl⟩, _⟩ := h; rfl
theorem Settles.no_splits {w v : Wave} (h : Settles w v) (hw : w.splits = []) : v.splits = [] := by simpa [hw] using h.2

/-- `v` is `w` but for its splits and the windows that ended splits left. -/
def SplitsOnly (w v : Wave) : Prop := ∃ sp o, v = { w with splits := sp, orph := o }

theorem SplitsOnly.trans {u v w : Wave} (h : SplitsOnly u v) (k : SplitsOnly v w) : SplitsOnly u w := by
  obtain ⟨_, _, rfl⟩ := h
  obtain ⟨a, b, rfl⟩ := k
  exact ⟨a, b, rfl⟩

theorem removeSplit_splits (w : Wave) (i : Nat) : (removeSplit w i).splits = w.splits.filter (·.sid != i) := by
  unfold removeSplit
  split <;> rename_i h
  · exact (List.filter_eq_self.2 fun p hp => by simpa using List.find?_eq_none.1 h p hp).symm
  · rfl

theorem splitsOnly_removeSplit (w : Wave) (i : Nat) : SplitsOnly w (removeSplit w i) := by
  unfold removeSplit
  split
  · exact ⟨w.splits, w.orph, rfl⟩
  · exact ⟨_, _, rfl⟩

/-- Splits taken out one after the other leave those of other numbers. -/
theorem foldl_removeSplit : ∀ (l : List Split) (w : Wave), SplitsOnly w (l.foldl (fun w p => removeSplit w p.sid) w) ∧
    ∀ p ∈ (l.foldl (fun w p => removeSplit w p.sid) w).splits, p ∈ w.splits ∧ p ∉ l
  | [], w => ⟨⟨w.splits, w.orph, rfl⟩, fun p hp => ⟨hp, List.not_mem_nil⟩⟩
  | q :: l, w => by
    obtain ⟨ho, hm⟩ := foldl_removeSplit l (removeSplit w q.sid)
    refine ⟨(splitsOnly_removeSplit w q.sid).trans ho, fun p hp => ?_⟩
    obtain ⟨hp, hl⟩ := hm p hp
    rw [removeSplit_splits, List.mem_filter] at hp
    refine ⟨hp.1, fun h => ?_⟩
    rcases List.mem_cons.1 h with rfl | h
    · simp at hp
    · exact hl h

/-- Every lane of `w` has exited, on the core and in the launch `n`, and its splits are gone. -/
def EndedOn (core n : Nat) (w : Wave) : Prop := w.core = core ∧ w.launch = n ∧ w.exited = allLanes ∧ w.splits = []

theorem endWaveW_ended {w : Wave} (h : w.exited = allLanes) : EndedOn w.core w.launch (endWaveW w) := by
  obtain ⟨ho, hm⟩ := foldl_removeSplit w.splits w
  rw [endWaveW, if_pos h]
  have hs := settles_settleW (w.splits.foldl (fun w p => removeSplit w p.sid) w)
  have hn : (w.splits.foldl (fun w p => removeSplit w p.sid) w).splits = [] :=
    List.eq_nil_iff_forall_not_mem.2 fun p hp => (hm p hp).2 (hm p hp).1
  obtain ⟨_, _, e⟩ := ho
  exact ⟨by rw [hs.core, e], by rw [hs.launch, e], by rw [hs.exited, e]; exact h, hs.no_splits hn⟩

theorem killedW_ended (w : Wave) : EndedOn w.core w.launch (killedW w) :=
  endWaveW_ended (w := exitedW allLanes w) BitVec.or_allOnes

/-! ### The waves of a block that starts -/

/-- A wave as stage `u` of launch `l` starts it on a core (R38): its registers zero, its lanes active, and its split at the stage's entry. -/
def StartedOn (l : Launch) (core u : Nat) (w : Wave) : Prop :=
  w.core = core ∧ w.launch = l.uid ∧ (∀ r i, gWord w r i = 0) ∧ (∀ r, sWord w r = 0) ∧ w.em = ~~~w.exited ∧ w.thb = 0 ∧
    w.tiles = List.replicate l.lr.tiles ⟨.f32, []⟩ ∧
    ∃ p, w.splits = [p] ∧ p.pc = stageEntry l u ∧ p.members = w.em ∧ p.stack = [] ∧ p.kind = .arm

theorem vecGet_replicate {α : Type} (n : Nat) (d : α) (i : Nat) : vecGet (Vector.replicate n d) d i = d := by
  by_cases h : i < n <;> simp [vecGet, Vector.getD, Array.getD, h]

theorem g_newWave (uid launch blk core slot idx bid stage : Nat) (lr : LaunchRec) (hoop : Bool) :
    (newWave uid launch blk core slot idx bid stage lr hoop []).g = List.replicate lr.regs zeroLanes := by
  refine List.ext_getElem (by simp [newWave]) fun r _ _ => ?_
  simp only [newWave, List.getElem_map, List.getElem_range, List.getElem_replicate]
  split
  · simp [zeroLanes, Vector.ext_iff]
  · rfl

/-- Without records every general register of a new wave is zero. -/
theorem gWord_newWave (uid launch blk core slot idx bid stage : Nat) (lr : LaunchRec) (hoop : Bool) (r i : Nat) :
    gWord (newWave uid launch blk core slot idx bid stage lr hoop []) r i = 0 := by
  have h : (List.replicate lr.regs zeroLanes).getD r zeroLanes = zeroLanes := by
    by_cases h : r < lr.regs <;> simp [List.getD_eq_getElem?_getD, h]
  rw [gWord, g_newWave, h]
  exact vecGet_replicate 32 0 i

theorem sWord_newWave (uid launch blk core slot idx bid stage : Nat) (lr : LaunchRec) (hoop : Bool) (ts : List TaskRec) (r : Nat) :
    sWord (newWave uid launch blk core slot idx bid stage lr hoop ts) r = 0 := by
  unfold sWord
  split
  · rfl
  · exact vecGet_replicate 64 0 r
theorem startedOn_newWave (l : Launch) (n blk core slot idx bid stage u sid age : Nat) (hoop : Bool) :
    let w := newWave n l.uid blk core slot idx bid stage l.lr hoop []
    StartedOn l core u { w with splits := [newSplit sid 0 .arm (stageEntry l u) (~~~w.exited) age] } := by
  have hg := gWord_newWave n l.uid blk core slot idx bid stage l.lr hoop
  have hs := sWord_newWave n l.uid blk core slot idx bid stage l.lr hoop []
  have he : (newWave n l.uid blk core slot idx bid stage l.lr hoop []).em = ~~~(newWave n l.uid blk core slot idx bid stage l.lr hoop []).exited := by
    simp [newWave]
  exact ⟨rfl, rfl, hg, hs, he, rfl, rfl, _, rfl, rfl, he.symm, rfl, rfl⟩

/-- The waves that a block's start adds are new, and as R38 has them. -/
theorem mem_startWaves (l : Launch) (b : Block) (u : Nat) (hl : b.launch = l.uid) : ∀ (sl idx : List Nat) (s : State),
    ∀ w ∈ (startWaves l b [] (stageEntry l u) sl idx s).waves, w ∈ s.waves ∨ (s.nid ≤ w.uid ∧ StartedOn l b.core u w)
  | [], _, s, w, h => .inl (by simpa [startWaves] using h)
  | _ :: _, [], s, w, h => .inl (by simpa [startWaves] using h)
  | k :: sl, i :: r, s, w, h => by
    rw [startWaves] at h
    rcases mem_startWaves l b u hl sl r _ w h with h | ⟨hn, hw⟩
    · rcases List.mem_append.1 h with h | h
      · exact .inl h
      · obtain rfl := List.mem_singleton.1 h
        exact .inr ⟨Nat.le_refl _, startedOn_newWave ..⟩
    · exact .inr ⟨by simp only at hn; omega, hw⟩

/-- A check of the entries leaves each wave as it is, or ends it where it is one of those checked. -/
theorem mem_checkEntry (l : Launch) (core : Nat) (pc : VAddr) : ∀ (ws : List Wave) (s : State), ∀ w ∈ (checkEntry l core pc ws s).waves,
    w ∈ s.waves ∨ ∃ a ∈ s.waves, (∃ v ∈ ws, a.uid = v.uid) ∧ EndedOn a.core a.launch w
  | [], _, _, h => .inl h
  | v :: r, s, w, h => by
    have hr := (reads_targetOk s l core l.admT pc).waves
    rw [checkEntry] at h
    rcases mem_checkEntry l core pc r _ w h with h | ⟨a, ha, ⟨x, hx, he⟩, hw⟩
    · split at h
      · exact .inl (hr ▸ h)
      · rw [waves_killWave, hr] at h
        rcases mem_updFirst_pos h with h | ⟨a, ha, he, rfl⟩
        · exact .inl h
        · exact .inr ⟨a, ha, ⟨v, by simp, by simpa using he⟩, killedW_ended a⟩
    · split at ha
      · exact .inr ⟨a, hr ▸ ha, ⟨x, by simp [hx], he⟩, hw⟩
      · rw [waves_killWave, hr] at ha
        rcases mem_updFirst_pos ha with ha | ⟨c, hc, hu, rfl⟩
        · exact .inr ⟨a, ha, ⟨x, by simp [hx], he⟩, hw⟩
        · obtain ⟨h1, h2, -, -⟩ := killedW_ended c
          exact .inr ⟨c, hc, ⟨v, by simp, by simpa using hu⟩, h1 ▸ h2 ▸ hw⟩

/-- Where the numbers in use lie below `nid`, a block's start leaves the waves there were, and adds waves as R38 has them, or that have ended since
their entry is no legal target (log 81). -/
theorem mem_startBlock {s : State} (hs : ∀ w ∈ s.waves, w.uid < s.nid ∧ w.blk < s.nid) (l : Launch) (core bid u : Nat) :
    ∀ w ∈ (startBlock s l core bid u false []).waves, w ∈ s.waves ∨ EndedOn core l.uid w ∨ StartedOn l core u w := by
  intro w h
  have hb : ∀ a ∈ (withBlock s l core bid u false []).waves, a ∈ s.waves ∨ (s.nid + 1 ≤ a.uid ∧ StartedOn l core u a) :=
    mem_startWaves l (blockToStart s l core bid u false) u rfl _ _ _
  rw [startBlock_eq] at h
  rcases mem_checkEntry _ _ _ _ _ w h with h | ⟨a, ha, ⟨v, hv, he⟩, hw⟩
  · rw [waves_discardFor] at h
    exact (hb w h).imp_right fun h => .inr h.2
  · rw [waves_discardFor] at ha
    obtain ⟨hv, hblk⟩ := List.mem_filter.1 hv
    have hblk : v.blk = s.nid := by simpa using hblk
    have hnew : s.nid + 1 ≤ v.uid := (hb v hv).elim (fun h => absurd (hs v h).2 (by omega)) And.left
    rcases hb a ha with h | ⟨-, hcore, hlaunch, -⟩
    · exact absurd (hs a h).1 (by omega)
    · exact .inr (.inl (hcore ▸ hlaunch ▸ hw))

/-! ### The end of blocks and launches -/

theorem countEnd_blocks (s : State) (b : Block) : ∀ c ∈ (countEnd s b).blocks, c.uid ≠ b.uid := by
  intro c h
  simp only [countEnd, updLaunch, dropBlock, removeBlock, List.mem_filter] at h
  simpa using h.2

theorem countEnd_waves (s : State) (b : Block) : ∀ w ∈ (countEnd s b).waves, w.blk ≠ b.uid := by
  intro c h
  simp only [countEnd, updLaunch, dropBlock, removeBlock, List.mem_filter] at h
  simpa using h.2

section
variable {s : State} {u : Nat} {b : Block} {rel : Option Vec} {k : Launch}

theorem blockEndS_plain (hf : findBlock s u = some b) (hm : b.mode = .ended rel) (hd : blockDone s b = true)
    (hl : findLaunch s b.launch = some k) (hp : b.hoop = true ∨ k.lr.bitmap = 0) : blockEndS s u = some (countEnd s b) := by
  simp [blockEndS, hf, hm, hd, hl, hp]

/-- A block with a bit to set first notes what its end releases (R364, log 78). -/
theorem blockEndS_notes (hf : findBlock s u = some b) (hm : b.mode = .ended none) (hd : blockDone s b = true)
    (hl : findLaunch s b.launch = some k) (hh : b.hoop = false) (hb : k.lr.bitmap ≠ 0) :
    blockEndS s u = some (setMode s u (.ended (some (vecOf s (dieOfCore b.core))))) := by
  simp [blockEndS, hf, hm, hd, hl, hh, hb]

theorem blockEndS_sets {v : Vec} {t : State} (hf : findBlock s u = some b) (hm : b.mode = .ended (some v)) (hd : blockDone s b = true)
    (hl : findLaunch s b.launch = some k) (hh : b.hoop = false) (hb : k.lr.bitmap ≠ 0) (ht : setBitmap s k b.bid v = some t) :
    blockEndS s u = some (countEnd t b) := by
  simp [blockEndS, hf, hm, hd, hl, hh, hb, ht]
end

theorem any_of_all_not {α : Type} {p : α → Bool} {l : List α} (h : l.all (fun x => !p x) = true) : l.any p = false := by
  rw [List.any_eq_not_all_not, h]; rfl

/-- A launch of which nothing is left completes once its record's die has applied what its blocks released (log 78). -/
theorem completionS_completes {s : State} {n : Nat} {l : Launch} (hl : findLaunch s n = some l) (ht : l.todo = [])
    (hb : s.blocks.all (·.launch != n) = true) (hv : s.saved.all (·.blk.launch != n) = true) (hr : s.tasks.recs.all (·.launch != n) = true)
    (hw : s.cave.works.all (·.launch != n) = true) (hm : s.mem.remoteW.all (·.lane != bmpKey n) = true) (hc : ctlRuns s 1 = true)
    (hd : (completionCovered s l).1 = true) :
    let t := writeCompletion (completionCovered s l).2 l
    completionS s n = some (releaseSlot { t with launches := t.launches.filter (·.uid != n) } l.lr.search) := by
  simp only [completionS, hl, Option.bind_some, ht, any_of_all_not hb, any_of_all_not hv, any_of_all_not hr, any_of_all_not hw,
    any_of_all_not hm, hc, hd]
  rfl

/-- A die's quota boundary, taken once in its cycle while the dispatcher's image is armed (R286, log 103). -/
theorem quotaS_boundary {s : State} {d : Nat} (hd : d < nDies) (hc : (vecGet s.dcyc 0 d).toNat % 1024 = 0)
    (hq : vecGet s.dcyc 0 d ≠ vecGet s.quotaAt 0 d) (ha : (vecGet s.ctls .reset 1).phase = .armed) :
    let t := s.launches.foldl balance s
    let v := t.launches.foldl (fun s l => setQuotas s l.uid d) t
    quotaS s d = some { v with quotaAt := vecSet v.quotaAt d (vecGet s.dcyc 0 d) } := by
  simpa [quotaS, Nat.not_le.2 hd, ha] using And.intro hc hq

/-- Settles O49: starts and steals are what `startInstance` answers where their premises hold; the waves of a start are those of `mem_startBlock`; and
the ends of blocks and of launches and the quota boundary are made where theirs hold. -/
theorem placementCompletes : Obligations.PlacementCompletes := by
  unfold Obligations.PlacementCompletes
  intro s n core q u d l b
  refine ⟨fun hl => ⟨fun t hs hq ho hv ht => ?_, fun e t hst hu hs hh hv ho hd hq hw ht => ?_, fun hg hq ho hf hd => ?_,
    fun ht hb hv hr hw hm hc hd => ?_⟩, fun hs => mem_startBlock hs l core q u,
    fun rel k hf hm hd hl => ⟨fun hp => ?_, fun hh hb => ⟨?_, ?_⟩⟩, fun hd hc hq ha => ?_⟩
  · rw [exec_blockStart, blockStartS_starts hl hs hq ho hv ht]; rfl
  · rw [exec_blockSteal, blockStealS_steals hl hst hu hs hh hv ho hd hq hw ht]; rfl
  · have hu : l.uid = n := by simpa using find_spec hl
    exact startInstance_single (hu ▸ hl) hg hq ho hf hd
  · rw [exec_launchCompletion, completionS_completes hl ht hb hv hr hw hm hc hd]; rfl
  · have hu : b.uid = u := by simpa using find_spec hf
    exact ⟨by rw [exec_blockEnd, blockEndS_plain hf hm hd hl hp]; rfl, hu ▸ countEnd_blocks s b, hu ▸ countEnd_waves s b⟩
  · rintro rfl
    rw [exec_blockEnd, blockEndS_notes hf hm hd hl hh hb]; rfl
  · rintro v t rfl ht
    have hu : b.uid = u := by simpa using find_spec hf
    exact ⟨by rw [exec_blockEnd, blockEndS_sets hf hm hd hl hh hb ht]; rfl, hu ▸ countEnd_blocks t b, hu ▸ countEnd_waves t b⟩
  · rw [exec_quotaBoundary, quotaS_boundary hd hc hq ha]; rfl

end Sys2Proof.Machine
end

section
/-! SUPPORT. One step of the package, from the schedulers' and the stack cores' turns to the instruction that executes (02 R48, R49, 03 R67 to R78,
16 R313). -/

namespace Sys2Proof.Machine

/-! ### What decodes is well-formed -/

theorem decodeFront_wellFormed {w : BitVec 96} {i : Instr} (h : decodeFront w = .ok i) : i.WellFormed := by
  simp only [decodeFront] at h
  repeat' split at h
  all_goals simp_all [Instr.WellFormed]

theorem decodeSlot_wellFormed {bs : List Byte} {i : Instr} (h : decodeSlot bs = .ok i) : i.WellFormed := decodeFront_wellFormed h

theorem decodeCave_wellFormed {w : DWord} {i : Instr} (h : decodeCave w = .ok i) : i.WellFormed := by
  simp only [decodeCave] at h
  repeat' split at h
  all_goals simp_all [Instr.WellFormed]

/-! ### What a step makes of its move -/

/-- The state in which a move begins: it has reached no unit yet. -/
def untouched (s : State) : State := { s with mem := { s.mem with touch := [] } }

theorem step_of_takeMove {s s1 : State} {m : Move} (h : takeMove s = (m, s1)) :
    step s = afterMove m (untouched s1) (runMove exec m (untouched s1)) := by
  simp only [step, h]; rfl

theorem takeMove_agenda {s : State} {m : Move} {r : List Move} (h : s.agenda = m :: r) : takeMove s = (m, { s with agenda := r }) := by
  simp only [takeMove, h]

/-- A move that waits for a unit, or for a boundary of a die's units, is not made. -/
theorem afterMove_held {m : Move} {s v : State} (h : waitsUnit v = true ∨ workHeld m s v = true) : afterMove m s (.next v) = .next s :=
  if_pos (by simpa using h)

theorem afterMove_made {m : Move} {s v : State} (hw : waitsUnit v = false) (hh : workHeld m s v = false) :
    afterMove m s (.next v) = .next (noteTraffic (ownOf m s v) ((match m with | .ev i => stacksOf i s | _ => []) ++
      (v.mem.touch.filter fun k => 9 ≤ k && k < 25).map (· - 9)) v) :=
  if_neg (by simp [hw, hh])

/-! ### A device move -/

theorem step_ev {s s1 : State} {i : Instr} (h : takeMove s = (.ev i, s1)) (hm : isMove i = true)
    (hb : (atLimit (untouched s1) uMemory && beginsAccess i (untouched s1)) = false)
    (ho : ∀ k, outputOf i (untouched s1) = some k → (ctlGet (untouched s1) k).phase ≠ .starting) :
    step s = afterMove (.ev i) (untouched s1) (exec i (untouched s1)) := by
  rw [step_of_takeMove h]
  simp only [runMove, hm, hb]
  cases hk : outputOf i (untouched s1) with
  | none => simp
  | some k => simp [ho k hk]

theorem step_ev_starting {s s1 : State} {i : Instr} {k : Nat} (h : takeMove s = (.ev i, s1)) (hm : isMove i = true)
    (hb : (atLimit (untouched s1) uMemory && beginsAccess i (untouched s1)) = false) (ho : outputOf i (untouched s1) = some k)
    (hp : (ctlGet (untouched s1) k).phase = .starting) :
    step s = afterMove (.ev i) (untouched s1) (.next (holdOutput (untouched s1) k i)) := by
  rw [step_of_takeMove h]
  simp [runMove, hm, hb, ho, hp]

/-! ### A stack core's turn -/

theorem cavePrepare_run {s v : State} {n c : Nat} {x : CaveCtx} {w : DWord} {i : Instr} (hx : ctxGet s (caveTurn s n c) = some x)
    (hu : skUp s n = true) (hp : x.part = none) (hm : msgTakes s n c = false)
    (hl : (caveTurn s n c).hand = false → atLimit s (uSk n c) = false) (hc : (caveTurn s n c).hand = true → x.count < 256)
    (hf : caveFetch s (caveTurn s n c) x x.pc = (some w, v)) (hd : decodeCave w = .ok i) :
    cavePrepare s n c = .run i { v with curCave := some (caveTurn s n c) } := by
  unfold cavePrepare
  cases hh : (caveTurn s n c).hand with
  | false => simp [hx, hu, hp, hm, hh, hl hh, hf, hd]
  | true => simp [hx, hu, hp, hm, hh, Nat.not_le.2 (hc hh), hf, hd]

theorem step_cave {s s1 v : State} {n c : Nat} {i : Instr} (h : takeMove s = (.cave n c, s1)) (ha : atLimit (untouched s1) uMemory = false)
    (hp : cavePrepare (untouched s1) n c = .run i v) : step s = afterMove (.cave n c) (untouched s1) (exec i v) := by
  rw [step_of_takeMove h]
  simp [runMove, ha, caveMove, hp]

/-! ### A front scheduler's turn -/

theorem step_front {s s1 t : State} {core sched : Nat} (h : takeMove s = (.front core sched, s1)) (hh : frontHeld (untouched s1) core = false)
    (hb : beginCycle (dieOfCore core) (untouched s1) = some t) :
    step s = afterMove (.front core sched) (untouched s1) (tryIssue exec (candidates t core sched) t) := by
  rw [step_of_takeMove h]
  simp [runMove, frontMove, hh, hb]

theorem lineInstr_ok {x : Ctx} {bs : List Byte} {k : Nat} {i : Instr} (hd : decodeSlot (bs.drop (slotOff k)) = .ok i)
    (hf : fitsAt i x.w.nregs x.w.ntiles x.p.pc = true) : ∃ pair, lineInstr x bs k = .ok i pair := by
  simp [lineInstr, hd, hf]

/-- A split that waits at no instruction fetches the word at its PC. -/
theorem fetchFor_fetch {s u : State} {x : Ctx} {bs : List Byte} {again k : Nat} (hn : x.p.under = none)
    (hp : fetchParity s x.l x.w.core (fetchFrom x.l x.p) (lineOf x.p.pc) = (.ok (some bs, again), u)) (hw : lineWordOk bs = true)
    (hk : slotOf (x.p.pc % 64) = some k) :
    fetchFor s x = (lineInstr x bs k, (List.range again).foldl (fun s _ => countRefetch s x.w.core) u) := by
  simp [fetchFor, hn, fetchWord, hp, hw, hk]

/-- A split that waits at an instruction has it (log 111). -/
theorem fetchFor_under {s : State} {x : Ctx} {i : Instr} {pair : Bool} (h : x.p.under = some (i, pair)) : fetchFor s x = (.ok i pair, s) := by
  simp [fetchFor, h]

section
variable {s r : State} {c : Cur} {x : Ctx} {i : Instr} {pair : Bool}

/-- A split that may issue, of an instruction that waits for no register and whose guard agrees, with no trap pending, executes it. -/
theorem prepare_run (hx : ctxOf { (mergeFirst s c).2 with cur := some (mergeFirst s c).1 } = some x)
    (hi : canIssue { (mergeFirst s c).2 with cur := none, issued := false } x = true) (hc : x.p.caveErr = none) (ht : timerHere x = false)
    (hg : guardOk x i = true) (hb : scoreboardBusy x.w x.p i = false)
    (hf : fetchFor { (mergeFirst s c).2 with cur := none, issued := false } x = (.ok i pair, r)) :
    prepare c s = .run (mergeFirst s c).1 i pair { r with cur := some (mergeFirst s c).1 } none := by
  simp [prepare, hx, hi, hf, hb, hg, ht, hc]
end

section
variable {ex : Instr → State → Out} {s t v : State} {c m : Cur} {cs : List Cur} {i : Instr} {pair : Bool}

theorem tryIssue_issued (hp : prepare c s = .run m i pair t none) (he : ex i t = .next v) (hw : waitsUnit v = false) (hi : v.issued = true) :
    tryIssue ex (c :: cs) s = .next (notePair m (pcOfSplit t m) pair v) := by
  simp [tryIssue, hp, he, hw, hi]

theorem tryIssue_waits (hp : prepare c s = .run m i pair t none) (he : ex i t = .next v) (hw : waitsUnit v = false) (hi : v.issued = false) :
    tryIssue ex (c :: cs) s = tryIssue ex cs (holdInstr m i pair v) := by
  simp [tryIssue, hp, he, hw, hi]

theorem tryIssue_unready (hp : prepare c s = .run m i pair t none) (he : ex i t = .next v) (hw : waitsUnit v = true) :
    tryIssue ex (c :: cs) s = tryIssue ex cs s := by
  simp [tryIssue, hp, he, hw]

theorem tryIssue_fault {f : Fault} (hp : prepare c s = .run m i pair t none) (he : ex i t = .fault f) :
    tryIssue ex (c :: cs) s = .fault f := by
  simp [tryIssue, hp, he]

theorem tryIssue_refused {f : Refusal} (hp : prepare c s = .run m i pair t none) (he : ex i t = .refused f) :
    tryIssue ex (c :: cs) s = .refused f := by
  simp [tryIssue, hp, he]
end

/-- What step `s`, made by the front move `mv` from `s0`, comes to where its scheduler, in `s2`, first tries a split that executes `i` in `r`: its
pair is noted, or the splits `cs` are tried. -/
def TriesFirst (s : State) (mv : Move) (s0 s2 : State) (c : Cur) (cs : List Cur) (r : State) (i : Instr) (pair : Bool) : Prop :=
  (∀ v, exec i r = .next v →
    (waitsUnit v = false → v.issued = true → step s = afterMove mv s0 (.next (notePair c (pcOfSplit r c) pair v))) ∧
    (waitsUnit v = false → v.issued = false → step s = afterMove mv s0 (tryIssue exec cs (holdInstr c i pair v))) ∧
    (waitsUnit v = true → step s = afterMove mv s0 (tryIssue exec cs s2))) ∧
  (∀ f, exec i r = .fault f → step s = .fault f) ∧
  (∀ f, exec i r = .refused f → step s = .refused f)

theorem triesFirst_of_prepare {s s0 s2 r : State} {mv : Move} {c m : Cur} {cs : List Cur} {i : Instr} {pair : Bool}
    (hs : step s = afterMove mv s0 (tryIssue exec (c :: cs) s2)) (hp : prepare c s2 = .run m i pair r none) :
    TriesFirst s mv s0 s2 m cs r i pair := by
  refine ⟨fun v he => ⟨fun hw hi => ?_, fun hw hi => ?_, fun hw => ?_⟩, fun f he => ?_, fun f he => ?_⟩
  · rw [hs, tryIssue_issued hp he hw hi]
  · rw [hs, tryIssue_waits hp he hw hi]
  · rw [hs, tryIssue_unready hp he hw]
  · rw [hs, tryIssue_fault hp he]; rfl
  · rw [hs, tryIssue_refused hp he]; rfl

/-- Settles O55: a step is `runMove` between `takeMove` and `afterMove`, and each clause follows one kind of move to the instruction that it
executes. -/
theorem stepRunsDecoded : Obligations.StepRunsDecoded := by
  unfold Obligations.StepRunsDecoded
  refine ⟨fun s s1 s2 core sched c cs hm hh hb hc x hx hi hce ht => ?_, fun s s1 n c hm x w v i hx hu hp ha hmsg hl hcnt hf hd => ?_,
    fun s s1 i hm hmv hb => ⟨fun ho => ?_, fun k ho hp => ?_⟩, fun m s v => afterMove_made, fun m s v => afterMove_held,
    fun s m r => takeMove_agenda⟩
  · have hs := step_front hm hh hb
    rw [hc] at hs
    refine ⟨fun bs again u k i hn hp hw hk hd hfit hg hbusy => ⟨decodeSlot_wellFormed hd, ?_⟩, fun i pair hn hg hbusy => ?_⟩
    · obtain ⟨pair, hl⟩ := lineInstr_ok hd hfit
      have hf := hl ▸ fetchFor_fetch hn hp hw hk
      exact ⟨pair, hl, triesFirst_of_prepare hs (prepare_run hx hi hce ht hg hbusy hf)⟩
    · exact triesFirst_of_prepare hs (prepare_run hx hi hce ht hg hbusy (fetchFor_under hn))
  · exact ⟨decodeCave_wellFormed hd, step_cave hm ha (cavePrepare_run hx hu hp hmsg hl hcnt hf hd)⟩
  · exact step_ev hm hmv hb ho
  · exact step_ev_starting hm hmv hb ho hp

end Sys2Proof.Machine
end

section
/-! SUPPORT. The register-computing instructions (06 R130 to R137): each form of operands is stated once. -/

namespace Sys2Proof.Machine

/-! ### The operand forms of the integer and the floating instructions -/

section
variable {i : Instr} {g : Guard} {la : BitVec 4} {s : State} {x : Ctx}

/-- A result that is computed of a B operand, whatever else of the wave it reads. -/
theorem computes_srcB {u wide w : Bool} {d : Reg} {imm : Word → DWord} {b : SrcB} (h : Issuing s x) (f : Wave → (Nat → DWord) → Nat → DWord)
    (hi : exec i s = execAlu g u wide d s fun x s => (f x.w (srcB x s w imm b).1, (srcB x s w imm b).2)) :
    Computes i g u wide d s x (srcB x s w imm b).2 (f x.w (srcB x s w imm b).1) :=
  computes_alu h hi rfl rfl (reads_srcB ..).waves

theorem computes_intBin {o : IntBin} (h : Issuing s x) (f : Int → Int → DWord)
    (hi : exec i s = execAlu g o.u o.ty.wide o.d s (intBinX o f)) :
    Computes i g o.u o.ty.wide o.d s x (srcBInt x s o.ty o.b).2
      (fun l => f (intVal o.ty (aVal x.w o.u o.ty.wide o.a l)) (intVal o.ty ((srcBInt x s o.ty o.b).1 l).toNat)) :=
  computes_alu h hi rfl rfl (waves_srcBInt ..)

theorem computesLater_intBin {o : IntBin} (h : Issuing s x) (f : Int → Int → DWord)
    (hi : exec i s = execLong g la o.u o.ty.wide o.d s (intBinX o f)) :
    ComputesLater i g la o.u o.ty.wide o.d s x (srcBInt x s o.ty o.b).2
      (fun l => f (intVal o.ty (aVal x.w o.u o.ty.wide o.a l)) (intVal o.ty ((srcBInt x s o.ty o.b).1 l).toNat)) :=
  computesLater_long h hi rfl rfl (reads_srcB ..)

theorem computes_bitBin {o : IntBin} (h : Issuing s x) (f : Nat → Nat → Nat)
    (hi : exec i s = execAlu g o.u o.ty.wide o.d s (bitBinX o f)) :
    Computes i g o.u o.ty.wide o.d s x (srcBInt x s o.ty o.b).2
      (fun l => BitVec.ofNat 64 (f (aVal x.w o.u o.ty.wide o.a l) ((srcBInt x s o.ty o.b).1 l).toNat)) :=
  computes_alu h hi rfl rfl (waves_srcBInt ..)

theorem computes_cntBin {o : IntBin} (h : Issuing s x) (f : Nat → Nat → Nat)
    (hi : exec i s = execAlu g o.u o.ty.wide o.d s (cntBinX o f)) :
    Computes i g o.u o.ty.wide o.d s x (srcBInt x s .z32 o.b).2
      (fun l => BitVec.ofNat 64 (f (aVal x.w o.u o.ty.wide o.a l) ((srcBInt x s .z32 o.b).1 l).toNat)) :=
  computes_alu h hi rfl rfl (waves_srcBInt ..)

/-- The result may be narrower than A, as a count of bits is. -/
theorem computes_intUn {o : IntUn} {wide : Bool} (h : Issuing s x) (f : Nat → DWord)
    (hi : exec i s = execAlu g o.u wide o.d s (intUnX o f)) :
    Computes i g o.u wide o.d s x s (fun l => f (aVal x.w o.u o.ty.wide o.a l)) :=
  computes_alu h hi rfl rfl rfl

theorem computes_fltBin {o : FltBin} (h : Issuing s x) (f : Nat → Nat → Nat)
    (hi : exec i s = execAlu g o.u o.ty.wide o.d s (fltBinX o f)) :
    Computes i g o.u o.ty.wide o.d s x (srcBFlt x s o.ty o.b).2
      (fun l => BitVec.ofNat 64 (f (aVal x.w o.u o.ty.wide o.a l) ((srcBFlt x s o.ty o.b).1 l).toNat)) :=
  computes_alu h hi rfl rfl (waves_srcBFlt ..)

theorem computesLater_fltBin {o : FltBin} (h : Issuing s x) (f : Nat → Nat → Nat)
    (hi : exec i s = execLong g la o.u o.ty.wide o.d s (fltBinX o f)) :
    ComputesLater i g la o.u o.ty.wide o.d s x (srcBFlt x s o.ty o.b).2
      (fun l => BitVec.ofNat 64 (f (aVal x.w o.u o.ty.wide o.a l) ((srcBFlt x s o.ty o.b).1 l).toNat)) :=
  computesLater_long h hi rfl rfl (reads_srcB ..)

theorem computes_fltUn {o : FltUn} (h : Issuing s x) (f : Nat → Nat) (hi : exec i s = execAlu g o.u o.ty.wide o.d s (fltUnX o f)) :
    Computes i g o.u o.ty.wide o.d s x s (fun l => BitVec.ofNat 64 (f (aVal x.w o.u o.ty.wide o.a l))) :=
  computes_alu h hi rfl rfl rfl

theorem computesLater_fltUn {o : FltUn} (h : Issuing s x) (f : Nat → Nat)
    (hi : exec i s = execLong g la o.u o.ty.wide o.d s (fltUnX o f)) :
    ComputesLater i g la o.u o.ty.wide o.d s x s (fun l => BitVec.ofNat 64 (f (aVal x.w o.u o.ty.wide o.a l))) :=
  computesLater_long h hi rfl rfl (.refl s)
end

/-! ### Integer arithmetic -/

/-- Settles O1: every form is `intBinX` of its value function but `imad`, which has an operand more. -/
theorem integerArithmeticCompletes : Obligations.IntegerArithmeticCompletes := by
  unfold Obligations.IntegerArithmeticCompletes
  intro s x g sat o c h
  exact ⟨computes_intBin h (fun a b => intRes o.ty sat (a + b)) rfl,
    computes_intBin h (fun a b => intRes o.ty sat (a - b)) rfl,
    computes_intBin h (fun a b => intRes o.ty sat (a * b)) rfl,
    computes_intBin h (fun a b => intRes o.ty false ((a * b).fdiv (2 ^ intBits o.ty))) rfl,
    computes_srcB h (fun w b l => intRes o.ty sat (intVal o.ty (aVal w o.u o.ty.wide o.a l) * intVal o.ty (b l).toNat +
      intVal o.ty (srcC w o.ty.wide c l).toNat)) rfl,
    computes_intBin h (fun a b => intRes o.ty false (min a b)) rfl,
    computes_intBin h (fun a b => intRes o.ty false (max a b)) rfl⟩

/-- Settles O2: both are `intBinX`, by way of a window. -/
theorem integerDivisionCompletes : Obligations.IntegerDivisionCompletes := by
  unfold Obligations.IntegerDivisionCompletes
  intro s x g la o h
  exact ⟨computesLater_intBin h (idivV o.ty) rfl, computesLater_intBin h (iremV o.ty) rfl⟩

/-- Settles O3: each instruction is its operand form of its value function; `bfi` and `sel` have an operand more. -/
theorem integerPatternCompletes : Obligations.IntegerPatternCompletes := by
  unfold Obligations.IntegerPatternCompletes
  intro s x g sat o q c k h
  exact ⟨computes_intUn h (fun a => intRes q.ty sat (intVal q.ty a).natAbs) rfl,
    computes_intUn h (fun a => intRes q.ty sat (-(intVal q.ty a))) rfl,
    computes_bitBin h Nat.land rfl, computes_bitBin h Nat.lor rfl, computes_bitBin h Nat.xor rfl,
    computes_intUn h (fun a => BitVec.ofNat 64 (2 ^ intBits q.ty - 1 - a % 2 ^ intBits q.ty)) rfl,
    computes_cntBin h (shlV (intBits o.ty)) rfl, computes_cntBin h (shrV (intBits o.ty)) rfl,
    computes_cntBin h (sraV (intBits o.ty)) rfl, computes_cntBin h (rotV (intBits o.ty)) rfl,
    computes_cntBin h (bfeV o.ty) rfl,
    computes_srcB h (fun w b l => BitVec.ofNat 64 (bfiV o.ty (aVal w o.u o.ty.wide o.a l) (b l).toNat (srcC w o.ty.wide c l).toNat)) rfl,
    computes_intUn h (fun a => BitVec.ofNat 64 (popcV (intBits q.ty) a)) rfl,
    computes_intUn h (fun a => BitVec.ofNat 64 (clzV (intBits q.ty) a)) rfl,
    computes_intUn h (fun a => BitVec.ofNat 64 (ctzV (intBits q.ty) a)) rfl,
    computes_intUn h (fun a => BitVec.ofNat 64 (ofBits (intBits q.ty) fun i => a.testBit (intBits q.ty - 1 - i))) rfl,
    computes_srcB h (fun w b l => if pBit w k l then BitVec.ofNat 64 (aVal w o.u o.ty.wide o.a l) else b l) rfl⟩

/-! ### Addresses and moves -/

theorem immInt_eq (ty : IntTy) (v : Word) : immInt ty v = if ty = .s64 then v.signExtend 64 else v.setWidth 64 := by
  cases ty <;> rfl

/-- One general register is a number of 32 bits. -/
theorem gGet_mod (w : Wave) (a : Reg) (l : Nat) : (gGet w false a l).toNat % 2 ^ 32 = (gGet w false a l).toNat := by
  simp only [gGet, Bool.false_eq_true, if_false, BitVec.toNat_setWidth]
  omega

/-- The sum is written first, and then the carry out of the same operands (R132). -/
theorem execIaddc_done {g : Guard} {d a : Reg} {b : SrcB} {c : PReg} {s : State} {x : Ctx} (h : Issuing s x) :
    let f := srcBInt x s .z32 b
    let sum := fun l => (gGet x.w false a l).toNat + (f.1 l).toNat % 2 ^ 32 + (pBit x.w c l).toNat
    execIaddc g d a b c s = .next (issuedAt f.2 x (nextPc x.p.pc) fun w =>
      setPm (setGd w false d (x.guarded g).act fun l => BitVec.ofNat 64 (sum l % 2 ^ 32)) c (x.guarded g).act
        (maskOf fun l => decide (2 ^ 32 ≤ sum l))) := by
  intro f sum
  have hc : (fun l => carryOut (gGet x.w false a l).toNat (f.1 l).toNat (pBit x.w c l)) = fun l => decide (2 ^ 32 ≤ sum l) := by
    funext l
    simp only [carryOut, gGet_mod, sum]
  have hd := regsOnly_setGd false d (x.guarded g).act fun l => BitVec.ofNat 64 (sum l % 2 ^ 32)
  have hp := regsOnly_setPm c (x.guarded g).act (maskOf fun l => decide (2 ^ 32 ≤ sum l))
  refine lane_done h rfl (hd.comp hp) ?_ (waves_srcBInt x s .z32 b)
  rw [← hc]
  exact updWave_updWave _ _ _ _ hd.uid

/-- Settles O4: `lea`, `mov` and `movi` are operand forms; `iaddc` writes its sum and then its carry. -/
theorem addressAndMoveCompletes : Obligations.AddressAndMoveCompletes := by
  unfold Obligations.AddressAndMoveCompletes
  intro s x g o d a b c ty u v h
  refine ⟨?_, ?_, computes_srcB h (fun _ b => b) rfl, ?_⟩
  · simp only [← ofNat_wrapI_same]
    exact computes_srcB h (fun w b l => BitVec.ofNat 64 (leaV o.sx o.sh.toNat (aVal w o.u true o.a l) (b l).toNat)) rfl
  · exact execIaddc_done h
  · simp only [← immInt_eq]
    exact computes_alu h (k := fun _ s => (fun _ => immInt ty v, s)) rfl rfl rfl rfl

/-! ### Floating instructions, conversions and packing -/

/-- Settles O7: each instruction is its operand form of its value function; `ffma` has an operand more. -/
theorem floatCompletes : Obligations.FloatCompletes := by
  unfold Obligations.FloatCompletes
  refine ⟨fun s x g r o q c h => ?_, fun s x g la r o q h => ?_⟩
  · exact ⟨computes_fltBin h (faddV (f5 o.ty) r) rfl, computes_fltBin h (fsubV (f5 o.ty) r) rfl,
      computes_fltBin h (fmulV (f5 o.ty) r) rfl,
      computes_srcB h (fun w b l =>
        BitVec.ofNat 64 (ffmaV (f5 o.ty) r (aVal w o.u o.ty.wide o.a l) (b l).toNat (srcC w o.ty.wide c l).toNat)) rfl,
      computes_fltBin h (fminmax (f5 o.ty) false) rfl, computes_fltBin h (fminmax (f5 o.ty) true) rfl,
      computes_fltUn h (fabsV (f5 q.ty)) rfl, computes_fltUn h (fnegV (f5 q.ty)) rfl⟩
  · exact ⟨computesLater_fltBin h (fdivV (f5 o.ty) r) rfl, computesLater_fltUn h (frcpV (f5 q.ty) r) rfl,
      computesLater_fltUn h (fun a => roundX (f5 q.ty) r (rsqX (fval (f5 q.ty) a))) rfl,
      computesLater_fltUn h (fun a => roundX (f5 q.ty) r (sqrtX (fval (f5 q.ty) a))) rfl,
      computesLater_fltUn h (fun a => ex2 (f5 q.ty) r (fval (f5 q.ty) a)) rfl,
      computesLater_fltUn h (fun a => lg2 (f5 q.ty) r (fval (f5 q.ty) a)) rfl,
      computesLater_fltUn h (fun a => trig (f5 q.ty) r false (fval (f5 q.ty) a)) rfl,
      computesLater_fltUn h (fun a => trig (f5 q.ty) r true (fval (f5 q.ty) a)) rfl⟩

section
variable {g : Guard} {q : PackOp} {s : State} {x : Ctx}

/-- `k` registers of floats become one register of `k` elements of `n` bits (R136). -/
theorem execPack_computes {i : Instr} {k n : Nat} {lo hi : Int} (h : Issuing s x) (e : exec i s = execPack k n lo hi g q s) :
    Computes i g false false q.d s x (srcBFlt x s .f32 q.b).2 (fun l =>
      BitVec.ofNat 64 (if packZero (((srcBFlt x s .f32 q.b).1 l).toNat % 2 ^ 32) then 0
        else packV q.rm n lo hi (((srcBFlt x s .f32 q.b).1 l).toNat % 2 ^ 32)
          ((List.range k).map fun j => (gWord x.w (q.a.toNat + j) l).toNat))) :=
  computes_srcB h (fun w b l => BitVec.ofNat 64 (if packZero ((b l).toNat % 2 ^ 32) then 0
    else packV q.rm n lo hi ((b l).toNat % 2 ^ 32) ((List.range k).map fun j => (gWord w (q.a.toNat + j) l).toNat))) e

/-- The `k` elements of one register become `k` registers (R136). -/
theorem execUnpack_done (k n : Nat) (h : Issuing s x) :
    execUnpack k n g q s = .next (issuedAt (srcBFlt x s .f32 q.b).2 x (nextPc x.p.pc) fun w => (List.range k).foldl (fun w j =>
      setGm w (q.d.toNat + j) (x.guarded g).act fun l =>
        BitVec.ofNat 32 (unpackV q.rm n (gWord x.w q.a.toNat l).toNat j (((srcBFlt x s .f32 q.b).1 l).toNat % 2 ^ 32))) w) :=
  lane_done h rfl (regs_fold _ (fun _ => regs_setGm ..) _) rfl (waves_srcBFlt x s .f32 q.b)
end

/-- Settles O8: conversion and classification are forms of one operand; packing and unpacking are stated once for both element widths. -/
theorem conversionCompletes : Obligations.ConversionCompletes := by
  unfold Obligations.ConversionCompletes
  intro s x g o q ty u d a h
  exact ⟨computes_alu h (k := fun x s => (fun l => BitVec.ofNat 64 (convert o.td o.ts o.rm (aVal x.w o.u o.ts.wide o.a l)), s)) rfl rfl rfl rfl,
    execPack_computes h rfl, execPack_computes h rfl, execUnpack_done 8 4 h, execUnpack_done 4 6 h,
    computes_alu h (k := fun x s => (fun l => BitVec.ofNat 64 (2 ^ fclassBit ty (aVal x.w u ty.wide a l)), s)) rfl rfl rfl rfl⟩

end Sys2Proof.Machine
end

section
/-! SUPPORT. The cross-lane instructions of a split that runs at once (06 R142 to R144). -/

namespace Sys2Proof.Machine

/-- A result put in registers as its instruction completes. -/
theorem finish_putResult {g : Guard} {s sb : State} {x : Ctx} {u wide : Bool} {d : Reg} {v : Nat → DWord} (h : Issuing s x)
    (hw : sb.waves = s.waves) :
    finish s x (.done (putResult sb (x.guarded g) u wide d v)) = issuedAt sb x (nextPc x.p.pc) (resultW (x.guarded g) u wide d v) := by
  obtain ⟨ht, hs⟩ := putResult_eq sb (x.guarded g) u wide d v
  have hu : (updWave sb x.c.wave (resultW (x.guarded g) u wide d v)).waves =
      (updWave s x.c.wave (resultW (x.guarded g) u wide d v)).waves := by simp [hw]
  rw [finish_done h (regsOnly_resultW _ u wide d v) (ht.trans hu), ← hw, hs]

/-- One execution of a split that meets no other: its participants are its active lanes. -/
def aloneCross (x : Ctx) (g : Guard) : Cross := ⟨(x.guarded g).act, ~~~x.w.exited &&& ~~~x.p.members⟩

section
variable {i : Instr} {g : Guard} {part : Bool} {s : State} {x : Ctx}

theorem runCross_alone (k : Ctx → Cross → State → State) (h : Issuing s x) (hw : x.p.wait ≠ .xlaneGo)
    (hp : part = true ∨ (x.p.kind ≠ .handler ∧ liveOf x.w x.p = ~~~x.w.exited)) :
    runCross g part s k = .next (finish s x (.done (k (x.guarded g) (aloneCross x g) s))) := by
  obtain ⟨ab, e, rfl⟩ := runCross_eq (g := g) k h hw hp
  exact e

/-- A cross-lane instruction that runs at once completes with the values that `f` computes of its participants. -/
theorem computes_cross {u wide : Bool} {d : Reg} (h : Issuing s x) (hw : x.p.wait ≠ .xlaneGo)
    (hp : part = true ∨ (x.p.kind ≠ .handler ∧ liveOf x.w x.p = ~~~x.w.exited)) (f : Ctx → Cross → State → (Nat → DWord) × State)
    (hi : exec i s = runCross g part s fun x c s => putResult (f x c s).2 x u wide d (f x c s).1)
    (hs : (f (x.guarded g) (aloneCross x g) s).2.waves = s.waves) :
    Computes i g u wide d s x (f (x.guarded g) (aloneCross x g) s).2 (f (x.guarded g) (aloneCross x g) s).1 := by
  unfold Computes
  rw [hi, runCross_alone _ h hw hp, finish_putResult h hs]
end

/-- Settles O10: a split that runs at once reads its active lanes; `vote` writes a predicate, the others a register. -/
theorem crossLaneCompletes : Obligations.CrossLaneCompletes := by
  unfold Obligations.CrossLaneCompletes
  intro s x g part u excl k d p a o q h hw hp
  refine ⟨computes_cross h hw hp (fun x c s => (fun _ => (c.part &&& pMask x.w a).setWidth 64, s)) rfl rfl, ?_,
    computes_cross h hw hp (fun x c s => (fun l => match shflSrc o.mode l (((srcBInt x s .z32 o.b).1 l).toNat % 2 ^ 32) with
      | none => gGet x.w o.wide o.a l
      | some j => if c.absent.getLsbD j then 0 else gGet x.w o.wide o.a j, (srcBInt x s .z32 o.b).2)) rfl (waves_srcBInt x s .z32 o.b),
    computes_cross h hw hp (fun x c s => (fun _ => redV q ((lanesOf c.part).map (aVal x.w u q.ty.wide q.a)), s)) rfl rfl,
    computes_cross h hw hp (fun x c s => (fun l =>
      redV q (((lanesOf c.part).filter fun j => j < l || (!excl && j == l)).map (aVal x.w false q.ty.wide q.a)), s)) rfl rfl⟩
  show execVote g part k p a s = _
  unfold execVote
  rw [runCross_alone _ h hw hp]
  exact congrArg _ (finish_done h (regsOnly_setPm p _ _) rfl)

end Sys2Proof.Machine
end

section
/-! SUPPORT. Instructions that set their split's PC themselves, and `bdiv` and `rjoin` among them (06 R128, R129). -/

namespace Sys2Proof.Machine

/-! ### Lists of splits -/

theorem updFirst_append {α : Type} {p : α → Bool} {f : α → α} {a : α} (r : List α) : ∀ {l : List α}, l.find? p = some a →
    updFirst p f (l ++ r) = updFirst p f l ++ r
  | [], h => by simp at h
  | y :: l, h => by
    cases hy : p y with
    | true => simp [updFirst, hy]
    | false => simp [updFirst, hy, updFirst_append r (l := l) (by simpa [List.find?_cons, hy] using h)]

theorem find_sid_filter {i j : Nat} (h : i ≠ j) (l : List Split) : (l.filter (·.sid != j)).find? (·.sid == i) = l.find? (·.sid == i) := by
  rw [List.find?_filter]
  congr 1
  funext p
  by_cases hp : p.sid = i
  · simp [hp, h]
  · simp [hp]

/-! ### What a meaning leaves that has set the PC itself -/

/-- `F` makes the issuing split of `x` the split `p`, which has a lane left; it opens no window, and it leaves the registers and the
execution mask alone. -/
structure Leaves (x : Ctx) (F : Wave → Wave) (p : Split) : Prop where
  uid : ∀ w, (F w).uid = w.uid
  quiet : (F x.w).quiet
  split : findSplit (F x.w) x.c.sid = some p
  live : liveOf (F x.w) p ≠ 0
  regs : (F x.w).g = x.w.g ∧ (F x.w).s = x.w.s ∧ (F x.w).p = x.w.p ∧ (F x.w).em = x.w.em

theorem leaves_updSplitW {s : State} {x : Ctx} {G : Split → Split} (h : Issuing s x) (hs : ∀ p, (G p).sid = p.sid)
    (hw : ∀ p, p.wins = [] → (G p).wins = []) (hm : (G x.p).members &&& ~~~x.w.exited = (G x.p).members) (h0 : (G x.p).members ≠ 0) :
    Leaves x (fun w => updSplitW w x.c.sid G) (G x.p) where
  uid _ := rfl
  quiet := quiet_updSplitW h.quiet hw
  split := by
    obtain ⟨-, -, hp, -⟩ := issuing_parts h
    rw [findSplit_updSplitW _ _ _ hs, hp]
    rfl
  live := by
    show (G x.p).members &&& ~~~x.w.exited ≠ 0
    rwa [hm]
  regs := ⟨rfl, rfl, rfl, rfl⟩

theorem Leaves.append {x : Ctx} {F : Wave → Wave} {p q : Split} (h : Leaves x F p) (hq : q.wins = []) :
    Leaves x (fun w => { F w with splits := (F w).splits ++ [q] }) p where
  uid := h.uid
  quiet := by
    refine ⟨fun r hr => ?_, h.quiet.2⟩
    rcases List.mem_append.mp hr with hr | hr
    · exact h.quiet.1 r hr
    · rw [List.mem_singleton.mp hr, hq]
  split := by
    have hp := h.split
    unfold findSplit at hp ⊢
    rw [List.find?_append, hp]
    rfl
  live := h.live
  regs := h.regs

theorem Leaves.filter {x : Ctx} {F : Wave → Wave} {p : Split} {j : Nat} (h : Leaves x F p) (hj : x.c.sid ≠ j) :
    Leaves x (fun w => { F w with splits := (F w).splits.filter (·.sid != j) }) p where
  uid := h.uid
  quiet := ⟨fun r hr => h.quiet.1 r (List.mem_filter.mp hr).1, h.quiet.2⟩
  split := (find_sid_filter hj _).trans h.split
  live := h.live
  regs := h.regs

/-- A wave whose split `i` has issued an instruction that set the PC. -/
def issuedW (i : Nat) (w : Wave) : Wave := updSplitW w i fun p => nextSplit p.pc [] p

/-- The instruction issues: the split goes on as `p`, in a wave with the registers it had. What more holds, `P`, follows from memory and from
the splits that `F` left. -/
theorem finish_leaves {s sb t : State} {x : Ctx} {F : Wave → Wave} {p : Split} {o : Out} {P : State → Wave → Split → Prop}
    (h : Issuing s x) (ho : o = .next (finish s x (.gone t))) (ht : t = updWave sb x.c.wave F) (hs : sb.waves = s.waves) (hF : Leaves x F p)
    (hP : ∀ u w, u.mem = sb.mem → w.splits = (issuedW x.c.sid (F x.w)).splits → P u w (nextSplit p.pc [] p)) :
    ∃ u w p, o = .next u ∧ findWave u x.c.wave = some w ∧ findSplit w x.c.sid = some p ∧
      w.g = x.w.g ∧ w.s = x.w.s ∧ w.p = x.w.p ∧ w.em = x.w.em ∧ P u w p := by
  obtain ⟨hw, -⟩ := issuing_parts h
  have hw1 : findWave t x.c.wave = some (F x.w) := by
    unfold findWave at hw ⊢
    rw [ht, updWave_waves, find_updFirst (fun w e => by rw [hF.uid]; exact e), hs, hw]
    rfl
  have hu : findWave (issuedHere t x) x.c.wave = some (issuedW x.c.sid (F x.w)) :=
    (find_updFirst (p := fun w : Wave => w.uid == x.c.wave) (f := issuedW x.c.sid) fun _ e => e).trans (congrArg (Option.map _) hw1)
  have hp : findSplit (issuedW x.c.sid (F x.w)) x.c.sid = some (nextSplit p.pc [] p) :=
    (findSplit_updSplitW _ _ (fun p => nextSplit p.pc [] p) fun _ => rfl).trans (congrArg (Option.map _) hF.split)
  have hm : (issuedHere t x).mem = sb.mem := by rw [ht]; rfl
  obtain ⟨hg, hs, hpr, hem⟩ := hF.regs
  exact ⟨_, _, _, ho.trans (congrArg _ (finish_gone s hw1 hF.quiet hF.split hF.live)), hu, hp, hg, hs, hpr, hem, hP _ _ hm rfl⟩

/-! ### Divergence -/

/-- Lanes taken from a split's live ones have not exited. -/
theorem live_part (w : Wave) (p : Split) (m : Mask) : liveOf w p &&& m &&& ~~~w.exited = liveOf w p &&& m := by
  unfold liveOf
  rw [BitVec.and_assoc, BitVec.and_comm m, ← BitVec.and_assoc, BitVec.and_assoc p.members, BitVec.and_self]

/-- The split that diverged goes on at `pc` with the lanes `m`, the divergence on its stack. -/
def enterArm (m : Mask) (pc : VAddr) (en : StkEntry) (p : Split) : Split := { p with members := m, pc := pc, stack := p.stack ++ [en] }

/-- The split of the other arm of an outermost divergence. -/
def otherArm (s : State) (x : Ctx) (m : Mask) (pc : VAddr) (en : StkEntry) : Split :=
  { newSplit s.nid (1 - x.p.arm) .arm pc m (mkAge s x.w) with stack := x.p.stack ++ [en], wins := winsOut m x.p.wins }

/-- The wave of an outermost divergence: the first arm with the lanes `m`, and the split `q` of the other. -/
def twoArmsW (x : Ctx) (m : Mask) (en : StkEntry) (q : Split) (w : Wave) : Wave :=
  let w := updSplitW w x.c.sid fun p => { enterArm m (nextPc x.p.pc) en p with wins := winsStay q.members p.wins }
  { w with splits := w.splits ++ [q] }

section
variable {s : State} {x : Ctx} {k : PReg} {e j : VAddr} {t f : Mask} (ht : liveOf x.w x.p &&& pMask x.w k = t)
  (hf : liveOf x.w x.p &&& ~~~t = f)
include ht hf

theorem diverge_arms (h : divergenceOpen x.w = false ∧ armTaken x.w x.p = false ∧ x.p.kind = .arm ∧ t ≠ 0 ∧ f ≠ 0) :
    diverge x s k e j = updWave { s with nid := s.nid + 1 } x.c.wave
      (twoArmsW x t ⟨j, e, t, f, false, true⟩ (otherArm s x f e ⟨j, e, t, f, false, true⟩)) := by
  subst ht hf
  obtain ⟨ho, ha, hk, ht, hf⟩ := h
  unfold diverge
  simp only [ho, ha, hk, bne_iff_ne.mpr ht, bne_iff_ne.mpr hf, beq_self_eq_true, Bool.not_false, Bool.and_self, if_true]
  rfl

theorem diverge_serial (h : ¬(divergenceOpen x.w = false ∧ armTaken x.w x.p = false ∧ x.p.kind = .arm ∧ t ≠ 0 ∧ f ≠ 0)) (h0 : t ≠ 0) :
    diverge x s k e j = updSplit s x.c (enterArm t (nextPc x.p.pc) ⟨j, e, t, f, false, false⟩) := by
  subst ht hf
  unfold diverge
  simp only
  rw [if_neg (by simpa [and_assoc] using h), if_pos (bne_iff_ne.mpr h0)]
  rfl

theorem diverge_else (h0 : t = 0) : diverge x s k e j = updSplit s x.c (enterArm f e ⟨j, e, t, f, true, false⟩) := by
  subst ht hf
  unfold diverge
  simp only
  rw [if_neg (by simp [h0]), if_neg (by simp [h0])]
  rfl
end

/-- The two arms of an outermost divergence: the issuing split with the lanes `t`, and a new one. -/
theorem twoArms_leaves {s sb : State} {x : Ctx} {t f : Mask} {pc : VAddr} {en : StkEntry} (h : Issuing s x)
    (hm : t &&& ~~~x.w.exited = t) (h0 : t ≠ 0) :
    ∃ p, Leaves x (twoArmsW x t en (otherArm sb x f pc en)) p ∧ p.members = t ∧ p.pc = nextPc x.p.pc ∧ p.stack = x.p.stack ++ [en] := by
  obtain ⟨-, hq, hp, -⟩ := issuing_parts h
  have hw : x.p.wins = [] := hq.1 x.p (List.mem_of_find?_eq_some hp)
  have hL := leaves_updSplitW (G := fun p => { enterArm t (nextPc x.p.pc) en p with wins := winsStay f p.wins }) h (fun _ => rfl)
    (fun p hw => by simp [hw, winsStay]) hm h0
  exact ⟨_, hL.append (q := otherArm sb x f pc en) (by simp [otherArm, hw, winsOut]), rfl, rfl, rfl⟩

/-- The new split is as the divergence made it once the instruction has issued. -/
theorem otherArm_mem {x : Ctx} {t : Mask} {en : StkEntry} {q : Split} (h : findSplit x.w x.c.sid = some x.p) :
    q ∈ (issuedW x.c.sid (twoArmsW x t en q x.w)).splits := by
  have hs := (findSplit_updSplitW x.w x.c.sid (fun p => { enterArm t (nextPc x.p.pc) en p with wins := winsStay q.members p.wins })
    fun _ => rfl).trans (congrArg _ h)
  have he : (issuedW x.c.sid (twoArmsW x t en q x.w)).splits = _ := updFirst_append [q] hs
  rw [he]
  simp

/-- Both targets are legal and the stack has room (R128). -/
theorem execBdiv_legal {g : Guard} {k : PReg} {els : Option ElseRef} {j : BrImm} {s : State} {x : Ctx} (h : Issuing s x) (hg : x.agrees g) :
    let t := bdivTargets x.p.pc els j
    let a := targetOk s x.l x.w.core (fetchFrom x.l x.p) t.1
    let b := targetOk a.2 x.l x.w.core (fetchFrom x.l x.p) t.2
    a.1 = true → b.1 = true → x.p.stack.length < 16 →
    exec (.bdiv g k els j) s = .next (finish s x (.gone (diverge x b.2 k t.1 t.2))) := by
  intro t a b ha hb hl
  show execBdiv g k els j s = _
  unfold execBdiv
  rw [runUni_eq h hg]
  simp only [a, b, t] at ha hb ⊢
  simp only [ha, hb, Bool.not_true, Bool.false_eq_true, if_false, if_neg (Nat.not_le.mpr hl)]
  rfl

/-! ### The join -/

/-- The second arm of a serialised divergence starts, with the lanes `m`. -/
def startElse (m : Mask) (e : StkEntry) (p : Split) : Split :=
  { p with members := m, pc := e.e, stack := p.stack.dropLast ++ [{ e with els := true }] }

/-- A divergence closes: the split goes on with the lanes `m`. -/
def rejoin (m : Mask) (pc : VAddr) (p : Split) : Split := { p with members := m, pc := pc, stack := p.stack.dropLast }

/-- The same, where the split of the other arm, `q`, joins it: the older one's arm number stays (R31). -/
def rejoinWith (q : Split) (m : Mask) (pc : VAddr) (p : Split) : Split :=
  { rejoin m pc p with
    arm := if q.age < p.age then q.arm else p.arm
    age := min p.age q.age
    icFrom := laterFrom p.icFrom q.icFrom
    wins := p.wins ++ closeWins (fun _ => true) q.wins }

/-- The wave where that has happened: the split `q` is gone. -/
def joinedW (i : Nat) (q : Split) (m : Mask) (pc : VAddr) (w : Wave) : Wave :=
  let w := updSplitW w i (rejoinWith q m pc)
  { w with splits := w.splits.filter (·.sid != q.sid) }

section
variable {g : Guard} {e : StkEntry} {s : State} {x : Ctx} (h : Issuing s x) (hg : x.agrees g) (hl : x.p.stack.getLast? = some e)
  (hj : e.j = x.p.pc) (hh : rjoinHeld x e ((e.t ||| e.f) &&& ~~~x.w.exited) = false)
include h hg hl hj hh

theorem execRjoin_outer (ho : e.outer = true)
    (hq : ∀ q, partner x e = some q → q.wait = .join ∧ q.pc = x.p.pc ∧ q.stack.getLast? = some e) :
    exec (.rjoin g) s = .next (finish s x (.gone (joinOuter x s ((e.t ||| e.f) &&& ~~~x.w.exited) (nextPc e.j)))) := by
  show execRjoin g s = _
  unfold execRjoin
  rw [runUni_eq h hg]
  simp only [hl, hj, bne_self_eq_false, Bool.false_eq_true, if_false, hh, ho, if_true]
  cases hp : partner x e with
  | none => rfl
  | some q =>
    obtain ⟨hw, hpc, hs⟩ := hq q hp
    simp only [hw, hpc, hs, beq_self_eq_true, Bool.and_self, if_true]
    rfl

theorem execRjoin_rest (ho : e.outer = false) (hs : e.els = false) (hr : e.f &&& ~~~x.w.exited ≠ 0) :
    exec (.rjoin g) s = .next (finish s x (.gone (updSplit s x.c (startElse (e.f &&& ~~~x.w.exited) e)))) := by
  have hn : (!e.els && e.f &&& ~~~x.w.exited != 0) = true := by simpa [hs] using hr
  obtain ⟨j, el, t, f, els, outer⟩ := e
  obtain rfl : j = x.p.pc := hj
  obtain rfl : outer = false := ho
  show execRjoin g s = _
  unfold execRjoin
  rw [runUni_eq h hg]
  simp only [hl, bne_self_eq_false, Bool.false_eq_true, if_false, hh, hn, if_true]
  rfl

theorem execRjoin_both (ho : e.outer = false) (hs : e.els = true ∨ e.f &&& ~~~x.w.exited = 0) :
    exec (.rjoin g) s = .next (finish s x (.gone (updSplit s x.c (rejoin ((e.t ||| e.f) &&& ~~~x.w.exited) (nextPc e.j))))) := by
  have hn : (!e.els && e.f &&& ~~~x.w.exited != 0) = false := by
    rcases hs with hs | hs <;> simp [hs]
  show execRjoin g s = _
  unfold execRjoin
  rw [runUni_eq h hg]
  simp only [hl, hj, bne_self_eq_false, Bool.false_eq_true, if_false, hh, ho, hn]
  rfl
end

section
variable {s : State} {x : Ctx} {e : StkEntry} {m : Mask} {pc : VAddr} (hl : x.p.stack.getLast? = some e)
include hl

theorem joinOuter_none (hp : partner x e = none) : joinOuter x s m pc = updSplit s x.c (rejoin m pc) := by
  unfold joinOuter
  simp only [hl, Option.getD_some, hp, List.append_nil]
  rfl

theorem joinOuter_some {q : Split} (hp : partner x e = some q) : joinOuter x s m pc =
    updWave (addPerf (updBlock s x.w.blk fun b => { b with ret := b.ret + 1 }) x.w.core 1 1) x.c.wave (joinedW x.c.sid q m pc) := by
  unfold joinOuter
  simp only [hl, Option.getD_some, hp]
  rfl

/-- An outermost divergence closes: the split has the lanes of both arms, and the other arm's split is gone (R129). -/
theorem joinOuter_leaves (h : Issuing s x) (hm : m &&& ~~~x.w.exited = m) (h0 : m ≠ 0) :
    ∃ sb F p, joinOuter x s m pc = updWave sb x.c.wave F ∧ sb.waves = s.waves ∧ sb.mem = s.mem ∧
      Leaves x F p ∧ (p.members = m ∧ p.pc = pc ∧ p.stack = x.p.stack.dropLast) ∧
      ∀ q, partner x e = some q → ∀ z ∈ (F x.w).splits, z.sid ≠ q.sid := by
  cases hp : partner x e with
  | none =>
    have hL := leaves_updSplitW (G := rejoin m pc) h (fun _ => rfl) (fun _ hw => hw) hm h0
    exact ⟨_, _, _, joinOuter_none hl hp, rfl, rfl, hL, ⟨rfl, rfl, rfl⟩, fun _ hq => by cases hq⟩
  | some q =>
    have hq : q.wins = [] := h.quiet.1 q (List.mem_of_find?_eq_some hp)
    have hx : x.p.sid = x.c.sid := by
      obtain ⟨-, -, hs, -⟩ := issuing_parts h
      simpa using find_spec hs
    have hne : x.c.sid ≠ q.sid := by
      have hs := find_spec hp
      simp only [Bool.and_eq_true, bne_iff_ne] at hs
      obtain ⟨⟨hn, -⟩, -⟩ := hs
      exact hx ▸ hn.symm
    have hL := leaves_updSplitW (G := rejoinWith q m pc) h (fun _ => rfl) (fun p hw => by simp [rejoinWith, hw, hq, closeWins_nil])
      hm h0
    refine ⟨_, _, _, joinOuter_some hl hp, rfl, rfl, hL.filter hne, ⟨rfl, rfl, rfl⟩, ?_⟩
    rintro _ ⟨⟩ z hz
    exact bne_iff_ne.mp (List.mem_filter.mp hz).2
end

/-- Settles O15: each branch of `diverge` and of `execRjoin` leaves the issuing split with lanes (`Leaves`), and it goes on as
`finish_leaves` says. -/
theorem divergeJoinComplete : Obligations.DivergeJoinComplete := by
  unfold Obligations.DivergeJoinComplete
  constructor
  · intro s x g k els j h hg t a b T F ha hb hl
    have he := execBdiv_legal (k := k) h hg ha hb hl
    have hr : Reads s b.2 := (reads_targetOk ..).trans (reads_targetOk ..)
    have hT : T &&& ~~~x.w.exited = T := live_part ..
    have hF : F &&& ~~~x.w.exited = F := live_part ..
    -- no lane of the first arm; an outermost divergence; any other
    by_cases h0 : T = 0
    · have hF0 : F ≠ 0 := by
        have hl : F = liveOf x.w x.p := by
          rw [show F = liveOf x.w x.p &&& ~~~T from rfl, h0]
          exact BitVec.and_allOnes
        exact hl ▸ h.live
      have hL := leaves_updSplitW (G := enterArm F t.1 ⟨t.2, t.1, T, F, true, false⟩) h (fun _ => rfl) (fun _ hw => hw) hF hF0
      exact finish_leaves h he (diverge_else rfl rfl h0) hr.waves hL fun u w hm _ => ⟨hm ▸ hr.view, fun hn => absurd h0 hn,
        fun hn => absurd h0 hn, fun hn => absurd h0 hn, fun _ => ⟨rfl, rfl, h0 ▸ rfl⟩⟩
    by_cases ho : divergenceOpen x.w = false ∧ armTaken x.w x.p = false ∧ x.p.kind = .arm ∧ T ≠ 0 ∧ F ≠ 0
    · obtain ⟨p, hL, hpm, hpp, hps⟩ := twoArms_leaves (sb := b.2) (f := F) (pc := t.1) (en := ⟨t.2, t.1, T, F, false, true⟩) h hT h0
      obtain ⟨-, -, hxp, -⟩ := issuing_parts h
      refine finish_leaves (sb := { b.2 with nid := b.2.nid + 1 }) h he (diverge_arms rfl rfl ho) hr.waves hL fun u w hm hs =>
        ⟨hm ▸ hr.view, fun _ => ⟨hpm, hpp⟩, fun _ _ _ _ _ => ⟨hps, ?_⟩, fun _ hn => ?_, fun hn => absurd hn h0⟩
      · exact ⟨otherArm b.2 x F t.1 _, hs ▸ otherArm_mem hxp, rfl, rfl, rfl, hps.symm⟩
      · obtain ⟨ho, ha, hk, -, hf⟩ := ho
        simp only [ho, ha, hk, ne_eq, not_true, Bool.false_eq_true, or_false] at hn
        exact absurd hn hf
    · have hL := leaves_updSplitW (G := enterArm T (nextPc x.p.pc) ⟨t.2, t.1, T, F, false, false⟩) h (fun _ => rfl) (fun _ hw => hw) hT h0
      exact finish_leaves h he (diverge_serial rfl rfl ho h0) hr.waves hL fun u w hm _ => ⟨hm ▸ hr.view, fun _ => ⟨rfl, rfl⟩,
        fun _ hf hd ha hk => absurd ⟨hd, ha, hk, h0, hf⟩ ho, fun _ _ => rfl, fun hn => absurd hn h0⟩
  · intro s x g e h hg tf rest hl hj hh h0 hq
    have htf : tf &&& ~~~x.w.exited = tf := by simp [tf, BitVec.and_assoc]
    have hre : rest &&& ~~~x.w.exited = rest := by simp [rest, BitVec.and_assoc]
    -- an outermost divergence; a serialised one that has no arm left to run; one whose second arm starts
    by_cases ho : e.outer = true
    · obtain ⟨sb, F, p, ht, hs, hm, hL, ⟨hpm, hpp, hps⟩, hgone⟩ := joinOuter_leaves (pc := nextPc e.j) hl h htf h0
      refine finish_leaves h (execRjoin_outer h hg hl hj hh ho (hq ho)) ht hs hL fun u w hm' hsp => ⟨hm'.trans hm,
        fun hn => by simp [ho] at hn, fun _ => ⟨hpm, hpp, hps⟩, fun q _ hpq z hz => ?_⟩
      rcases mem_updFirst (hsp ▸ hz) with hz | ⟨y, hy, rfl⟩
      · exact hgone q hpq z hz
      · exact hgone q hpq y hy
    have ho' : e.outer = false := by simpa using ho
    by_cases hs : e.els = true ∨ rest = 0
    · have hL := leaves_updSplitW (G := rejoin tf (nextPc e.j)) h (fun _ => rfl) (fun _ hw => hw) htf h0
      exact finish_leaves h (execRjoin_both h hg hl hj hh ho' hs) rfl rfl hL fun u w hm _ => ⟨hm,
        fun _ he hr => absurd hs (not_or.mpr ⟨by simp [he], hr⟩), fun _ => ⟨rfl, rfl, rfl⟩, fun _ hn => absurd hn ho⟩
    · obtain ⟨he, hr⟩ : e.els = false ∧ rest ≠ 0 := by simpa using hs
      have hL := leaves_updSplitW (G := startElse rest e) h (fun _ => rfl) (fun _ hw => hw) hre hr
      exact finish_leaves h (execRjoin_rest h hg hl hj hh ho' he hr) rfl rfl hL fun u w hm _ => ⟨hm,
        fun _ _ _ => ⟨rfl, rfl, rfl⟩, fun hn => absurd hn (not_or.mpr ⟨ho, hs⟩), fun _ hn => absurd hn ho⟩

end Sys2Proof.Machine
end

section
/-! SUPPORT. The engine's operations as moves, and one that a replay keeps waiting (07 R160, R162). -/

namespace Sys2Proof.Machine

/-! ### An operation that waits for its replay -/

theorem exec_matrixOpExecute (u op : Nat) (s : State) : exec (.matrixOpExecute u op) s = .next ((matrixS s u op).getD s) := rfl

theorem mxCheck_of_replayHeld {s : State} {w : Wave} {o : MxOp} {l : Launch} {b : Block} (h : replayHeld w o = true) :
    mxCheck s w o l b = none := by
  simp [mxCheck, h]

/-- R162: an operation that a replay runs again does nothing while one that comes before it there has yet to run, on whatever tile. -/
theorem exec_matrixOpExecute_replayHeld {s : State} {u op : Nat} {w : Wave} {o : MxOp} (hw : findWave s u = some w)
    (ho : opOf w op = some o) (h : replayHeld w o = true) : exec (.matrixOpExecute u op) s = .next s := by
  have hn : matrixS s u op = none := by
    cases hb : findBlock s w.blk <;> cases hl : findLaunch s w.launch <;> simp [matrixS, hw, ho, hb, hl, mxCheck_of_replayHeld h]
  rw [exec_matrixOpExecute, hn, Option.getD_none]

/-! ### Two aborted operations of one batch, on two tiles, run again -/

/-- An `mld` whose only row, at the end of the scratchpad, reaches past the block's allocation. -/
def loadPastEnd (id tile : Nat) : MxOp :=
  ⟨id, .mld, tile, .f32, some .bf16, 1, .replicate 32 0x10000, noRows, 5, some 0, .queued, 0, 0, noRows, none, [], none⟩

/-- Wave 3, with a batch of the operations 7, on tile 0, and 8, on tile 1. -/
def loadsWave : Wave :=
  { hostWave 3 1 2 (newSplit 4 4 .arm 0x1000 allLanes 1) with
    mxOps := [loadPastEnd 7 0, loadPastEnd 8 1], mxBatches := [⟨0, 0, 2, [7, 8], 9, false⟩] }

def loadsState : State :=
  { State.reset with nid := 10, cur := some ⟨3, 4⟩, waves := [loadsWave], blocks := [hostBlock State.reset 2 1],
                     launches := [hostLaunch State.reset 1] }

def stateAfter (s : State) (i : Instr) : State := match exec i s with | .next t => t | _ => s

/-- Both operations have been aborted, and `mrep` of their batch is to run them again, 7 before 8. -/
def replayingState : State := [.matrixOpExecute 3 7, .matrixOpExecute 3 8, .mrep .always false 9].foldl stateAfter loadsState

def replayingWave : Wave := (findWave replayingState 3).getD loadsWave
def replayingOp : MxOp := (opOf replayingWave 8).getD (loadPastEnd 8 1)
def replayingBlock : Block := (findBlock replayingState 2).getD (hostBlock State.reset 2 1)

theorem findWave_replayingState : findWave replayingState 3 = some replayingWave := by decide +kernel
theorem opOf_replayingWave : opOf replayingWave 8 = some replayingOp := by decide +kernel
theorem replayHeld_replayingOp : replayHeld replayingWave replayingOp = true := by decide +kernel

/-- How far an operation of a wave has come. -/
def opState (s : State) (u op : Nat) : Option MxState := (findWave s u).bind fun w => (opOf w op).map MxOp.st

theorem opState_replayingState : opState replayingState 3 8 = some .queued := by decide +kernel

/-- Refutes O33: no premise says that the operation's turn in a replay has come (`replayHeld`). In `replayingState` operation 8 is alone on its
tile and its row fails, so the statement has it aborted; but `mrep` runs it again after operation 7, which is queued on another tile (R162),
and so the move leaves it queued. -/
theorem not_matrixOperationCompletes : ¬ Obligations.MatrixOperationCompletes := by
  unfold Obligations.MatrixOperationCompletes
  intro h
  have hstay := exec_matrixOpExecute_replayHeld findWave_replayingState opOf_replayingWave replayHeld_replayingOp
  obtain ⟨-, hdone⟩ := h replayingState 3 8 replayingWave replayingOp replayingBlock (hostLaunch State.reset 1)
    findWave_replayingState opOf_replayingWave (by decide +kernel) (by decide +kernel) (by decide +kernel) (by decide +kernel)
  obtain ⟨habort, -⟩ := hdone (by decide +kernel)
  have hsame := Host.Outcome.next.inj (hstay.symm.trans (habort (by decide +kernel) (by decide +kernel)))
  have hst := opState_replayingState.symm.trans (congrArg (opState · 3 8) hsame)
  exact absurd hst (by decide +kernel)

end Sys2Proof.Machine
end

section
/-! SUPPORT. A handler split returns (08 R176, R177). -/

namespace Sys2Proof.Machine

/-! ### What a return leaves of the wave -/

theorem splitsOnly_endSplitW (w : Wave) (i : Nat) : SplitsOnly w (endSplitW w i) := by
  unfold endSplitW
  split
  · exact ⟨w.splits, w.orph, rfl⟩
  · simp only
    split <;> exact (splitsOnly_removeSplit w i).trans ⟨_, _, rfl⟩

/-- A return rewrites splits alone. -/
theorem splitsOnly_resumeW (w : Wave) (h : Split) (retry : Bool) : SplitsOnly w (resumeW w h retry) := by
  unfold resumeW
  simp only
  split
  · exact splitsOnly_endSplitW ..
  · exact ⟨_, w.orph, rfl⟩

theorem findSplit_none {w : Wave} {i : Nat} (h : ∀ p ∈ w.splits, p.sid ≠ i) : findSplit w i = none :=
  List.find?_eq_none.2 fun p hp => by simpa using h p hp

theorem findSplit_endSplitW (w : Wave) (i : Nat) : findSplit (endSplitW w i) i = none := by
  have hr : ∀ p ∈ (removeSplit w i).splits, p.sid ≠ i := fun p hp => by
    rw [removeSplit_splits] at hp
    simpa using (List.mem_filter.1 hp).2
  unfold endSplitW
  split
  · assumption
  · simp only
    split <;>
    · refine findSplit_none fun p hp => ?_
      obtain ⟨q, hq, rfl⟩ := List.mem_map.1 hp
      split <;> exact hr q hq

theorem endWaveW_live {w : Wave} (h : w.exited ≠ allLanes) : endWaveW w = w := if_neg h

/-- The end of a wave takes its splits, and no lane. -/
theorem endWaveW_keeps (w : Wave) : (endWaveW w).uid = w.uid ∧ (endWaveW w).exited = w.exited ∧
    ∀ i, findSplit w i = none → findSplit (endWaveW w) i = none := by
  by_cases h : w.exited = allLanes
  · obtain ⟨⟨_, _, e⟩, -⟩ := foldl_removeSplit w.splits w
    have hs := settles_settleW (w.splits.foldl (fun w p => removeSplit w p.sid) w)
    obtain ⟨-, -, -, hn⟩ := endWaveW_ended h
    refine ⟨?_, ?_, fun i _ => findSplit_none fun p hp => by rw [hn] at hp; cases hp⟩ <;> rw [endWaveW, if_pos h]
    · rw [hs.uid, e]
    · rw [hs.exited, e]
  · rw [endWaveW_live h]
    exact ⟨rfl, rfl, fun _ hi => hi⟩

/-! ### The lanes that go on -/

/-- In `v` the handler split `h` of `w` has become a split of the lanes `m` at `pc`, on the stack recorded at the trap: the arm split, where there
was none left, or a resumed split, beside which the arm split has stopped (R176, R177). -/
def GivesBack (w : Wave) (h : Split) (m : Mask) (pc : VAddr) (v : Wave) : Prop :=
  ∃ p, findSplit v h.sid = some p ∧ p.members = m ∧ p.pc = pc ∧ p.stack = h.recStack ∧ p.trap = none ∧ p.parked = 0 ∧
    p.kind = (if armOf w h = none then .arm else .resumed) ∧
    ∀ q ∈ v.splits, q.kind = .arm → q.arm = h.arm → q.sid ≠ h.sid → q.stopped = true

/-- Where lanes go on, at TFPC or after it. -/
def returnPc (h : Split) (r : TrapRegs) (retry : Bool) : VAddr :=
  if h.parked = 0 ∧ retry = false then nextPc (pcOf r.fpc) else pcOf r.fpc

theorem find_map_sid {f : Split → Split} (hf : ∀ p, (f p).sid = p.sid) (i : Nat) (l : List Split) :
    (l.map f).find? (·.sid == i) = (l.find? (·.sid == i)).map f := by
  rw [List.find?_map]
  congr 2
  funext p
  simp [hf]

/-- The arm split of `h` stops. -/
def stopArm (h x : Split) : Split := if x.kind == .arm && x.arm == h.arm && x.sid != h.sid then { x with stopped := true } else x

theorem stopArm_self (h x : Split) (hx : x.sid = h.sid) : stopArm h x = x := if_neg (by simp [hx])

/-- A split that has been through `stopArm` is as it was but for `stopped`, which an arm split of `h` other than itself has set. -/
theorem stopArm_spec (h x : Split) : (stopArm h x).sid = x.sid ∧
    ((stopArm h x).kind = .arm → (stopArm h x).arm = h.arm → (stopArm h x).sid ≠ h.sid → (stopArm h x).stopped = true) := by
  unfold stopArm
  split
  · exact ⟨rfl, fun _ _ _ => rfl⟩
  · rename_i hn
    exact ⟨rfl, fun hk ha hs => absurd (by simp [hk, ha, hs]) hn⟩

/-- With a lane to give back the handler split `h` is rewritten, and its arm split stops. -/
theorem resumeW_eq {w : Wave} {h : Split} {r : TrapRegs} (ht : h.trap = some r) (hl : resumeLanes w h ≠ 0) (retry : Bool) :
    ∃ f : Split → Split, resumeW w h retry = { w with splits := (updFirst (·.sid == h.sid) f w.splits).map (stopArm h) } ∧
      ∀ p, (f p).sid = p.sid ∧ (f p).members = resumeLanes w h ∧ (f p).pc = returnPc h r retry ∧ (f p).stack = h.recStack ∧
        (f p).trap = none ∧ (f p).parked = 0 ∧ (f p).kind = if armOf w h = none then .arm else .resumed := by
  unfold resumeW
  simp only [if_neg hl, ht, Option.getD_some]
  refine ⟨_, rfl, fun p => ⟨rfl, rfl, ?_, rfl, rfl, rfl, ?_⟩⟩
  · cases retry <;> simp [returnPc]
  · simp

theorem resumeW_givesBack {w : Wave} {h : Split} {r : TrapRegs} (hf : findSplit w h.sid = some h) (ht : h.trap = some r)
    (hl : resumeLanes w h ≠ 0) (retry : Bool) : GivesBack w h (resumeLanes w h) (returnPc h r retry) (resumeW w h retry) := by
  obtain ⟨f, e, hfs⟩ := resumeW_eq ht hl retry
  obtain ⟨hs, hm, hpc, hst, htr, hpk, hkd⟩ := hfs h
  refine ⟨f h, ?_, hm, hpc, hst, htr, hpk, hkd, fun q hq hk ha hne => ?_⟩
  · have hw := findSplit_updSplitW w h.sid f fun p => (hfs p).1
    rw [hf] at hw
    rw [e]
    exact (find_map_sid (fun x => (stopArm_spec h x).1) _ _).trans ((congrArg _ hw).trans (congrArg some (stopArm_self h _ hs)))
  · rw [e] at hq
    obtain ⟨z, -, rfl⟩ := List.mem_map.1 hq
    exact (stopArm_spec h z).2 hk ha hne

/-! ### The return as an instruction completes it -/

/-- Whether a handler split has its arm split does not change as its instruction is counted. -/
theorem armOf_counted (w : Wave) (i : Nat) (h : Split) :
    armOf (updSplitW w i (countedSplit [])) (countedSplit [] h) = none ↔ armOf w h = none := by
  have : ∀ l : List Split, (updFirst (·.sid == i) (countedSplit []) l).find? (fun x => x.kind == .arm && x.arm == h.arm) = none ↔
      l.find? (fun x => x.kind == .arm && x.arm == h.arm) = none := by
    intro l
    induction l with
    | nil => rfl
    | cons x r ih =>
      simp only [updFirst]
      split
      · simp [countedSplit]
      · rw [List.find?_cons, List.find?_cons]
        split
        · simp
        · exact ih
  exact this w.splits

/-- The wave in which the split `i` has been counted, and has returned as `p`. -/
def returnedW (i : Nat) (p : Split) (retry : Bool) (w : Wave) : Wave :=
  endWaveW (resumeW (updSplitW w i (countedSplit [])) (countedSplit [] p) retry)

/-- A return is completed in a quiet wave `v`, in which the handler split is still `x.p`. -/
theorem finish_resume {t : State} {x : Ctx} {v : Wave} (s : State) (retry : Bool) (hw : findWave t x.c.wave = some v) (hq : v.quiet)
    (hp : findSplit v x.c.sid = some x.p) :
    ∃ u, finish s x (.resume t retry) = u ∧ u.mem = t.mem ∧ findWave u x.c.wave = some (returnedW x.c.sid x.p retry v) := by
  refine ⟨_, rfl, ?_, ?_⟩
  · simp only [finish, countIssue_quiet s.nid hw hq hp]
    rfl
  · have h1 : findWave (countIssue t x s.nid) x.c.wave = some (updSplitW v x.c.sid (countedSplit [])) := by
      rw [countIssue_quiet s.nid hw hq hp]
      exact (find_updFirst (p := fun w : Wave => w.uid == x.c.wave) (f := fun w => updSplitW w x.c.sid (countedSplit [])) fun _ e => e).trans
        (congrArg _ hw)
    refine (find_updFirst (p := fun w : Wave => w.uid == x.c.wave) fun w e => ?_).trans (congrArg (Option.map _) h1) |>.trans ?_
    · rw [(endWaveW_keeps _).1]
      split
      · obtain ⟨_, _, e'⟩ := splitsOnly_resumeW w _ retry
        rw [e']; exact e
      · exact e
    · rw [Option.map_some, findSplit_updSplitW _ _ (countedSplit []) (fun _ => rfl), hp]
      rfl

section
variable {v : Wave} {i : Nat} {h : Split} {r : TrapRegs} (hp : findSplit v i = some h) (ht : h.trap = some r)
include hp ht

/-- With lanes to give back the wave keeps its registers, and the handler split goes on. -/
theorem returnedW_givesBack (hl : (r.em ||| h.parked) &&& ~~~v.exited ≠ 0) (retry : Bool) :
    SplitsOnly v (returnedW i h retry v) ∧
      GivesBack v h ((r.em ||| h.parked) &&& ~~~v.exited) (returnPc h r retry) (returnedW i h retry v) := by
  obtain rfl : h.sid = i := by simpa using find_spec hp
  have hn : findSplit (updSplitW v h.sid (countedSplit [])) h.sid = some (countedSplit [] h) := by
    rw [findSplit_updSplitW v h.sid (countedSplit []) fun _ => rfl, hp]; rfl
  have hlanes : resumeLanes (updSplitW v h.sid (countedSplit [])) (countedSplit [] h) = (r.em ||| h.parked) &&& ~~~v.exited := by
    simp only [resumeLanes, countedSplit, ht]
    rfl
  obtain ⟨sp, o, e⟩ := splitsOnly_resumeW (updSplitW v h.sid (countedSplit [])) (countedSplit [] h) retry
  have hx : (resumeW (updSplitW v h.sid (countedSplit [])) (countedSplit [] h) retry).exited ≠ allLanes := by
    rw [e]
    rintro (h' : v.exited = allLanes)
    exact hl (by simp [h', allLanes])
  rw [returnedW, endWaveW_live hx]
  refine ⟨⟨sp, o, e⟩, ?_⟩
  obtain ⟨p, hs, hm, hpc, hst, htr, hpk, hk, hstop⟩ :=
    resumeW_givesBack (r := r) (h := countedSplit [] h) hn ht (by rwa [hlanes]) retry
  refine ⟨p, hs, hm.trans hlanes, hpc, hst, htr, hpk, hk.trans ?_, hstop⟩
  simp only [armOf_counted]

/-- With none the handler split has ended. -/
theorem returnedW_ends (hl : (r.em ||| h.parked) &&& ~~~v.exited = 0) (retry : Bool) :
    (returnedW i h retry v).exited = v.exited ∧ findSplit (returnedW i h retry v) i = none := by
  obtain rfl : h.sid = i := by simpa using find_spec hp
  have hlanes : resumeLanes (updSplitW v h.sid (countedSplit [])) (countedSplit [] h) = 0 := by
    simp only [resumeLanes, countedSplit, ht]
    exact hl
  have e : resumeW (updSplitW v h.sid (countedSplit [])) (countedSplit [] h) retry = endSplitW (updSplitW v h.sid (countedSplit [])) h.sid := by
    simp only [resumeW, if_pos hlanes]
    rfl
  obtain ⟨-, hx, hn⟩ := endWaveW_keeps (endSplitW (updSplitW v h.sid (countedSplit [])) h.sid)
  obtain ⟨_, _, e'⟩ := splitsOnly_endSplitW (updSplitW v h.sid (countedSplit [])) h.sid
  rw [returnedW, e]
  exact ⟨by rw [hx, e']; rfl, hn h.sid (findSplit_endSplitW ..)⟩
end

/-! ### The lanes that `.end` ends -/

theorem mem_exitLanes (s : State) (u : Nat) (m : Mask) : (exitLanes s u m).mem = s.mem := by
  unfold exitLanes closeCursors
  split
  · rfl
  · rename_i w _
    exact foldl_keeps State.mem (f := fun t (e : Nat × Cursor) => queueClose t w s.nid e.1 e.2) (fun _ _ => rfl) _ _

theorem or_and_not_self {n : Nat} (a b : BitVec n) : a ||| b &&& ~~~a = a ||| b := by
  ext i
  rw [BitVec.getElem_or, BitVec.getElem_and, BitVec.getElem_not, BitVec.getElem_or]
  cases a[i] <;> simp

theorem and_and_not_self {n : Nat} (a b : BitVec n) : a &&& b &&& ~~~a = 0 := by
  rw [BitVec.and_comm a, BitVec.and_assoc, BitVec.and_not_self]
  exact BitVec.and_zero

/-- In a quiet wave no cursor stands in a window: the splits stay as they are while lanes exit. -/
theorem exitLanes_leaves {s : State} {u : Nat} {w : Wave} (hw : findWave s u = some w) (hq : w.quiet) (m : Mask) :
    ∃ v, findWave (exitLanes s u m) u = some v ∧ v.splits = w.splits ∧ v.orph = w.orph ∧ (v.g = w.g ∧ v.s = w.s ∧ v.p = w.p) ∧
      v.exited = w.exited ||| m := by
  have hf : findWave (exitLanes s u m) u = some (exitedW m w) := by
    rw [findWave, waves_exitLanes]
    exact (find_updFirst (p := fun w : Wave => w.uid == u) (f := exitedW m) fun _ e => e).trans (congrArg _ hw)
  have e : mapWins (closeHeld m) w = w := mapWins_id fun y hy => by
    simp [allWins, hq.2, List.flatMap_eq_nil_iff.2 hq.1] at hy
  have hs : (mapWins (closeHeld m) w).splits = w.splits := by rw [e]
  have ho : (mapWins (closeHeld m) w).orph = w.orph := by rw [e]
  exact ⟨_, hf, hs, ho, ⟨rfl, rfl, rfl⟩, rfl⟩

/-! ### The three returns -/

theorem exec_tretRetry {s : State} {x : Ctx} {g : Guard} (h : Issuing s x) (hg : x.agrees g) (hk : x.p.kind = .handler)
    (hs : x.p.stack = []) : exec (.tretRetry g) s = .next (finish s x (.resume s true)) := by
  show execTretRetry g s = _
  rw [execTretRetry, runUni_eq h hg]
  simp [tretRun, tretOk, hk, hs, finishFrom]

theorem exec_tretSkip {s : State} {x : Ctx} {g : Guard} (h : Issuing s x) (hg : x.agrees g) (hk : x.p.kind = .handler)
    (hs : x.p.stack = []) : exec (.tretSkip g) s = .next (finish s x (.resume s false)) := by
  show execTretSkip g s = _
  rw [execTretSkip, runUni_eq h hg]
  simp [tretRun, tretOk, hk, hs, finishFrom]

theorem exec_tretEnd {s : State} {x : Ctx} {g : Guard} {r : TrapRegs} (h : Issuing s x) (hg : x.agrees g) (hk : x.p.kind = .handler)
    (hs : x.p.stack = []) (ht : x.p.trap = some r) :
    exec (.tretEnd g) s = .next (finish s x (.resume (exitLanes s x.c.wave (r.em &&& ~~~x.w.exited)) false)) := by
  show execTretEnd g s = _
  rw [execTretEnd, runUni_eq h hg]
  simp [tretOk, hk, hs, ht, finishFrom]

/-- Settles O29: each return is `finish_resume` on the wave that issues, for `.end` once the lanes that trapped have exited. -/
theorem handlerReturnCompletes : Obligations.HandlerReturnCompletes := by
  unfold Obligations.HandlerReturnCompletes
  intro s x g r h hg hk hs ht lanes back
  obtain ⟨hw, hq, hp, -⟩ := issuing_parts h
  have hsid : x.p.sid = x.c.sid := by simpa using find_spec hp
  -- a wave with the splits and registers of the one that issues gives its lanes back as `back` has it
  have hback : ∀ {u : State} {v w : Wave} {m pc}, u.mem = s.mem → findWave u x.c.wave = some w → v.splits = x.w.splits →
      v.g = x.w.g ∧ v.s = x.w.s ∧ v.p = x.w.p → SplitsOnly v w → GivesBack v x.p m pc w → back u w m pc := by
    rintro u v _ m pc hm hf hsp ⟨hg, hs, hp⟩ ⟨_, _, rfl⟩ ⟨p, hb⟩
    have ha : armOf v x.p = armOf x.w x.p := by rw [armOf, hsp]; rfl
    exact ⟨hf, hg, hs, hp, hm, p, by rw [← hsid, ← ha]; exact hb⟩
  have hgoes : ∀ retry, lanes ≠ 0 → ∃ t w, finish s x (.resume s retry) = t ∧ back t w lanes (returnPc x.p r retry) ∧
      w.em = x.w.em ∧ w.exited = x.w.exited := by
    intro retry hl
    obtain ⟨u, he, hm, hf⟩ := finish_resume s retry hw hq hp
    obtain ⟨hsame, hgb⟩ := returnedW_givesBack hp ht hl retry
    refine ⟨u, _, he, hback hm hf rfl ⟨rfl, rfl, rfl⟩ hsame hgb, ?_⟩
    obtain ⟨_, _, e⟩ := hsame
    rw [e]
    exact ⟨rfl, rfl⟩
  refine ⟨fun hl => ⟨?_, ?_⟩, ?_⟩
  · obtain ⟨t, w, he, hb, hr⟩ := hgoes true hl
    exact ⟨t, w, (exec_tretRetry h hg hk hs).trans (congrArg _ he), by simpa [returnPc] using hb, hr⟩
  · obtain ⟨t, w, he, hb, hem, hx⟩ := hgoes false hl
    exact ⟨t, w, (exec_tretSkip h hg hk hs).trans (congrArg _ he), hem, hx, by simpa [returnPc] using hb⟩
  · obtain ⟨v, hexit, hsp, ho, hregs, hx⟩ := exitLanes_leaves hw hq (r.em &&& ~~~x.w.exited)
    rw [or_and_not_self] at hx
    have hpv : findSplit v x.c.sid = some x.p := by rw [findSplit, hsp]; exact hp
    have hrest : (r.em ||| x.p.parked) &&& ~~~v.exited = lanes &&& ~~~r.em := by rw [hx, BitVec.not_or, ← BitVec.and_assoc]
    obtain ⟨u, he, hm, hf⟩ := finish_resume s false hexit ⟨by rw [hsp]; exact hq.1, by rw [ho]; exact hq.2⟩ hpv
    have hends := fun hl => returnedW_ends hpv ht (hrest.trans hl) false
    have hgives := fun hl => returnedW_givesBack hpv ht (by rwa [hrest]) false
    refine ⟨u, _, (exec_tretEnd h hg hk hs ht).trans (congrArg _ he), hf, ?_, fun hl => (hends hl).2, fun hl => ?_⟩
    · by_cases hl : lanes &&& ~~~r.em = 0
      · exact (hends hl).1.trans hx
      · obtain ⟨⟨_, _, e⟩, -⟩ := hgives hl
        rw [e]
        exact hx
    · obtain ⟨hsame, hgb⟩ := hgives hl
      have hpark : x.p.parked ≠ 0 := fun hz => hl (by simp [lanes, hz, and_and_not_self])
      rw [hrest, returnPc, if_neg fun e => hpark e.1] at hgb
      exact hback (hm.trans (mem_exitLanes ..)) hf hsp hregs hsame hgb

end Sys2Proof.Machine
end

section
/-! SUPPORT. Pre-emption as moves (08 R182 to R187, 14 R281, 23 R403): what writing a context record leaves of the blocks, waves and saved blocks, the
blocks that a save or a flush takes off their core, and the places to which saved blocks come back. -/

namespace Sys2Proof.Machine

/-! ### A unit's write of a virtual range changes memory alone -/

/-- What is on the cores, and what has been saved from them. -/
def onCores (s : State) : List Block × List Wave × List Saved := (s.blocks, s.waves, s.saved)

theorem Reads.onCores {s t : State} (h : Reads s t) : onCores t = onCores s := by
  obtain ⟨_, _, _, _, _, _, _, _, rfl⟩ := h
  rfl

theorem onCores_touchMem (s : State) (pa : Nat) : onCores (touchMem s pa) = onCores s := (reads_touch s pa).onCores

theorem onCores_noteFly : ∀ (bs : List Byte) (s : State) (pa : Nat), onCores (noteFly s pa bs) = onCores s
  | [], _, _ => rfl
  | b :: bs, s, pa => by rw [noteFly, onCores_noteFly bs]; rfl

theorem onCores_writeBack (s : State) (k : Nat) : onCores (writeBack s k) = onCores s := by
  unfold writeBack
  rw [onCores_touchMem]
  rfl

theorem onCores_roomL2 (s : State) (d ln : Nat) : onCores (roomL2 s d ln) = onCores s := by
  unfold roomL2
  split
  · rfl
  · simp only
    split
    · rfl
    · split
      · rfl
      · rw [(reads_dropLine ..).onCores, foldl_keeps onCores onCores_writeBack]
        rfl

theorem onCores_dirtySectors (s : State) (h pa n : Nat) : onCores (dirtySectors s h pa n) = onCores s :=
  (reads_fillL2 ..).onCores.trans (onCores_roomL2 ..)

theorem onCores_clearRegion (s : State) (r : Nat) : onCores (clearRegion s r) = onCores s := by
  unfold clearRegion
  split <;> rfl

theorem onCores_storeView (s : State) (d pa : Nat) (bs : List Byte) (mask : Option (List Byte)) (seq : Nat) (p : Bool) :
    onCores (storeView s d pa bs mask seq p) = onCores s :=
  (onCores_clearRegion ..).trans (onCores_clearRegion ..)

theorem onCores_storeHome (s : State) (h pa : Nat) (bs : List Byte) (mask : Option (List Byte)) (p : Bool) :
    onCores (storeHome s h pa bs mask p).2.2.2 = onCores s := by
  unfold storeHome
  simp only
  rw [onCores_noteFly, onCores_storeView, onCores_dirtySectors, (reads_touchL2 ..).onCores]
  rfl

/-- A part of a unit's write that lies off the chip changes memory alone. -/
theorem onCores_unitPutP {s : State} {l : Loc} (hl : l.onChip = false) (bs : List Byte) (p : Bool) :
    onCores (unitPutP s l bs p) = onCores s := by
  cases l with
  | gm pa =>
    -- with or without room for one more stamp
    unfold unitPutP
    simp only
    split <;> exact onCores_storeHome ..
  | remote dev pa => rfl
  | _ => simp [Loc.onChip] at hl

theorem onCores_unitWriteP : ∀ (us : List (Loc × Nat)) (bs : List (Byte × Bool)) (s : State), (∀ u ∈ us, u.1.onChip = false) →
    onCores (unitWriteP us bs s) = onCores s
  | [], _, _, _ => rfl
  | (l, n) :: r, bs, s, h => by
    rw [unitWriteP, onCores_unitWriteP r _ _ fun u hu => h u (List.mem_cons_of_mem _ hu)]
    exact onCores_unitPutP (h (l, n) (List.mem_cons_self ..)) _ _

/-- A translated address lies off the chip. -/
theorem xlateWith_off {perm : Bool} {s t : State} {tenant root va : Nat} {acc : Acc} {x : Xl}
    (h : xlateWith perm s tenant root va acc = (.ok x, t)) : x.loc.onChip = false := by
  unfold xlateWith at h
  split at h
  · cases h
  · simp only at h
    split at h
    · cases h
    · repeat' split at h
      all_goals cases h
      all_goals rfl

theorem xlateRange_off (perm : Bool) (tenant root : Nat) (acc : Acc) : ∀ (f va n : Nat) (s t : State) (ps : List (Xl × Nat)),
    xlateRangeWith perm tenant root acc f va n s = (.ok ps, t) → ∀ p ∈ ps, p.1.loc.onChip = false
  | 0, _, _, _, _, _, h => by cases h; simp
  | f + 1, va, n, s, t, ps, h => by
    unfold xlateRangeWith at h
    split at h
    · cases h; simp
    · split at h
      · cases h
      · rename_i x u hx
        simp only at h
        split at h
        · cases h
        · rename_i r v hr
          cases h
          intro p hp
          rcases List.mem_cons.1 hp with rfl | hp
          · exact xlateWith_off hx
          · exact xlateRange_off perm tenant root acc f _ _ _ _ _ hr p hp

theorem reads_xlateRange (perm : Bool) (tenant root : Nat) (acc : Acc) : ∀ (f va n : Nat) (s : State),
    Reads s (xlateRangeWith perm tenant root acc f va n s).2
  | 0, _, _, s => .refl s
  | f + 1, va, n, s => by
    have hx := reads_xlateWith perm s tenant root va acc
    unfold xlateRangeWith
    split
    · exact .refl s
    · split <;> rename_i e <;> rw [e] at hx
      · exact hx
      · rename_i x u
        have hr := hx.trans (reads_xlateRange perm tenant root acc f ((va + min n (x.base + x.size - va % 2 ^ 57)) % 2 ^ 64)
          (n - min n (x.base + x.size - va % 2 ^ 57)) u)
        simp only
        split <;> rename_i e' <;> rw [e'] at hr <;> exact hr

theorem onChip_off (l : Loc) (i : Nat) : (l.off i).onChip = l.onChip := by cases l <;> rfl

theorem unitRange_off {s t : State} {tenant root va n : Nat} {acc : Acc} {us : List (Loc × Nat)}
    (h : unitRange s tenant root acc va n = (.ok us, t)) : ∀ u ∈ us, u.1.onChip = false := by
  unfold unitRange at h
  split at h
  · cases h
  · rename_i ps v hx
    cases h
    intro u hu
    obtain ⟨p, hp, hu⟩ := List.mem_flatMap.1 hu
    obtain ⟨k, -, rfl⟩ := List.mem_map.1 hu
    exact (onChip_off ..).trans (xlateRange_off _ _ _ _ _ _ _ _ _ _ hx p hp)

theorem reads_unitRange (s : State) (tenant root : Nat) (acc : Acc) (va n : Nat) : Reads s (unitRange s tenant root acc va n).2 := by
  have h := reads_xlateRange false tenant root acc (n / 4096 + 2) va n s
  unfold unitRange xlateRange
  split <;> rename_i e <;> rw [e] at h <;> exact h

theorem onCores_unitStoreP (s : State) (tenant root va : Nat) (bs : List (Byte × Bool)) :
    onCores (unitStoreP s tenant root va bs) = onCores s := by
  have h := (reads_unitRange s tenant root .write va bs.length).onCores
  unfold unitStoreP
  split <;> rename_i e <;> rw [e] at h
  · exact h
  · exact (onCores_unitWriteP _ _ _ (unitRange_off e)).trans h

theorem onCores_unitStore (s : State) (tenant root va : Nat) (bs : List Byte) :
    onCores (unitStore s tenant root va bs).2 = onCores s := by
  have h := (reads_unitRange s tenant root .write va bs.length).onCores
  unfold unitStore
  split <;> rename_i e <;> rw [e] at h
  · exact h
  · exact (onCores_unitWriteP _ _ _ (unitRange_off e)).trans h

/-! ### A block that is saved -/

theorem onCores_drawBytes : ∀ (n : Nat) (s : State), onCores (drawBytes n s).2 = onCores s
  | 0, _ => rfl
  | n + 1, _ => (onCores_drawBytes n _).trans rfl

/-- The same as `foldl_keeps`, for a fold that also builds a value. -/
theorem foldl_keeps_snd {α β γ : Type} (g : State → β) {f : γ × State → α → γ × State} (hf : ∀ x a, g (f x a).2 = g x.2) :
    ∀ (l : List α) (x : γ × State), g (l.foldl f x).2 = g x.2
  | [], _ => rfl
  | a :: l, x => (foldl_keeps_snd g hf l (f x a)).trans (hf x a)

theorem onCores_ctxWins (w : Wave) (s : State) : onCores (ctxWins w s).2.2 = onCores s := by
  unfold ctxWins
  exact foldl_keeps_snd onCores (by intros; rfl) _ _

theorem onCores_waveRecord (w : Wave) (s : State) : onCores (waveRecord w s).2.2 = onCores s := by
  unfold waveRecord
  simp only
  rw [onCores_drawBytes, onCores_drawBytes, onCores_ctxWins]

theorem onCores_writeWaves (l : Launch) : ∀ (ws : List Wave) (rs : List (Nat × Nat)) (s : State),
    onCores (writeWaves l ws rs s).2 = onCores s
  | [], _, _ => by simp [writeWaves]
  | _ :: _, [], _ => by simp [writeWaves]
  | w :: ws, (a, _) :: rs, s => by
    rw [writeWaves]
    simp only
    rw [onCores_writeWaves l ws rs, onCores_unitStore, onCores_waveRecord]

theorem onCores_carve (s : State) (core lpriv : Nat) : onCores (carve s core lpriv) = onCores s := by
  have h : ∀ (ks : List Nat) (s : State), onCores (someOf ks s).2 = onCores s := by
    intro ks
    induction ks with
    | nil => intro s; rfl
    | cons k r ih => intro s; exact (reads_choose ..).onCores.trans (ih s)
  unfold carve
  split
  · rfl
  · exact h ..

theorem onCores_carveFor (s : State) (b : Block) : onCores (carveFor s b) = onCores s := by
  unfold carveFor
  split
  · exact onCores_carve ..
  · rfl

/-- A save writes the block's records, takes the block and its waves off the core, and adds what it saved (R185, R186). -/
theorem saveOne_leaves (l : Launch) (s : State) (b : Block) :
    ∃ v, (v.blk = { b with ctx := [] } ∧ v.recs = b.ctx ∧ v.restart = false) ∧ v.waves = s.waves.filter (·.blk == b.uid) ∧
      onCores (saveOne l s b) = (s.blocks.filter (·.uid != b.uid), s.waves.filter (·.blk != b.uid), s.saved ++ [v]) := by
  let t := unitStoreP (blockRecord l.lr b s).2 l.lr.tenant l.lr.root (b.ctx.headD (0, 0)).1 (blockRecord l.lr b s).1
  let y := writeWaves l (s.waves.filter (·.blk == b.uid)) b.ctx.tail t
  have hy : onCores y.2 = onCores s := by
    rw [onCores_writeWaves, onCores_unitStoreP]
    exact onCores_drawBytes ..
  obtain ⟨hb, hw, hs⟩ : y.2.blocks = s.blocks ∧ y.2.waves = s.waves ∧ y.2.saved = s.saved := by simpa [onCores] using hy
  have hc := onCores_carveFor (removeBlock y.2 b.uid) b
  have hr : onCores (removeBlock y.2 b.uid) = (s.blocks.filter (·.uid != b.uid), s.waves.filter (·.blk != b.uid), s.saved) := by
    simp only [onCores, removeBlock, hb, hw, hs]
  obtain ⟨hcb, hcw, -⟩ : (carveFor (removeBlock y.2 b.uid) b).blocks = _ ∧ (carveFor (removeBlock y.2 b.uid) b).waves = _ ∧ _ := by
    simpa [onCores] using hc.trans hr
  refine ⟨⟨{ b with ctx := [] }, _, b.ctx, y.1, t.nid, vecOf t (dieOfCore b.core), false⟩, ⟨rfl, rfl, rfl⟩, rfl, ?_⟩
  rw [← hcb, ← hcw, ← hs]
  rfl

/-! ### A block that is flushed -/

/-- What is on the cores, of each wave only whose it is, and what has been saved. -/
def residents (s : State) : List Block × List Nat × List Saved := (s.blocks, s.waves.map Wave.blk, s.saved)

theorem residents_of_onCores {s t : State} (h : onCores t = onCores s) : residents t = residents s := by
  obtain ⟨hb, hw, hs⟩ : t.blocks = s.blocks ∧ t.waves = s.waves ∧ t.saved = s.saved := by simpa [onCores] using h
  rw [residents, residents, hb, hw, hs]

theorem residents_reportTickets (s : State) (w : Wave) : residents (reportTickets s w) = residents s :=
  foldl_keeps residents (fun s t => by
    split
    · split <;> rfl
    · rfl) _ _

theorem residents_releaseCursors (s : State) (w : Wave) (m : Mask) : residents (releaseCursors s w m) = residents s :=
  foldl_keeps residents (f := fun t (e : Nat × Cursor) => queueClose t w s.nid e.1 e.2) (fun _ _ => rfl) _ _

theorem blks_updFirst {p : Wave → Bool} {f : Wave → Wave} (hf : ∀ w, (f w).blk = w.blk) : ∀ l : List Wave,
    (updFirst p f l).map Wave.blk = l.map Wave.blk
  | [] => rfl
  | w :: l => by
    unfold updFirst
    split <;> simp [hf, blks_updFirst hf l]

theorem residents_updWave (s : State) (u : Nat) {f : Wave → Wave} (hf : ∀ w, (f w).blk = w.blk) : residents (updWave s u f) = residents s := by
  simp only [residents, updWave_blocks, updWave_waves, updWave_saved, blks_updFirst hf]

theorem residents_discardOps (s : State) (u : Nat) : residents (discardOps s u) = residents s := by
  unfold discardOps
  split
  · rfl
  · refine (residents_updWave _ _ (f := fun w => { w with mxOps := [], mxBatches := [] }) fun _ => rfl).trans ?_
    split <;> rfl

theorem residents_removeBlock (s : State) (u : Nat) :
    residents (removeBlock s u) = (s.blocks.filter (·.uid != u), (s.waves.map Wave.blk).filter (· != u), s.saved) := by
  simp only [residents, removeBlock, List.filter_map]
  rfl

theorem residents_dropBlock (s : State) (u : Nat) :
    residents (dropBlock s u) = (s.blocks.filter (·.uid != u), (s.waves.map Wave.blk).filter (· != u), s.saved) := by
  have h : residents ((s.waves.filter (·.blk == u)).foldl reportTickets s) = residents s := foldl_keeps residents residents_reportTickets _ _
  obtain ⟨hb, hw, hs⟩ : _ ∧ _ ∧ _ := by simpa [residents] using h
  rw [dropBlock, residents_removeBlock, hb, hw, hs]

/-- `f` takes a block and its waves off its core, and adds to the saved blocks one of which `P` holds. -/
def TakesOff (P : Block → Saved → Prop) (f : State → Block → State) : Prop :=
  ∀ s b, ∃ v, P b v ∧ residents (f s b) = (s.blocks.filter (·.uid != b.uid), (s.waves.map Wave.blk).filter (· != b.uid), s.saved ++ [v])

theorem saveOne_takesOff (l : Launch) : TakesOff (fun b v => v.blk = { b with ctx := [] } ∧ v.recs = b.ctx ∧ v.restart = false) (saveOne l) := by
  intro s b
  obtain ⟨v, hv, -, h⟩ := saveOne_leaves l s b
  obtain ⟨hb, hw, hs⟩ : (saveOne l s b).blocks = _ ∧ (saveOne l s b).waves = _ ∧ (saveOne l s b).saved = _ := by simpa [onCores] using h
  refine ⟨v, hv, ?_⟩
  rw [residents, hb, hw, hs, List.filter_map]
  rfl

/-- A flush discards the block's state, and keeps that it is to start again (R184). -/
theorem flushOne_takesOff : TakesOff (fun b v => v.restart = true ∧ v.blk.ret = 0 ∧ v.blk.uid = b.uid) flushOne := by
  intro s b
  let y := (s.waves.filter (·.blk == b.uid)).foldl (fun s w => releaseCursors (discardOps s w.uid) w allLanes) s
  have hy : residents y = residents s := foldl_keeps residents (fun s w => (residents_releaseCursors ..).trans (residents_discardOps ..)) _ _
  obtain ⟨hb, hw, hs⟩ : y.blocks = _ ∧ y.waves.map Wave.blk = _ ∧ y.saved = _ := by simpa [residents] using hy
  have hc := (residents_of_onCores (onCores_carveFor (dropBlock y b.uid) b)).trans (residents_dropBlock y b.uid)
  obtain ⟨hcb, hcw, hcs⟩ : (carveFor (dropBlock y b.uid) b).blocks = _ ∧ (carveFor (dropBlock y b.uid) b).waves.map Wave.blk = _ ∧
    (carveFor (dropBlock y b.uid) b).saved = _ := by simpa [residents] using hc
  refine ⟨⟨{ b with ret := 0, copies := [], chutes := [], bars := [], ctx := [] }, [], [], [], y.nid, vecOf y (dieOfCore b.core), true⟩,
    ⟨rfl, rfl, rfl⟩, ?_⟩
  rw [← hb, ← hw, ← hs, ← hcb, ← hcw, ← hcs]
  rfl

/-- Blocks that are taken off their cores one after the other: each is among the saved ones, and none is left on a core. -/
theorem TakesOff.foldl {P : Block → Saved → Prop} {f : State → Block → State} (h : TakesOff P f) : ∀ (ms : List Block) (s : State),
    (∀ v ∈ s.saved, v ∈ (ms.foldl f s).saved) ∧ (∀ x ∈ (ms.foldl f s).blocks, x ∈ s.blocks) ∧
    (∀ k ∈ (ms.foldl f s).waves.map Wave.blk, k ∈ s.waves.map Wave.blk) ∧
    ∀ m ∈ ms, (∃ v ∈ (ms.foldl f s).saved, P m v) ∧ (∀ x ∈ (ms.foldl f s).blocks, x.uid ≠ m.uid) ∧
      ∀ w ∈ (ms.foldl f s).waves, w.blk ≠ m.uid
  | [], s => ⟨fun _ h => h, fun _ h => h, fun _ h => h, fun _ h => by cases h⟩
  | b :: ms, s => by
    obtain ⟨v, hv, e⟩ := h s b
    obtain ⟨hb, hw, hs⟩ : (f s b).blocks = _ ∧ (f s b).waves.map Wave.blk = _ ∧ (f s b).saved = _ := by simpa [residents] using e
    obtain ⟨isaved, iblocks, iwaves, imates⟩ := TakesOff.foldl h ms (f s b)
    rw [hs] at isaved
    rw [hb] at iblocks
    rw [hw] at iwaves
    refine ⟨fun x hx => isaved x (List.mem_append_left _ hx), fun x hx => (List.mem_filter.1 (iblocks x hx)).1,
      fun k hk => (List.mem_filter.1 (iwaves k hk)).1, fun m hm => ?_⟩
    rcases List.mem_cons.1 hm with rfl | hm
    · refine ⟨⟨v, isaved v (by simp), hv⟩, fun x hx => ?_, fun w hx => ?_⟩
      · simpa using (List.mem_filter.1 (iblocks x hx)).2
      · simpa using (List.mem_filter.1 (iwaves w.blk (List.mem_map_of_mem hx))).2
    · exact imates m hm

/-! ### Places -/

theorem choose_lt {n : Nat} (h : 0 < n) (s : State) : (choose n s).1 < n := by
  unfold choose
  split
  · exact h
  · exact Nat.mod_lt _ h

theorem pickPlaces_spec {l : Launch} {ok : Saved → Nat → State → Bool} : ∀ (vs : List Saved) (t u : State), canPlace l ok vs t = true →
    (∀ x ∈ vs, ∃ c, (x, c) ∈ (pickPlaces l ok vs t u).1) ∧
    ∀ p ∈ (pickPlaces l ok vs t u).1, p.2 ∈ backCores l p.1 ∧ ∃ t, ok p.1 p.2 t = true
  | [], _, _, _ => by simp [pickPlaces]
  | v :: r, t, u, h => by
    let cs := (backCores l v).filter fun c => ok v c t && canPlace l ok r (placed l v c t)
    let k := choose cs.length u
    let c := cs.getD k.1 v.blk.core
    have hc : c ∈ cs := by
      obtain ⟨a, ha, h⟩ := List.any_eq_true.1 h
      have hk : k.1 < cs.length := choose_lt (List.length_pos_of_mem (List.mem_filter.2 ⟨ha, h⟩)) u
      simp only [c, List.getD_eq_getElem?_getD, List.getElem?_eq_getElem hk, Option.getD_some]
      exact List.getElem_mem hk
    obtain ⟨hb, hok⟩ := List.mem_filter.1 hc
    obtain ⟨hv, hr⟩ := Bool.and_eq_true_iff.1 hok
    obtain ⟨hx, hp⟩ := pickPlaces_spec r (placed l v c t) k.2 hr
    show (∀ x ∈ v :: r, ∃ d, (x, d) ∈ (v, c) :: (pickPlaces l ok r (placed l v c t) k.2).1) ∧
      ∀ p ∈ (v, c) :: (pickPlaces l ok r (placed l v c t) k.2).1, p.2 ∈ backCores l p.1 ∧ ∃ t, ok p.1 p.2 t = true
    refine ⟨fun x h => ?_, fun p h => ?_⟩
    · rcases List.mem_cons.1 h with rfl | h
      · exact ⟨c, List.mem_cons_self ..⟩
      · obtain ⟨d, hd⟩ := hx x h
        exact ⟨d, List.mem_cons_of_mem _ hd⟩
    · rcases List.mem_cons.1 h with rfl | h
      · exact ⟨hb, t, hv⟩
      · exact hp p h

theorem mayUse_of_mayBack {s t : State} {l : Launch} {v : Saved} {c : Nat} (h : mayBack s l v c t = true) : mayUse l.lr c = true := by
  simp only [mayBack, fitsBack, Bool.and_eq_true] at h
  obtain ⟨⟨⟨⟨⟨-, hu⟩, -⟩, -⟩, -⟩, -⟩ := h
  exact hu

theorem backPlaces_spec {s : State} {l : Launch} {v : Saved} {core : Nat} (hd : vecGet s.begun true (dieOfCore core) = false)
    (hp : placesFor s l (mayBack s l) v core = true) :
    ∃ ps r, backPlaces s l v core = some (ps, r) ∧ (v, core) ∈ ps ∧ (∀ x ∈ otherMates s l v, ∃ c, (x, c) ∈ ps) ∧
      ∀ p ∈ ps, p.2 ∈ backCores l p.1 ∧ mayUse l.lr p.2 = true := by
  have e : backPlaces s l v core = some ((v, core) :: (pickPlaces l (mayBack s l) (otherMates s l v) (placed l v core s) s).1,
      (pickPlaces l (mayBack s l) (otherMates s l v) (placed l v core s) s).2) := by simp [backPlaces, hd, hp]
  obtain ⟨hhead, hrest⟩ := Bool.and_eq_true_iff.1 hp
  obtain ⟨hcore, hok⟩ := Bool.and_eq_true_iff.1 hhead
  obtain ⟨hx, hpl⟩ := pickPlaces_spec _ _ s hrest
  refine ⟨_, _, e, List.mem_cons_self .., fun x h => ?_, fun p h => ?_⟩
  · obtain ⟨c, hc⟩ := hx x h
    exact ⟨c, List.mem_cons_of_mem _ hc⟩
  · rcases List.mem_cons.1 h with rfl | h
    · exact ⟨by simpa using hcore, mayUse_of_mayBack hok⟩
    · obtain ⟨hb, _, ht⟩ := hpl p h
      exact ⟨hb, mayUse_of_mayBack ht⟩

/-! ### The moves as meanings -/

theorem exec_preemptionDecision (u : Nat) (s : State) : exec (.preemptionDecision u) s = .next ((decideS s u).getD s) := rfl
theorem exec_drainTimeout (u : Nat) (s : State) : exec (.drainTimeout u) s = .next ((drainTimeoutS s u).getD s) := rfl
theorem exec_blockSave (u : Nat) (s : State) : exec (.blockSave u) s = .next ((saveS s u).getD s) := rfl
theorem exec_flushAndRestart (u : Nat) (s : State) : exec (.flushAndRestart u) s = .next ((flushS s u).getD s) := rfl
theorem exec_blockRestore (u core : Nat) (s : State) : exec (.blockRestore u core) s = .next ((restoreS s u core).getD s) := rfl

section
variable {s : State} {u : Nat} {b : Block} {l : Launch} (hb : findBlock s u = some b) (hl : findLaunch s b.launch = some l)
  (hx : allExited s u = false)
include hb hl hx

/-- The decision, where there is one to take (R182, R183). -/
theorem decideS_decides (hm : b.mode = .run) (hd : vecGet s.begun true (dieOfCore b.core) = false)
    (hc : (vecGet s.ctls .reset 1).phase = .armed) (hr : holdsRegion s b = false) (hg : mustGo s b = true) :
    decideS s u =
      if s.pdrain.toNat ≤ estimate l.lr.e b.ret then some (setMode s u (.drain (vecGet s.dcyc 0 (dieOfCore b.core)).toNat))
      else if matesHold s b l then none
      else if l.lr.idemp && estimate l.lr.e b.ret ≤ s.pflush.toNat && !b.hoop then some (beginFlush s b l)
      else some (beginSave s b l) := by
  simp [decideS, hb, hl, hx, hm, hd, hc, hr, hg]

/-- A drain has lasted 2^20 cycles (R183). -/
theorem drainTimeoutS_saves {t : Nat} (hm : b.mode = .drain t) (ht : t + 1048576 ≤ (vecGet s.dcyc 0 (dieOfCore b.core)).toNat)
    (hd : vecGet s.begun true (dieOfCore b.core) = false) (hr : matesHold s b l = false) :
    drainTimeoutS s u = some (beginSave s b l) := by
  have ht' : decide ((vecGet s.dcyc 0 (dieOfCore b.core)).toNat < t + 1048576) = false := decide_eq_false (Nat.not_lt.2 ht)
  simp only [drainTimeoutS, hb, hl, Option.bind_some, hm, ht', hd, hx, hr, Bool.or_self, Bool.false_eq_true, if_false]

theorem saveS_saves (hm : b.mode = .saving) (hq : (modeMates s l b).all (blockQuiet s) = true) :
    saveS s u = some ((modeMates s l b).foldl (saveOne l) s) := by
  simp only [saveS, hb, hl, Option.bind_some, hm, hx, hq]
  rfl

theorem flushS_flushes (hm : b.mode = .flushing)
    (hq : (modeMates s l b).all (fun m => blockQuiet s m && !holdsRegion s m) = true) :
    flushS s u = some ((modeMates s l b).foldl flushOne s) := by
  simp only [flushS, hb, hl, Option.bind_some, hm, hx, hq]
  rfl
end

section
variable {s : State} {b : Block} {l : Launch}

theorem beginSave_room {ps : List (Nat × List (Nat × Nat))} (h : recPlaces s l (saveMates s l b) (usedRecs s l.lr.tenant) = some ps) :
    beginSave s b l = ps.foldl (fun s p => updBlock s p.1 fun b => { b with mode := .saving, ctx := p.2 }) s := by
  simp [beginSave, h]

/-- Without room in the context region another way is taken (R362). -/
theorem beginSave_full (h : recPlaces s l (saveMates s l b) (usedRecs s l.lr.tenant) = none) :
    beginSave s b l = if l.lr.idemp && !b.hoop then beginFlush s b l else setMode s b.uid .drainFree := by
  simp [beginSave, h]
end

section
variable {l : Launch} {n0 : Nat} {old : List Nat} {t : State} {v : Saved} {core : Nat}

theorem restoreOne_restart (hr : v.restart = true) :
    restoreOne l n0 old t (v, core) = startBlock t l core v.blk.bid v.blk.stage false [] := by
  simp [restoreOne, hr]

/-- R187: a context whose opaque parts are not as the save wrote them does not come back. -/
theorem restoreOne_altered (hr : v.restart = false) (hc : (opaqueIntact t l v.opq).1 = false) :
    restoreOne l n0 old t (v, core) =
      v.waves.foldl (fun s w => reportTickets (releaseCursors s w allLanes) w) (setLaunchFlag (opaqueIntact t l v.opq).2 l.uid 7) := by
  simp [restoreOne, hr, hc]

/-- On its own core, and with no slices of its lanes to carve, a block is what its record holds. -/
theorem restoreOne_whole {bs : List (Byte × Bool)} {r : State} (hr : v.restart = false) (hc : (opaqueIntact t l v.opq).1 = true)
    (ha : core = v.blk.core) (hp : l.lr.lpriv = 0)
    (hs : loadRec (opaqueIntact t l v.opq).2 l (v.recs.headD (0, 0)).1 (v.recs.headD (0, 0)).2 = (some bs, r)) :
    restoreOne l n0 old t (v, core) = restoreWaves l core n0 old v.waves v.recs.tail (freeSlots r core)
      { r with blocks := r.blocks ++ [{ readBlock l.lr v.blk bs with core := core, mode := .run }] } := by
  subst ha
  simp only [restoreOne, hr, hc, hs, carve, hp, Bool.not_true, Bool.false_eq_true, if_false, if_true]
end

/-- Settles O50: the decision and the drain's end are those of `decideS_decides` and `drainTimeoutS_saves`; a save and a flush take each mate off its
core (`TakesOff.foldl`); and a restore brings the blocks back to the places of `backPlaces_spec`. -/
theorem preemptionCompletes : Obligations.PreemptionCompletes := by
  unfold Obligations.PreemptionCompletes
  intro s u core first count b l
  refine ⟨fun hb hl hx => ?_, fun v hv hl hd hp => ?_, rfl, rfl⟩
  · have hu : b.uid = u := by simpa using find_spec hb
    refine ⟨fun hm hd hc hr hg => ?_, fun t hm ht hd hr => ?_, fun hm hq => ?_, fun hm hq => ?_⟩
    · rw [exec_preemptionDecision, decideS_decides hb hl hx hm hd hc hr hg]
      refine ⟨fun he => ?_, fun he hr hi hf hh => ?_, fun he hr hn => ?_⟩
      · rw [if_pos he]
        rfl
      · rw [if_neg (Nat.not_le.2 he), if_neg (by simp [hr]), if_pos (by simp [hi, hf, hh])]
        rfl
      · rw [if_neg (Nat.not_le.2 he), if_neg (by simp [hr]), if_neg (by simpa [and_assoc] using hn)]
        exact ⟨fun ps h => congrArg _ (beginSave_room h), fun h => congrArg _ (beginSave_full h)⟩
    · rw [exec_drainTimeout, drainTimeoutS_saves hb hl hx hm ht hd hr]
      rfl
    · refine ⟨_, by rw [exec_blockSave, saveS_saves hb hl hx hm hq, Option.getD_some], fun m h => ?_, fun h => ?_⟩
      · obtain ⟨-, -, -, hmates⟩ := (saveOne_takesOff l).foldl (modeMates s l b) s
        obtain ⟨hsaved, hblocks, -⟩ := hmates m h
        exact ⟨hsaved, hblocks⟩
      · obtain ⟨v, -, hw, e⟩ := saveOne_leaves l s b
        obtain ⟨hblocks, hwaves, hsaved⟩ : _ ∧ _ ∧ _ := by simpa [onCores] using e
        rw [h, ← hu]
        exact ⟨v, hsaved, hw, hwaves, hblocks⟩
    · refine ⟨_, by rw [exec_flushAndRestart, flushS_flushes hb hl hx hm hq, Option.getD_some], fun m h => ?_, fun h => ?_⟩
      · obtain ⟨-, -, -, hmates⟩ := flushOne_takesOff.foldl (modeMates s l b) s
        exact hmates m h
      · obtain ⟨v, -, e⟩ := flushOne_takesOff s b
        obtain ⟨hblocks, -, hsaved⟩ : _ ∧ _ ∧ _ := by simpa [residents] using e
        rw [h, ← hu]
        exact ⟨v, hsaved, hblocks⟩
  · obtain ⟨ps, r, e, hcore, hmates, hplaces⟩ := backPlaces_spec hd hp
    refine ⟨ps, r, e, hcore, hmates, hplaces, ?_, fun t at_ => ⟨restoreOne_restart, fun hr => ⟨restoreOne_altered hr,
      fun bs r hc ha hp hs => restoreOne_whole hr hc ha hp hs⟩⟩⟩
    rw [exec_blockRestore, restoreS, hv, Option.bind_some, hl, Option.bind_some, e]
    rfl

end Sys2Proof.Machine
end

section
/-! SUPPORT. The service moves and the controllers' (09 R209, R211, 16 R332, R344, 23 R392 to R408): what each answers where its rule allows it. -/

namespace Sys2Proof.Machine

/-! ### The moves as meanings -/

theorem exec_scrub (n row errs : Nat) (hot : Bool) (s : State) :
    exec (if hot then .hotScrub n row errs else .scrubRow n row errs) s = .next ((scrubS s n row errs hot).getD s) := by
  cases hot <;> rfl

theorem exec_htcommit (n d : Nat) (s : State) : exec (.htcommit n d) s = .next ((htcommitS s n d).getD s) := rfl
theorem exec_updctl (k : Nat) (v : Word) (s : State) : exec (.updctl k v) s = .next ((updctlS s k v).getD s) := rfl
theorem exec_handoverStop (k : Nat) (s : State) : exec (.handoverStop k) s = .next ((handoverS s k).getD s) := rfl
theorem exec_wdogWrite (k : Nat) (s : State) : exec (.wdogWrite k) s = .next ((wdogS s k).getD s) := rfl
theorem exec_watchdogExpiry (k : Nat) (s : State) : exec (.watchdogExpiry k) s = .next ((expiryS s k).getD s) := rfl
theorem exec_attestationRequest (nonce : List Byte) (s : State) :
    exec (.attestationRequest nonce) s = .next ((attestS s nonce).getD s) := rfl
theorem exec_pathMonitorRead (d : Nat) (low : Bool) (s : State) : exec (.pathMonitorRead d low) s = .next ((pathS s d low).getD s) := rfl

/-! ### Errors in a row, and scrubs (R209) -/

section
variable {s : State} {n row k : Nat} {scrub : Bool} {h : HotRow}

theorem find?_row_eq_none {rows : List HotRow} (hr : ∀ e ∈ rows, e.row ≠ row) : rows.find? (·.row == row) = none := by
  simpa using hr

/-- A row enters the hot list with score 0 at its first error. -/
theorem rowErrors_unlisted (hf : (hotRows s n).find? (·.row == row) = none) :
    rowErrors s n row k scrub = if 8 ≤ k - 1 then retireRow (addCtr s (stackReg n 0x08) 64 k) n row
      else setHot (addCtr s (stackReg n 0x08) 64 k) n (addHot (hotRows s n) ⟨row, k - 1, 0, k⟩) := by
  have hf' : (hotRows (addCtr s (stackReg n 0x08) 64 k) n).find? (·.row == row) = none := hf
  simp only [rowErrors, hf']
  rfl

/-- Each further error adds to the score of a row on the hot list. -/
theorem rowErrors_listed (hf : (hotRows s n).find? (·.row == row) = some h) :
    rowErrors s n row k scrub = if 8 ≤ h.score + k then retireRow (addCtr s (stackReg n 0x08) 64 k) n row
      else setHot (addCtr s (stackReg n 0x08) 64 k) n (setRow (hotRows s n)
        { h with score := h.score + k, clean := if scrub then 0 else h.clean, errors := h.errors + k }) := by
  have hf' : (hotRows (addCtr s (stackReg n 0x08) 64 k) n).find? (·.row == row) = some h := hf
  simp only [rowErrors, hf']
  rfl

/-- May the memory controller scrub a row: of a stack that serves and has not failed, while the controller's image runs? -/
def Scrubs (s : State) (n row : Nat) : Prop :=
  n < nStacks ∧ row < 2 ^ 32 ∧ skUp s n = true ∧ unitFailed s (9 + n) = false ∧ ctlRuns s 3 = true

theorem scrubS_guard (hs : Scrubs s n row) :
    (nStacks ≤ n || 2 ^ 32 ≤ row || !skUp s n || unitFailed s (9 + n) || !ctlRuns s 3) = false := by
  obtain ⟨hn, hr, hup, hok, hrun⟩ := hs
  simp only [decide_eq_false (Nat.not_le.2 hn), decide_eq_false (Nat.not_le.2 hr), hup, hok, hrun, Bool.or_self, Bool.not_true]

variable {hot : Bool} (hs : Scrubs s n row)
include hs

theorem exec_scrubRow_unlisted (hf : (hotRows s n).find? (·.row == row) = none) :
    exec (.scrubRow n row k) s = .next (if 0 < k then rowErrors s n row k true else s) := by
  change move s (scrubS s n row k false) = _
  simp only [move, scrubS, scrubS_guard hs, hf, Bool.false_eq_true, if_false, Option.getD_some]

theorem exec_scrub_error (hf : (hotRows s n).find? (·.row == row) = some h) (hk : 0 < k) :
    exec (if hot then .hotScrub n row k else .scrubRow n row k) s = .next (rowErrors s n row k true) := by
  rw [exec_scrub]
  simp only [scrubS, scrubS_guard hs, hf, Bool.false_eq_true, if_false, if_pos hk, Option.getD_some]

/-- A scrub without an error halves the score; the 16th frequent one in a row takes the row from the list. -/
theorem exec_scrub_clean (hf : (hotRows s n).find? (·.row == row) = some h) :
    exec (if hot then .hotScrub n row 0 else .scrubRow n row 0) s =
      .next (if 16 ≤ (if hot then h.clean + 1 else h.clean) then setHot s n ((hotRows s n).filter (·.row != row))
        else setHot s n (setRow (hotRows s n) { h with score := h.score / 2, clean := if hot then h.clean + 1 else h.clean })) := by
  rw [exec_scrub]
  simp only [scrubS, scrubS_guard hs, hf, Nat.lt_irrefl, Bool.false_eq_true, if_false, ← apply_ite some, Option.getD_some]
end

/-! ### The clearing of a region (R211) -/

/-- A key that a table does not list has the default, whatever the order of the others. -/
theorem kvGet_of_forall_ne {α : Type} {d : α} {k : Nat} : ∀ {m : Kv α}, (∀ e ∈ m, e.1 ≠ k) → kvGet d k m = d
  | [], _ => rfl
  | (j, v) :: r, h => by
    have hj : j ≠ k := h (j, v) (List.mem_cons_self ..)
    have hr : kvGet d k r = d := kvGet_of_forall_ne fun e he => h e (List.mem_cons_of_mem _ he)
    simp [kvGet, hj, hr]

theorem memByte_memClear (m : Memory) {lo hi a : Nat} (hlo : lo ≤ a) (hhi : a < hi) : memByte (memClear m lo hi) a = 0 := by
  refine kvGet_of_forall_ne fun e he hea => ?_
  have hout := (List.mem_filter.1 he).2
  simp [hea, hlo, hhi] at hout

section
variable {s : State} {r : Nat} (hr : s.mem.uncleared.contains r = true)
include hr

theorem exec_regionClear : exec (.regionClear r) s = .next (clearRegion s r) := by
  change move s (if _ then _ else _) = _
  rw [if_pos hr, move, Option.getD_some]

theorem mem_clearRegion : (clearRegion s r).mem = { s.mem with
    home := memClear s.mem.home (r * 2 ^ 21) (r * 2 ^ 21 + 2 ^ 21)
    view := s.mem.view.map fun m => memClear m (r * 2 ^ 21) (r * 2 ^ 21 + 2 ^ 21)
    uncleared := delNat r s.mem.uncleared } := by
  simp only [clearRegion, if_pos hr]

theorem viewOf_clearRegion {d : Nat} (hd : d < 4) :
    viewOf (clearRegion s r) d = memClear (viewOf s d) (r * 2 ^ 21) (r * 2 ^ 21 + 2 ^ 21) := by
  rw [viewOf, mem_clearRegion hr]
  simp [viewOf, vecGet, Vector.getD, hd]

/-- Every view and every home byte of a region that has been cleared is 0. -/
theorem bytes_clearRegion {d a : Nat} (hd : d < 4) (ha : a / 2 ^ 21 = r) :
    viewByte (clearRegion s r) d a = 0 ∧ homeByte (clearRegion s r) a = 0 := by
  have hlo : r * 2 ^ 21 ≤ a := by omega
  have hhi : a < r * 2 ^ 21 + 2 ^ 21 := by omega
  constructor
  · rw [viewByte, viewOf_clearRegion hr hd, memByte_memClear _ hlo hhi, ite_self]
  · rw [homeByte, mem_clearRegion hr, memByte_memClear _ hlo hhi, ite_self]
end

/-! ### Counters and bank errors (R332, R407) -/

theorem exec_counterClear {s : State} {off u : Nat} (hu : counterUnit off = some u) :
    exec (.counterClear off) s = .next (holdWrite s u off []) := by
  change Host.Outcome.next _ = _
  rw [hu]

theorem exec_counterClear_none {s : State} {off : Nat} (hu : counterUnit off = none) : exec (.counterClear off) s = .next s := by
  change Host.Outcome.next _ = _
  rw [hu]

theorem exec_berrClear {s : State} {n d : Nat} (hn : n < nStacks) (hd : d < 2048) (hc : ctlRuns s (5 + n) = true) :
    exec (.berrClear n d) s = .next { s with cave := { s.cave with berr := kvDel (n * 2048 + d) s.cave.berr } } := by
  change move s (if _ then _ else _) = _
  rw [if_pos (by simp [hn, hd, hc]), move, Option.getD_some]

/-- What the held writes of a unit make of the counters; the seen tokens that fall with a TOKLO (R363) are no counters. -/
theorem ctrs_applyHeld (s : State) (u : Nat) :
    (applyHeld s u).ctrs = clearCtrs (s.held.filter (·.unit == u)) s.ctrNow s.ctrs := by
  simp only [applyHeld]
  congr 1
  · exact foldl_keeps State.ctrNow (fun s t => by split <;> rfl) _ _
  · exact foldl_keeps State.ctrs (fun s t => by split <;> rfl) _ _

/-! ### The commit of a handler table (R344) -/

/-- The shadow bank of a stack core as the writes before its commit leave it, those still held too (log 99). -/
def shadowOf (s : State) (n c : Nat) : Memory := pfAfter s (uSk n c)

/-- Its enabled entries. -/
def shadowHands (s : State) (n c : Nat) : List HandEnt :=
  ((List.range 16).map fun h => readHand (shadowOf s n c) (shadowAt n c + 32 * h)).filter (·.on)

section
variable {s : State} {n c : Nat} (hn : n < nStacks) (hc : c < skPerStack)
include hn hc

theorem exec_htcommit_arms (ht : ∀ a ∈ shadowHands s n c, ∀ b ∈ shadowHands s n c, a.tenant = b.tenant)
    (hk : (handsOk n (shadowHands s n c) s).1 = true) :
    exec (.htcommit n c) s = .next (skUpd (handsOk n (shadowHands s n c) s).2 n c fun x =>
      { x with armed := some (memPutBytes .empty 0 (memBytes (shadowOf s n c) (shadowAt n c) 512)) }) := by
  have hone : (match shadowHands s n c with | [] => true | e :: r => r.all (·.tenant == e.tenant)) = true := by
    cases hes : shadowHands s n c with
    | nil => rfl
    | cons e r =>
      rw [hes] at ht
      simpa using fun x hx => ht x (List.mem_cons_of_mem _ hx) e (List.mem_cons_self ..)
  rw [exec_htcommit, htcommitS, if_neg (by simp [hn, hc])]
  exact congrArg (move s) (if_pos (Bool.and_eq_true_iff.2 ⟨hone, hk⟩))

theorem exec_htcommit_refuses (hk : (handsOk n (shadowHands s n c) s).1 = false) :
    exec (.htcommit n c) s = .next { (handsOk n (shadowHands s n c) s).2 with
      out := (handsOk n (shadowHands s n c) s).2.out ++ [.refusedCommit n c] } := by
  rw [exec_htcommit, htcommitS, if_neg (by simp [hn, hc])]
  exact congrArg (move s) (if_neg fun h => Bool.false_ne_true (hk.symm.trans (Bool.and_eq_true_iff.1 h).2))
end

/-! ### Updates and hand-over (R399 to R401) -/

theorem ctlGet_ctlUpd_same (s : State) {k : Nat} (hk : k < 21) (f : Ctl → Ctl) : ctlGet (ctlUpd s k f) k = f (ctlGet s k) := by
  simp [ctlGet, ctlUpd, vecGet, vecUpd, Vector.getD, hk]

/-- An image that arms keeps its record in the version given, has no copy of it and no held output left (logs 68, 102). -/
theorem ctlGet_armS (s : State) {k : Nat} (hk : k < 21) (v : Nat) :
    ctlGet (armS s k v) k = { ctlGet s k with
      armed := true, busy := false, phase := .armed, wdog := 0, fed := 0, misses := 0, recVersion := v
      record := recordOf s k v, copy := none, commit := [] } :=
  ctlGet_ctlUpd_same s hk _

section
variable {s : State} {k : Nat} (hk : k < 21)
include hk

theorem exec_updctl_of_busy (hb : (ctlGet s k).busy = true) :
    exec (.updctl k 1) s = .next (ctlUpd s k fun c => { c with refused := true }) := by
  simp [exec_updctl, updctlS, Nat.not_le.2 hk, hb]

theorem exec_updctl_refuses (hb : (ctlGet s k).busy = false) (hi : (stagedImage s (ctlGet s k)).1.bind (acceptImage k) = none) :
    exec (.updctl k 1) s = .next (ctlUpd (stagedImage s (ctlGet s k)).2 k fun c => { c with refused := true }) := by
  simp [exec_updctl, updctlS, Nat.not_le.2 hk, hb, hi]

theorem exec_updctl_takes {i : Image} (hb : (ctlGet s k).busy = false)
    (hi : (stagedImage s (ctlGet s k)).1.bind (acceptImage k) = some i) :
    exec (.updctl k 1) s = .next (ctlUpd (stagedImage s (ctlGet s k)).2 k fun c =>
      { putImage c i with busy := true, refused := false, rolled := false }) := by
  simp [exec_updctl, updctlS, Nat.not_le.2 hk, hb, hi]

theorem exec_handoverStop_stops (hb : (ctlGet s k).busy = true) (hp : (ctlGet s k).phase = .armed) :
    exec (.handoverStop k) s = .next (ctlUpd s k fun c => { c with phase := .stopping, record := recordOf s k c.recVersion }) := by
  simp [exec_handoverStop, handoverS, Nat.not_le.2 hk, hb, hp]

/-! ### Watchdogs (R402) -/

theorem exec_wdogWrite_feeds (hp : (ctlGet s k).phase ≠ .stopping) (ha : (ctlGet s k).armed = true) :
    exec (.wdogWrite k) s = .next (ctlUpd s k fun c => { c with wdog := 0, fed := 0, misses := 0 }) := by
  simp [exec_wdogWrite, wdogS, Nat.not_le.2 hk, hp, ha]

/-- The shipped image, which holds nothing in the model, arms with the record's own version. -/
theorem exec_wdogWrite_arms_shipped (hp : (ctlGet s k).phase ≠ .stopping) (ha : (ctlGet s k).armed = false)
    (hi : activeImage (ctlGet s k) = none) : exec (.wdogWrite k) s = .next (armS s k (ctlGet s k).recVersion) := by
  have hr : readsRecord (ctlGet s k) = true := by simp [readsRecord, hi]
  simp [exec_wdogWrite, wdogS, Nat.not_le.2 hk, hp, ha, hi, hr]

/-- Any other arms with a version of its own choice among those it reads. -/
theorem exec_wdogWrite_arms {i : Image} (hp : (ctlGet s k).phase ≠ .stopping) (ha : (ctlGet s k).armed = false)
    (hi : activeImage (ctlGet s k) = some i) (hr : readsRecord (ctlGet s k) = true) :
    exec (.wdogWrite k) s = .next (armS (choose (i.hohi + 1 - i.holo) s).2 k (i.holo + (choose (i.hohi + 1 - i.holo) s).1)) := by
  simp [exec_wdogWrite, wdogS, Nat.not_le.2 hk, hp, ha, hi, hr]

section
variable (hd : wdogDue s k = true)
include hd

/-- An image that has not armed in time gives way to the one before it. -/
theorem exec_watchdogExpiry_rollsBack (ha : (ctlGet s k).armed = false) :
    exec (.watchdogExpiry k) s = .next (ctlUpd s k fun c => { c with
      active := !c.active, armed := true, busy := false, rolled := true, phase := .armed, fed := 0, misses := 0
      copy := none, commit := [] }) := by
  simp [exec_watchdogExpiry, expiryS, Nat.not_le.2 hk, hd, ha]

theorem exec_watchdogExpiry_restarts (ha : (ctlGet s k).armed = true) (hm : (ctlGet s k).misses = 0) :
    exec (.watchdogExpiry k) s = .next (ctlUpd s k fun c => { c with restart := true, misses := 1, fed := 0 }) := by
  simp [exec_watchdogExpiry, expiryS, Nat.not_le.2 hk, hd, ha, hm]

theorem exec_watchdogExpiry_fails (ha : (ctlGet s k).armed = true) (hm : (ctlGet s k).misses ≠ 0) :
    exec (.watchdogExpiry k) s = .next (setFail (ctlUpd s k fun c => { c with misses := 2 }) (ctlBit k)) := by
  simp [exec_watchdogExpiry, expiryS, Nat.not_le.2 hk, hd, ha, hm]
end
end

/-! ### Attestation, path monitors and reset (R393, R400, R408) -/

theorem exec_attestationRequest_reports {s : State} (hr : s.fready.getLsbD 0 = true) (hf : s.ffail.getLsbD 0 = false)
    (nonce : List Byte) :
    let b := nonce ++ (List.range 21).flatMap fun k => reportOf (ctlGet s k)
    exec (.attestationRequest nonce) s = .next { s with out := s.out ++ [.report (b ++ Config.reportSignatures b)] } := by
  simp only [exec_attestationRequest, attestS, hr, hf, Bool.not_true, Bool.or_self, Bool.false_eq_true, if_false, Option.getD_some]

section
variable {s : State} {d : Nat} (hd : d < nDies) (hc : ctlRuns s 4 = true) (hf : unitFailed s 4 = false)
include hd hc hf

theorem exec_pathMonitorRead_raisesSupply (hv : vecGet s.supply 0 d < 10) :
    exec (.pathMonitorRead d true) s = .next { s with supply := vecUpd s.supply 0 d (· + 1) } := by
  simp [exec_pathMonitorRead, pathS, Nat.not_le.2 hd, hc, hf, hv]

/-- With all ten supply steps taken the clock slows. -/
theorem exec_pathMonitorRead_slowsClock (hv : 10 ≤ vecGet s.supply 0 d) (hk : 2000 < vecGet s.clock 0 d) :
    exec (.pathMonitorRead d true) s = .next
      { s with clock := vecUpd s.clock 0 d (fun f => max 2000 (f - 50)), out := s.out ++ [.slowStep d] } := by
  simp [exec_pathMonitorRead, pathS, Nat.not_le.2 hd, hc, hf, Nat.not_lt.2 hv, hk]
end

theorem exec_unitReady (k : Nat) (s : State) :
    exec (.unitReady k) s = .next (if readyOk s k then { s with fready := s.fready ||| (1#32 <<< k) } else s) := rfl

/-- Device reset, as the state it leaves (log 70). -/
def resetOf (s : State) : State :=
  { State.reset with
    agenda := s.agenda, moveCtr := s.moveCtr, rnd := s.rnd, nid := s.nid, devno := s.devno
    ctls := s.ctls.map fun c => { Ctl.reset with bankA := c.bankA, bankB := c.bankB, active := c.active } }

theorem exec_deviceReset (s : State) : exec .deviceReset s = .next (resetOf s) := rfl

/-- Of each controller the banks are kept, and which of them is active. -/
theorem ctlGet_resetOf (s : State) {k : Nat} (hk : k < 21) : ctlGet (resetOf s) k =
    { Ctl.reset with bankA := (ctlGet s k).bankA, bankB := (ctlGet s k).bankB, active := (ctlGet s k).active } := by
  simp [ctlGet, resetOf, vecGet, Vector.getD, hk]

/-! ### The statements -/

/-- Settles O52: a scrub that finds errors is `rowErrors`, which counts, scores and retires its row; a cleared region reads as 0 by
`bytes_clearRegion`; and each other move is its own lemma where its premises hold. -/
theorem serviceCompletes : Obligations.ServiceCompletes := by
  unfold Obligations.ServiceCompletes
  intro s n row off k d j hot h nonce
  refine ⟨fun hn hrow hup hok hrun => ?_, fun hr => ⟨clearRegion s n, exec_regionClear hr, by rw [mem_clearRegion hr],
      fun e a he ha => bytes_clearRegion hr he ha⟩,
    fun u hu => ⟨exec_counterClear hu, ctrs_applyHeld s u⟩, exec_counterClear_none, exec_berrClear,
    fun hn hd => ⟨fun ⟨ht, hk⟩ => exec_htcommit_arms hn hd ht hk, exec_htcommit_refuses hn hd⟩, fun hk => ?_,
    fun hr hf => exec_attestationRequest_reports hr hf nonce,
    fun hd hc hf => ⟨exec_pathMonitorRead_raisesSupply hd hc hf, exec_pathMonitorRead_slowsClock hd hc hf⟩,
    fun hk => ?_, fun hk => ?_, resetOf s, exec_deviceReset s, rfl, rfl, rfl, rfl, rfl, rfl, rfl, rfl, rfl, fun hk => ?_⟩
  · have hs : Scrubs s n row := ⟨hn, hrow, hup, hok, hrun⟩
    refine ⟨fun hl => ?_, fun hl => ⟨fun hj h8 => ?_, fun hj h8 => ?_, fun hc => ?_, fun hc => ?_⟩⟩
    · have hnone := find?_row_eq_none hl
      exact ⟨fun hj => by rw [exec_scrubRow_unlisted hs hnone, if_pos hj, rowErrors_unlisted hnone],
        by rw [exec_scrubRow_unlisted hs hnone, if_neg (Nat.lt_irrefl 0)]⟩
    · rw [exec_scrub_error hs hl hj, rowErrors_listed hl, if_pos h8]
    · rw [exec_scrub_error hs hl hj, rowErrors_listed hl, if_neg (Nat.not_le.2 h8), if_pos rfl]
    · rw [exec_scrub_clean hs hl, if_pos hc]
    · rw [exec_scrub_clean hs hl, if_neg (Nat.not_le.2 hc)]
  · refine ⟨exec_updctl_of_busy hk, ⟨exec_updctl_refuses hk, fun i => exec_updctl_takes hk⟩, exec_handoverStop_stops hk,
      fun hp => ⟨exec_wdogWrite_feeds hk hp, exec_wdogWrite_arms_shipped hk hp, fun i => exec_wdogWrite_arms hk hp⟩, fun v => ?_,
      fun hd => ⟨exec_watchdogExpiry_rollsBack hk hd, exec_watchdogExpiry_restarts hk hd, exec_watchdogExpiry_fails hk hd⟩⟩
    simp only [ctlGet_armS s hk v, true_and]
    rfl
  · rw [exec_unitReady, if_pos hk]
  · rw [exec_unitReady, if_neg (by simp [hk])]
  · simp only [ctlGet_resetOf s hk, true_and]

/-- Settles O59: at reset HBM and each die's view list nothing. -/
theorem memoryFormAtReset : Obligations.MemoryFormAtReset := by
  unfold Obligations.MemoryFormAtReset
  have hview (d : Nat) : viewOf State.reset d = .empty := vecGet_replicate 4 _ d
  exact ⟨wf_empty, fun d _ => by rw [hview, wf_empty]⟩

end Sys2Proof.Machine
end
